-- ==== Sys2Proof/Word.lean ====
section
/-! DEFINITION. The word types of the hardware and their plainest arithmetic (00_scope.md R6, R8). -/
namespace Sys2Proof

/-- A 32-bit register or address (R6). -/
abbrev Word := BitVec 32

/-- A 16-bit value: a halfword, a Thumb opcode. -/
abbrev Half := BitVec 16

/-- An 8-bit value, the unit of memory. -/
abbrev Byte := BitVec 8

/-- A count of device cycles (10_state.md R37, R42). -/
abbrev Cycles := BitVec 64

/-- A 4-bit register number. -/
abbrev Reg := BitVec 4

/-- A 3-bit register number of the Thumb formats: `r0` to `r7`. -/
abbrev LowReg := BitVec 3

/-- The two cores of the hardware (R1, R2). The tag of a core is the core itself. -/
inductive CoreId where
  | arm9 | arm7
  deriving DecidableEq, Repr

/-- The other core (glossary of 00_scope.md). -/
def CoreId.peer : CoreId → CoreId
  | .arm9 => .arm7
  | .arm7 => .arm9

/-- The four shift types, in the order of their field values (30_encoding.md R129). -/
inductive ShiftType where
  | lsl | lsr | asr | ror
  deriving DecidableEq, Repr

/-- The conditions `0b0000` to `0b1110` (30_encoding.md R123). The NV space `0b1111` has constructors
of its own in `Instr`. -/
inductive Cond where
  | eq | ne | cs | cc | mi | pl | vs | vc | hi | ls | ge | lt | gt | le | al
  deriving DecidableEq, Repr

/-- The width of a bus access (20_memory.md R70). -/
inductive Width where
  | byte | half | word
  deriving DecidableEq, Repr

/-- The number of bytes an access moves (R70). -/
def Width.bytes : Width → Nat
  | .byte => 1
  | .half => 2
  | .word => 4

/-- Whether a bus read is an instruction fetch or a data access (20_memory.md R72). -/
inductive AccessKind where
  | fetch | data
  deriving DecidableEq, Repr

end Sys2Proof
end

