-- ==== Sys2Proof/Config.lean ====
section
/-! DEFINITION. What one implementation fixes, and the free values (00_scope.md R7). -/
namespace Sys2Proof.Config

/-- The free values: the `n`-th draw (93_implementation_defined.md U2; log 21). It has no body, so no
proof can know a value. State counts the draws. -/
opaque freeWord : Nat → Word

/-- `SwramMap(c, a)` (20_memory.md R81, OPEN): the offset in shared WRAM of address `a` of core `c`, or
`none` where the external WRAM control leaves the address unmapped (log 7). -/
opaque swramMap : CoreId → Word → Option Nat

/-- `V_reset` (00_scope.md R7, OPEN): DESIGN CHOICE 1, unsafe (log 2). -/
def vReset : Bool := true

/-- `ResetGPR` (00_scope.md R7, OPEN): DESIGN CHOICE 0, unsafe (log 1). -/
def resetGpr : Word := 0

/-- What a byte of memory that nothing has written reads as: DESIGN CHOICE 0, unsafe (log 3). -/
def freshByte : Byte := 0

/-- `CYCLES_PER_INSN` (70_reset_and_hazards.md R620; log 24). -/
def cyclesPerInsn : Cycles := 1

/-- `CopTable(c)` (46_branch_misc.md R394): is coprocessor `cp` present on core `c`? -/
def copTable : CoreId → BitVec 4 → Bool
  | .arm9, cp => cp = 15
  | .arm7, _ => false

/-- The size of an ARM9 boot image (20_memory.md R81). -/
def bootRom9Size : Nat := 8192

/-- The size of an ARM7 boot image (20_memory.md R81). -/
def bootRom7Size : Nat := 16384

/-- The depth of an IPC queue (00_scope.md R6). -/
def fifoDepth : Nat := 16

/-- The least length of an attached ROM whose header view can be read (70_reset_and_hazards.md R603,
log 30). -/
def headerSize : Nat := 512

end Sys2Proof.Config
end

