-- ==== Sys2Proof/Syntax.lean ====
section
/-! DEFINITION. The instructions: one constructor for each of the 199 rows of opcode_table.json, in the
table's order (30_encoding.md R125, R151, R167). An ARM instruction carries its condition, except those
of the NV space. Fields that the hardware ignores (R122) are not carried. -/
namespace Sys2Proof

inductive Instr where
  /-- AND, operand 2 a register shifted by an immediate (41_data_processing.md R220). -/
  | andShiftImm (cond : Cond) (S : Bool) (rn rd : Reg) (imm5 : BitVec 5) (ty : ShiftType) (rm : Reg)
  /-- AND, operand 2 a register shifted by a register (R220). -/
  | andShiftReg (cond : Cond) (S : Bool) (rn rd rs : Reg) (ty : ShiftType) (rm : Reg)
  /-- AND, operand 2 a rotated immediate (R220). -/
  | andImm (cond : Cond) (S : Bool) (rn rd : Reg) (rot4 : BitVec 4) (imm8 : BitVec 8)
  /-- EOR, operand 2 a register shifted by an immediate (41_data_processing.md R221). -/
  | eorShiftImm (cond : Cond) (S : Bool) (rn rd : Reg) (imm5 : BitVec 5) (ty : ShiftType) (rm : Reg)
  /-- EOR, operand 2 a register shifted by a register (R221). -/
  | eorShiftReg (cond : Cond) (S : Bool) (rn rd rs : Reg) (ty : ShiftType) (rm : Reg)
  /-- EOR, operand 2 a rotated immediate (R221). -/
  | eorImm (cond : Cond) (S : Bool) (rn rd : Reg) (rot4 : BitVec 4) (imm8 : BitVec 8)
  /-- SUB, operand 2 a register shifted by an immediate (41_data_processing.md R222). -/
  | subShiftImm (cond : Cond) (S : Bool) (rn rd : Reg) (imm5 : BitVec 5) (ty : ShiftType) (rm : Reg)
  /-- SUB, operand 2 a register shifted by a register (R222). -/
  | subShiftReg (cond : Cond) (S : Bool) (rn rd rs : Reg) (ty : ShiftType) (rm : Reg)
  /-- SUB, operand 2 a rotated immediate (R222). -/
  | subImm (cond : Cond) (S : Bool) (rn rd : Reg) (rot4 : BitVec 4) (imm8 : BitVec 8)
  /-- RSB, operand 2 a register shifted by an immediate (41_data_processing.md R223). -/
  | rsbShiftImm (cond : Cond) (S : Bool) (rn rd : Reg) (imm5 : BitVec 5) (ty : ShiftType) (rm : Reg)
  /-- RSB, operand 2 a register shifted by a register (R223). -/
  | rsbShiftReg (cond : Cond) (S : Bool) (rn rd rs : Reg) (ty : ShiftType) (rm : Reg)
  /-- RSB, operand 2 a rotated immediate (R223). -/
  | rsbImm (cond : Cond) (S : Bool) (rn rd : Reg) (rot4 : BitVec 4) (imm8 : BitVec 8)
  /-- ADD, operand 2 a register shifted by an immediate (41_data_processing.md R224). -/
  | addShiftImm (cond : Cond) (S : Bool) (rn rd : Reg) (imm5 : BitVec 5) (ty : ShiftType) (rm : Reg)
  /-- ADD, operand 2 a register shifted by a register (R224). -/
  | addShiftReg (cond : Cond) (S : Bool) (rn rd rs : Reg) (ty : ShiftType) (rm : Reg)
  /-- ADD, operand 2 a rotated immediate (R224). -/
  | addImm (cond : Cond) (S : Bool) (rn rd : Reg) (rot4 : BitVec 4) (imm8 : BitVec 8)
  /-- ADC, operand 2 a register shifted by an immediate (41_data_processing.md R225). -/
  | adcShiftImm (cond : Cond) (S : Bool) (rn rd : Reg) (imm5 : BitVec 5) (ty : ShiftType) (rm : Reg)
  /-- ADC, operand 2 a register shifted by a register (R225). -/
  | adcShiftReg (cond : Cond) (S : Bool) (rn rd rs : Reg) (ty : ShiftType) (rm : Reg)
  /-- ADC, operand 2 a rotated immediate (R225). -/
  | adcImm (cond : Cond) (S : Bool) (rn rd : Reg) (rot4 : BitVec 4) (imm8 : BitVec 8)
  /-- SBC, operand 2 a register shifted by an immediate (41_data_processing.md R226). -/
  | sbcShiftImm (cond : Cond) (S : Bool) (rn rd : Reg) (imm5 : BitVec 5) (ty : ShiftType) (rm : Reg)
  /-- SBC, operand 2 a register shifted by a register (R226). -/
  | sbcShiftReg (cond : Cond) (S : Bool) (rn rd rs : Reg) (ty : ShiftType) (rm : Reg)
  /-- SBC, operand 2 a rotated immediate (R226). -/
  | sbcImm (cond : Cond) (S : Bool) (rn rd : Reg) (rot4 : BitVec 4) (imm8 : BitVec 8)
  /-- RSC, operand 2 a register shifted by an immediate (41_data_processing.md R227). -/
  | rscShiftImm (cond : Cond) (S : Bool) (rn rd : Reg) (imm5 : BitVec 5) (ty : ShiftType) (rm : Reg)
  /-- RSC, operand 2 a register shifted by a register (R227). -/
  | rscShiftReg (cond : Cond) (S : Bool) (rn rd rs : Reg) (ty : ShiftType) (rm : Reg)
  /-- RSC, operand 2 a rotated immediate (R227). -/
  | rscImm (cond : Cond) (S : Bool) (rn rd : Reg) (rot4 : BitVec 4) (imm8 : BitVec 8)
  /-- TST, operand 2 a register shifted by an immediate (41_data_processing.md R228). -/
  | tstShiftImm (cond : Cond) (rn rd : Reg) (imm5 : BitVec 5) (ty : ShiftType) (rm : Reg)
  /-- TST, operand 2 a register shifted by a register (R228). -/
  | tstShiftReg (cond : Cond) (rn rd rs : Reg) (ty : ShiftType) (rm : Reg)
  /-- TST, operand 2 a rotated immediate (R228). -/
  | tstImm (cond : Cond) (rn rd : Reg) (rot4 : BitVec 4) (imm8 : BitVec 8)
  /-- TEQ, operand 2 a register shifted by an immediate (41_data_processing.md R229). -/
  | teqShiftImm (cond : Cond) (rn rd : Reg) (imm5 : BitVec 5) (ty : ShiftType) (rm : Reg)
  /-- TEQ, operand 2 a register shifted by a register (R229). -/
  | teqShiftReg (cond : Cond) (rn rd rs : Reg) (ty : ShiftType) (rm : Reg)
  /-- TEQ, operand 2 a rotated immediate (R229). -/
  | teqImm (cond : Cond) (rn rd : Reg) (rot4 : BitVec 4) (imm8 : BitVec 8)
  /-- CMP, operand 2 a register shifted by an immediate (41_data_processing.md R230). -/
  | cmpShiftImm (cond : Cond) (rn rd : Reg) (imm5 : BitVec 5) (ty : ShiftType) (rm : Reg)
  /-- CMP, operand 2 a register shifted by a register (R230). -/
  | cmpShiftReg (cond : Cond) (rn rd rs : Reg) (ty : ShiftType) (rm : Reg)
  /-- CMP, operand 2 a rotated immediate (R230). -/
  | cmpImm (cond : Cond) (rn rd : Reg) (rot4 : BitVec 4) (imm8 : BitVec 8)
  /-- CMN, operand 2 a register shifted by an immediate (41_data_processing.md R231). -/
  | cmnShiftImm (cond : Cond) (rn rd : Reg) (imm5 : BitVec 5) (ty : ShiftType) (rm : Reg)
  /-- CMN, operand 2 a register shifted by a register (R231). -/
  | cmnShiftReg (cond : Cond) (rn rd rs : Reg) (ty : ShiftType) (rm : Reg)
  /-- CMN, operand 2 a rotated immediate (R231). -/
  | cmnImm (cond : Cond) (rn rd : Reg) (rot4 : BitVec 4) (imm8 : BitVec 8)
  /-- ORR, operand 2 a register shifted by an immediate (41_data_processing.md R232). -/
  | orrShiftImm (cond : Cond) (S : Bool) (rn rd : Reg) (imm5 : BitVec 5) (ty : ShiftType) (rm : Reg)
  /-- ORR, operand 2 a register shifted by a register (R232). -/
  | orrShiftReg (cond : Cond) (S : Bool) (rn rd rs : Reg) (ty : ShiftType) (rm : Reg)
  /-- ORR, operand 2 a rotated immediate (R232). -/
  | orrImm (cond : Cond) (S : Bool) (rn rd : Reg) (rot4 : BitVec 4) (imm8 : BitVec 8)
  /-- MOV, operand 2 a register shifted by an immediate (41_data_processing.md R233). -/
  | movShiftImm (cond : Cond) (S : Bool) (rd : Reg) (imm5 : BitVec 5) (ty : ShiftType) (rm : Reg)
  /-- MOV, operand 2 a register shifted by a register (R233). -/
  | movShiftReg (cond : Cond) (S : Bool) (rd rs : Reg) (ty : ShiftType) (rm : Reg)
  /-- MOV, operand 2 a rotated immediate (R233). -/
  | movImm (cond : Cond) (S : Bool) (rd : Reg) (rot4 : BitVec 4) (imm8 : BitVec 8)
  /-- BIC, operand 2 a register shifted by an immediate (41_data_processing.md R234). -/
  | bicShiftImm (cond : Cond) (S : Bool) (rn rd : Reg) (imm5 : BitVec 5) (ty : ShiftType) (rm : Reg)
  /-- BIC, operand 2 a register shifted by a register (R234). -/
  | bicShiftReg (cond : Cond) (S : Bool) (rn rd rs : Reg) (ty : ShiftType) (rm : Reg)
  /-- BIC, operand 2 a rotated immediate (R234). -/
  | bicImm (cond : Cond) (S : Bool) (rn rd : Reg) (rot4 : BitVec 4) (imm8 : BitVec 8)
  /-- MVN, operand 2 a register shifted by an immediate (41_data_processing.md R235). -/
  | mvnShiftImm (cond : Cond) (S : Bool) (rd : Reg) (imm5 : BitVec 5) (ty : ShiftType) (rm : Reg)
  /-- MVN, operand 2 a register shifted by a register (R235). -/
  | mvnShiftReg (cond : Cond) (S : Bool) (rd rs : Reg) (ty : ShiftType) (rm : Reg)
  /-- MVN, operand 2 a rotated immediate (R235). -/
  | mvnImm (cond : Cond) (S : Bool) (rd : Reg) (rot4 : BitVec 4) (imm8 : BitVec 8)
  /-- MRS: status word to register (42_status_transfer.md R252); `R` selects SPSR. -/
  | mrs (cond : Cond) (R : Bool) (rd : Reg)
  /-- MSR, register form (R254). -/
  | msrReg (cond : Cond) (R : Bool) (mask : BitVec 4) (rm : Reg)
  /-- MSR, immediate form (R255); with `R` clear and an empty mask the word is a hint instead. -/
  | msrImm (cond : Cond) (R : Bool) (mask rot4 : BitVec 4) (imm8 : BitVec 8)
  /-- NOP, hint 0 (R257). -/
  | nop (cond : Cond)
  /-- WFI, hint 3 (R258). -/
  | wfi (cond : Cond)
  /-- MUL (43_multiply.md R272). -/
  | mul (cond : Cond) (S : Bool) (rd rs rm : Reg)
  /-- MLA (R273). -/
  | mla (cond : Cond) (S : Bool) (rd rn rs rm : Reg)
  /-- UMULL (R274). -/
  | umull (cond : Cond) (S : Bool) (rdHi rdLo rs rm : Reg)
  /-- UMLAL (R275). -/
  | umlal (cond : Cond) (S : Bool) (rdHi rdLo rs rm : Reg)
  /-- SMULL (R276). -/
  | smull (cond : Cond) (S : Bool) (rdHi rdLo rs rm : Reg)
  /-- SMLAL (R277). -/
  | smlal (cond : Cond) (S : Bool) (rdHi rdLo rs rm : Reg)
  /-- SMLAxy, ARM9 only (R280). -/
  | smlaXY (cond : Cond) (rd rn rs : Reg) (y x : Bool) (rm : Reg)
  /-- SMLAWy, ARM9 only (R281). -/
  | smlaWY (cond : Cond) (rd rn rs : Reg) (y : Bool) (rm : Reg)
  /-- SMULWy, ARM9 only (R282). -/
  | smulWY (cond : Cond) (rd rs : Reg) (y : Bool) (rm : Reg)
  /-- SMLALxy, ARM9 only (R283). -/
  | smlalXY (cond : Cond) (rdHi rdLo rs : Reg) (y x : Bool) (rm : Reg)
  /-- SMULxy, ARM9 only (R284). -/
  | smulXY (cond : Cond) (rd rs : Reg) (y x : Bool) (rm : Reg)
  /-- LDR, immediate offset (44_single_transfer.md R305). -/
  | ldrImm (cond : Cond) (P U W : Bool) (rn rd : Reg) (imm12 : BitVec 12)
  /-- LDR, shifted register offset (R305). -/
  | ldrReg (cond : Cond) (P U W : Bool) (rn rd : Reg) (imm5 : BitVec 5) (ty : ShiftType) (rm : Reg)
  /-- STR, immediate offset (44_single_transfer.md R306). -/
  | strImm (cond : Cond) (P U W : Bool) (rn rd : Reg) (imm12 : BitVec 12)
  /-- STR, shifted register offset (R306). -/
  | strReg (cond : Cond) (P U W : Bool) (rn rd : Reg) (imm5 : BitVec 5) (ty : ShiftType) (rm : Reg)
  /-- LDRB, immediate offset (44_single_transfer.md R307). -/
  | ldrbImm (cond : Cond) (P U W : Bool) (rn rd : Reg) (imm12 : BitVec 12)
  /-- LDRB, shifted register offset (R307). -/
  | ldrbReg (cond : Cond) (P U W : Bool) (rn rd : Reg) (imm5 : BitVec 5) (ty : ShiftType) (rm : Reg)
  /-- STRB, immediate offset (44_single_transfer.md R308). -/
  | strbImm (cond : Cond) (P U W : Bool) (rn rd : Reg) (imm12 : BitVec 12)
  /-- STRB, shifted register offset (R308). -/
  | strbReg (cond : Cond) (P U W : Bool) (rn rd : Reg) (imm5 : BitVec 5) (ty : ShiftType) (rm : Reg)
  /-- STRH, register offset (R316). -/
  | strhReg (cond : Cond) (P U W : Bool) (rn rd rm : Reg)
  /-- STRH, immediate offset (R316). -/
  | strhImm (cond : Cond) (P U W : Bool) (rn rd : Reg) (imm8 : BitVec 8)
  /-- LDRH, register offset (R315). -/
  | ldrhReg (cond : Cond) (P U W : Bool) (rn rd rm : Reg)
  /-- LDRH, immediate offset (R315). -/
  | ldrhImm (cond : Cond) (P U W : Bool) (rn rd : Reg) (imm8 : BitVec 8)
  /-- LDRSB, register offset (R317). -/
  | ldrsbReg (cond : Cond) (P U W : Bool) (rn rd rm : Reg)
  /-- LDRSB, immediate offset (R317). -/
  | ldrsbImm (cond : Cond) (P U W : Bool) (rn rd : Reg) (imm8 : BitVec 8)
  /-- LDRSH, register offset (R318). -/
  | ldrshReg (cond : Cond) (P U W : Bool) (rn rd rm : Reg)
  /-- LDRSH, immediate offset (R318). -/
  | ldrshImm (cond : Cond) (P U W : Bool) (rn rd : Reg) (imm8 : BitVec 8)
  /-- LDRD, register offset, ARM9 only (R320). -/
  | ldrdReg (cond : Cond) (P U W : Bool) (rn rd rm : Reg)
  /-- LDRD, immediate offset, ARM9 only (R320). -/
  | ldrdImm (cond : Cond) (P U W : Bool) (rn rd : Reg) (imm8 : BitVec 8)
  /-- STRD, register offset, ARM9 only (R321). -/
  | strdReg (cond : Cond) (P U W : Bool) (rn rd rm : Reg)
  /-- STRD, immediate offset, ARM9 only (R321). -/
  | strdImm (cond : Cond) (P U W : Bool) (rn rd : Reg) (imm8 : BitVec 8)
  /-- SWP (R330). -/
  | swp (cond : Cond) (rn rd rm : Reg)
  /-- SWPB (R331). -/
  | swpb (cond : Cond) (rn rd rm : Reg)
  /-- LDM (45_block_transfer.md R350). -/
  | ldm (cond : Cond) (P U S W : Bool) (rn : Reg) (list : BitVec 16)
  /-- STM (45_block_transfer.md R351). -/
  | stm (cond : Cond) (P U S W : Bool) (rn : Reg) (list : BitVec 16)
  /-- B (46_branch_misc.md R372). -/
  | b (cond : Cond) (imm24 : BitVec 24)
  /-- BL (R373). -/
  | bl (cond : Cond) (imm24 : BitVec 24)
  /-- BX (R376). -/
  | bx (cond : Cond) (rm : Reg)
  /-- BLX, register form, ARM9 only (R377). -/
  | blxReg (cond : Cond) (rm : Reg)
  /-- BLX, immediate form: the only instruction of the NV space (R378). -/
  | blxImm (H : Bool) (imm24 : BitVec 24)
  /-- CLZ, ARM9 only (R380). -/
  | clz (cond : Cond) (rd rm : Reg)
  /-- QADD, ARM9 only (R382). -/
  | qadd (cond : Cond) (rn rd rm : Reg)
  /-- QSUB, ARM9 only (R383). -/
  | qsub (cond : Cond) (rn rd rm : Reg)
  /-- QDADD, ARM9 only (R384). -/
  | qdadd (cond : Cond) (rn rd rm : Reg)
  /-- QDSUB, ARM9 only (R385). -/
  | qdsub (cond : Cond) (rn rd rm : Reg)
  /-- SWI (R390). -/
  | swi (cond : Cond) (imm24 : BitVec 24)
  /-- MCR, ARM9 only (R395). -/
  | mcr (cond : Cond) (opc1 : BitVec 3) (crn : BitVec 4) (rd : Reg) (cp : BitVec 4) (opc2 : BitVec 3) (crm : BitVec 4)
  /-- MRC, ARM9 only (R396). -/
  | mrc (cond : Cond) (opc1 : BitVec 3) (crn : BitVec 4) (rd : Reg) (cp : BitVec 4) (opc2 : BitVec 3) (crm : BitVec 4)
  /-- Every other hint number (30_encoding.md R142). -/
  | hintOther (cond : Cond) (imm8 : BitVec 8)
  /-- Undefined encodings bits 27:20 = 0000 01xx, bits 7:4 = 1001 (30_encoding.md R140). -/
  | undMultiply (cond : Cond)
  /-- Undefined encodings 0001 0xx1, 1001 (30_encoding.md R140). -/
  | undSwapLoad (cond : Cond)
  /-- Undefined encodings 0001 1xxx, 1001 (30_encoding.md R140). -/
  | undSwapWide (cond : Cond)
  /-- Undefined encodings 0001 0x10, 1001 (30_encoding.md R140). -/
  | undSwapOdd (cond : Cond)
  /-- Undefined encodings 0001 0x00, 00x1 (30_encoding.md R140). -/
  | undMiscBranch (cond : Cond)
  /-- Undefined encodings 0001 0110, 0011 (30_encoding.md R140). -/
  | undMiscClz (cond : Cond)
  /-- Undefined encodings 0001 0xx0, 0010 (30_encoding.md R140). -/
  | undMiscTwo (cond : Cond)
  /-- Undefined encodings 0001 0xx0, 01x0 (30_encoding.md R140). -/
  | undMiscFourSix (cond : Cond)
  /-- Undefined encodings 0001 0xx0, 0111, BKPT among them (30_encoding.md R140). -/
  | undMiscSeven (cond : Cond)
  /-- Undefined encodings 0011 0x00 (30_encoding.md R140). -/
  | undCompareImm (cond : Cond)
  /-- Undefined encodings 011x xxxx, xxx1 (30_encoding.md R140). -/
  | undMedia (cond : Cond)
  /-- Undefined encodings 110x xxxx: LDC, STC, MCRR, MRRC (30_encoding.md R140). -/
  | undCoprocTransfer (cond : Cond)
  /-- Undefined encodings 1110 xxxx, xxx0: CDP (30_encoding.md R140). -/
  | undCoprocOp (cond : Cond)
  /-- NV words with bit 27 clear (R124). -/
  | undNvLow
  /-- NV words with bits 27:26 = 11 (R124). -/
  | undNvCoproc
  /-- NV words with bits 27:25 = 100 (R124). -/
  | undNvBlock
  /-- Format 1 LSL (47_thumb_a.md R412). -/
  | tLslImm (imm5 : BitVec 5) (rs rd : LowReg)
  /-- Format 1 LSR (47_thumb_a.md R413). -/
  | tLsrImm (imm5 : BitVec 5) (rs rd : LowReg)
  /-- Format 1 ASR (47_thumb_a.md R414). -/
  | tAsrImm (imm5 : BitVec 5) (rs rd : LowReg)
  /-- Format 2 ADD (R416). -/
  | tAddReg (rn rs rd : LowReg)
  /-- Format 2 SUB (R417). -/
  | tSubReg (rn rs rd : LowReg)
  /-- Format 2 ADD with a 3-bit immediate (R418). -/
  | tAddImm3 (imm3 : BitVec 3) (rs rd : LowReg)
  /-- Format 2 SUB with a 3-bit immediate (R419). -/
  | tSubImm3 (imm3 : BitVec 3) (rs rd : LowReg)
  /-- Format 3 MOV (R421). -/
  | tMovImm (rd : LowReg) (imm8 : BitVec 8)
  /-- Format 3 CMP (R422). -/
  | tCmpImm (rd : LowReg) (imm8 : BitVec 8)
  /-- Format 3 ADD (R423). -/
  | tAddImm8 (rd : LowReg) (imm8 : BitVec 8)
  /-- Format 3 SUB (R424). -/
  | tSubImm8 (rd : LowReg) (imm8 : BitVec 8)
  /-- Format 4 AND (R426). -/
  | tAnd (rs rd : LowReg)
  /-- Format 4 EOR (R427). -/
  | tEor (rs rd : LowReg)
  /-- Format 4 LSL (R428). -/
  | tLslReg (rs rd : LowReg)
  /-- Format 4 LSR (R429). -/
  | tLsrReg (rs rd : LowReg)
  /-- Format 4 ASR (R430). -/
  | tAsrReg (rs rd : LowReg)
  /-- Format 4 ADC (R431). -/
  | tAdc (rs rd : LowReg)
  /-- Format 4 SBC (R432). -/
  | tSbc (rs rd : LowReg)
  /-- Format 4 ROR (R433). -/
  | tRor (rs rd : LowReg)
  /-- Format 4 TST (R434). -/
  | tTst (rs rd : LowReg)
  /-- Format 4 NEG (R435). -/
  | tNeg (rs rd : LowReg)
  /-- Format 4 CMP (R436). -/
  | tCmpReg (rs rd : LowReg)
  /-- Format 4 CMN (R437). -/
  | tCmn (rs rd : LowReg)
  /-- Format 4 ORR (R438). -/
  | tOrr (rs rd : LowReg)
  /-- Format 4 MUL (R439). -/
  | tMul (rs rd : LowReg)
  /-- Format 4 BIC (R440). -/
  | tBic (rs rd : LowReg)
  /-- Format 4 MVN (R441). -/
  | tMvn (rs rd : LowReg)
  /-- Format 5 ADD on high registers (R443). -/
  | tAddHi (rs rd : Reg)
  /-- Format 5 CMP on high registers (R444). -/
  | tCmpHi (rs rd : Reg)
  /-- Format 5 MOV on high registers (R445). -/
  | tMovHi (rs rd : Reg)
  /-- Format 5 BX (R446). -/
  | tBx (rs : Reg)
  /-- Format 5 BLX, ARM9 only (R447). -/
  | tBlxReg (rs : Reg)
  /-- Format 6, PC-relative LDR (R449). -/
  | tLdrPc (rd : LowReg) (imm8 : BitVec 8)
  /-- Format 7, register offset (R451). -/
  | tStrReg (ro rb rd : LowReg)
  /-- Format 7, register offset (R452). -/
  | tStrbReg (ro rb rd : LowReg)
  /-- Format 7, register offset (R453). -/
  | tLdrReg (ro rb rd : LowReg)
  /-- Format 7, register offset (R454). -/
  | tLdrbReg (ro rb rd : LowReg)
  /-- Format 8, register offset (R455). -/
  | tStrhReg (ro rb rd : LowReg)
  /-- Format 8, register offset (R456). -/
  | tLdsb (ro rb rd : LowReg)
  /-- Format 8, register offset (R457). -/
  | tLdrhReg (ro rb rd : LowReg)
  /-- Format 8, register offset (R458). -/
  | tLdsh (ro rb rd : LowReg)
  /-- Format 9, immediate offset (48_thumb_b.md R461). -/
  | tStrImm (imm5 : BitVec 5) (rb rd : LowReg)
  /-- Format 9, immediate offset (48_thumb_b.md R462). -/
  | tLdrImm (imm5 : BitVec 5) (rb rd : LowReg)
  /-- Format 9, immediate offset (48_thumb_b.md R463). -/
  | tStrbImm (imm5 : BitVec 5) (rb rd : LowReg)
  /-- Format 9, immediate offset (48_thumb_b.md R464). -/
  | tLdrbImm (imm5 : BitVec 5) (rb rd : LowReg)
  /-- Format 10, immediate offset (48_thumb_b.md R465). -/
  | tStrhImm (imm5 : BitVec 5) (rb rd : LowReg)
  /-- Format 10, immediate offset (48_thumb_b.md R466). -/
  | tLdrhImm (imm5 : BitVec 5) (rb rd : LowReg)
  /-- Format 11 (R467). -/
  | tStrSp (rd : LowReg) (imm8 : BitVec 8)
  /-- Format 11 (R468). -/
  | tLdrSp (rd : LowReg) (imm8 : BitVec 8)
  /-- Format 12 (R470). -/
  | tAddPc (rd : LowReg) (imm8 : BitVec 8)
  /-- Format 12 (R471). -/
  | tAddSp (rd : LowReg) (imm8 : BitVec 8)
  /-- Format 13, stack adjust (R472). -/
  | tAdjustSp (sub : Bool) (imm7 : BitVec 7)
  /-- Format 14 (R474); `r` adds `r14` or `r15`. -/
  | tPush (r : Bool) (list : BitVec 8)
  /-- Format 14 (R475); `r` adds `r14` or `r15`. -/
  | tPop (r : Bool) (list : BitVec 8)
  /-- Format 15 (R477). -/
  | tStmia (rb : LowReg) (list : BitVec 8)
  /-- Format 15 (R478). -/
  | tLdmia (rb : LowReg) (list : BitVec 8)
  /-- Format 16 BEQ (R480). -/
  | tBeq (imm8 : BitVec 8)
  /-- Format 16 BNE (R480). -/
  | tBne (imm8 : BitVec 8)
  /-- Format 16 BCS (R480). -/
  | tBcs (imm8 : BitVec 8)
  /-- Format 16 BCC (R480). -/
  | tBcc (imm8 : BitVec 8)
  /-- Format 16 BMI (R480). -/
  | tBmi (imm8 : BitVec 8)
  /-- Format 16 BPL (R480). -/
  | tBpl (imm8 : BitVec 8)
  /-- Format 16 BVS (R480). -/
  | tBvs (imm8 : BitVec 8)
  /-- Format 16 BVC (R480). -/
  | tBvc (imm8 : BitVec 8)
  /-- Format 16 BHI (R480). -/
  | tBhi (imm8 : BitVec 8)
  /-- Format 16 BLS (R480). -/
  | tBls (imm8 : BitVec 8)
  /-- Format 16 BGE (R480). -/
  | tBge (imm8 : BitVec 8)
  /-- Format 16 BLT (R480). -/
  | tBlt (imm8 : BitVec 8)
  /-- Format 16 BGT (R480). -/
  | tBgt (imm8 : BitVec 8)
  /-- Format 16 BLE (R480). -/
  | tBle (imm8 : BitVec 8)
  /-- Format 17 SWI (R482). -/
  | tSwi (imm8 : BitVec 8)
  /-- Format 18 B (R484). -/
  | tB (imm11 : BitVec 11)
  /-- Format 19, first half of BL (R492). -/
  | tBlFirst (imm11 : BitVec 11)
  /-- Format 19, second half of BL (R493). -/
  | tBlSecond (imm11 : BitVec 11)
  /-- Format 19, second half of BLX, ARM9 only (R494). -/
  | tBlxSecond (imm11 : BitVec 11)
  /-- Undefined Thumb encodings 0xB100 under 0xFF00 (30_encoding.md R153). -/
  | tUndB1
  /-- Undefined Thumb encodings 0xB200 under 0xFE00 (30_encoding.md R153). -/
  | tUndB2
  /-- Undefined Thumb encodings 0xB600 under 0xFE00 (30_encoding.md R153). -/
  | tUndB6
  /-- Undefined Thumb encodings 0xB800 under 0xFC00 (30_encoding.md R153). -/
  | tUndB8
  /-- Undefined Thumb encodings 0xBE00 under 0xFE00 (30_encoding.md R153). -/
  | tUndBE
  /-- Undefined Thumb encodings 0xDE00 under 0xFF00 (30_encoding.md R153). -/
  | tUndDE
  deriving DecidableEq, Repr

end Sys2Proof
end

