-- ==== Sys2Proof/WellFormed.lean ====
section
/-! DEFINITION. Which terms of `Instr` are instructions: those some word encodes. Two constructors have
fields whose values another row of the table takes (30_encoding.md R142). -/
namespace Sys2Proof

/-- MSR immediate to CPSR with an empty mask is a hint, not an MSR (R142). -/
def msrImmOk (R : Bool) (mask : BitVec 4) : Bool :=
  R || mask != 0

/-- The hint numbers 0 and 3 are NOP and WFI (R142). -/
def hintOtherOk (imm8 : BitVec 8) : Bool :=
  imm8 != 0 && imm8 != 3

/-- The instruction is one that a word encodes. -/
def Instr.wellFormed : Instr → Bool
  | .andShiftImm _ _ _ _ _ _ _ => true
  | .andShiftReg _ _ _ _ _ _ _ => true
  | .andImm _ _ _ _ _ _ => true
  | .eorShiftImm _ _ _ _ _ _ _ => true
  | .eorShiftReg _ _ _ _ _ _ _ => true
  | .eorImm _ _ _ _ _ _ => true
  | .subShiftImm _ _ _ _ _ _ _ => true
  | .subShiftReg _ _ _ _ _ _ _ => true
  | .subImm _ _ _ _ _ _ => true
  | .rsbShiftImm _ _ _ _ _ _ _ => true
  | .rsbShiftReg _ _ _ _ _ _ _ => true
  | .rsbImm _ _ _ _ _ _ => true
  | .addShiftImm _ _ _ _ _ _ _ => true
  | .addShiftReg _ _ _ _ _ _ _ => true
  | .addImm _ _ _ _ _ _ => true
  | .adcShiftImm _ _ _ _ _ _ _ => true
  | .adcShiftReg _ _ _ _ _ _ _ => true
  | .adcImm _ _ _ _ _ _ => true
  | .sbcShiftImm _ _ _ _ _ _ _ => true
  | .sbcShiftReg _ _ _ _ _ _ _ => true
  | .sbcImm _ _ _ _ _ _ => true
  | .rscShiftImm _ _ _ _ _ _ _ => true
  | .rscShiftReg _ _ _ _ _ _ _ => true
  | .rscImm _ _ _ _ _ _ => true
  | .tstShiftImm _ _ _ _ _ _ => true
  | .tstShiftReg _ _ _ _ _ _ => true
  | .tstImm _ _ _ _ _ => true
  | .teqShiftImm _ _ _ _ _ _ => true
  | .teqShiftReg _ _ _ _ _ _ => true
  | .teqImm _ _ _ _ _ => true
  | .cmpShiftImm _ _ _ _ _ _ => true
  | .cmpShiftReg _ _ _ _ _ _ => true
  | .cmpImm _ _ _ _ _ => true
  | .cmnShiftImm _ _ _ _ _ _ => true
  | .cmnShiftReg _ _ _ _ _ _ => true
  | .cmnImm _ _ _ _ _ => true
  | .orrShiftImm _ _ _ _ _ _ _ => true
  | .orrShiftReg _ _ _ _ _ _ _ => true
  | .orrImm _ _ _ _ _ _ => true
  | .movShiftImm _ _ _ _ _ _ => true
  | .movShiftReg _ _ _ _ _ _ => true
  | .movImm _ _ _ _ _ => true
  | .bicShiftImm _ _ _ _ _ _ _ => true
  | .bicShiftReg _ _ _ _ _ _ _ => true
  | .bicImm _ _ _ _ _ _ => true
  | .mvnShiftImm _ _ _ _ _ _ => true
  | .mvnShiftReg _ _ _ _ _ _ => true
  | .mvnImm _ _ _ _ _ => true
  | .mrs _ _ _ => true
  | .msrReg _ _ _ _ => true
  | .msrImm _ R mask _ _ => msrImmOk R mask
  | .nop _ => true
  | .wfi _ => true
  | .mul _ _ _ _ _ => true
  | .mla _ _ _ _ _ _ => true
  | .umull _ _ _ _ _ _ => true
  | .umlal _ _ _ _ _ _ => true
  | .smull _ _ _ _ _ _ => true
  | .smlal _ _ _ _ _ _ => true
  | .smlaXY _ _ _ _ _ _ _ => true
  | .smlaWY _ _ _ _ _ _ => true
  | .smulWY _ _ _ _ _ => true
  | .smlalXY _ _ _ _ _ _ _ => true
  | .smulXY _ _ _ _ _ _ => true
  | .ldrImm _ _ _ _ _ _ _ => true
  | .ldrReg _ _ _ _ _ _ _ _ _ => true
  | .strImm _ _ _ _ _ _ _ => true
  | .strReg _ _ _ _ _ _ _ _ _ => true
  | .ldrbImm _ _ _ _ _ _ _ => true
  | .ldrbReg _ _ _ _ _ _ _ _ _ => true
  | .strbImm _ _ _ _ _ _ _ => true
  | .strbReg _ _ _ _ _ _ _ _ _ => true
  | .strhReg _ _ _ _ _ _ _ => true
  | .strhImm _ _ _ _ _ _ _ => true
  | .ldrhReg _ _ _ _ _ _ _ => true
  | .ldrhImm _ _ _ _ _ _ _ => true
  | .ldrsbReg _ _ _ _ _ _ _ => true
  | .ldrsbImm _ _ _ _ _ _ _ => true
  | .ldrshReg _ _ _ _ _ _ _ => true
  | .ldrshImm _ _ _ _ _ _ _ => true
  | .ldrdReg _ _ _ _ _ _ _ => true
  | .ldrdImm _ _ _ _ _ _ _ => true
  | .strdReg _ _ _ _ _ _ _ => true
  | .strdImm _ _ _ _ _ _ _ => true
  | .swp _ _ _ _ => true
  | .swpb _ _ _ _ => true
  | .ldm _ _ _ _ _ _ _ => true
  | .stm _ _ _ _ _ _ _ => true
  | .b _ _ => true
  | .bl _ _ => true
  | .bx _ _ => true
  | .blxReg _ _ => true
  | .blxImm _ _ => true
  | .clz _ _ _ => true
  | .qadd _ _ _ _ => true
  | .qsub _ _ _ _ => true
  | .qdadd _ _ _ _ => true
  | .qdsub _ _ _ _ => true
  | .swi _ _ => true
  | .mcr _ _ _ _ _ _ _ => true
  | .mrc _ _ _ _ _ _ _ => true
  | .hintOther _ imm8 => hintOtherOk imm8
  | .undMultiply _ => true
  | .undSwapLoad _ => true
  | .undSwapWide _ => true
  | .undSwapOdd _ => true
  | .undMiscBranch _ => true
  | .undMiscClz _ => true
  | .undMiscTwo _ => true
  | .undMiscFourSix _ => true
  | .undMiscSeven _ => true
  | .undCompareImm _ => true
  | .undMedia _ => true
  | .undCoprocTransfer _ => true
  | .undCoprocOp _ => true
  | .undNvLow => true
  | .undNvCoproc => true
  | .undNvBlock => true
  | .tLslImm _ _ _ => true
  | .tLsrImm _ _ _ => true
  | .tAsrImm _ _ _ => true
  | .tAddReg _ _ _ => true
  | .tSubReg _ _ _ => true
  | .tAddImm3 _ _ _ => true
  | .tSubImm3 _ _ _ => true
  | .tMovImm _ _ => true
  | .tCmpImm _ _ => true
  | .tAddImm8 _ _ => true
  | .tSubImm8 _ _ => true
  | .tAnd _ _ => true
  | .tEor _ _ => true
  | .tLslReg _ _ => true
  | .tLsrReg _ _ => true
  | .tAsrReg _ _ => true
  | .tAdc _ _ => true
  | .tSbc _ _ => true
  | .tRor _ _ => true
  | .tTst _ _ => true
  | .tNeg _ _ => true
  | .tCmpReg _ _ => true
  | .tCmn _ _ => true
  | .tOrr _ _ => true
  | .tMul _ _ => true
  | .tBic _ _ => true
  | .tMvn _ _ => true
  | .tAddHi _ _ => true
  | .tCmpHi _ _ => true
  | .tMovHi _ _ => true
  | .tBx _ => true
  | .tBlxReg _ => true
  | .tLdrPc _ _ => true
  | .tStrReg _ _ _ => true
  | .tStrbReg _ _ _ => true
  | .tLdrReg _ _ _ => true
  | .tLdrbReg _ _ _ => true
  | .tStrhReg _ _ _ => true
  | .tLdsb _ _ _ => true
  | .tLdrhReg _ _ _ => true
  | .tLdsh _ _ _ => true
  | .tStrImm _ _ _ => true
  | .tLdrImm _ _ _ => true
  | .tStrbImm _ _ _ => true
  | .tLdrbImm _ _ _ => true
  | .tStrhImm _ _ _ => true
  | .tLdrhImm _ _ _ => true
  | .tStrSp _ _ => true
  | .tLdrSp _ _ => true
  | .tAddPc _ _ => true
  | .tAddSp _ _ => true
  | .tAdjustSp _ _ => true
  | .tPush _ _ => true
  | .tPop _ _ => true
  | .tStmia _ _ => true
  | .tLdmia _ _ => true
  | .tBeq _ => true
  | .tBne _ => true
  | .tBcs _ => true
  | .tBcc _ => true
  | .tBmi _ => true
  | .tBpl _ => true
  | .tBvs _ => true
  | .tBvc _ => true
  | .tBhi _ => true
  | .tBls _ => true
  | .tBge _ => true
  | .tBlt _ => true
  | .tBgt _ => true
  | .tBle _ => true
  | .tSwi _ => true
  | .tB _ => true
  | .tBlFirst _ => true
  | .tBlSecond _ => true
  | .tBlxSecond _ => true
  | .tUndB1 => true
  | .tUndB2 => true
  | .tUndB6 => true
  | .tUndB8 => true
  | .tUndBE => true
  | .tUndDE => true

end Sys2Proof
end

