-- ==== Sys2Proof/Decode.lean ====
section
/-! DEFINITION. Decoding and encoding (30_encoding.md). An ARM word is selected by `hi` = bits 27:20 and
`lo` = bits 7:4 alone (R121, R122), a Thumb word by bits 15:6 alone (R150): each row of opcode_table.json
is one row here, with the table's row number. Decoding does not depend on the core: what exists on the
ARM9 core only is checked by its meaning (R141). -/
namespace Sys2Proof

/-- One bit as a bit vector. -/
abbrev bit (b : Bool) : BitVec 1 := BitVec.ofBool b

/-- The field value of a condition (R123). -/
def Cond.bits : Cond → BitVec 4
  | .eq => 0 | .ne => 1 | .cs => 2 | .cc => 3 | .mi => 4 | .pl => 5 | .vs => 6 | .vc => 7
  | .hi => 8 | .ls => 9 | .ge => 10 | .lt => 11 | .gt => 12 | .le => 13 | .al => 14

/-- The condition of a field value; `none` is the NV space (R123). -/
def Cond.ofBits (c : BitVec 4) : Option Cond :=
  match c.toNat with
  | 0 => some .eq | 1 => some .ne | 2 => some .cs | 3 => some .cc | 4 => some .mi
  | 5 => some .pl | 6 => some .vs | 7 => some .vc | 8 => some .hi | 9 => some .ls
  | 10 => some .ge | 11 => some .lt | 12 => some .gt | 13 => some .le | 14 => some .al
  | _ => none

/-- The field value of a shift type (R129). -/
def ShiftType.bits : ShiftType → BitVec 2
  | .lsl => 0 | .lsr => 1 | .asr => 2 | .ror => 3

/-- The shift type of a field value (R129). -/
def ShiftType.ofBits (t : BitVec 2) : ShiftType :=
  match t.toNat with
  | 0 => .lsl | 1 => .lsr | 2 => .asr | _ => .ror

/-- The fields every ARM word is cut into: `hi` and `lo` select the instruction (R121). -/
structure ArmFields where
  /-- bits 31:28 -/
  cond : BitVec 4
  /-- bits 27:20 -/
  hi : BitVec 8
  /-- bits 19:16 -/
  f19 : BitVec 4
  /-- bits 15:12 -/
  f15 : BitVec 4
  /-- bits 11:8 -/
  f11 : BitVec 4
  /-- bits 7:4 -/
  lo : BitVec 4
  /-- bits 3:0 -/
  f3 : BitVec 4
  deriving DecidableEq, Repr

/-- Cut a word into its fields. -/
def ArmFields.ofWord (w : Word) : ArmFields :=
  { cond := w.extractLsb' 28 4, hi := w.extractLsb' 20 8, f19 := w.extractLsb' 16 4,
    f15 := w.extractLsb' 12 4, f11 := w.extractLsb' 8 4, lo := w.extractLsb' 4 4,
    f3 := w.extractLsb' 0 4 }

/-- Join the fields to a word. -/
def ArmFields.toWord (f : ArmFields) : Word :=
  f.cond ++ f.hi ++ f.f19 ++ f.f15 ++ f.f11 ++ f.lo ++ f.f3

/-- The fields every Thumb word is cut into: `top` selects the instruction (R150). -/
structure ThumbFields where
  /-- bits 15:6 -/
  top : BitVec 10
  /-- bits 5:3 -/
  f5 : BitVec 3
  /-- bits 2:0 -/
  f2 : BitVec 3
  deriving DecidableEq, Repr

/-- Cut a halfword into its fields. -/
def ThumbFields.ofHalf (h : Half) : ThumbFields :=
  { top := h.extractLsb' 6 10, f5 := h.extractLsb' 3 3, f2 := h.extractLsb' 0 3 }

/-- Join the fields to a halfword. -/
def ThumbFields.toHalf (f : ThumbFields) : Half :=
  f.top ++ f.f5 ++ f.f2

/-- A row of the ARM map: masks and matches over `hi` and `lo` (R125, R140), and what it builds. -/
structure ArmRow where
  /-- the row of opcode_table.json -/
  row : Nat
  hiMask : BitVec 8
  hiMatch : BitVec 8
  loMask : BitVec 4
  loMatch : BitVec 4
  build : Cond → ArmFields → Instr

/-- Does the row select the index `(hi, lo)`? -/
def ArmRow.selects (r : ArmRow) (hi : BitVec 8) (lo : BitVec 4) : Bool :=
  hi &&& r.hiMask == r.hiMatch && lo &&& r.loMask == r.loMatch

/-- A row of the NV space, selected by `hi` alone (R124). -/
structure NvRow where
  /-- the row of opcode_table.json -/
  row : Nat
  hiMask : BitVec 8
  hiMatch : BitVec 8
  build : ArmFields → Instr

/-- Does the row select `hi`? -/
def NvRow.selects (r : NvRow) (hi : BitVec 8) : Bool :=
  hi &&& r.hiMask == r.hiMatch

/-- A row of the Thumb map: mask and match over bits 15:6 (R151, R153). -/
structure ThumbRow where
  /-- the row of opcode_table.json -/
  row : Nat
  mask : BitVec 10
  bits : BitVec 10
  build : ThumbFields → Instr

/-- Does the row select the index `top`? -/
def ThumbRow.selects (r : ThumbRow) (top : BitVec 10) : Bool :=
  top &&& r.mask == r.bits

/-- MSR immediate, which a clear `R` with an empty mask turns into a hint (R142): rows 50 to 52 and 101. -/
def buildMsrImm (c : Cond) (f : ArmFields) : Instr :=
  let imm8 : BitVec 8 := f.lo ++ f.f3
  if f.hi.getLsbD 2 = false ∧ f.f19 = 0 then
    if imm8 = 0 then .nop c
    else if imm8 = 3 then .wfi c
    else .hintOther c imm8
  else .msrImm c (f.hi.getLsbD 2) f.f19 f.f11 imm8

/-- Data processing, AND to RSC. -/
def armDataRows1 : List ArmRow := [
  ⟨0, 0xFE#8, 0x00#8, 0x1#4, 0x0#4,
    fun c f => .andShiftImm c (f.hi.getLsbD 0) f.f19 f.f15 (f.f11 ++ f.lo.extractLsb' 3 1) (ShiftType.ofBits (f.lo.extractLsb' 1 2)) f.f3⟩,
  ⟨1, 0xFE#8, 0x00#8, 0x9#4, 0x1#4,
    fun c f => .andShiftReg c (f.hi.getLsbD 0) f.f19 f.f15 f.f11 (ShiftType.ofBits (f.lo.extractLsb' 1 2)) f.f3⟩,
  ⟨2, 0xFE#8, 0x20#8, 0x0#4, 0x0#4,
    fun c f => .andImm c (f.hi.getLsbD 0) f.f19 f.f15 f.f11 (f.lo ++ f.f3)⟩,
  ⟨3, 0xFE#8, 0x02#8, 0x1#4, 0x0#4,
    fun c f => .eorShiftImm c (f.hi.getLsbD 0) f.f19 f.f15 (f.f11 ++ f.lo.extractLsb' 3 1) (ShiftType.ofBits (f.lo.extractLsb' 1 2)) f.f3⟩,
  ⟨4, 0xFE#8, 0x02#8, 0x9#4, 0x1#4,
    fun c f => .eorShiftReg c (f.hi.getLsbD 0) f.f19 f.f15 f.f11 (ShiftType.ofBits (f.lo.extractLsb' 1 2)) f.f3⟩,
  ⟨5, 0xFE#8, 0x22#8, 0x0#4, 0x0#4,
    fun c f => .eorImm c (f.hi.getLsbD 0) f.f19 f.f15 f.f11 (f.lo ++ f.f3)⟩,
  ⟨6, 0xFE#8, 0x04#8, 0x1#4, 0x0#4,
    fun c f => .subShiftImm c (f.hi.getLsbD 0) f.f19 f.f15 (f.f11 ++ f.lo.extractLsb' 3 1) (ShiftType.ofBits (f.lo.extractLsb' 1 2)) f.f3⟩,
  ⟨7, 0xFE#8, 0x04#8, 0x9#4, 0x1#4,
    fun c f => .subShiftReg c (f.hi.getLsbD 0) f.f19 f.f15 f.f11 (ShiftType.ofBits (f.lo.extractLsb' 1 2)) f.f3⟩,
  ⟨8, 0xFE#8, 0x24#8, 0x0#4, 0x0#4,
    fun c f => .subImm c (f.hi.getLsbD 0) f.f19 f.f15 f.f11 (f.lo ++ f.f3)⟩,
  ⟨9, 0xFE#8, 0x06#8, 0x1#4, 0x0#4,
    fun c f => .rsbShiftImm c (f.hi.getLsbD 0) f.f19 f.f15 (f.f11 ++ f.lo.extractLsb' 3 1) (ShiftType.ofBits (f.lo.extractLsb' 1 2)) f.f3⟩,
  ⟨10, 0xFE#8, 0x06#8, 0x9#4, 0x1#4,
    fun c f => .rsbShiftReg c (f.hi.getLsbD 0) f.f19 f.f15 f.f11 (ShiftType.ofBits (f.lo.extractLsb' 1 2)) f.f3⟩,
  ⟨11, 0xFE#8, 0x26#8, 0x0#4, 0x0#4,
    fun c f => .rsbImm c (f.hi.getLsbD 0) f.f19 f.f15 f.f11 (f.lo ++ f.f3)⟩,
  ⟨12, 0xFE#8, 0x08#8, 0x1#4, 0x0#4,
    fun c f => .addShiftImm c (f.hi.getLsbD 0) f.f19 f.f15 (f.f11 ++ f.lo.extractLsb' 3 1) (ShiftType.ofBits (f.lo.extractLsb' 1 2)) f.f3⟩,
  ⟨13, 0xFE#8, 0x08#8, 0x9#4, 0x1#4,
    fun c f => .addShiftReg c (f.hi.getLsbD 0) f.f19 f.f15 f.f11 (ShiftType.ofBits (f.lo.extractLsb' 1 2)) f.f3⟩,
  ⟨14, 0xFE#8, 0x28#8, 0x0#4, 0x0#4,
    fun c f => .addImm c (f.hi.getLsbD 0) f.f19 f.f15 f.f11 (f.lo ++ f.f3)⟩,
  ⟨15, 0xFE#8, 0x0A#8, 0x1#4, 0x0#4,
    fun c f => .adcShiftImm c (f.hi.getLsbD 0) f.f19 f.f15 (f.f11 ++ f.lo.extractLsb' 3 1) (ShiftType.ofBits (f.lo.extractLsb' 1 2)) f.f3⟩,
  ⟨16, 0xFE#8, 0x0A#8, 0x9#4, 0x1#4,
    fun c f => .adcShiftReg c (f.hi.getLsbD 0) f.f19 f.f15 f.f11 (ShiftType.ofBits (f.lo.extractLsb' 1 2)) f.f3⟩,
  ⟨17, 0xFE#8, 0x2A#8, 0x0#4, 0x0#4,
    fun c f => .adcImm c (f.hi.getLsbD 0) f.f19 f.f15 f.f11 (f.lo ++ f.f3)⟩,
  ⟨18, 0xFE#8, 0x0C#8, 0x1#4, 0x0#4,
    fun c f => .sbcShiftImm c (f.hi.getLsbD 0) f.f19 f.f15 (f.f11 ++ f.lo.extractLsb' 3 1) (ShiftType.ofBits (f.lo.extractLsb' 1 2)) f.f3⟩,
  ⟨19, 0xFE#8, 0x0C#8, 0x9#4, 0x1#4,
    fun c f => .sbcShiftReg c (f.hi.getLsbD 0) f.f19 f.f15 f.f11 (ShiftType.ofBits (f.lo.extractLsb' 1 2)) f.f3⟩,
  ⟨20, 0xFE#8, 0x2C#8, 0x0#4, 0x0#4,
    fun c f => .sbcImm c (f.hi.getLsbD 0) f.f19 f.f15 f.f11 (f.lo ++ f.f3)⟩,
  ⟨21, 0xFE#8, 0x0E#8, 0x1#4, 0x0#4,
    fun c f => .rscShiftImm c (f.hi.getLsbD 0) f.f19 f.f15 (f.f11 ++ f.lo.extractLsb' 3 1) (ShiftType.ofBits (f.lo.extractLsb' 1 2)) f.f3⟩,
  ⟨22, 0xFE#8, 0x0E#8, 0x9#4, 0x1#4,
    fun c f => .rscShiftReg c (f.hi.getLsbD 0) f.f19 f.f15 f.f11 (ShiftType.ofBits (f.lo.extractLsb' 1 2)) f.f3⟩,
  ⟨23, 0xFE#8, 0x2E#8, 0x0#4, 0x0#4,
    fun c f => .rscImm c (f.hi.getLsbD 0) f.f19 f.f15 f.f11 (f.lo ++ f.f3)⟩]

/-- Data processing, TST to MVN. -/
def armDataRows2 : List ArmRow := [
  ⟨24, 0xFF#8, 0x11#8, 0x1#4, 0x0#4,
    fun c f => .tstShiftImm c f.f19 f.f15 (f.f11 ++ f.lo.extractLsb' 3 1) (ShiftType.ofBits (f.lo.extractLsb' 1 2)) f.f3⟩,
  ⟨25, 0xFF#8, 0x11#8, 0x9#4, 0x1#4,
    fun c f => .tstShiftReg c f.f19 f.f15 f.f11 (ShiftType.ofBits (f.lo.extractLsb' 1 2)) f.f3⟩,
  ⟨26, 0xFF#8, 0x31#8, 0x0#4, 0x0#4,
    fun c f => .tstImm c f.f19 f.f15 f.f11 (f.lo ++ f.f3)⟩,
  ⟨27, 0xFF#8, 0x13#8, 0x1#4, 0x0#4,
    fun c f => .teqShiftImm c f.f19 f.f15 (f.f11 ++ f.lo.extractLsb' 3 1) (ShiftType.ofBits (f.lo.extractLsb' 1 2)) f.f3⟩,
  ⟨28, 0xFF#8, 0x13#8, 0x9#4, 0x1#4,
    fun c f => .teqShiftReg c f.f19 f.f15 f.f11 (ShiftType.ofBits (f.lo.extractLsb' 1 2)) f.f3⟩,
  ⟨29, 0xFF#8, 0x33#8, 0x0#4, 0x0#4,
    fun c f => .teqImm c f.f19 f.f15 f.f11 (f.lo ++ f.f3)⟩,
  ⟨30, 0xFF#8, 0x15#8, 0x1#4, 0x0#4,
    fun c f => .cmpShiftImm c f.f19 f.f15 (f.f11 ++ f.lo.extractLsb' 3 1) (ShiftType.ofBits (f.lo.extractLsb' 1 2)) f.f3⟩,
  ⟨31, 0xFF#8, 0x15#8, 0x9#4, 0x1#4,
    fun c f => .cmpShiftReg c f.f19 f.f15 f.f11 (ShiftType.ofBits (f.lo.extractLsb' 1 2)) f.f3⟩,
  ⟨32, 0xFF#8, 0x35#8, 0x0#4, 0x0#4,
    fun c f => .cmpImm c f.f19 f.f15 f.f11 (f.lo ++ f.f3)⟩,
  ⟨33, 0xFF#8, 0x17#8, 0x1#4, 0x0#4,
    fun c f => .cmnShiftImm c f.f19 f.f15 (f.f11 ++ f.lo.extractLsb' 3 1) (ShiftType.ofBits (f.lo.extractLsb' 1 2)) f.f3⟩,
  ⟨34, 0xFF#8, 0x17#8, 0x9#4, 0x1#4,
    fun c f => .cmnShiftReg c f.f19 f.f15 f.f11 (ShiftType.ofBits (f.lo.extractLsb' 1 2)) f.f3⟩,
  ⟨35, 0xFF#8, 0x37#8, 0x0#4, 0x0#4,
    fun c f => .cmnImm c f.f19 f.f15 f.f11 (f.lo ++ f.f3)⟩,
  ⟨36, 0xFE#8, 0x18#8, 0x1#4, 0x0#4,
    fun c f => .orrShiftImm c (f.hi.getLsbD 0) f.f19 f.f15 (f.f11 ++ f.lo.extractLsb' 3 1) (ShiftType.ofBits (f.lo.extractLsb' 1 2)) f.f3⟩,
  ⟨37, 0xFE#8, 0x18#8, 0x9#4, 0x1#4,
    fun c f => .orrShiftReg c (f.hi.getLsbD 0) f.f19 f.f15 f.f11 (ShiftType.ofBits (f.lo.extractLsb' 1 2)) f.f3⟩,
  ⟨38, 0xFE#8, 0x38#8, 0x0#4, 0x0#4,
    fun c f => .orrImm c (f.hi.getLsbD 0) f.f19 f.f15 f.f11 (f.lo ++ f.f3)⟩,
  ⟨39, 0xFE#8, 0x1A#8, 0x1#4, 0x0#4,
    fun c f => .movShiftImm c (f.hi.getLsbD 0) f.f15 (f.f11 ++ f.lo.extractLsb' 3 1) (ShiftType.ofBits (f.lo.extractLsb' 1 2)) f.f3⟩,
  ⟨40, 0xFE#8, 0x1A#8, 0x9#4, 0x1#4,
    fun c f => .movShiftReg c (f.hi.getLsbD 0) f.f15 f.f11 (ShiftType.ofBits (f.lo.extractLsb' 1 2)) f.f3⟩,
  ⟨41, 0xFE#8, 0x3A#8, 0x0#4, 0x0#4,
    fun c f => .movImm c (f.hi.getLsbD 0) f.f15 f.f11 (f.lo ++ f.f3)⟩,
  ⟨42, 0xFE#8, 0x1C#8, 0x1#4, 0x0#4,
    fun c f => .bicShiftImm c (f.hi.getLsbD 0) f.f19 f.f15 (f.f11 ++ f.lo.extractLsb' 3 1) (ShiftType.ofBits (f.lo.extractLsb' 1 2)) f.f3⟩,
  ⟨43, 0xFE#8, 0x1C#8, 0x9#4, 0x1#4,
    fun c f => .bicShiftReg c (f.hi.getLsbD 0) f.f19 f.f15 f.f11 (ShiftType.ofBits (f.lo.extractLsb' 1 2)) f.f3⟩,
  ⟨44, 0xFE#8, 0x3C#8, 0x0#4, 0x0#4,
    fun c f => .bicImm c (f.hi.getLsbD 0) f.f19 f.f15 f.f11 (f.lo ++ f.f3)⟩,
  ⟨45, 0xFE#8, 0x1E#8, 0x1#4, 0x0#4,
    fun c f => .mvnShiftImm c (f.hi.getLsbD 0) f.f15 (f.f11 ++ f.lo.extractLsb' 3 1) (ShiftType.ofBits (f.lo.extractLsb' 1 2)) f.f3⟩,
  ⟨46, 0xFE#8, 0x1E#8, 0x9#4, 0x1#4,
    fun c f => .mvnShiftReg c (f.hi.getLsbD 0) f.f15 f.f11 (ShiftType.ofBits (f.lo.extractLsb' 1 2)) f.f3⟩,
  ⟨47, 0xFE#8, 0x3E#8, 0x0#4, 0x0#4,
    fun c f => .mvnImm c (f.hi.getLsbD 0) f.f15 f.f11 (f.lo ++ f.f3)⟩]

/-- Status transfer and hints, and multiplies. -/
def armStatusRows : List ArmRow := [
  ⟨48, 0xFB#8, 0x10#8, 0xF#4, 0x0#4,
    fun c f => .mrs c (f.hi.getLsbD 2) f.f15⟩,
  ⟨49, 0xFB#8, 0x12#8, 0xF#4, 0x0#4,
    fun c f => .msrReg c (f.hi.getLsbD 2) f.f19 f.f3⟩,
  ⟨50, 0xFB#8, 0x32#8, 0x0#4, 0x0#4,
    buildMsrImm⟩,
  ⟨53, 0xFE#8, 0x00#8, 0xF#4, 0x9#4,
    fun c f => .mul c (f.hi.getLsbD 0) f.f19 f.f11 f.f3⟩,
  ⟨54, 0xFE#8, 0x02#8, 0xF#4, 0x9#4,
    fun c f => .mla c (f.hi.getLsbD 0) f.f19 f.f15 f.f11 f.f3⟩,
  ⟨55, 0xFE#8, 0x08#8, 0xF#4, 0x9#4,
    fun c f => .umull c (f.hi.getLsbD 0) f.f19 f.f15 f.f11 f.f3⟩,
  ⟨56, 0xFE#8, 0x0A#8, 0xF#4, 0x9#4,
    fun c f => .umlal c (f.hi.getLsbD 0) f.f19 f.f15 f.f11 f.f3⟩,
  ⟨57, 0xFE#8, 0x0C#8, 0xF#4, 0x9#4,
    fun c f => .smull c (f.hi.getLsbD 0) f.f19 f.f15 f.f11 f.f3⟩,
  ⟨58, 0xFE#8, 0x0E#8, 0xF#4, 0x9#4,
    fun c f => .smlal c (f.hi.getLsbD 0) f.f19 f.f15 f.f11 f.f3⟩,
  ⟨59, 0xFF#8, 0x10#8, 0x9#4, 0x8#4,
    fun c f => .smlaXY c f.f19 f.f15 f.f11 (f.lo.getLsbD 2) (f.lo.getLsbD 1) f.f3⟩,
  ⟨60, 0xFF#8, 0x12#8, 0xB#4, 0x8#4,
    fun c f => .smlaWY c f.f19 f.f15 f.f11 (f.lo.getLsbD 2) f.f3⟩,
  ⟨61, 0xFF#8, 0x12#8, 0xB#4, 0xA#4,
    fun c f => .smulWY c f.f19 f.f11 (f.lo.getLsbD 2) f.f3⟩,
  ⟨62, 0xFF#8, 0x14#8, 0x9#4, 0x8#4,
    fun c f => .smlalXY c f.f19 f.f15 f.f11 (f.lo.getLsbD 2) (f.lo.getLsbD 1) f.f3⟩,
  ⟨63, 0xFF#8, 0x16#8, 0x9#4, 0x8#4,
    fun c f => .smulXY c f.f19 f.f11 (f.lo.getLsbD 2) (f.lo.getLsbD 1) f.f3⟩]

/-- Transfers. -/
def armTransferRows : List ArmRow := [
  ⟨64, 0xE5#8, 0x41#8, 0x0#4, 0x0#4,
    fun c f => .ldrImm c (f.hi.getLsbD 4) (f.hi.getLsbD 3) (f.hi.getLsbD 1) f.f19 f.f15 (f.f11 ++ f.lo ++ f.f3)⟩,
  ⟨65, 0xE5#8, 0x61#8, 0x1#4, 0x0#4,
    fun c f => .ldrReg c (f.hi.getLsbD 4) (f.hi.getLsbD 3) (f.hi.getLsbD 1) f.f19 f.f15 (f.f11 ++ f.lo.extractLsb' 3 1) (ShiftType.ofBits (f.lo.extractLsb' 1 2)) f.f3⟩,
  ⟨66, 0xE5#8, 0x40#8, 0x0#4, 0x0#4,
    fun c f => .strImm c (f.hi.getLsbD 4) (f.hi.getLsbD 3) (f.hi.getLsbD 1) f.f19 f.f15 (f.f11 ++ f.lo ++ f.f3)⟩,
  ⟨67, 0xE5#8, 0x60#8, 0x1#4, 0x0#4,
    fun c f => .strReg c (f.hi.getLsbD 4) (f.hi.getLsbD 3) (f.hi.getLsbD 1) f.f19 f.f15 (f.f11 ++ f.lo.extractLsb' 3 1) (ShiftType.ofBits (f.lo.extractLsb' 1 2)) f.f3⟩,
  ⟨68, 0xE5#8, 0x45#8, 0x0#4, 0x0#4,
    fun c f => .ldrbImm c (f.hi.getLsbD 4) (f.hi.getLsbD 3) (f.hi.getLsbD 1) f.f19 f.f15 (f.f11 ++ f.lo ++ f.f3)⟩,
  ⟨69, 0xE5#8, 0x65#8, 0x1#4, 0x0#4,
    fun c f => .ldrbReg c (f.hi.getLsbD 4) (f.hi.getLsbD 3) (f.hi.getLsbD 1) f.f19 f.f15 (f.f11 ++ f.lo.extractLsb' 3 1) (ShiftType.ofBits (f.lo.extractLsb' 1 2)) f.f3⟩,
  ⟨70, 0xE5#8, 0x44#8, 0x0#4, 0x0#4,
    fun c f => .strbImm c (f.hi.getLsbD 4) (f.hi.getLsbD 3) (f.hi.getLsbD 1) f.f19 f.f15 (f.f11 ++ f.lo ++ f.f3)⟩,
  ⟨71, 0xE5#8, 0x64#8, 0x1#4, 0x0#4,
    fun c f => .strbReg c (f.hi.getLsbD 4) (f.hi.getLsbD 3) (f.hi.getLsbD 1) f.f19 f.f15 (f.f11 ++ f.lo.extractLsb' 3 1) (ShiftType.ofBits (f.lo.extractLsb' 1 2)) f.f3⟩,
  ⟨72, 0xE5#8, 0x00#8, 0xF#4, 0xB#4,
    fun c f => .strhReg c (f.hi.getLsbD 4) (f.hi.getLsbD 3) (f.hi.getLsbD 1) f.f19 f.f15 f.f3⟩,
  ⟨73, 0xE5#8, 0x04#8, 0xF#4, 0xB#4,
    fun c f => .strhImm c (f.hi.getLsbD 4) (f.hi.getLsbD 3) (f.hi.getLsbD 1) f.f19 f.f15 (f.f11 ++ f.f3)⟩,
  ⟨74, 0xE5#8, 0x01#8, 0xF#4, 0xB#4,
    fun c f => .ldrhReg c (f.hi.getLsbD 4) (f.hi.getLsbD 3) (f.hi.getLsbD 1) f.f19 f.f15 f.f3⟩,
  ⟨75, 0xE5#8, 0x05#8, 0xF#4, 0xB#4,
    fun c f => .ldrhImm c (f.hi.getLsbD 4) (f.hi.getLsbD 3) (f.hi.getLsbD 1) f.f19 f.f15 (f.f11 ++ f.f3)⟩,
  ⟨76, 0xE5#8, 0x01#8, 0xF#4, 0xD#4,
    fun c f => .ldrsbReg c (f.hi.getLsbD 4) (f.hi.getLsbD 3) (f.hi.getLsbD 1) f.f19 f.f15 f.f3⟩,
  ⟨77, 0xE5#8, 0x05#8, 0xF#4, 0xD#4,
    fun c f => .ldrsbImm c (f.hi.getLsbD 4) (f.hi.getLsbD 3) (f.hi.getLsbD 1) f.f19 f.f15 (f.f11 ++ f.f3)⟩,
  ⟨78, 0xE5#8, 0x01#8, 0xF#4, 0xF#4,
    fun c f => .ldrshReg c (f.hi.getLsbD 4) (f.hi.getLsbD 3) (f.hi.getLsbD 1) f.f19 f.f15 f.f3⟩,
  ⟨79, 0xE5#8, 0x05#8, 0xF#4, 0xF#4,
    fun c f => .ldrshImm c (f.hi.getLsbD 4) (f.hi.getLsbD 3) (f.hi.getLsbD 1) f.f19 f.f15 (f.f11 ++ f.f3)⟩,
  ⟨80, 0xE5#8, 0x00#8, 0xF#4, 0xD#4,
    fun c f => .ldrdReg c (f.hi.getLsbD 4) (f.hi.getLsbD 3) (f.hi.getLsbD 1) f.f19 f.f15 f.f3⟩,
  ⟨81, 0xE5#8, 0x04#8, 0xF#4, 0xD#4,
    fun c f => .ldrdImm c (f.hi.getLsbD 4) (f.hi.getLsbD 3) (f.hi.getLsbD 1) f.f19 f.f15 (f.f11 ++ f.f3)⟩,
  ⟨82, 0xE5#8, 0x00#8, 0xF#4, 0xF#4,
    fun c f => .strdReg c (f.hi.getLsbD 4) (f.hi.getLsbD 3) (f.hi.getLsbD 1) f.f19 f.f15 f.f3⟩,
  ⟨83, 0xE5#8, 0x04#8, 0xF#4, 0xF#4,
    fun c f => .strdImm c (f.hi.getLsbD 4) (f.hi.getLsbD 3) (f.hi.getLsbD 1) f.f19 f.f15 (f.f11 ++ f.f3)⟩,
  ⟨84, 0xFF#8, 0x10#8, 0xF#4, 0x9#4,
    fun c f => .swp c f.f19 f.f15 f.f3⟩,
  ⟨85, 0xFF#8, 0x14#8, 0xF#4, 0x9#4,
    fun c f => .swpb c f.f19 f.f15 f.f3⟩,
  ⟨86, 0xE1#8, 0x81#8, 0x0#4, 0x0#4,
    fun c f => .ldm c (f.hi.getLsbD 4) (f.hi.getLsbD 3) (f.hi.getLsbD 2) (f.hi.getLsbD 1) f.f19 (f.f15 ++ f.f11 ++ f.lo ++ f.f3)⟩,
  ⟨87, 0xE1#8, 0x80#8, 0x0#4, 0x0#4,
    fun c f => .stm c (f.hi.getLsbD 4) (f.hi.getLsbD 3) (f.hi.getLsbD 2) (f.hi.getLsbD 1) f.f19 (f.f15 ++ f.f11 ++ f.lo ++ f.f3)⟩]

/-- Branches, saturating arithmetic, SWI and coprocessor transfer. -/
def armBranchRows : List ArmRow := [
  ⟨88, 0xF0#8, 0xA0#8, 0x0#4, 0x0#4,
    fun c f => .b c (f.hi.extractLsb' 0 4 ++ f.f19 ++ f.f15 ++ f.f11 ++ f.lo ++ f.f3)⟩,
  ⟨89, 0xF0#8, 0xB0#8, 0x0#4, 0x0#4,
    fun c f => .bl c (f.hi.extractLsb' 0 4 ++ f.f19 ++ f.f15 ++ f.f11 ++ f.lo ++ f.f3)⟩,
  ⟨90, 0xFF#8, 0x12#8, 0xF#4, 0x1#4,
    fun c f => .bx c f.f3⟩,
  ⟨91, 0xFF#8, 0x12#8, 0xF#4, 0x3#4,
    fun c f => .blxReg c f.f3⟩,
  ⟨93, 0xFF#8, 0x16#8, 0xF#4, 0x1#4,
    fun c f => .clz c f.f15 f.f3⟩,
  ⟨94, 0xFF#8, 0x10#8, 0xF#4, 0x5#4,
    fun c f => .qadd c f.f19 f.f15 f.f3⟩,
  ⟨95, 0xFF#8, 0x12#8, 0xF#4, 0x5#4,
    fun c f => .qsub c f.f19 f.f15 f.f3⟩,
  ⟨96, 0xFF#8, 0x14#8, 0xF#4, 0x5#4,
    fun c f => .qdadd c f.f19 f.f15 f.f3⟩,
  ⟨97, 0xFF#8, 0x16#8, 0xF#4, 0x5#4,
    fun c f => .qdsub c f.f19 f.f15 f.f3⟩,
  ⟨98, 0xF0#8, 0xF0#8, 0x0#4, 0x0#4,
    fun c f => .swi c (f.hi.extractLsb' 0 4 ++ f.f19 ++ f.f15 ++ f.f11 ++ f.lo ++ f.f3)⟩,
  ⟨99, 0xF1#8, 0xE0#8, 0x1#4, 0x1#4,
    fun c f => .mcr c (f.hi.extractLsb' 1 3) f.f19 f.f15 f.f11 (f.lo.extractLsb' 1 3) f.f3⟩,
  ⟨100, 0xF1#8, 0xE1#8, 0x1#4, 0x1#4,
    fun c f => .mrc c (f.hi.extractLsb' 1 3) f.f19 f.f15 f.f11 (f.lo.extractLsb' 1 3) f.f3⟩]

/-- The undefined index ranges (R140). -/
def armUndefinedRows : List ArmRow := [
  ⟨102, 0xFC#8, 0x04#8, 0xF#4, 0x9#4,
    fun c _ => .undMultiply c⟩,
  ⟨103, 0xF9#8, 0x11#8, 0xF#4, 0x9#4,
    fun c _ => .undSwapLoad c⟩,
  ⟨104, 0xF8#8, 0x18#8, 0xF#4, 0x9#4,
    fun c _ => .undSwapWide c⟩,
  ⟨105, 0xFB#8, 0x12#8, 0xF#4, 0x9#4,
    fun c _ => .undSwapOdd c⟩,
  ⟨106, 0xFB#8, 0x10#8, 0xD#4, 0x1#4,
    fun c _ => .undMiscBranch c⟩,
  ⟨107, 0xFF#8, 0x16#8, 0xF#4, 0x3#4,
    fun c _ => .undMiscClz c⟩,
  ⟨108, 0xF9#8, 0x10#8, 0xF#4, 0x2#4,
    fun c _ => .undMiscTwo c⟩,
  ⟨109, 0xF9#8, 0x10#8, 0xD#4, 0x4#4,
    fun c _ => .undMiscFourSix c⟩,
  ⟨110, 0xF9#8, 0x10#8, 0xF#4, 0x7#4,
    fun c _ => .undMiscSeven c⟩,
  ⟨111, 0xFB#8, 0x30#8, 0x0#4, 0x0#4,
    fun c _ => .undCompareImm c⟩,
  ⟨112, 0xE0#8, 0x60#8, 0x1#4, 0x1#4,
    fun c _ => .undMedia c⟩,
  ⟨113, 0xE0#8, 0xC0#8, 0x0#4, 0x0#4,
    fun c _ => .undCoprocTransfer c⟩,
  ⟨114, 0xF0#8, 0xE0#8, 0x1#4, 0x0#4,
    fun c _ => .undCoprocOp c⟩]

/-- The whole ARM map for the conditions other than NV. -/
def armRows : List ArmRow :=
  armDataRows1 ++ armDataRows2 ++ armStatusRows ++ armTransferRows ++ armBranchRows ++ armUndefinedRows

/-- The NV space (R124). -/
def nvRows : List NvRow := [
  ⟨92, 0xE0#8, 0xA0#8, fun f => .blxImm (f.hi.getLsbD 4) (f.hi.extractLsb' 0 4 ++ f.f19 ++ f.f15 ++ f.f11 ++ f.lo ++ f.f3)⟩,
  ⟨115, 0x80#8, 0x00#8, fun _ => .undNvLow⟩,
  ⟨116, 0xC0#8, 0xC0#8, fun _ => .undNvCoproc⟩,
  ⟨117, 0xE0#8, 0x80#8, fun _ => .undNvBlock⟩]

/-- Formats 1 to 5. -/
def thumbRows1 : List ThumbRow := [
  ⟨118, 0x3E0#10, 0x000#10, fun f => .tLslImm (f.top.extractLsb' 0 5) f.f5 f.f2⟩,
  ⟨119, 0x3E0#10, 0x020#10, fun f => .tLsrImm (f.top.extractLsb' 0 5) f.f5 f.f2⟩,
  ⟨120, 0x3E0#10, 0x040#10, fun f => .tAsrImm (f.top.extractLsb' 0 5) f.f5 f.f2⟩,
  ⟨121, 0x3F8#10, 0x060#10, fun f => .tAddReg (f.top.extractLsb' 0 3) f.f5 f.f2⟩,
  ⟨122, 0x3F8#10, 0x068#10, fun f => .tSubReg (f.top.extractLsb' 0 3) f.f5 f.f2⟩,
  ⟨123, 0x3F8#10, 0x070#10, fun f => .tAddImm3 (f.top.extractLsb' 0 3) f.f5 f.f2⟩,
  ⟨124, 0x3F8#10, 0x078#10, fun f => .tSubImm3 (f.top.extractLsb' 0 3) f.f5 f.f2⟩,
  ⟨125, 0x3E0#10, 0x080#10, fun f => .tMovImm (f.top.extractLsb' 2 3) (f.top.extractLsb' 0 2 ++ f.f5 ++ f.f2)⟩,
  ⟨126, 0x3E0#10, 0x0A0#10, fun f => .tCmpImm (f.top.extractLsb' 2 3) (f.top.extractLsb' 0 2 ++ f.f5 ++ f.f2)⟩,
  ⟨127, 0x3E0#10, 0x0C0#10, fun f => .tAddImm8 (f.top.extractLsb' 2 3) (f.top.extractLsb' 0 2 ++ f.f5 ++ f.f2)⟩,
  ⟨128, 0x3E0#10, 0x0E0#10, fun f => .tSubImm8 (f.top.extractLsb' 2 3) (f.top.extractLsb' 0 2 ++ f.f5 ++ f.f2)⟩,
  ⟨129, 0x3FF#10, 0x100#10, fun f => .tAnd f.f5 f.f2⟩,
  ⟨130, 0x3FF#10, 0x101#10, fun f => .tEor f.f5 f.f2⟩,
  ⟨131, 0x3FF#10, 0x102#10, fun f => .tLslReg f.f5 f.f2⟩,
  ⟨132, 0x3FF#10, 0x103#10, fun f => .tLsrReg f.f5 f.f2⟩,
  ⟨133, 0x3FF#10, 0x104#10, fun f => .tAsrReg f.f5 f.f2⟩,
  ⟨134, 0x3FF#10, 0x105#10, fun f => .tAdc f.f5 f.f2⟩,
  ⟨135, 0x3FF#10, 0x106#10, fun f => .tSbc f.f5 f.f2⟩,
  ⟨136, 0x3FF#10, 0x107#10, fun f => .tRor f.f5 f.f2⟩,
  ⟨137, 0x3FF#10, 0x108#10, fun f => .tTst f.f5 f.f2⟩,
  ⟨138, 0x3FF#10, 0x109#10, fun f => .tNeg f.f5 f.f2⟩,
  ⟨139, 0x3FF#10, 0x10A#10, fun f => .tCmpReg f.f5 f.f2⟩,
  ⟨140, 0x3FF#10, 0x10B#10, fun f => .tCmn f.f5 f.f2⟩,
  ⟨141, 0x3FF#10, 0x10C#10, fun f => .tOrr f.f5 f.f2⟩,
  ⟨142, 0x3FF#10, 0x10D#10, fun f => .tMul f.f5 f.f2⟩,
  ⟨143, 0x3FF#10, 0x10E#10, fun f => .tBic f.f5 f.f2⟩,
  ⟨144, 0x3FF#10, 0x10F#10, fun f => .tMvn f.f5 f.f2⟩,
  ⟨145, 0x3FC#10, 0x110#10, fun f => .tAddHi (f.top.extractLsb' 0 1 ++ f.f5) (f.top.extractLsb' 1 1 ++ f.f2)⟩,
  ⟨146, 0x3FC#10, 0x114#10, fun f => .tCmpHi (f.top.extractLsb' 0 1 ++ f.f5) (f.top.extractLsb' 1 1 ++ f.f2)⟩,
  ⟨147, 0x3FC#10, 0x118#10, fun f => .tMovHi (f.top.extractLsb' 0 1 ++ f.f5) (f.top.extractLsb' 1 1 ++ f.f2)⟩,
  ⟨148, 0x3FE#10, 0x11C#10, fun f => .tBx (f.top.extractLsb' 0 1 ++ f.f5)⟩,
  ⟨149, 0x3FE#10, 0x11E#10, fun f => .tBlxReg (f.top.extractLsb' 0 1 ++ f.f5)⟩]

/-- Formats 6 to 15. -/
def thumbRows2 : List ThumbRow := [
  ⟨150, 0x3E0#10, 0x120#10, fun f => .tLdrPc (f.top.extractLsb' 2 3) (f.top.extractLsb' 0 2 ++ f.f5 ++ f.f2)⟩,
  ⟨151, 0x3F8#10, 0x140#10, fun f => .tStrReg (f.top.extractLsb' 0 3) f.f5 f.f2⟩,
  ⟨152, 0x3F8#10, 0x150#10, fun f => .tStrbReg (f.top.extractLsb' 0 3) f.f5 f.f2⟩,
  ⟨153, 0x3F8#10, 0x160#10, fun f => .tLdrReg (f.top.extractLsb' 0 3) f.f5 f.f2⟩,
  ⟨154, 0x3F8#10, 0x170#10, fun f => .tLdrbReg (f.top.extractLsb' 0 3) f.f5 f.f2⟩,
  ⟨155, 0x3F8#10, 0x148#10, fun f => .tStrhReg (f.top.extractLsb' 0 3) f.f5 f.f2⟩,
  ⟨156, 0x3F8#10, 0x158#10, fun f => .tLdsb (f.top.extractLsb' 0 3) f.f5 f.f2⟩,
  ⟨157, 0x3F8#10, 0x168#10, fun f => .tLdrhReg (f.top.extractLsb' 0 3) f.f5 f.f2⟩,
  ⟨158, 0x3F8#10, 0x178#10, fun f => .tLdsh (f.top.extractLsb' 0 3) f.f5 f.f2⟩,
  ⟨159, 0x3E0#10, 0x180#10, fun f => .tStrImm (f.top.extractLsb' 0 5) f.f5 f.f2⟩,
  ⟨160, 0x3E0#10, 0x1A0#10, fun f => .tLdrImm (f.top.extractLsb' 0 5) f.f5 f.f2⟩,
  ⟨161, 0x3E0#10, 0x1C0#10, fun f => .tStrbImm (f.top.extractLsb' 0 5) f.f5 f.f2⟩,
  ⟨162, 0x3E0#10, 0x1E0#10, fun f => .tLdrbImm (f.top.extractLsb' 0 5) f.f5 f.f2⟩,
  ⟨163, 0x3E0#10, 0x200#10, fun f => .tStrhImm (f.top.extractLsb' 0 5) f.f5 f.f2⟩,
  ⟨164, 0x3E0#10, 0x220#10, fun f => .tLdrhImm (f.top.extractLsb' 0 5) f.f5 f.f2⟩,
  ⟨165, 0x3E0#10, 0x240#10, fun f => .tStrSp (f.top.extractLsb' 2 3) (f.top.extractLsb' 0 2 ++ f.f5 ++ f.f2)⟩,
  ⟨166, 0x3E0#10, 0x260#10, fun f => .tLdrSp (f.top.extractLsb' 2 3) (f.top.extractLsb' 0 2 ++ f.f5 ++ f.f2)⟩,
  ⟨167, 0x3E0#10, 0x280#10, fun f => .tAddPc (f.top.extractLsb' 2 3) (f.top.extractLsb' 0 2 ++ f.f5 ++ f.f2)⟩,
  ⟨168, 0x3E0#10, 0x2A0#10, fun f => .tAddSp (f.top.extractLsb' 2 3) (f.top.extractLsb' 0 2 ++ f.f5 ++ f.f2)⟩,
  ⟨169, 0x3FC#10, 0x2C0#10, fun f => .tAdjustSp (f.top.getLsbD 1) (f.top.extractLsb' 0 1 ++ f.f5 ++ f.f2)⟩,
  ⟨170, 0x3F8#10, 0x2D0#10, fun f => .tPush (f.top.getLsbD 2) (f.top.extractLsb' 0 2 ++ f.f5 ++ f.f2)⟩,
  ⟨171, 0x3F8#10, 0x2F0#10, fun f => .tPop (f.top.getLsbD 2) (f.top.extractLsb' 0 2 ++ f.f5 ++ f.f2)⟩,
  ⟨172, 0x3E0#10, 0x300#10, fun f => .tStmia (f.top.extractLsb' 2 3) (f.top.extractLsb' 0 2 ++ f.f5 ++ f.f2)⟩,
  ⟨173, 0x3E0#10, 0x320#10, fun f => .tLdmia (f.top.extractLsb' 2 3) (f.top.extractLsb' 0 2 ++ f.f5 ++ f.f2)⟩]

/-- Formats 16 to 19 and the undefined encodings (R153). -/
def thumbRows3 : List ThumbRow := [
  ⟨174, 0x3FC#10, 0x340#10, fun f => .tBeq (f.top.extractLsb' 0 2 ++ f.f5 ++ f.f2)⟩,
  ⟨175, 0x3FC#10, 0x344#10, fun f => .tBne (f.top.extractLsb' 0 2 ++ f.f5 ++ f.f2)⟩,
  ⟨176, 0x3FC#10, 0x348#10, fun f => .tBcs (f.top.extractLsb' 0 2 ++ f.f5 ++ f.f2)⟩,
  ⟨177, 0x3FC#10, 0x34C#10, fun f => .tBcc (f.top.extractLsb' 0 2 ++ f.f5 ++ f.f2)⟩,
  ⟨178, 0x3FC#10, 0x350#10, fun f => .tBmi (f.top.extractLsb' 0 2 ++ f.f5 ++ f.f2)⟩,
  ⟨179, 0x3FC#10, 0x354#10, fun f => .tBpl (f.top.extractLsb' 0 2 ++ f.f5 ++ f.f2)⟩,
  ⟨180, 0x3FC#10, 0x358#10, fun f => .tBvs (f.top.extractLsb' 0 2 ++ f.f5 ++ f.f2)⟩,
  ⟨181, 0x3FC#10, 0x35C#10, fun f => .tBvc (f.top.extractLsb' 0 2 ++ f.f5 ++ f.f2)⟩,
  ⟨182, 0x3FC#10, 0x360#10, fun f => .tBhi (f.top.extractLsb' 0 2 ++ f.f5 ++ f.f2)⟩,
  ⟨183, 0x3FC#10, 0x364#10, fun f => .tBls (f.top.extractLsb' 0 2 ++ f.f5 ++ f.f2)⟩,
  ⟨184, 0x3FC#10, 0x368#10, fun f => .tBge (f.top.extractLsb' 0 2 ++ f.f5 ++ f.f2)⟩,
  ⟨185, 0x3FC#10, 0x36C#10, fun f => .tBlt (f.top.extractLsb' 0 2 ++ f.f5 ++ f.f2)⟩,
  ⟨186, 0x3FC#10, 0x370#10, fun f => .tBgt (f.top.extractLsb' 0 2 ++ f.f5 ++ f.f2)⟩,
  ⟨187, 0x3FC#10, 0x374#10, fun f => .tBle (f.top.extractLsb' 0 2 ++ f.f5 ++ f.f2)⟩,
  ⟨188, 0x3FC#10, 0x37C#10, fun f => .tSwi (f.top.extractLsb' 0 2 ++ f.f5 ++ f.f2)⟩,
  ⟨189, 0x3E0#10, 0x380#10, fun f => .tB (f.top.extractLsb' 0 5 ++ f.f5 ++ f.f2)⟩,
  ⟨190, 0x3E0#10, 0x3C0#10, fun f => .tBlFirst (f.top.extractLsb' 0 5 ++ f.f5 ++ f.f2)⟩,
  ⟨191, 0x3E0#10, 0x3E0#10, fun f => .tBlSecond (f.top.extractLsb' 0 5 ++ f.f5 ++ f.f2)⟩,
  ⟨192, 0x3E0#10, 0x3A0#10, fun f => .tBlxSecond (f.top.extractLsb' 0 5 ++ f.f5 ++ f.f2)⟩,
  ⟨193, 0x3FC#10, 0x2C4#10, fun _ => .tUndB1⟩,
  ⟨194, 0x3F8#10, 0x2C8#10, fun _ => .tUndB2⟩,
  ⟨195, 0x3F8#10, 0x2D8#10, fun _ => .tUndB6⟩,
  ⟨196, 0x3F0#10, 0x2E0#10, fun _ => .tUndB8⟩,
  ⟨197, 0x3F8#10, 0x2F8#10, fun _ => .tUndBE⟩,
  ⟨198, 0x3FC#10, 0x378#10, fun _ => .tUndDE⟩]

/-- The whole Thumb map. -/
def thumbRows : List ThumbRow :=
  thumbRows1 ++ thumbRows2 ++ thumbRows3

/-- Why bytes are rejected. -/
inductive DecodeError where
  /-- fewer bytes than the instruction has -/
  | truncated
  /-- no row selects the word (no word is so: the rows cover both maps, R167) -/
  | noRow
  deriving DecidableEq, Repr

/-- The instruction of the fields of an ARM word (R121, R125). -/
def decodeArmFields (f : ArmFields) : Option Instr :=
  match Cond.ofBits f.cond with
  | some c => (armRows.find? fun r => r.selects f.hi f.lo).map fun r => r.build c f
  | none => (nvRows.find? fun r => r.selects f.hi).map fun r => r.build f

/-- The instruction of the fields of a Thumb word (R150). -/
def decodeThumbFields (f : ThumbFields) : Option Instr :=
  (thumbRows.find? fun r => r.selects f.top).map fun r => r.build f

/-- The instruction an ARM word holds. -/
def decodeArm (w : Word) : Option Instr :=
  decodeArmFields (ArmFields.ofWord w)

/-- The instruction a Thumb halfword holds. -/
def decodeThumb (h : Half) : Option Instr :=
  decodeThumbFields (ThumbFields.ofHalf h)

/-- Where no row selects a word the bytes are rejected by name. -/
def orNoRow (i : Option Instr) (rest : List Byte) : Except DecodeError (Instr × List Byte) :=
  match i with
  | some i => .ok (i, rest)
  | none => .error .noRow

/-- Decode the first instruction of a list of bytes, little-endian (20_memory.md R74), in Thumb or ARM
state (R120), with the bytes that follow it. -/
def decodeBytes (thumb : Bool) (bs : List Byte) : Except DecodeError (Instr × List Byte) :=
  if thumb then
    match bs with
    | b0 :: b1 :: rest => orNoRow (decodeThumb (b1 ++ b0)) rest
    | _ => .error .truncated
  else
    match bs with
    | b0 :: b1 :: b2 :: b3 :: rest => orNoRow (decodeArm (b3 ++ b2 ++ b1 ++ b0)) rest
    | _ => .error .truncated

/-- The low `n` bytes of a number, the least significant first. -/
def bytesOfNat : Nat → Nat → List Byte
  | 0, _ => []
  | n + 1, w => BitVec.ofNat 8 w :: bytesOfNat n (w / 256)

/-- The instruction the decoder reads from the bits `w` of a row of `nbits` bits of opcode_table.json:
a 16-bit row is a Thumb word, any other an ARM word. -/
def decodeTableWord (nbits w : Nat) : Option Instr :=
  let thumb := decide (nbits ≤ 16)
  match decodeBytes thumb (bytesOfNat (if thumb then 2 else 4) (w % 2 ^ nbits)) with
  | .ok (i, _) => some i
  | .error _ => none

/-- The words of an instruction: one 32-bit word in ARM state, one 16-bit word in Thumb state (R120). -/
inductive Encoding where
  | arm (w : Word)
  | thumb (h : Half)
  deriving DecidableEq, Repr

/-- The fields of an ARM word of a condition other than NV. -/
abbrev armEncoding (c : Cond) (hi : BitVec 8) (f19 f15 f11 lo f3 : BitVec 4) : Encoding :=
  .arm (ArmFields.toWord ⟨c.bits, hi, f19, f15, f11, lo, f3⟩)

/-- The fields of a word of the NV space. -/
abbrev nvEncoding (hi : BitVec 8) (f19 f15 f11 lo f3 : BitVec 4) : Encoding :=
  .arm (ArmFields.toWord ⟨0b1111#4, hi, f19, f15, f11, lo, f3⟩)

/-- The fields of a Thumb word. -/
abbrev thumbEncoding (top : BitVec 10) (f5 f2 : BitVec 3) : Encoding :=
  .thumb (ThumbFields.toHalf ⟨top, f5, f2⟩)

/-- The encoding of a well-formed instruction, by the formats of 30_encoding.md R126 to R138 and R151;
ignored bits are 0. -/
def encode : Instr → Encoding
  | .andShiftImm cond S rn rd imm5 ty rm =>
    armEncoding cond (0b0000000#7 ++ bit S) rn rd (imm5.extractLsb' 1 4)
      (imm5.extractLsb' 0 1 ++ ty.bits ++ 0#1) rm
  | .andShiftReg cond S rn rd rs ty rm =>
    armEncoding cond (0b0000000#7 ++ bit S) rn rd rs
      (0#1 ++ ty.bits ++ 1#1) rm
  | .andImm cond S rn rd rot4 imm8 =>
    armEncoding cond (0b0010000#7 ++ bit S) rn rd rot4
      (imm8.extractLsb' 4 4) (imm8.extractLsb' 0 4)
  | .eorShiftImm cond S rn rd imm5 ty rm =>
    armEncoding cond (0b0000001#7 ++ bit S) rn rd (imm5.extractLsb' 1 4)
      (imm5.extractLsb' 0 1 ++ ty.bits ++ 0#1) rm
  | .eorShiftReg cond S rn rd rs ty rm =>
    armEncoding cond (0b0000001#7 ++ bit S) rn rd rs
      (0#1 ++ ty.bits ++ 1#1) rm
  | .eorImm cond S rn rd rot4 imm8 =>
    armEncoding cond (0b0010001#7 ++ bit S) rn rd rot4
      (imm8.extractLsb' 4 4) (imm8.extractLsb' 0 4)
  | .subShiftImm cond S rn rd imm5 ty rm =>
    armEncoding cond (0b0000010#7 ++ bit S) rn rd (imm5.extractLsb' 1 4)
      (imm5.extractLsb' 0 1 ++ ty.bits ++ 0#1) rm
  | .subShiftReg cond S rn rd rs ty rm =>
    armEncoding cond (0b0000010#7 ++ bit S) rn rd rs
      (0#1 ++ ty.bits ++ 1#1) rm
  | .subImm cond S rn rd rot4 imm8 =>
    armEncoding cond (0b0010010#7 ++ bit S) rn rd rot4
      (imm8.extractLsb' 4 4) (imm8.extractLsb' 0 4)
  | .rsbShiftImm cond S rn rd imm5 ty rm =>
    armEncoding cond (0b0000011#7 ++ bit S) rn rd (imm5.extractLsb' 1 4)
      (imm5.extractLsb' 0 1 ++ ty.bits ++ 0#1) rm
  | .rsbShiftReg cond S rn rd rs ty rm =>
    armEncoding cond (0b0000011#7 ++ bit S) rn rd rs
      (0#1 ++ ty.bits ++ 1#1) rm
  | .rsbImm cond S rn rd rot4 imm8 =>
    armEncoding cond (0b0010011#7 ++ bit S) rn rd rot4
      (imm8.extractLsb' 4 4) (imm8.extractLsb' 0 4)
  | .addShiftImm cond S rn rd imm5 ty rm =>
    armEncoding cond (0b0000100#7 ++ bit S) rn rd (imm5.extractLsb' 1 4)
      (imm5.extractLsb' 0 1 ++ ty.bits ++ 0#1) rm
  | .addShiftReg cond S rn rd rs ty rm =>
    armEncoding cond (0b0000100#7 ++ bit S) rn rd rs
      (0#1 ++ ty.bits ++ 1#1) rm
  | .addImm cond S rn rd rot4 imm8 =>
    armEncoding cond (0b0010100#7 ++ bit S) rn rd rot4
      (imm8.extractLsb' 4 4) (imm8.extractLsb' 0 4)
  | .adcShiftImm cond S rn rd imm5 ty rm =>
    armEncoding cond (0b0000101#7 ++ bit S) rn rd (imm5.extractLsb' 1 4)
      (imm5.extractLsb' 0 1 ++ ty.bits ++ 0#1) rm
  | .adcShiftReg cond S rn rd rs ty rm =>
    armEncoding cond (0b0000101#7 ++ bit S) rn rd rs
      (0#1 ++ ty.bits ++ 1#1) rm
  | .adcImm cond S rn rd rot4 imm8 =>
    armEncoding cond (0b0010101#7 ++ bit S) rn rd rot4
      (imm8.extractLsb' 4 4) (imm8.extractLsb' 0 4)
  | .sbcShiftImm cond S rn rd imm5 ty rm =>
    armEncoding cond (0b0000110#7 ++ bit S) rn rd (imm5.extractLsb' 1 4)
      (imm5.extractLsb' 0 1 ++ ty.bits ++ 0#1) rm
  | .sbcShiftReg cond S rn rd rs ty rm =>
    armEncoding cond (0b0000110#7 ++ bit S) rn rd rs
      (0#1 ++ ty.bits ++ 1#1) rm
  | .sbcImm cond S rn rd rot4 imm8 =>
    armEncoding cond (0b0010110#7 ++ bit S) rn rd rot4
      (imm8.extractLsb' 4 4) (imm8.extractLsb' 0 4)
  | .rscShiftImm cond S rn rd imm5 ty rm =>
    armEncoding cond (0b0000111#7 ++ bit S) rn rd (imm5.extractLsb' 1 4)
      (imm5.extractLsb' 0 1 ++ ty.bits ++ 0#1) rm
  | .rscShiftReg cond S rn rd rs ty rm =>
    armEncoding cond (0b0000111#7 ++ bit S) rn rd rs
      (0#1 ++ ty.bits ++ 1#1) rm
  | .rscImm cond S rn rd rot4 imm8 =>
    armEncoding cond (0b0010111#7 ++ bit S) rn rd rot4
      (imm8.extractLsb' 4 4) (imm8.extractLsb' 0 4)
  | .tstShiftImm cond rn rd imm5 ty rm =>
    armEncoding cond (0b0001000#7 ++ 1#1) rn rd (imm5.extractLsb' 1 4)
      (imm5.extractLsb' 0 1 ++ ty.bits ++ 0#1) rm
  | .tstShiftReg cond rn rd rs ty rm =>
    armEncoding cond (0b0001000#7 ++ 1#1) rn rd rs
      (0#1 ++ ty.bits ++ 1#1) rm
  | .tstImm cond rn rd rot4 imm8 =>
    armEncoding cond (0b0011000#7 ++ 1#1) rn rd rot4
      (imm8.extractLsb' 4 4) (imm8.extractLsb' 0 4)
  | .teqShiftImm cond rn rd imm5 ty rm =>
    armEncoding cond (0b0001001#7 ++ 1#1) rn rd (imm5.extractLsb' 1 4)
      (imm5.extractLsb' 0 1 ++ ty.bits ++ 0#1) rm
  | .teqShiftReg cond rn rd rs ty rm =>
    armEncoding cond (0b0001001#7 ++ 1#1) rn rd rs
      (0#1 ++ ty.bits ++ 1#1) rm
  | .teqImm cond rn rd rot4 imm8 =>
    armEncoding cond (0b0011001#7 ++ 1#1) rn rd rot4
      (imm8.extractLsb' 4 4) (imm8.extractLsb' 0 4)
  | .cmpShiftImm cond rn rd imm5 ty rm =>
    armEncoding cond (0b0001010#7 ++ 1#1) rn rd (imm5.extractLsb' 1 4)
      (imm5.extractLsb' 0 1 ++ ty.bits ++ 0#1) rm
  | .cmpShiftReg cond rn rd rs ty rm =>
    armEncoding cond (0b0001010#7 ++ 1#1) rn rd rs
      (0#1 ++ ty.bits ++ 1#1) rm
  | .cmpImm cond rn rd rot4 imm8 =>
    armEncoding cond (0b0011010#7 ++ 1#1) rn rd rot4
      (imm8.extractLsb' 4 4) (imm8.extractLsb' 0 4)
  | .cmnShiftImm cond rn rd imm5 ty rm =>
    armEncoding cond (0b0001011#7 ++ 1#1) rn rd (imm5.extractLsb' 1 4)
      (imm5.extractLsb' 0 1 ++ ty.bits ++ 0#1) rm
  | .cmnShiftReg cond rn rd rs ty rm =>
    armEncoding cond (0b0001011#7 ++ 1#1) rn rd rs
      (0#1 ++ ty.bits ++ 1#1) rm
  | .cmnImm cond rn rd rot4 imm8 =>
    armEncoding cond (0b0011011#7 ++ 1#1) rn rd rot4
      (imm8.extractLsb' 4 4) (imm8.extractLsb' 0 4)
  | .orrShiftImm cond S rn rd imm5 ty rm =>
    armEncoding cond (0b0001100#7 ++ bit S) rn rd (imm5.extractLsb' 1 4)
      (imm5.extractLsb' 0 1 ++ ty.bits ++ 0#1) rm
  | .orrShiftReg cond S rn rd rs ty rm =>
    armEncoding cond (0b0001100#7 ++ bit S) rn rd rs
      (0#1 ++ ty.bits ++ 1#1) rm
  | .orrImm cond S rn rd rot4 imm8 =>
    armEncoding cond (0b0011100#7 ++ bit S) rn rd rot4
      (imm8.extractLsb' 4 4) (imm8.extractLsb' 0 4)
  | .movShiftImm cond S rd imm5 ty rm =>
    armEncoding cond (0b0001101#7 ++ bit S) 0#4 rd (imm5.extractLsb' 1 4)
      (imm5.extractLsb' 0 1 ++ ty.bits ++ 0#1) rm
  | .movShiftReg cond S rd rs ty rm =>
    armEncoding cond (0b0001101#7 ++ bit S) 0#4 rd rs
      (0#1 ++ ty.bits ++ 1#1) rm
  | .movImm cond S rd rot4 imm8 =>
    armEncoding cond (0b0011101#7 ++ bit S) 0#4 rd rot4
      (imm8.extractLsb' 4 4) (imm8.extractLsb' 0 4)
  | .bicShiftImm cond S rn rd imm5 ty rm =>
    armEncoding cond (0b0001110#7 ++ bit S) rn rd (imm5.extractLsb' 1 4)
      (imm5.extractLsb' 0 1 ++ ty.bits ++ 0#1) rm
  | .bicShiftReg cond S rn rd rs ty rm =>
    armEncoding cond (0b0001110#7 ++ bit S) rn rd rs
      (0#1 ++ ty.bits ++ 1#1) rm
  | .bicImm cond S rn rd rot4 imm8 =>
    armEncoding cond (0b0011110#7 ++ bit S) rn rd rot4
      (imm8.extractLsb' 4 4) (imm8.extractLsb' 0 4)
  | .mvnShiftImm cond S rd imm5 ty rm =>
    armEncoding cond (0b0001111#7 ++ bit S) 0#4 rd (imm5.extractLsb' 1 4)
      (imm5.extractLsb' 0 1 ++ ty.bits ++ 0#1) rm
  | .mvnShiftReg cond S rd rs ty rm =>
    armEncoding cond (0b0001111#7 ++ bit S) 0#4 rd rs
      (0#1 ++ ty.bits ++ 1#1) rm
  | .mvnImm cond S rd rot4 imm8 =>
    armEncoding cond (0b0011111#7 ++ bit S) 0#4 rd rot4
      (imm8.extractLsb' 4 4) (imm8.extractLsb' 0 4)
  | .mrs cond R rd =>
    armEncoding cond (0b00010#5 ++ bit R ++ 0b00#2) 0#4 rd 0#4
      0b0000#4 0#4
  | .msrReg cond R mask rm =>
    armEncoding cond (0b00010#5 ++ bit R ++ 0b10#2) mask 0#4 0#4
      0b0000#4 rm
  | .msrImm cond R mask rot4 imm8 =>
    armEncoding cond (0b00110#5 ++ bit R ++ 0b10#2) mask 0#4 rot4
      (imm8.extractLsb' 4 4) (imm8.extractLsb' 0 4)
  | .nop cond =>
    armEncoding cond 0b00110010#8 0#4 0#4 0#4
      0b0000#4 0b0000#4
  | .wfi cond =>
    armEncoding cond 0b00110010#8 0#4 0#4 0#4
      0b0000#4 0b0011#4
  | .mul cond S rd rs rm =>
    armEncoding cond (0b0000000#7 ++ bit S) rd 0#4 rs
      0b1001#4 rm
  | .mla cond S rd rn rs rm =>
    armEncoding cond (0b0000001#7 ++ bit S) rd rn rs
      0b1001#4 rm
  | .umull cond S rdHi rdLo rs rm =>
    armEncoding cond (0b0000100#7 ++ bit S) rdHi rdLo rs
      0b1001#4 rm
  | .umlal cond S rdHi rdLo rs rm =>
    armEncoding cond (0b0000101#7 ++ bit S) rdHi rdLo rs
      0b1001#4 rm
  | .smull cond S rdHi rdLo rs rm =>
    armEncoding cond (0b0000110#7 ++ bit S) rdHi rdLo rs
      0b1001#4 rm
  | .smlal cond S rdHi rdLo rs rm =>
    armEncoding cond (0b0000111#7 ++ bit S) rdHi rdLo rs
      0b1001#4 rm
  | .smlaXY cond rd rn rs y x rm =>
    armEncoding cond 0b00010000#8 rd rn rs
      (1#1 ++ bit y ++ bit x ++ 0#1) rm
  | .smlaWY cond rd rn rs y rm =>
    armEncoding cond 0b00010010#8 rd rn rs
      (1#1 ++ bit y ++ 0b00#2) rm
  | .smulWY cond rd rs y rm =>
    armEncoding cond 0b00010010#8 rd 0#4 rs
      (1#1 ++ bit y ++ 0b10#2) rm
  | .smlalXY cond rdHi rdLo rs y x rm =>
    armEncoding cond 0b00010100#8 rdHi rdLo rs
      (1#1 ++ bit y ++ bit x ++ 0#1) rm
  | .smulXY cond rd rs y x rm =>
    armEncoding cond 0b00010110#8 rd 0#4 rs
      (1#1 ++ bit y ++ bit x ++ 0#1) rm
  | .ldrImm cond P U W rn rd imm12 =>
    armEncoding cond (0b010#3 ++ bit P ++ bit U ++ 0#1 ++ bit W ++ 1#1) rn rd (imm12.extractLsb' 8 4)
      (imm12.extractLsb' 4 4) (imm12.extractLsb' 0 4)
  | .ldrReg cond P U W rn rd imm5 ty rm =>
    armEncoding cond (0b011#3 ++ bit P ++ bit U ++ 0#1 ++ bit W ++ 1#1) rn rd (imm5.extractLsb' 1 4)
      (imm5.extractLsb' 0 1 ++ ty.bits ++ 0#1) rm
  | .strImm cond P U W rn rd imm12 =>
    armEncoding cond (0b010#3 ++ bit P ++ bit U ++ 0#1 ++ bit W ++ 0#1) rn rd (imm12.extractLsb' 8 4)
      (imm12.extractLsb' 4 4) (imm12.extractLsb' 0 4)
  | .strReg cond P U W rn rd imm5 ty rm =>
    armEncoding cond (0b011#3 ++ bit P ++ bit U ++ 0#1 ++ bit W ++ 0#1) rn rd (imm5.extractLsb' 1 4)
      (imm5.extractLsb' 0 1 ++ ty.bits ++ 0#1) rm
  | .ldrbImm cond P U W rn rd imm12 =>
    armEncoding cond (0b010#3 ++ bit P ++ bit U ++ 1#1 ++ bit W ++ 1#1) rn rd (imm12.extractLsb' 8 4)
      (imm12.extractLsb' 4 4) (imm12.extractLsb' 0 4)
  | .ldrbReg cond P U W rn rd imm5 ty rm =>
    armEncoding cond (0b011#3 ++ bit P ++ bit U ++ 1#1 ++ bit W ++ 1#1) rn rd (imm5.extractLsb' 1 4)
      (imm5.extractLsb' 0 1 ++ ty.bits ++ 0#1) rm
  | .strbImm cond P U W rn rd imm12 =>
    armEncoding cond (0b010#3 ++ bit P ++ bit U ++ 1#1 ++ bit W ++ 0#1) rn rd (imm12.extractLsb' 8 4)
      (imm12.extractLsb' 4 4) (imm12.extractLsb' 0 4)
  | .strbReg cond P U W rn rd imm5 ty rm =>
    armEncoding cond (0b011#3 ++ bit P ++ bit U ++ 1#1 ++ bit W ++ 0#1) rn rd (imm5.extractLsb' 1 4)
      (imm5.extractLsb' 0 1 ++ ty.bits ++ 0#1) rm
  | .strhReg cond P U W rn rd rm =>
    armEncoding cond (0b000#3 ++ bit P ++ bit U ++ 0#1 ++ bit W ++ 0#1) rn rd 0#4
      0b1011#4 rm
  | .strhImm cond P U W rn rd imm8 =>
    armEncoding cond (0b000#3 ++ bit P ++ bit U ++ 1#1 ++ bit W ++ 0#1) rn rd (imm8.extractLsb' 4 4)
      0b1011#4 (imm8.extractLsb' 0 4)
  | .ldrhReg cond P U W rn rd rm =>
    armEncoding cond (0b000#3 ++ bit P ++ bit U ++ 0#1 ++ bit W ++ 1#1) rn rd 0#4
      0b1011#4 rm
  | .ldrhImm cond P U W rn rd imm8 =>
    armEncoding cond (0b000#3 ++ bit P ++ bit U ++ 1#1 ++ bit W ++ 1#1) rn rd (imm8.extractLsb' 4 4)
      0b1011#4 (imm8.extractLsb' 0 4)
  | .ldrsbReg cond P U W rn rd rm =>
    armEncoding cond (0b000#3 ++ bit P ++ bit U ++ 0#1 ++ bit W ++ 1#1) rn rd 0#4
      0b1101#4 rm
  | .ldrsbImm cond P U W rn rd imm8 =>
    armEncoding cond (0b000#3 ++ bit P ++ bit U ++ 1#1 ++ bit W ++ 1#1) rn rd (imm8.extractLsb' 4 4)
      0b1101#4 (imm8.extractLsb' 0 4)
  | .ldrshReg cond P U W rn rd rm =>
    armEncoding cond (0b000#3 ++ bit P ++ bit U ++ 0#1 ++ bit W ++ 1#1) rn rd 0#4
      0b1111#4 rm
  | .ldrshImm cond P U W rn rd imm8 =>
    armEncoding cond (0b000#3 ++ bit P ++ bit U ++ 1#1 ++ bit W ++ 1#1) rn rd (imm8.extractLsb' 4 4)
      0b1111#4 (imm8.extractLsb' 0 4)
  | .ldrdReg cond P U W rn rd rm =>
    armEncoding cond (0b000#3 ++ bit P ++ bit U ++ 0#1 ++ bit W ++ 0#1) rn rd 0#4
      0b1101#4 rm
  | .ldrdImm cond P U W rn rd imm8 =>
    armEncoding cond (0b000#3 ++ bit P ++ bit U ++ 1#1 ++ bit W ++ 0#1) rn rd (imm8.extractLsb' 4 4)
      0b1101#4 (imm8.extractLsb' 0 4)
  | .strdReg cond P U W rn rd rm =>
    armEncoding cond (0b000#3 ++ bit P ++ bit U ++ 0#1 ++ bit W ++ 0#1) rn rd 0#4
      0b1111#4 rm
  | .strdImm cond P U W rn rd imm8 =>
    armEncoding cond (0b000#3 ++ bit P ++ bit U ++ 1#1 ++ bit W ++ 0#1) rn rd (imm8.extractLsb' 4 4)
      0b1111#4 (imm8.extractLsb' 0 4)
  | .swp cond rn rd rm =>
    armEncoding cond 0b00010000#8 rn rd 0#4
      0b1001#4 rm
  | .swpb cond rn rd rm =>
    armEncoding cond 0b00010100#8 rn rd 0#4
      0b1001#4 rm
  | .ldm cond P U S W rn list =>
    armEncoding cond (0b100#3 ++ bit P ++ bit U ++ bit S ++ bit W ++ 1#1) rn (list.extractLsb' 12 4) (list.extractLsb' 8 4)
      (list.extractLsb' 4 4) (list.extractLsb' 0 4)
  | .stm cond P U S W rn list =>
    armEncoding cond (0b100#3 ++ bit P ++ bit U ++ bit S ++ bit W ++ 0#1) rn (list.extractLsb' 12 4) (list.extractLsb' 8 4)
      (list.extractLsb' 4 4) (list.extractLsb' 0 4)
  | .b cond imm24 =>
    armEncoding cond (0b1010#4 ++ imm24.extractLsb' 20 4) (imm24.extractLsb' 16 4) (imm24.extractLsb' 12 4) (imm24.extractLsb' 8 4)
      (imm24.extractLsb' 4 4) (imm24.extractLsb' 0 4)
  | .bl cond imm24 =>
    armEncoding cond (0b1011#4 ++ imm24.extractLsb' 20 4) (imm24.extractLsb' 16 4) (imm24.extractLsb' 12 4) (imm24.extractLsb' 8 4)
      (imm24.extractLsb' 4 4) (imm24.extractLsb' 0 4)
  | .bx cond rm =>
    armEncoding cond 0b00010010#8 0#4 0#4 0#4
      0b0001#4 rm
  | .blxReg cond rm =>
    armEncoding cond 0b00010010#8 0#4 0#4 0#4
      0b0011#4 rm
  | .blxImm H imm24 =>
    nvEncoding (0b101#3 ++ bit H ++ imm24.extractLsb' 20 4) (imm24.extractLsb' 16 4) (imm24.extractLsb' 12 4) (imm24.extractLsb' 8 4)
      (imm24.extractLsb' 4 4) (imm24.extractLsb' 0 4)
  | .clz cond rd rm =>
    armEncoding cond 0b00010110#8 0#4 rd 0#4
      0b0001#4 rm
  | .qadd cond rn rd rm =>
    armEncoding cond 0b00010000#8 rn rd 0#4
      0b0101#4 rm
  | .qsub cond rn rd rm =>
    armEncoding cond 0b00010010#8 rn rd 0#4
      0b0101#4 rm
  | .qdadd cond rn rd rm =>
    armEncoding cond 0b00010100#8 rn rd 0#4
      0b0101#4 rm
  | .qdsub cond rn rd rm =>
    armEncoding cond 0b00010110#8 rn rd 0#4
      0b0101#4 rm
  | .swi cond imm24 =>
    armEncoding cond (0b1111#4 ++ imm24.extractLsb' 20 4) (imm24.extractLsb' 16 4) (imm24.extractLsb' 12 4) (imm24.extractLsb' 8 4)
      (imm24.extractLsb' 4 4) (imm24.extractLsb' 0 4)
  | .mcr cond opc1 crn rd cp opc2 crm =>
    armEncoding cond (0b1110#4 ++ opc1 ++ 0#1) crn rd cp
      (opc2 ++ 1#1) crm
  | .mrc cond opc1 crn rd cp opc2 crm =>
    armEncoding cond (0b1110#4 ++ opc1 ++ 1#1) crn rd cp
      (opc2 ++ 1#1) crm
  | .hintOther cond imm8 =>
    armEncoding cond 0b00110010#8 0#4 0#4 0#4
      (imm8.extractLsb' 4 4) (imm8.extractLsb' 0 4)
  | .undMultiply cond =>
    armEncoding cond 0b00000100#8 0#4 0#4 0#4
      0b1001#4 0#4
  | .undSwapLoad cond =>
    armEncoding cond 0b00010001#8 0#4 0#4 0#4
      0b1001#4 0#4
  | .undSwapWide cond =>
    armEncoding cond 0b00011000#8 0#4 0#4 0#4
      0b1001#4 0#4
  | .undSwapOdd cond =>
    armEncoding cond 0b00010010#8 0#4 0#4 0#4
      0b1001#4 0#4
  | .undMiscBranch cond =>
    armEncoding cond 0b00010000#8 0#4 0#4 0#4
      0b0001#4 0#4
  | .undMiscClz cond =>
    armEncoding cond 0b00010110#8 0#4 0#4 0#4
      0b0011#4 0#4
  | .undMiscTwo cond =>
    armEncoding cond 0b00010000#8 0#4 0#4 0#4
      0b0010#4 0#4
  | .undMiscFourSix cond =>
    armEncoding cond 0b00010000#8 0#4 0#4 0#4
      0b0100#4 0#4
  | .undMiscSeven cond =>
    armEncoding cond 0b00010000#8 0#4 0#4 0#4
      0b0111#4 0#4
  | .undCompareImm cond =>
    armEncoding cond 0b00110000#8 0#4 0#4 0#4
      0b0000#4 0#4
  | .undMedia cond =>
    armEncoding cond 0b01100000#8 0#4 0#4 0#4
      0b0001#4 0#4
  | .undCoprocTransfer cond =>
    armEncoding cond 0b11000000#8 0#4 0#4 0#4
      0b0000#4 0#4
  | .undCoprocOp cond =>
    armEncoding cond 0b11100000#8 0#4 0#4 0#4
      0b0000#4 0#4
  | .undNvLow =>
    nvEncoding 0b00000000#8 0#4 0#4 0#4
      0#4 0#4
  | .undNvCoproc =>
    nvEncoding 0b11000000#8 0#4 0#4 0#4
      0#4 0#4
  | .undNvBlock =>
    nvEncoding 0b10000000#8 0#4 0#4 0#4
      0#4 0#4
  | .tLslImm imm5 rs rd =>
    thumbEncoding (0b00000#5 ++ imm5) rs rd
  | .tLsrImm imm5 rs rd =>
    thumbEncoding (0b00001#5 ++ imm5) rs rd
  | .tAsrImm imm5 rs rd =>
    thumbEncoding (0b00010#5 ++ imm5) rs rd
  | .tAddReg rn rs rd =>
    thumbEncoding (0b0001100#7 ++ rn) rs rd
  | .tSubReg rn rs rd =>
    thumbEncoding (0b0001101#7 ++ rn) rs rd
  | .tAddImm3 imm3 rs rd =>
    thumbEncoding (0b0001110#7 ++ imm3) rs rd
  | .tSubImm3 imm3 rs rd =>
    thumbEncoding (0b0001111#7 ++ imm3) rs rd
  | .tMovImm rd imm8 =>
    thumbEncoding (0b00100#5 ++ rd ++ imm8.extractLsb' 6 2) (imm8.extractLsb' 3 3) (imm8.extractLsb' 0 3)
  | .tCmpImm rd imm8 =>
    thumbEncoding (0b00101#5 ++ rd ++ imm8.extractLsb' 6 2) (imm8.extractLsb' 3 3) (imm8.extractLsb' 0 3)
  | .tAddImm8 rd imm8 =>
    thumbEncoding (0b00110#5 ++ rd ++ imm8.extractLsb' 6 2) (imm8.extractLsb' 3 3) (imm8.extractLsb' 0 3)
  | .tSubImm8 rd imm8 =>
    thumbEncoding (0b00111#5 ++ rd ++ imm8.extractLsb' 6 2) (imm8.extractLsb' 3 3) (imm8.extractLsb' 0 3)
  | .tAnd rs rd =>
    thumbEncoding 0b0100000000#10 rs rd
  | .tEor rs rd =>
    thumbEncoding 0b0100000001#10 rs rd
  | .tLslReg rs rd =>
    thumbEncoding 0b0100000010#10 rs rd
  | .tLsrReg rs rd =>
    thumbEncoding 0b0100000011#10 rs rd
  | .tAsrReg rs rd =>
    thumbEncoding 0b0100000100#10 rs rd
  | .tAdc rs rd =>
    thumbEncoding 0b0100000101#10 rs rd
  | .tSbc rs rd =>
    thumbEncoding 0b0100000110#10 rs rd
  | .tRor rs rd =>
    thumbEncoding 0b0100000111#10 rs rd
  | .tTst rs rd =>
    thumbEncoding 0b0100001000#10 rs rd
  | .tNeg rs rd =>
    thumbEncoding 0b0100001001#10 rs rd
  | .tCmpReg rs rd =>
    thumbEncoding 0b0100001010#10 rs rd
  | .tCmn rs rd =>
    thumbEncoding 0b0100001011#10 rs rd
  | .tOrr rs rd =>
    thumbEncoding 0b0100001100#10 rs rd
  | .tMul rs rd =>
    thumbEncoding 0b0100001101#10 rs rd
  | .tBic rs rd =>
    thumbEncoding 0b0100001110#10 rs rd
  | .tMvn rs rd =>
    thumbEncoding 0b0100001111#10 rs rd
  | .tAddHi rs rd =>
    thumbEncoding (0b01000100#8 ++ rd.extractLsb' 3 1 ++ rs.extractLsb' 3 1) (rs.extractLsb' 0 3) (rd.extractLsb' 0 3)
  | .tCmpHi rs rd =>
    thumbEncoding (0b01000101#8 ++ rd.extractLsb' 3 1 ++ rs.extractLsb' 3 1) (rs.extractLsb' 0 3) (rd.extractLsb' 0 3)
  | .tMovHi rs rd =>
    thumbEncoding (0b01000110#8 ++ rd.extractLsb' 3 1 ++ rs.extractLsb' 3 1) (rs.extractLsb' 0 3) (rd.extractLsb' 0 3)
  | .tBx rs =>
    thumbEncoding (0b010001110#9 ++ rs.extractLsb' 3 1) (rs.extractLsb' 0 3) 0#3
  | .tBlxReg rs =>
    thumbEncoding (0b010001111#9 ++ rs.extractLsb' 3 1) (rs.extractLsb' 0 3) 0#3
  | .tLdrPc rd imm8 =>
    thumbEncoding (0b01001#5 ++ rd ++ imm8.extractLsb' 6 2) (imm8.extractLsb' 3 3) (imm8.extractLsb' 0 3)
  | .tStrReg ro rb rd =>
    thumbEncoding (0b0101000#7 ++ ro) rb rd
  | .tStrbReg ro rb rd =>
    thumbEncoding (0b0101010#7 ++ ro) rb rd
  | .tLdrReg ro rb rd =>
    thumbEncoding (0b0101100#7 ++ ro) rb rd
  | .tLdrbReg ro rb rd =>
    thumbEncoding (0b0101110#7 ++ ro) rb rd
  | .tStrhReg ro rb rd =>
    thumbEncoding (0b0101001#7 ++ ro) rb rd
  | .tLdsb ro rb rd =>
    thumbEncoding (0b0101011#7 ++ ro) rb rd
  | .tLdrhReg ro rb rd =>
    thumbEncoding (0b0101101#7 ++ ro) rb rd
  | .tLdsh ro rb rd =>
    thumbEncoding (0b0101111#7 ++ ro) rb rd
  | .tStrImm imm5 rb rd =>
    thumbEncoding (0b01100#5 ++ imm5) rb rd
  | .tLdrImm imm5 rb rd =>
    thumbEncoding (0b01101#5 ++ imm5) rb rd
  | .tStrbImm imm5 rb rd =>
    thumbEncoding (0b01110#5 ++ imm5) rb rd
  | .tLdrbImm imm5 rb rd =>
    thumbEncoding (0b01111#5 ++ imm5) rb rd
  | .tStrhImm imm5 rb rd =>
    thumbEncoding (0b10000#5 ++ imm5) rb rd
  | .tLdrhImm imm5 rb rd =>
    thumbEncoding (0b10001#5 ++ imm5) rb rd
  | .tStrSp rd imm8 =>
    thumbEncoding (0b10010#5 ++ rd ++ imm8.extractLsb' 6 2) (imm8.extractLsb' 3 3) (imm8.extractLsb' 0 3)
  | .tLdrSp rd imm8 =>
    thumbEncoding (0b10011#5 ++ rd ++ imm8.extractLsb' 6 2) (imm8.extractLsb' 3 3) (imm8.extractLsb' 0 3)
  | .tAddPc rd imm8 =>
    thumbEncoding (0b10100#5 ++ rd ++ imm8.extractLsb' 6 2) (imm8.extractLsb' 3 3) (imm8.extractLsb' 0 3)
  | .tAddSp rd imm8 =>
    thumbEncoding (0b10101#5 ++ rd ++ imm8.extractLsb' 6 2) (imm8.extractLsb' 3 3) (imm8.extractLsb' 0 3)
  | .tAdjustSp sub imm7 =>
    thumbEncoding (0b10110000#8 ++ bit sub ++ imm7.extractLsb' 6 1) (imm7.extractLsb' 3 3) (imm7.extractLsb' 0 3)
  | .tPush r list =>
    thumbEncoding (0b1011010#7 ++ bit r ++ list.extractLsb' 6 2) (list.extractLsb' 3 3) (list.extractLsb' 0 3)
  | .tPop r list =>
    thumbEncoding (0b1011110#7 ++ bit r ++ list.extractLsb' 6 2) (list.extractLsb' 3 3) (list.extractLsb' 0 3)
  | .tStmia rb list =>
    thumbEncoding (0b11000#5 ++ rb ++ list.extractLsb' 6 2) (list.extractLsb' 3 3) (list.extractLsb' 0 3)
  | .tLdmia rb list =>
    thumbEncoding (0b11001#5 ++ rb ++ list.extractLsb' 6 2) (list.extractLsb' 3 3) (list.extractLsb' 0 3)
  | .tBeq imm8 =>
    thumbEncoding (0b11010000#8 ++ imm8.extractLsb' 6 2) (imm8.extractLsb' 3 3) (imm8.extractLsb' 0 3)
  | .tBne imm8 =>
    thumbEncoding (0b11010001#8 ++ imm8.extractLsb' 6 2) (imm8.extractLsb' 3 3) (imm8.extractLsb' 0 3)
  | .tBcs imm8 =>
    thumbEncoding (0b11010010#8 ++ imm8.extractLsb' 6 2) (imm8.extractLsb' 3 3) (imm8.extractLsb' 0 3)
  | .tBcc imm8 =>
    thumbEncoding (0b11010011#8 ++ imm8.extractLsb' 6 2) (imm8.extractLsb' 3 3) (imm8.extractLsb' 0 3)
  | .tBmi imm8 =>
    thumbEncoding (0b11010100#8 ++ imm8.extractLsb' 6 2) (imm8.extractLsb' 3 3) (imm8.extractLsb' 0 3)
  | .tBpl imm8 =>
    thumbEncoding (0b11010101#8 ++ imm8.extractLsb' 6 2) (imm8.extractLsb' 3 3) (imm8.extractLsb' 0 3)
  | .tBvs imm8 =>
    thumbEncoding (0b11010110#8 ++ imm8.extractLsb' 6 2) (imm8.extractLsb' 3 3) (imm8.extractLsb' 0 3)
  | .tBvc imm8 =>
    thumbEncoding (0b11010111#8 ++ imm8.extractLsb' 6 2) (imm8.extractLsb' 3 3) (imm8.extractLsb' 0 3)
  | .tBhi imm8 =>
    thumbEncoding (0b11011000#8 ++ imm8.extractLsb' 6 2) (imm8.extractLsb' 3 3) (imm8.extractLsb' 0 3)
  | .tBls imm8 =>
    thumbEncoding (0b11011001#8 ++ imm8.extractLsb' 6 2) (imm8.extractLsb' 3 3) (imm8.extractLsb' 0 3)
  | .tBge imm8 =>
    thumbEncoding (0b11011010#8 ++ imm8.extractLsb' 6 2) (imm8.extractLsb' 3 3) (imm8.extractLsb' 0 3)
  | .tBlt imm8 =>
    thumbEncoding (0b11011011#8 ++ imm8.extractLsb' 6 2) (imm8.extractLsb' 3 3) (imm8.extractLsb' 0 3)
  | .tBgt imm8 =>
    thumbEncoding (0b11011100#8 ++ imm8.extractLsb' 6 2) (imm8.extractLsb' 3 3) (imm8.extractLsb' 0 3)
  | .tBle imm8 =>
    thumbEncoding (0b11011101#8 ++ imm8.extractLsb' 6 2) (imm8.extractLsb' 3 3) (imm8.extractLsb' 0 3)
  | .tSwi imm8 =>
    thumbEncoding (0b11011111#8 ++ imm8.extractLsb' 6 2) (imm8.extractLsb' 3 3) (imm8.extractLsb' 0 3)
  | .tB imm11 =>
    thumbEncoding (0b11100#5 ++ imm11.extractLsb' 6 5) (imm11.extractLsb' 3 3) (imm11.extractLsb' 0 3)
  | .tBlFirst imm11 =>
    thumbEncoding (0b11110#5 ++ imm11.extractLsb' 6 5) (imm11.extractLsb' 3 3) (imm11.extractLsb' 0 3)
  | .tBlSecond imm11 =>
    thumbEncoding (0b11111#5 ++ imm11.extractLsb' 6 5) (imm11.extractLsb' 3 3) (imm11.extractLsb' 0 3)
  | .tBlxSecond imm11 =>
    thumbEncoding (0b11101#5 ++ imm11.extractLsb' 6 5) (imm11.extractLsb' 3 3) (imm11.extractLsb' 0 3)
  | .tUndB1 =>
    thumbEncoding 0b1011000100#10 0#3 0#3
  | .tUndB2 =>
    thumbEncoding 0b1011001000#10 0#3 0#3
  | .tUndB6 =>
    thumbEncoding 0b1011011000#10 0#3 0#3
  | .tUndB8 =>
    thumbEncoding 0b1011100000#10 0#3 0#3
  | .tUndBE =>
    thumbEncoding 0b1011111000#10 0#3 0#3
  | .tUndDE =>
    thumbEncoding 0b1101111000#10 0#3 0#3

/-- The bytes of an encoding in memory, little-endian (20_memory.md R74). -/
def Encoding.bytes : Encoding → List Byte
  | .arm w => bytesOfNat 4 w.toNat
  | .thumb h => bytesOfNat 2 h.toNat

/-- Is the encoding a Thumb word? -/
def Encoding.isThumb : Encoding → Bool
  | .arm _ => false
  | .thumb _ => true

/-- The instruction an encoding holds. -/
def Encoding.decode : Encoding → Option Instr
  | .arm w => decodeArm w
  | .thumb h => decodeThumb h

end Sys2Proof
end

