-- ==== Sys2Proof/Machine/State.lean ====
section
/-! DEFINITION. The state of the machine as plain data, the reasons a step can stop, and the state after
reset (10_state.md). -/
namespace Sys2Proof.Machine

/-- One value for each core. -/
structure PerCore (α : Type) where
  arm9 : α
  arm7 : α
  deriving DecidableEq, Repr

/-- The value of core `c`. -/
def PerCore.get {α : Type} (p : PerCore α) : CoreId → α
  | .arm9 => p.arm9
  | .arm7 => p.arm7

/-- Replace the value of core `c`. -/
def PerCore.set {α : Type} (p : PerCore α) (c : CoreId) (v : α) : PerCore α :=
  match c with
  | .arm9 => { p with arm9 := v }
  | .arm7 => { p with arm7 := v }

/-- What one core owns (R20). `regs` holds the 30 banked words of R21 in the slots 0 to 7 (`r0` to `r7`),
8 to 12 (`r8` to `r12`), 13 to 17 (`r8_fiq` to `r12_fiq`), 18 to 23 (`r13` of usr, fiq, irq, svc, abt, und)
and 24 to 29 (`r14` of the same banks); `spsr` holds those of fiq, irq, svc, abt, und (R34). -/
structure Cpu where
  regs : Vector Word 30
  /-- the program counter, pipeline-ahead (R26) -/
  r15 : Word
  /-- the current status word (R30) -/
  cpsr : Word
  spsr : Vector Word 5
  /-- the opcode that will execute next (R29) -/
  pipe0 : Word
  /-- the opcode after it (R29) -/
  pipe1 : Word
  /-- waiting for an interrupt (R36) -/
  waiting : Bool
  /-- the cycle counter (R37) -/
  cyc : Cycles
  /-- the open-bus latch (R39) -/
  lastFetch : Word
  deriving DecidableEq, Repr

/-- The interrupt controller of one core (R40). -/
structure IrqCtl where
  /-- `IE`, the enable mask -/
  ie : Word
  /-- `IF`, the request latch -/
  iff : Word
  /-- `IME`, the master enable -/
  ime : Bool
  deriving DecidableEq, Repr

/-- One core's side of the inter-processor communication unit (R41). -/
structure IpcSide where
  /-- the words the core has sent and its peer has not yet received, oldest first -/
  q : List Word
  err : Bool
  en : Bool
  ieSendEmpty : Bool
  ieRecvNonempty : Bool
  recvLatch : Word
  syncOut : BitVec 4
  syncIe : Bool
  deriving DecidableEq, Repr

/-- The opaque handle of a scheduled event (60_exceptions.md R562, R563): a token of before a reset of the
scheduler is never equal to one of after it. -/
structure Token where
  /-- how many resets the scheduler had seen -/
  epoch : Nat
  /-- the insertion number -/
  seq : Nat
  deriving DecidableEq, Repr

/-- A scheduled event (R560). `action` is an agent's own label (R570). -/
structure Event where
  time : Cycles
  seq : Nat
  token : Token
  action : Nat
  deriving DecidableEq, Repr

/-- The event scheduler (R42). `events` is kept sorted by `(time, seq)`. -/
structure Sched where
  now : Cycles
  horizon : Cycles
  nextSeq : Nat
  events : List Event
  /-- the model's own: how many resets there were (R561, log 25) -/
  epoch : Nat
  deriving DecidableEq, Repr

/-- The CP15 port state (R44) as the words last written to the three registers of the default mapping
(60_exceptions.md R590). -/
structure Cp15 where
  control : Word
  dtcm : Word
  itcm : Word
  deriving DecidableEq, Repr

/-- The memory arrays behind the RAM and ROM regions (R43). -/
inductive MemArray where
  | mainRam | swram | wram7 | itcm | dtcm | bootRom9 | bootRom7
  deriving DecidableEq, Repr

/-- The contents of the arrays: of each, the listed bytes by offset. Every list is canonical: offsets
strictly rise, and no listed byte is what an unlisted one reads as (`Memory.wf`). -/
structure Memory where
  mainRam : List Host.Cell
  swram : List Host.Cell
  wram7 : List Host.Cell
  itcm : List Host.Cell
  dtcm : List Host.Cell
  bootRom9 : List Host.Cell
  bootRom7 : List Host.Cell
  deriving DecidableEq, Repr

/-- One act of an external agent (60_exceptions.md R577). -/
inductive AgentAct where
  /-- `Raise(c, source)` -/
  | raise (c : CoreId) (source : BitVec 5)
  /-- `Sched.Add(delta, action)` -/
  | add (delta : Int) (action : Nat)
  /-- `Sched.Cancel(token)` -/
  | cancel (token : Token)
  /-- a bus master's read on the bus of core `c` -/
  | busRead (c : CoreId) (addr : Word) (w : Width)
  /-- a bus master's write on the bus of core `c` -/
  | busWrite (c : CoreId) (addr : Word) (w : Width) (v : Word)
  deriving DecidableEq, Repr

/-- A call of the facade by the host, or what agents do between two calls (R575, R577, R578). -/
inductive HostCall where
  | reset
  | loadBootRom9 (image : List Byte)
  | loadBootRom7 (image : List Byte)
  | loadRom (bytes : List Byte)
  | directBoot
  /-- `Step(n)` -/
  | step (n : Cycles)
  /-- acts of external agents between two facade calls -/
  | agents (acts : List AgentAct)
  deriving DecidableEq, Repr

/-- Where the facade stands in the loop of `Step(N)` (R575). -/
inductive Phase where
  /-- between two facade calls -/
  | idle
  /-- about to give the first (or, with `second`, the second) core its slice -/
  | slice (second : Bool)
  /-- inside `CpuRun` of that core, with the budget that is left (40_execution_and_shifter.md R170) -/
  | run (second : Bool) (budget : Cycles)
  /-- inside `Sched.Run(limit)` (R566) -/
  | fire (limit : Cycles)
  deriving DecidableEq, Repr

/-- Which core the send-FIFO-empty interrupt is raised on after a pop (`POP_IRQ_TARGET`, R550). -/
inductive IrqTarget where
  | reader | sender
  deriving DecidableEq, Repr

/-- The whole state of the machine. -/
structure State where
  cpu : PerCore Cpu
  irq : PerCore IrqCtl
  ipc : PerCore IpcSide
  sched : Sched
  cp15 : Cp15
  mem : Memory
  /-- the boot-ROM mapping is inert (R43) -/
  bootromInert : Bool
  /-- the attached ROM (70_reset_and_hazards.md R603) -/
  rom : List Byte
  /-- the core that runs -/
  current : CoreId
  phase : Phase
  /-- `FIRST_CORE` (00_scope.md R7, log 4) -/
  firstCore : CoreId
  /-- `POP_IRQ_TARGET` (00_scope.md R7, log 5) -/
  popIrqTarget : IrqTarget
  /-- how many free values have been drawn (log 21) -/
  draws : Nat
  /-- what the external agents will do, one list of acts for each of their next points (log 6) -/
  agentTape : List (List AgentAct)
  /-- the calls the host will make next (log 8) -/
  hostCalls : List HostCall
  /-- the `N` of the `Step(N)` the host makes when it has no other call to make (log 8) -/
  quantum : Cycles
  deriving DecidableEq, Repr

/-- `Panic(reason)`: the fatal outcome (60_exceptions.md R510). It is behaviour of the hardware, so a stop
here is where the hardware stops too: safe. -/
inductive Fault where
  /-- An undefined ARM or Thumb encoding, or one the core's model lacks, whose condition passes, and LDRD
  or STRD with an odd register (R140, R141, R153, R319). Safe. -/
  | undefinedInstruction
  /-- A word of the NV space other than BLX, on the ARM9 core (R124). Safe. -/
  | unimplementedNv
  /-- A hint number other than 0 and 3 (R142). Safe. -/
  | unimplementedHint
  /-- A write that would put no valid mode in `CPSR.M`: MSR, or a copy of an SPSR (R23). Safe. -/
  | invalidMode
  /-- A block transfer with an empty list on the ARM9 core (R343, R479). Safe. -/
  | emptyRegisterList
  /-- MCR or MRC to a coprocessor the core has not (R397). Safe. -/
  | unknownCoprocessor
  /-- `DirectBoot()` with a malformed header (70_reset_and_hazards.md R604). Safe. -/
  | malformedRomHeader
  deriving DecidableEq, Repr

/-- `refuse`: the spec gives the case no outcome (00_scope.md R10, list U1 of
93_implementation_defined.md). The model stops where the hardware may go on: safe. -/
inductive Refusal where
  /-- An instruction whose meaning has not been written. Safe. -/
  | notModelled (mnemonic : String)
  /-- A register-specified shift whose amount is in `r15` (U1-1, R183). Safe. -/
  | shiftAmountR15
  /-- A comparison whose `Rd` field is 15 (U1-2, R214, R444). Safe. -/
  | compareR15
  /-- A copy of the SPSR in User or System mode (U1-3, U1-13, R213, R347). Safe. -/
  | spsrInUserMode
  /-- An MSR that changes `CPSR.T` (U1-4, R251). Safe. -/
  | msrChangesT
  /-- MRS to `r15` (U1-5, R252). Safe. -/
  | mrsR15
  /-- A multiply that names `r15` (U1-6, R271). Safe. -/
  | multiplyR15
  /-- A long multiply with `RdHi = RdLo` (U1-6, R271). Safe. -/
  | multiplySameHiLo
  /-- A transfer that would write back to `r15` (U1-7, R302). Safe. -/
  | writebackR15
  /-- A transfer whose offset register is `r15` (U1-7, R302, R310). Safe. -/
  | offsetR15
  /-- A byte or halfword load to `r15` (U1-8, R304). Safe. -/
  | narrowLoadR15
  /-- LDRD or STRD with `Rd = 14` (U1-9, R319). Safe. -/
  | doubleR14
  /-- A swap that names `r15` (U1-10, R329). Safe. -/
  | swapR15
  /-- A block transfer whose base is `r15` (U1-11, R340). Safe. -/
  | blockBaseR15
  /-- A user-bank block transfer with writeback (U1-12, R346). Safe. -/
  | blockUserWriteback
  /-- A block transfer with an empty list and the S bit on the ARM7 core (U1-14, R343). Safe. -/
  | blockEmptyUser
  /-- BLX through `r15` (U1-15, R377, R447). Safe. -/
  | blxR15
  /-- CLZ that names `r15` (U1-16, R380). Safe. -/
  | clzR15
  /-- A saturating instruction that names `r15` (U1-16, R381). Safe. -/
  | saturatingR15
  /-- MRC to `r15` (U1-17, R396). Safe. -/
  | mrcR15
  /-- A push or pop by a core whose FIFO is not enabled (U1-18, R545). Safe. -/
  | fifoDisabled
  /-- An event whose time would not fit in 64 bits (U1-19, R562). Safe. -/
  | timestampOverflow
  /-- A boot image of the wrong length (U1-20, R602). Safe. -/
  | bootImageLength
  /-- `Step(N)` whose horizon would not fit in 64 bits (log 14). Safe. -/
  | horizonOverflow
  deriving DecidableEq, Repr

/-- A core after reset, entered at the vector of `base` with the two fetched words `w0` and `w1`
(R46, 70_reset_and_hazards.md R600). -/
def Cpu.atReset (base w0 w1 : Word) : Cpu :=
  { regs := Vector.replicate 30 Config.resetGpr, r15 := base + 8, cpsr := 0x000000D3,
    spsr := Vector.replicate 5 Config.resetGpr, pipe0 := w0, pipe1 := w1, waiting := false,
    cyc := 0, lastFetch := w1 }

/-- A word whose four bytes nothing has written (log 3). -/
def freshWord : Word :=
  Config.freshByte ++ Config.freshByte ++ Config.freshByte ++ Config.freshByte

/-- `CP15` after reset: `V = V_reset` (bit 13) and both TCMs disabled (R46, log 2). -/
def Cp15.atReset : Cp15 :=
  { control := if Config.vReset then 0x2000 else 0, dtcm := 0, itcm := 0 }

/-- An interrupt controller after reset (R46). -/
def IrqCtl.atReset : IrqCtl := { ie := 0, iff := 0, ime := false }

/-- One side of the IPC unit after reset (R46). -/
def IpcSide.atReset : IpcSide :=
  { q := [], err := false, en := false, ieSendEmpty := false, ieRecvNonempty := false, recvLatch := 0,
    syncOut := 0, syncIe := false }

/-- The scheduler after its `epoch`-th reset (R46, R561). -/
def Sched.atReset (epoch : Nat) : Sched :=
  { now := 0, horizon := 0, nextSeq := 0, events := [], epoch := epoch }

/-- Memory in which nothing has been written. -/
def Memory.fresh : Memory :=
  { mainRam := [], swram := [], wram7 := [], itcm := [], dtcm := [], bootRom9 := [], bootRom7 := [] }

/-- The machine right after `Reset()` with nothing written to memory and no boot image loaded
(R46, 70_reset_and_hazards.md R600). -/
def State.reset : State :=
  { cpu :=
      { arm9 := Cpu.atReset (if Config.vReset then 0xFFFF0000 else 0) freshWord freshWord
        arm7 := Cpu.atReset 0 freshWord freshWord }
    irq := { arm9 := IrqCtl.atReset, arm7 := IrqCtl.atReset }
    ipc := { arm9 := IpcSide.atReset, arm7 := IpcSide.atReset }
    sched := Sched.atReset 0
    cp15 := Cp15.atReset
    mem := Memory.fresh
    bootromInert := false
    rom := []
    current := .arm9
    phase := .idle
    firstCore := .arm9
    popIrqTarget := .reader
    draws := 0
    agentTape := []
    hostCalls := []
    quantum := 1 }

end Sys2Proof.Machine
end

