-- ==== Sys2Proof/Machine/Mem.lean ====
section
/-! DEFINITION. The memory arrays: canonical lists of cells, read and written by byte, half and word,
little-endian (20_memory.md R74, R82). -/
namespace Sys2Proof.Machine

/-- The byte at offset `a` of a list of cells. -/
def cellRead : List Host.Cell → Nat → Byte
  | [], _ => Config.freshByte
  | (k, v) :: rest, a => if k = a then v else cellRead rest a

/-- Write the byte `v` at offset `a`, keeping the list canonical. -/
def cellWrite : List Host.Cell → Nat → Byte → List Host.Cell
  | [], a, v => if v = Config.freshByte then [] else [(a, v)]
  | (k, w) :: rest, a, v =>
    if k < a then (k, w) :: cellWrite rest a v
    else if k = a then (if v = Config.freshByte then rest else (a, v) :: rest)
    else if v = Config.freshByte then (k, w) :: rest
    else (a, v) :: (k, w) :: rest

/-- The list is canonical and lists no offset below `low`. -/
def cellsWfFrom : Nat → List Host.Cell → Bool
  | _, [] => true
  | low, (k, v) :: rest => decide (low ≤ k) && v != Config.freshByte && cellsWfFrom (k + 1) rest

/-- The cells of a boot image that starts at offset `off`. -/
def cellsOfBytes : Nat → List Byte → List Host.Cell
  | _, [] => []
  | off, b :: rest =>
    if b = Config.freshByte then cellsOfBytes (off + 1) rest
    else (off, b) :: cellsOfBytes (off + 1) rest

/-- The cells of an array. -/
def Memory.cells (m : Memory) : MemArray → List Host.Cell
  | .mainRam => m.mainRam
  | .swram => m.swram
  | .wram7 => m.wram7
  | .itcm => m.itcm
  | .dtcm => m.dtcm
  | .bootRom9 => m.bootRom9
  | .bootRom7 => m.bootRom7

/-- Replace the cells of an array. -/
def Memory.setCells (m : Memory) (arr : MemArray) (cs : List Host.Cell) : Memory :=
  match arr with
  | .mainRam => { m with mainRam := cs }
  | .swram => { m with swram := cs }
  | .wram7 => { m with wram7 := cs }
  | .itcm => { m with itcm := cs }
  | .dtcm => { m with dtcm := cs }
  | .bootRom9 => { m with bootRom9 := cs }
  | .bootRom7 => { m with bootRom7 := cs }

/-- Every array is canonical. -/
def Memory.wf (m : Memory) : Bool :=
  cellsWfFrom 0 m.mainRam && cellsWfFrom 0 m.swram && cellsWfFrom 0 m.wram7 && cellsWfFrom 0 m.itcm &&
    cellsWfFrom 0 m.dtcm && cellsWfFrom 0 m.bootRom9 && cellsWfFrom 0 m.bootRom7

/-- The byte at offset `off` of an array. -/
def Memory.readByte (m : Memory) (arr : MemArray) (off : Nat) : Byte :=
  cellRead (m.cells arr) off

/-- Write a byte of an array. -/
def Memory.writeByte (m : Memory) (arr : MemArray) (off : Nat) (v : Byte) : Memory :=
  m.setCells arr (cellWrite (m.cells arr) off v)

/-- The `n` bytes from `off` as a number of `8n` bits, zero-extended to a word; the byte at the lowest
offset is the least significant (R74). -/
def Memory.read (m : Memory) (arr : MemArray) (off : Nat) (w : Width) : Word :=
  match w with
  | .byte => (m.readByte arr off).setWidth 32
  | .half => (m.readByte arr (off + 1) ++ m.readByte arr off).setWidth 32
  | .word =>
    m.readByte arr (off + 3) ++ m.readByte arr (off + 2) ++ m.readByte arr (off + 1) ++ m.readByte arr off

/-- Byte lane `k` of a word. -/
def laneOf (v : Word) (k : Nat) : Byte :=
  v.extractLsb' (8 * k) 8

/-- Write the low `n` bytes of `v` from `off`, the least significant first (R74). -/
def Memory.write (m : Memory) (arr : MemArray) (off : Nat) (w : Width) (v : Word) : Memory :=
  match w with
  | .byte => m.writeByte arr off (laneOf v 0)
  | .half => (m.writeByte arr off (laneOf v 0)).writeByte arr (off + 1) (laneOf v 1)
  | .word =>
    (((m.writeByte arr off (laneOf v 0)).writeByte arr (off + 1) (laneOf v 1)).writeByte arr (off + 2)
      (laneOf v 2)).writeByte arr (off + 3) (laneOf v 3)

end Sys2Proof.Machine
end

