-- ==== Sys2Proof/Machine/Regs.lean ====
section
/-! DEFINITION. The registers of one core: banks and modes, the general registers by number, the status
words and their fields (10_state.md R21 to R35). -/
namespace Sys2Proof.Machine

/-- The banks of R23. -/
inductive Bank where
  | usr | fiq | irq | svc | abt | und
  deriving DecidableEq, Repr

/-- The mode numbers of R23. -/
def modeUser : BitVec 5 := 0x10
def modeFiq : BitVec 5 := 0x11
def modeIrq : BitVec 5 := 0x12
def modeSupervisor : BitVec 5 := 0x13
def modeAbort : BitVec 5 := 0x17
def modeUndefined : BitVec 5 := 0x1B
def modeSystem : BitVec 5 := 0x1F

/-- The field value is one of the seven modes (R23). -/
def validMode (m : BitVec 5) : Bool :=
  m == modeUser || m == modeFiq || m == modeIrq || m == modeSupervisor || m == modeAbort ||
    m == modeUndefined || m == modeSystem

/-- `BankOf` (R23). No reachable state holds a mode number outside the table (R47, log 23). -/
def bankOf (m : BitVec 5) : Bank :=
  if m = modeFiq then .fiq
  else if m = modeIrq then .irq
  else if m = modeSupervisor then .svc
  else if m = modeAbort then .abt
  else if m = modeUndefined then .und
  else .usr

/-- The place of a bank among the six copies of `r13` and `r14` (R21). -/
def Bank.place : Bank → Nat
  | .usr => 0
  | .fiq => 1
  | .irq => 2
  | .svc => 3
  | .abt => 4
  | .und => 5

/-- The slot of register `i`, 0 to 14, in bank `b` (R22). -/
def slot (b : Bank) (i : Reg) : Fin 30 :=
  if i.toNat < 8 then Fin.ofNat 30 i.toNat
  else if i.toNat < 13 then (if b = .fiq then Fin.ofNat 30 (i.toNat + 5) else Fin.ofNat 30 i.toNat)
  else if i.toNat = 13 then Fin.ofNat 30 (18 + b.place)
  else Fin.ofNat 30 (24 + b.place)

/-- The slot of the SPSR of a bank; User and System have none (R34, R35). -/
def spsrSlot : Bank → Option (Fin 5)
  | .usr => none
  | .fiq => some 0
  | .irq => some 1
  | .svc => some 2
  | .abt => some 3
  | .und => some 4

/-- The mode field of a status word (R30). -/
def modeOf (psr : Word) : BitVec 5 := psr.extractLsb' 0 5

/-- The fields of a status word (R30). -/
def psrN (psr : Word) : Bool := psr.getLsbD 31
def psrZ (psr : Word) : Bool := psr.getLsbD 30
def psrC (psr : Word) : Bool := psr.getLsbD 29
def psrV (psr : Word) : Bool := psr.getLsbD 28
def psrQ (psr : Word) : Bool := psr.getLsbD 27
def psrI (psr : Word) : Bool := psr.getLsbD 7
def psrF (psr : Word) : Bool := psr.getLsbD 6
def psrT (psr : Word) : Bool := psr.getLsbD 5

/-- Replace bit `k` of a word. -/
def setBit (w : Word) (k : Nat) (b : Bool) : Word :=
  (w &&& ~~~(1#32 <<< k)) ||| (if b then 1#32 <<< k else 0)

/-- Replace the mode field of a status word. -/
def setMode (psr : Word) (m : BitVec 5) : Word :=
  (psr &&& 0xFFFFFFE0) ||| m.setWidth 32

/-- Replace `T` of a status word. -/
def setT (psr : Word) (t : Bool) : Word := setBit psr 5 t

/-- Replace `I` of a status word. -/
def setI (psr : Word) (i : Bool) : Word := setBit psr 7 i

/-- The bank of the current mode. -/
def Cpu.bank (k : Cpu) : Bank := bankOf (modeOf k.cpsr)

/-- The core executes Thumb instructions. -/
def Cpu.thumb (k : Cpu) : Bool := psrT k.cpsr

/-- Read general register `i` through bank `b` (R22). -/
def Cpu.regAt (k : Cpu) (b : Bank) (i : Reg) : Word :=
  if i = 15 then k.r15 else k.regs[slot b i]

/-- `x[i]` (R22). -/
def Cpu.reg (k : Cpu) (i : Reg) : Word := k.regAt k.bank i

/-- `x_usr[i]` (R22). -/
def Cpu.regUsr (k : Cpu) (i : Reg) : Word := k.regAt .usr i

/-- Write general register `i`, 0 to 14, through bank `b` (R22). Register 15 is written only by
`pc <- target` (00_scope.md R9): no meaning calls this with 15. -/
def Cpu.setRegAt (k : Cpu) (b : Bank) (i : Reg) (v : Word) : Cpu :=
  if i = 15 then k else { k with regs := k.regs.set (slot b i) v }

/-- `x[i] <- v` (R22). -/
def Cpu.setReg (k : Cpu) (i : Reg) (v : Word) : Cpu := k.setRegAt k.bank i v

/-- `x_usr[i] <- v` (R22). -/
def Cpu.setRegUsr (k : Cpu) (i : Reg) (v : Word) : Cpu := k.setRegAt .usr i v

/-- The SPSR of bank `b`, where it has one (R34). -/
def Cpu.spsrAt (k : Cpu) (b : Bank) : Option Word :=
  (spsrSlot b).map fun j => k.spsr[j]

/-- Write the SPSR of bank `b`; a write where there is none is ignored (R35). -/
def Cpu.setSpsrAt (k : Cpu) (b : Bank) (v : Word) : Cpu :=
  match spsrSlot b with
  | some j => { k with spsr := k.spsr.set j v }
  | none => k

/-- The number of a low register (30_encoding.md R150). -/
def low (r : LowReg) : Reg := r.setWidth 4

/-- The SPSR, `r13` and `r14` as register numbers (R24). -/
def regSp : Reg := 13
def regLr : Reg := 14
def regPc : Reg := 15

/-- The core that runs. -/
def State.cur (s : State) : Cpu := s.cpu.get s.current

/-- Change the core that runs. -/
def State.upd (s : State) (f : Cpu → Cpu) : State :=
  { s with cpu := s.cpu.set s.current (f s.cur) }

end Sys2Proof.Machine
end

