-- ==== Sys2Proof/Machine/Flags.lean ====
section
/-! DEFINITION. Condition evaluation, the adder, saturation, and the flag results of the instructions
(40_execution_and_shifter.md R178, R185, R187, R188). -/
namespace Sys2Proof.Machine

/-- `CondPass` over the flags of a status word, for the conditions other than NV (R178). -/
def condPass (cond : Cond) (psr : Word) : Bool :=
  match cond with
  | .eq => psrZ psr
  | .ne => !psrZ psr
  | .cs => psrC psr
  | .cc => !psrC psr
  | .mi => psrN psr
  | .pl => !psrN psr
  | .vs => psrV psr
  | .vc => !psrV psr
  | .hi => psrC psr && !psrZ psr
  | .ls => !psrC psr || psrZ psr
  | .ge => psrN psr == psrV psr
  | .lt => psrN psr != psrV psr
  | .gt => !psrZ psr && psrN psr == psrV psr
  | .le => psrZ psr || psrN psr != psrV psr
  | .al => true

/-- `CondPass(15)`: the NV space executes on ARM9 and never on ARM7 (R178). -/
def nvPass : CoreId → Bool
  | .arm9 => true
  | .arm7 => false

/-- What the shifter gives: operand 2 and the carry-out (R180). -/
structure Shifted where
  value : Word
  carry : Bool
  deriving DecidableEq, Repr

/-- What an operation gives: its result, the new C, and the new V where it writes V. N and Z follow from
the result. -/
structure AluResult where
  value : Word
  carry : Bool
  overflow : Option Bool
  deriving DecidableEq, Repr

/-- A logical result: C from the shifter, V unchanged (`SetLogical`, R187). -/
def logical (r : Word) (sc : Bool) : AluResult :=
  { value := r, carry := sc, overflow := none }

/-- `AddWithCarry`: the exact sum, narrowed; C is the carry out, V the signed overflow (R185). -/
def addWithCarry (a b : Word) (cin : Bool) : AluResult :=
  let usum := a.toNat + b.toNat + cin.toNat
  let r := BitVec.ofNat 32 usum
  { value := r
    carry := decide (2 ^ 32 ≤ usum)
    overflow := some (a.msb == b.msb && r.msb != a.msb) }

/-- `SetNZ` (R187). -/
def setNZ (psr : Word) (r : Word) : Word :=
  setBit (setBit psr 31 r.msb) 30 (r == 0)

/-- `SetNZ64` (R187). -/
def setNZ64 (psr : Word) (r : BitVec 64) : Word :=
  setBit (setBit psr 31 r.msb) 30 (r == 0)

/-- `SetLogical` and `SetArith` (R187). -/
def setFlags (psr : Word) (a : AluResult) : Word :=
  let p := setBit (setNZ psr a.value) 29 a.carry
  match a.overflow with
  | some v => setBit p 28 v
  | none => p

/-- Set Q where `q` holds; nothing here clears it (10_state.md R32). -/
def stickyQ (psr : Word) (q : Bool) : Word :=
  if q then setBit psr 27 true else psr

/-- A signed 32-bit result and whether it was clamped. -/
structure Saturated where
  value : Word
  sat : Bool
  deriving DecidableEq, Repr

/-- `SatS32` (R188). -/
def satS32 (i : Int) : Saturated :=
  if 2 ^ 31 - 1 < i then { value := 0x7FFFFFFF, sat := true }
  else if i < -2 ^ 31 then { value := 0x80000000, sat := true }
  else { value := BitVec.ofInt 32 i, sat := false }

/-! The sixteen operations of R220 to R235: first operand, operand 2, the carry before. -/

def aluAnd (a : Word) (o : Shifted) (_ : Bool) : AluResult := logical (a &&& o.value) o.carry
def aluEor (a : Word) (o : Shifted) (_ : Bool) : AluResult := logical (a ^^^ o.value) o.carry
def aluSub (a : Word) (o : Shifted) (_ : Bool) : AluResult := addWithCarry a (~~~o.value) true
def aluRsb (a : Word) (o : Shifted) (_ : Bool) : AluResult := addWithCarry o.value (~~~a) true
def aluAdd (a : Word) (o : Shifted) (_ : Bool) : AluResult := addWithCarry a o.value false
def aluAdc (a : Word) (o : Shifted) (c : Bool) : AluResult := addWithCarry a o.value c
def aluSbc (a : Word) (o : Shifted) (c : Bool) : AluResult := addWithCarry a (~~~o.value) c
def aluRsc (a : Word) (o : Shifted) (c : Bool) : AluResult := addWithCarry o.value (~~~a) c
def aluTst (a : Word) (o : Shifted) (_ : Bool) : AluResult := logical (a &&& o.value) o.carry
def aluTeq (a : Word) (o : Shifted) (_ : Bool) : AluResult := logical (a ^^^ o.value) o.carry
def aluCmp (a : Word) (o : Shifted) (_ : Bool) : AluResult := addWithCarry a (~~~o.value) true
def aluCmn (a : Word) (o : Shifted) (_ : Bool) : AluResult := addWithCarry a o.value false
def aluOrr (a : Word) (o : Shifted) (_ : Bool) : AluResult := logical (a ||| o.value) o.carry
def aluMov (_ : Word) (o : Shifted) (_ : Bool) : AluResult := logical o.value o.carry
def aluBic (a : Word) (o : Shifted) (_ : Bool) : AluResult := logical (a &&& ~~~o.value) o.carry
def aluMvn (_ : Word) (o : Shifted) (_ : Bool) : AluResult := logical (~~~o.value) o.carry

end Sys2Proof.Machine
end

