-- ==== Sys2Proof/Machine/Operands.lean ====
section
/-! DEFINITION. The shifter and every operand form: operand 2 of data processing, the addresses of single,
halfword and block transfers, branch targets (40_execution_and_shifter.md R180 to R186,
44_single_transfer.md R301, R310, 45_block_transfer.md R341). -/
namespace Sys2Proof.Machine

/-- `ror32` (00_scope.md R8). -/
def ror32 (v : Word) (n : Nat) : Word := v.rotateRight n

/-- A word of 32 copies of a bit. -/
def fill (b : Bool) : Word := if b then 0xFFFFFFFF else 0

/-- `ShiftImm`: shift by a 5-bit immediate (R181). -/
def shiftImm (ty : ShiftType) (v : Word) (imm5 : BitVec 5) (c : Bool) : Shifted :=
  let n := imm5.toNat
  match ty with
  | .lsl => if n = 0 then ⟨v, c⟩ else ⟨v <<< n, v.getLsbD (32 - n)⟩
  | .lsr => if n = 0 then ⟨0, v.getLsbD 31⟩ else ⟨v >>> n, v.getLsbD (n - 1)⟩
  | .asr => if n = 0 then ⟨fill (v.getLsbD 31), v.getLsbD 31⟩ else ⟨v.sshiftRight n, v.getLsbD (n - 1)⟩
  | .ror =>
    if n = 0 then ⟨setBit (v >>> 1) 31 c, v.getLsbD 0⟩ else ⟨ror32 v n, v.getLsbD (n - 1)⟩

/-- `ShiftReg`: shift by the low byte of a register (R182). -/
def shiftReg (ty : ShiftType) (v : Word) (amount : Byte) (c : Bool) : Shifted :=
  let n := amount.toNat
  if n = 0 then ⟨v, c⟩
  else
    match ty with
    | .lsl =>
      if n < 32 then ⟨v <<< n, v.getLsbD (32 - n)⟩
      else if n = 32 then ⟨0, v.getLsbD 0⟩
      else ⟨0, false⟩
    | .lsr =>
      if n < 32 then ⟨v >>> n, v.getLsbD (n - 1)⟩
      else if n = 32 then ⟨0, v.getLsbD 31⟩
      else ⟨0, false⟩
    | .asr =>
      if n < 32 then ⟨v.sshiftRight n, v.getLsbD (n - 1)⟩
      else ⟨fill (v.getLsbD 31), v.getLsbD 31⟩
    | .ror =>
      if n % 32 = 0 then ⟨v, v.getLsbD 31⟩ else ⟨ror32 v (n % 32), v.getLsbD (n % 32 - 1)⟩

/-- The value of a rotated immediate (30_encoding.md R128). -/
def rotatedImm (rot4 : BitVec 4) (imm8 : BitVec 8) : Word :=
  ror32 (imm8.setWidth 32) (2 * rot4.toNat)

/-- `ExpandImm` (R184). -/
def expandImm (rot4 : BitVec 4) (imm8 : BitVec 8) (c : Bool) : Shifted :=
  let v := rotatedImm rot4 imm8
  ⟨v, if rot4 = 0 then c else v.getLsbD 31⟩

/-- `x[i]` as `Rn` or `Rm` of a data-processing instruction whose shift amount comes from a register:
`r15` reads `A + 12` (R186). -/
def Cpu.regShifted (k : Cpu) (i : Reg) : Word :=
  if i = 15 then k.r15 + 4 else k.reg i

/-- `x[i]` as a register to store: `r15` stores `A + 12` (44_single_transfer.md R303). -/
def Cpu.regStored (k : Cpu) (i : Reg) : Word :=
  if i = 15 then k.r15 + 4 else k.reg i

/-- Operand 2, register shifted by an immediate (R183). -/
def op2ShiftImm (k : Cpu) (imm5 : BitVec 5) (ty : ShiftType) (rm : Reg) : Shifted :=
  shiftImm ty (k.reg rm) imm5 (psrC k.cpsr)

/-- Operand 2, register shifted by a register (R183). -/
def op2ShiftReg (k : Cpu) (rs : Reg) (ty : ShiftType) (rm : Reg) : Shifted :=
  shiftReg ty (k.regShifted rm) ((k.reg rs).extractLsb' 0 8) (psrC k.cpsr)

/-- Operand 2, immediate (R183). -/
def op2Imm (k : Cpu) (rot4 : BitVec 4) (imm8 : BitVec 8) : Shifted :=
  expandImm rot4 imm8 (psrC k.cpsr)

/-- The addresses of a single transfer: where it accesses, and what is written back where it is
(44_single_transfer.md R301, R310). -/
structure Address where
  addr : Word
  moved : Word
  writeback : Bool
  deriving DecidableEq, Repr

/-- The address of a transfer from its base and offset (R301, R310). -/
def indexed (P U W : Bool) (base offset : Word) : Address :=
  let moved := if U then base + offset else base - offset
  { addr := if P then moved else base, moved := moved, writeback := !P || W }

/-- `SingleAddr`, immediate offset (R301). -/
def addrImm12 (k : Cpu) (P U W : Bool) (rn : Reg) (imm12 : BitVec 12) : Address :=
  indexed P U W (k.reg rn) (imm12.setWidth 32)

/-- `SingleAddr`, shifted register offset; the carry-out is discarded (R301). -/
def addrShifted (k : Cpu) (P U W : Bool) (rn : Reg) (imm5 : BitVec 5) (ty : ShiftType) (rm : Reg) : Address :=
  indexed P U W (k.reg rn) (shiftImm ty (k.reg rm) imm5 (psrC k.cpsr)).value

/-- `HalfAddr`, register offset (R310). -/
def addrReg (k : Cpu) (P U W : Bool) (rn rm : Reg) : Address :=
  indexed P U W (k.reg rn) (k.reg rm)

/-- `HalfAddr`, immediate offset (R310). -/
def addrImm8 (k : Cpu) (P U W : Bool) (rn : Reg) (imm8 : BitVec 8) : Address :=
  indexed P U W (k.reg rn) (imm8.setWidth 32)

/-- Whether the word of each register lies after an increment, where the transfer starts, and what is
written back (45_block_transfer.md R341). -/
structure BlockAddress where
  start : Word
  final : Word
  pre : Bool
  deriving DecidableEq, Repr

/-- `BlockAddr` (R341). -/
def blockAddr (P U : Bool) (base width : Word) : BlockAddress :=
  if U then { start := base, final := base + width, pre := P }
  else { start := base - width, final := base - width, pre := !P }

/-- The registers of a list in ascending order (R341). -/
def listRegs (list : BitVec 16) : List Reg :=
  (List.range 16).filterMap fun i => if list.getLsbD i then some (BitVec.ofNat 4 i) else none

/-- The number of registers in a list. -/
def listCount (list : BitVec 16) : Nat := (listRegs list).length

/-- The lowest-numbered register in the list is `r` (R344). -/
def lowestIs (list : BitVec 16) (r : Reg) : Bool := (listRegs list).head? == some r

/-- The highest-numbered register in the list is `r` (R345). -/
def highestIs (list : BitVec 16) (r : Reg) : Bool := (listRegs list).getLast? == some r

/-- The byte offset of B and BL (46_branch_misc.md R372). -/
def branchOffset (imm24 : BitVec 24) : Word := imm24.signExtend 32 <<< 2

/-- The signed half of a register: the top one where `top` (43_multiply.md R279). -/
def halfOf (v : Word) (top : Bool) : Int :=
  if top then (v.extractLsb' 16 16).toInt else (v.extractLsb' 0 16).toInt

/-- The number of zero bits above the most significant 1 bit among the low `n` bits
(46_branch_misc.md R380). -/
def leadingZeros (v : Word) : Nat → Nat
  | 0 => 0
  | n + 1 => if v.getLsbD n then 0 else leadingZeros v n + 1

/-- The register or 16-bit list of PUSH and POP (48_thumb_b.md R473): bit `extra` where `r`. -/
def stackList (list : BitVec 8) (r : Bool) (extra : Nat) : BitVec 16 :=
  list.setWidth 16 ||| (if r then 1#16 <<< extra else 0)

end Sys2Proof.Machine
end

