-- ==== Sys2Proof/Machine/Devices.lean ====
section
/-! DEFINITION. The devices: interrupt controllers, the IPC unit, the event scheduler and the CP15 port
(60_exceptions.md R520 to R572, R590), and how outcomes are chained. -/
namespace Sys2Proof.Machine

/-- The outcome of an operation on the whole state. -/
abbrev Result := Host.Outcome State Fault Refusal

/-- The outcome of an operation that also gives a value. -/
abbrev ValueResult (α : Type) := Host.Outcome (α × State) Fault Refusal

/-- Go on after a next state. -/
def thenDo (r : Result) (k : State → Result) : Result :=
  match r with
  | .next s => k s
  | .fault f => .fault f
  | .refused f => .refused f

/-- Go on with the value and the next state. -/
def bindVal {α : Type} (r : ValueResult α) (k : α → State → Result) : Result :=
  match r with
  | .next (v, s) => k v s
  | .fault f => .fault f
  | .refused f => .refused f

/-- Go on with the value and the next state to another value. -/
def mapVal {α β : Type} (r : ValueResult α) (k : α → State → ValueResult β) : ValueResult β :=
  match r with
  | .next (v, s) => k v s
  | .fault f => .fault f
  | .refused f => .refused f

/-- Give a value after a next state. -/
def thenVal {α : Type} (r : Result) (k : State → ValueResult α) : ValueResult α :=
  match r with
  | .next s => k s
  | .fault f => .fault f
  | .refused f => .refused f

/-- The next free value (93_implementation_defined.md U2, log 21). -/
def draw (s : State) : Word × State :=
  (Config.freeWord s.draws, { s with draws := s.draws + 1 })

/-! Interrupt controllers. -/

/-- The interrupt sources of R526. -/
def sourceIpcSync : BitVec 5 := 16
def sourceSendEmpty : BitVec 5 := 17
def sourceRecvNonempty : BitVec 5 := 18
def sourceGxFifo : BitVec 5 := 21

/-- `IrqLine` of one controller (R520). -/
def IrqCtl.line (i : IrqCtl) : Bool := i.ie &&& i.iff != 0 && i.ime

/-- `IrqLine(c)` (R520). -/
def irqLine (s : State) (c : CoreId) : Bool := (s.irq.get c).line

/-- `Raise` on one controller (R523). -/
def IrqCtl.raise (i : IrqCtl) (source : BitVec 5) : IrqCtl :=
  { i with iff := i.iff ||| 1#32 <<< source.toNat }

/-- `Raise(c, source)` (R523). -/
def raise (c : CoreId) (source : BitVec 5) (s : State) : State :=
  { s with irq := s.irq.set c ((s.irq.get c).raise source) }

/-- `Raise(c, source)` where `p` holds. -/
def raiseIf (p : Bool) (c : CoreId) (source : BitVec 5) (s : State) : State :=
  if p then raise c source s else s

/-! I/O registers. -/

/-- The in-scope registers of the I/O window (20_memory.md R86). -/
inductive IoReg where
  | ipcSync | fifoCnt | fifoSend | fifoRecv | ime | ie | iff
  deriving DecidableEq, Repr

/-- `ADDR_IME`, `ADDR_IE`, `ADDR_IF` (00_scope.md R7). -/
def addrIme : Word := 0x04000208
def addrIe : Word := 0x04000210
def addrIf : Word := 0x04000214

/-- The register at a word-aligned address (R86). -/
def ioReg (a : Word) : Option IoReg :=
  if a = 0x04000180 then some .ipcSync
  else if a = 0x04000184 then some .fifoCnt
  else if a = 0x04000188 then some .fifoSend
  else if a = 0x04100000 then some .fifoRecv
  else if a = addrIme then some .ime
  else if a = addrIe then some .ie
  else if a = addrIf then some .iff
  else none

/-- The byte lanes an access of width `w` at address `a` drives (20_memory.md R85). -/
def drivenLanes (a : Word) (w : Width) : BitVec 4 :=
  (BitVec.ofNat 4 (2 ^ w.bytes - 1)) <<< (a &&& 3).toNat

/-- The bits of the lanes of a mask. -/
def laneBits (lanes : BitVec 4) : Word :=
  (if lanes.getLsbD 0 then 0x000000FF else 0) ||| (if lanes.getLsbD 1 then 0x0000FF00 else 0) |||
    (if lanes.getLsbD 2 then 0x00FF0000 else 0) ||| (if lanes.getLsbD 3 then 0xFF000000 else 0)

/-- Replace the bits of `lanes` in `old` by those of `v`. -/
def mergeLanes (old v lanes : Word) : Word := (old &&& ~~~lanes) ||| (v &&& lanes)

/-- The low bits of a word that an access of width `w` moves. -/
def truncWidth (w : Width) (v : Word) : Word :=
  match w with
  | .byte => v &&& 0x000000FF
  | .half => v &&& 0x0000FFFF
  | .word => v

/-- The part of a 32-bit register or bus value that an access at `a` of width `w` sees (R85, R87). -/
def selectLanes (a : Word) (w : Width) (v : Word) : Word :=
  truncWidth w (v >>> (8 * (a &&& 3).toNat))

/-! The IPC unit. `c` is the accessing core and `p` its peer. -/

/-- A bit of a word at place `k`. -/
def bitAt (b : Bool) (k : Nat) : Word := if b then 1#32 <<< k else 0

/-- `empty(q)` and `full(q)` (R535). -/
def fifoEmpty (q : List Word) : Bool := q.isEmpty
def fifoFull (q : List Word) : Bool := decide (Config.fifoDepth ≤ q.length)

/-- Change core `c`'s side of the IPC unit. -/
def updIpc (c : CoreId) (f : IpcSide → IpcSide) (s : State) : State :=
  { s with ipc := s.ipc.set c (f (s.ipc.get c)) }

/-- Read of IPCSYNC (R537). -/
def ipcSyncValue (s : State) (c : CoreId) : Word :=
  (s.ipc.get c.peer).syncOut.setWidth 32 ||| (s.ipc.get c).syncOut.setWidth 32 <<< 8 |||
    bitAt (s.ipc.get c).syncIe 14

/-- Write of IPCSYNC (R538). -/
def ipcSyncWrite (c : CoreId) (v : Word) (lanes : BitVec 4) (s : State) : State :=
  if lanes.getLsbD 1 then
    raiseIf (v.getLsbD 13 && (s.ipc.get c.peer).syncIe) c.peer sourceIpcSync
      (updIpc c (fun i => { i with syncOut := v.extractLsb' 8 4, syncIe := v.getLsbD 14 }) s)
  else s

/-- Read of IPCFIFOCNT (R541). -/
def fifoCntValue (s : State) (c : CoreId) : Word :=
  let mine := s.ipc.get c
  let peers := s.ipc.get c.peer
  bitAt (fifoEmpty mine.q) 0 ||| bitAt (fifoFull mine.q) 1 ||| bitAt mine.ieSendEmpty 2 |||
    bitAt (fifoEmpty peers.q) 8 ||| bitAt (fifoFull peers.q) 9 ||| bitAt mine.ieRecvNonempty 10 |||
    bitAt mine.err 14 ||| bitAt mine.en 15

/-- The lane 0 part of a write of IPCFIFOCNT (R542). -/
def fifoCntWriteLow (c : CoreId) (v : Word) (s : State) : State :=
  let was := (s.ipc.get c).ieSendEmpty
  let s1 := updIpc c (fun i =>
    { i with q := if v.getLsbD 3 then [] else i.q, ieSendEmpty := v.getLsbD 2 }) s
  raiseIf (!was && v.getLsbD 2 && fifoEmpty (s1.ipc.get c).q) c sourceSendEmpty s1

/-- The lane 1 part of a write of IPCFIFOCNT (R542). -/
def fifoCntWriteHigh (c : CoreId) (v : Word) (s : State) : State :=
  let was := (s.ipc.get c).ieRecvNonempty
  let s1 := updIpc c (fun i =>
    { i with ieRecvNonempty := v.getLsbD 10, err := i.err && !v.getLsbD 14, en := v.getLsbD 15 }) s
  raiseIf (!was && v.getLsbD 10 && !fifoEmpty (s1.ipc.get c.peer).q) c sourceRecvNonempty s1

/-- Write of IPCFIFOCNT (R542). -/
def fifoCntWrite (c : CoreId) (v : Word) (lanes : BitVec 4) (s : State) : State :=
  let s1 := if lanes.getLsbD 0 then fifoCntWriteLow c v s else s
  if lanes.getLsbD 1 then fifoCntWriteHigh c v s1 else s1

/-- Write of IPCFIFOSEND: the push (R547). -/
def fifoPush (c : CoreId) (v : Word) (s : State) : Result :=
  let mine := s.ipc.get c
  if !mine.en then .refused .fifoDisabled
  else if fifoFull mine.q then .next (updIpc c (fun i => { i with err := true }) s)
  else
    .next (raiseIf (fifoEmpty mine.q && (s.ipc.get c.peer).ieRecvNonempty) c.peer sourceRecvNonempty
      (updIpc c (fun i => { i with q := i.q ++ [v] }) s))

/-- The core on which the became-empty interrupt of a pop by `c` is raised (R550). -/
def popTarget (s : State) (c : CoreId) : CoreId :=
  match s.popIrqTarget with
  | .reader => c
  | .sender => c.peer

/-- Read of IPCFIFORECV: the pop (R550). -/
def fifoPop (c : CoreId) (s : State) : ValueResult Word :=
  let mine := s.ipc.get c
  if !mine.en then .refused .fifoDisabled
  else
    match (s.ipc.get c.peer).q with
    | [] => .next (mine.recvLatch, updIpc c (fun i => { i with err := true }) s)
    | v :: rest =>
      let s1 := updIpc c (fun i => { i with recvLatch := v })
        (updIpc c.peer (fun i => { i with q := rest }) s)
      let t := popTarget s c
      .next (v, raiseIf (fifoEmpty rest && (s1.ipc.get t).ieSendEmpty) t sourceSendEmpty s1)

/-- `RegRead(c, reg)` (20_memory.md R85). -/
def regRead (c : CoreId) (r : IoReg) (s : State) : ValueResult Word :=
  match r with
  | .ipcSync => .next (ipcSyncValue s c, s)
  | .fifoCnt => .next (fifoCntValue s c, s)
  | .fifoSend => .next (0, s)
  | .fifoRecv => fifoPop c s
  | .ime => .next (bitAt (s.irq.get c).ime 0, s)
  | .ie => .next ((s.irq.get c).ie, s)
  | .iff => .next ((s.irq.get c).iff, s)

/-- Change the interrupt controller of core `c`. -/
def updIrq (c : CoreId) (f : IrqCtl → IrqCtl) (s : State) : State :=
  { s with irq := s.irq.set c (f (s.irq.get c)) }

/-- `RegWrite(c, reg, value, lanes)` (20_memory.md R85): IME R521, IE R522, IF R524, IPC R538 to R549. -/
def regWrite (c : CoreId) (r : IoReg) (v : Word) (lanes : BitVec 4) (s : State) : Result :=
  match r with
  | .ipcSync => .next (ipcSyncWrite c v lanes s)
  | .fifoCnt => .next (fifoCntWrite c v lanes s)
  | .fifoSend => fifoPush c v s
  | .fifoRecv => .next s
  | .ime => .next (if lanes.getLsbD 0 then updIrq c (fun i => { i with ime := v.getLsbD 0 }) s else s)
  | .ie => .next (updIrq c (fun i => { i with ie := mergeLanes i.ie v (laneBits lanes) }) s)
  | .iff => .next (updIrq c (fun i => { i with iff := i.iff &&& ~~~(v &&& laneBits lanes) }) s)

/-! The scheduler. -/

/-- The `(time, seq)` order of events (R566, R567). -/
def Event.before (a b : Event) : Bool :=
  decide (a.time < b.time) || (a.time == b.time && decide (a.seq < b.seq))

/-- Insert an event, keeping the list sorted. -/
def insertEvent (e : Event) : List Event → List Event
  | [] => [e]
  | f :: rest => if e.before f then e :: f :: rest else f :: insertEvent e rest

/-- `GetTimestampTarget()` (R565): the list is sorted, so its head is the earliest event. -/
def Sched.target (d : Sched) : Cycles :=
  match d.events with
  | [] => d.horizon
  | e :: _ => if e.time < d.horizon then e.time else d.horizon

/-- `Add(delta, action)` (R562); a negative delta changes nothing. -/
def schedAdd (delta : Int) (action : Nat) (s : State) : Result :=
  if delta < 0 then .next s
  else if 2 ^ 64 ≤ s.sched.now.toNat + delta.toNat then .refused .timestampOverflow
  else
    .next { s with
      sched := { s.sched with
        nextSeq := s.sched.nextSeq + 1
        events := insertEvent
          { time := s.sched.now + BitVec.ofNat 64 delta.toNat, seq := s.sched.nextSeq
            token := ⟨s.sched.epoch, s.sched.nextSeq⟩, action := action }
          s.sched.events } }

/-- `Cancel(token)` (R563). -/
def schedCancel (t : Token) (s : State) : State :=
  { s with sched := { s.sched with events := s.sched.events.filter fun e => e.token != t } }

/-- The larger of two timestamps. -/
def laterOf (a b : Cycles) : Cycles := if a < b then b else a

/-! The CP15 port. -/

/-- `V`, the exception base select (R590). -/
def Cp15.v (p : Cp15) : Bool := p.control.getLsbD 13

/-- The TCM enables (R590). -/
def Cp15.dtcmOn (p : Cp15) : Bool := p.control.getLsbD 16
def Cp15.itcmOn (p : Cp15) : Bool := p.control.getLsbD 18

/-- The size of a window: `512 << code` modulo `2 ^ 32`, the code in bits 5:1 (R590, 00_scope.md R8,
log 12). -/
def tcmSize (r : Word) : Word := 512#32 <<< (r.extractLsb' 1 5).toNat

/-- The base of the DTCM window, bits 31:12 (R590). -/
def Cp15.dtcmBase (p : Cp15) : Word := p.dtcm &&& 0xFFFFF000

/-- The CP15 registers of the default mapping (R590). -/
inductive Cp15Reg where
  | control | dtcm | itcm
  deriving DecidableEq, Repr

/-- The register at `(opc1, CRn, CRm, opc2)` (R590). -/
def cp15Reg (opc1 : BitVec 3) (crn crm : BitVec 4) (opc2 : BitVec 3) : Option Cp15Reg :=
  if opc1 = 0 ∧ crn = 1 ∧ crm = 0 ∧ opc2 = 0 then some .control
  else if opc1 = 0 ∧ crn = 9 ∧ crm = 1 ∧ opc2 = 0 then some .dtcm
  else if opc1 = 0 ∧ crn = 9 ∧ crm = 1 ∧ opc2 = 1 then some .itcm
  else none

/-- `CP15.Write`: `Cp15Update` of R590; every other register ignores writes. -/
def cp15Write (opc1 : BitVec 3) (crn crm : BitVec 4) (opc2 : BitVec 3) (v : Word) (s : State) : State :=
  match cp15Reg opc1 crn crm opc2 with
  | some .control => { s with cp15 := { s.cp15 with control := v } }
  | some .dtcm => { s with cp15 := { s.cp15 with dtcm := v } }
  | some .itcm => { s with cp15 := { s.cp15 with itcm := v } }
  | none => s

/-- `CP15.Read`: the last value written, or a draw (R590). -/
def cp15Read (opc1 : BitVec 3) (crn crm : BitVec 4) (opc2 : BitVec 3) (s : State) : Word × State :=
  match cp15Reg opc1 crn crm opc2 with
  | some .control => (s.cp15.control, s)
  | some .dtcm => (s.cp15.dtcm, s)
  | some .itcm => (s.cp15.itcm, s)
  | none => draw s

end Sys2Proof.Machine
end

