-- ==== Sys2Proof/Machine/Bus.lean ====
section
/-! DEFINITION. The bus of each core: the address decoder, reads and writes, the external agents, and
the loads and stores of the cores (20_memory.md R70 to R91). -/
namespace Sys2Proof.Machine

/-- The outcomes of the decoder (R80). -/
inductive Region where
  | ram (arr : MemArray) (off : Nat)
  | rom (arr : MemArray) (off : Nat)
  | io
  | external
  | unmapped
  deriving DecidableEq, Repr

/-- Bits 31:24 of an address. -/
def topByte (a : Word) : Nat := a.toNat / 0x1000000

/-- A shared-WRAM address (R81, log 7). -/
def decodeSwram (c : CoreId) (a : Word) : Region :=
  match Config.swramMap c a with
  | some off => .ram .swram off
  | none => .unmapped

/-- The rows of the ARM9 map from main RAM on (R81, rows 3 to 9). -/
def decodeArm9Main (a : Word) (inert : Bool) : Region :=
  if topByte a = 0x02 then .ram .mainRam (a.toNat % 0x400000)
  else if topByte a = 0x03 then decodeSwram .arm9 a
  else if topByte a = 0x04 then .io
  else if topByte a = 0x05 ∨ topByte a = 0x06 ∨ topByte a = 0x07 then .external
  else if 0x08 ≤ topByte a ∧ topByte a ≤ 0x0A then .external
  else if 0xFFFF0000 ≤ a.toNat ∧ a.toNat < 0xFFFF0000 + Config.bootRom9Size ∧ inert = false then
    .rom .bootRom9 (a.toNat - 0xFFFF0000)
  else .unmapped

/-- The ARM9 map (R81, R83): the ITCM window, the DTCM window for data, then the rest. The end of a window
is a 32-bit sum, as R8 of 00_scope.md has all address arithmetic (log 12). -/
def decodeArm9 (p : Cp15) (inert : Bool) (a : Word) (kind : AccessKind) : Region :=
  if p.itcmOn ∧ a < tcmSize p.itcm then .ram .itcm (a.toNat % 0x8000)
  else if p.dtcmOn ∧ kind = .data ∧ p.dtcmBase ≤ a ∧ a < p.dtcmBase + tcmSize p.dtcm then
    .ram .dtcm ((a - p.dtcmBase).toNat % 0x4000)
  else decodeArm9Main a inert

/-- The ARM7 map (R81). -/
def decodeArm7 (inert : Bool) (a : Word) : Region :=
  if a.toNat < Config.bootRom7Size ∧ inert = false then .rom .bootRom7 a.toNat
  else if topByte a = 0x02 then .ram .mainRam (a.toNat % 0x400000)
  else if topByte a = 0x03 then
    (if a.getLsbD 23 then .ram .wram7 (a.toNat % 0x10000) else decodeSwram .arm7 a)
  else if topByte a = 0x04 then .io
  else if topByte a = 0x06 then .external
  else if 0x08 ≤ topByte a ∧ topByte a ≤ 0x0A then .external
  else .unmapped

/-- `Decode(c, a, kind)` with the default `RegionMap` (R80, R81). -/
def region (s : State) (c : CoreId) (a : Word) (kind : AccessKind) : Region :=
  match c with
  | .arm9 => decodeArm9 s.cp15 s.bootromInert a kind
  | .arm7 => decodeArm7 s.bootromInert a

/-- The address forced down to a multiple of the width (R72, R73). -/
def alignTo (w : Width) (a : Word) : Word :=
  match w with
  | .byte => a
  | .half => a &&& 0xFFFFFFFE
  | .word => a &&& 0xFFFFFFFC

/-- A read that an external device answers: a free value of the width (R88). -/
def externalRead (w : Width) (s : State) : ValueResult Word :=
  let (v, s1) := draw s
  .next (truncWidth w v, s1)

/-- `IoRead` at an aligned address (R85). -/
def ioRead (c : CoreId) (a : Word) (w : Width) (s : State) : ValueResult Word :=
  match ioReg (a &&& 0xFFFFFFFC) with
  | some r => mapVal (regRead c r s) fun v s1 => .next (selectLanes a w v, s1)
  | none => externalRead w s

/-- `IoWrite` at an aligned address (R85). -/
def ioWrite (c : CoreId) (a : Word) (w : Width) (v : Word) (s : State) : Result :=
  match ioReg (a &&& 0xFFFFFFFC) with
  | some r => regWrite c r (truncWidth w v <<< (8 * (a &&& 3).toNat)) (drivenLanes a w) s
  | none => .next s

/-- A bus read at an aligned address, without what the agents do at it (R72). -/
def readAligned (c : CoreId) (a : Word) (w : Width) (kind : AccessKind) (s : State) : ValueResult Word :=
  match region s c a kind with
  | .ram arr off => .next (s.mem.read arr off w, s)
  | .rom arr off => .next (s.mem.read arr off w, s)
  | .io => ioRead c a w s
  | .external => externalRead w s
  | .unmapped => .next (selectLanes a w (s.cpu.get c).lastFetch, s)

/-- A bus write at an aligned address, without what the agents do at it (R73). -/
def writeAligned (c : CoreId) (a : Word) (w : Width) (v : Word) (s : State) : Result :=
  match region s c a .data with
  | .ram arr off => .next { s with mem := s.mem.write arr off w v }
  | .rom _ _ => .next s
  | .io => ioWrite c a w v s
  | .external => .next s
  | .unmapped => .next s

/-- A bus master's read, without a further point of the agents (R577, log 16). -/
def busRead (c : CoreId) (addr : Word) (w : Width) (kind : AccessKind) (s : State) : ValueResult Word :=
  readAligned c (alignTo w addr) w kind s

/-- A bus master's write, without a further point of the agents (R577, log 16). -/
def busWrite (c : CoreId) (addr : Word) (w : Width) (v : Word) (s : State) : Result :=
  writeAligned c (alignTo w addr) w v s

/-- One act of an external agent (R577). -/
def agentAct (act : AgentAct) (s : State) : Result :=
  match act with
  | .raise c source => .next (raise c source s)
  | .add delta action => schedAdd delta action s
  | .cancel token => .next (schedCancel token s)
  | .busRead c addr w => bindVal (busRead c addr w .data s) fun _ s1 => .next s1
  | .busWrite c addr w v => busWrite c addr w v s

/-- The acts of the agents at one point, in order. -/
def agentActs : List AgentAct → State → Result
  | [], s => .next s
  | act :: rest, s => thenDo (agentAct act s) (agentActs rest)

/-- A point at which agents may act: they do what the tape says next (R577, log 6). -/
def agentPoint (s : State) : Result :=
  match s.agentTape with
  | [] => .next s
  | acts :: rest => agentActs acts { s with agentTape := rest }

/-- The access reaches an external device, which may act (R88, R577). -/
def reachesAgent (s : State) (c : CoreId) (a : Word) (kind : AccessKind) : Bool :=
  match region s c a kind with
  | .external => true
  | .io => (ioReg (a &&& 0xFFFFFFFC)).isNone
  | _ => false

/-- `MemRead` of the core that runs: the value of the width, zero-extended (R72). -/
def memRead (addr : Word) (w : Width) (kind : AccessKind) (s : State) : ValueResult Word :=
  let a := alignTo w addr
  mapVal (readAligned s.current a w kind s) fun v s1 =>
    if reachesAgent s s.current a kind then thenVal (agentPoint s1) fun s2 => .next (v, s2)
    else .next (v, s1)

/-- `MemWrite` of the core that runs (R73). -/
def memWrite (addr : Word) (w : Width) (v : Word) (s : State) : Result :=
  let a := alignTo w addr
  thenDo (writeAligned s.current a w v s) fun s1 =>
    if reachesAgent s s.current a .data then agentPoint s1 else .next s1

/-- `LoadWord`: the aligned word, rotated right by the byte offset (R76). -/
def loadWord (addr : Word) (s : State) : ValueResult Word :=
  mapVal (memRead addr .word .data s) fun v s1 => .next (ror32 v (8 * (addr &&& 3).toNat), s1)

/-- What `LoadHalf` makes of the aligned halfword (R77). -/
def halfLoaded (c : CoreId) (addr : Word) (h : Word) : Word :=
  if c = .arm7 ∧ addr.getLsbD 0 then ror32 h 8 else h

/-- `LoadHalf` (R77). -/
def loadHalf (addr : Word) (s : State) : ValueResult Word :=
  mapVal (memRead addr .half .data s) fun h s1 => .next (halfLoaded s.current addr h, s1)

/-- A byte, sign-extended. -/
def sextByte (v : Word) : Word := (v.extractLsb' 0 8).signExtend 32

/-- A halfword, sign-extended. -/
def sextHalf (v : Word) : Word := (v.extractLsb' 0 16).signExtend 32

/-- `LoadSignedHalf`: on ARM7 at an odd address the byte there (R78). -/
def loadSignedHalf (addr : Word) (s : State) : ValueResult Word :=
  if s.current = .arm7 ∧ addr.getLsbD 0 then
    mapVal (memRead addr .byte .data s) fun v s1 => .next (sextByte v, s1)
  else mapVal (memRead addr .half .data s) fun v s1 => .next (sextHalf v, s1)

/-- A byte load, zero-extended (R89). -/
def loadByte (addr : Word) (s : State) : ValueResult Word :=
  memRead addr .byte .data s

/-- A byte load, sign-extended (R89). -/
def loadSignedByte (addr : Word) (s : State) : ValueResult Word :=
  mapVal (memRead addr .byte .data s) fun v s1 => .next (sextByte v, s1)

/-- A word of a multi-word transfer or of a Thumb literal: at its aligned address, not rotated (R79). -/
def loadAligned (addr : Word) (s : State) : ValueResult Word :=
  memRead addr .word .data s

/-- One instruction fetch: a bus read of kind fetch that also sets the open-bus latch (R39, R172). -/
def fetch (addr : Word) (w : Width) (s : State) : ValueResult Word :=
  mapVal (memRead addr w .fetch s) fun v s1 => .next (v, s1.upd fun k => { k with lastFetch := v })

end Sys2Proof.Machine
end

