-- ==== Sys2Proof/Machine/Ops.lean ====
section
/-! DEFINITION. The named operations the meanings share: advancing, branching, taking an exception and
returning from one, and one operation for each shape of instruction. -/
namespace Sys2Proof.Machine

/-! Control. -/

/-- `R15` advances past an ARM instruction (40_execution_and_shifter.md R176). -/
def advanceArm (s : State) : State := s.upd fun k => { k with r15 := k.r15 + 4 }

/-- `R15` advances past a Thumb instruction (R176). -/
def advanceThumb (s : State) : State := s.upd fun k => { k with r15 := k.r15 + 2 }

/-- Change the core that runs, then advance past an ARM instruction. -/
def finishArm (f : Cpu → Cpu) (s : State) : Result := .next (advanceArm (s.upd f))

/-- Change the core that runs, then advance past a Thumb instruction. -/
def finishThumb (f : Cpu → Cpu) (s : State) : Result := .next (advanceThumb (s.upd f))

/-- An ARM instruction whose condition fails is skipped (R173). -/
def ifCond (cond : Cond) (s : State) (k : State → Result) : Result :=
  if condPass cond s.cur.cpsr then k s else .next (advanceArm s)

/-- A word of the NV space: skipped on ARM7 (R173, R178). -/
def ifNv (s : State) (k : State → Result) : Result :=
  if nvPass s.current then k s else .next (advanceArm s)

/-- What exists on the ARM9 core only is an undefined encoding on ARM7 (30_encoding.md R141, R153). -/
def onArm9 (s : State) (k : State → Result) : Result :=
  if s.current = .arm9 then k s else .fault .undefinedInstruction

/-- A case the spec refuses stops under its name before any effect. -/
def refuseIf (p : Bool) (r : Refusal) (k : Result) : Result :=
  if p then .refused r else k

/-- The register is `r15`. -/
def isPc (r : Reg) : Bool := r == 15

/-- The instruction width of the current state: a word or a halfword (R175). -/
def Cpu.fetchWidth (k : Cpu) : Width := if k.thumb then .half else .word

/-- The instruction width of the current state in bytes. -/
def Cpu.stride (k : Cpu) : Word := if k.thumb then 2 else 4

/-- `pc <- target`: both slots are refilled from the aligned target (R175). -/
def branchTo (target : Word) (s : State) : Result :=
  let w := s.cur.fetchWidth
  let n := s.cur.stride
  let base := alignTo w target
  bindVal (fetch base w s) fun p0 s1 =>
    bindVal (fetch (base + n) w s1) fun p1 s2 =>
      .next (s2.upd fun k => { k with r15 := base + n + n, pipe0 := p0, pipe1 := p1 })

/-- Branch to bits 31:1 of `v` in the state that bit 0 names (46_branch_misc.md R376). -/
def branchExchange (v : Word) (s : State) : Result :=
  branchTo (v &&& 0xFFFFFFFE) (s.upd fun k => { k with cpsr := setT k.cpsr (v.getLsbD 0) })

/-- `LoadPC`: a loaded `r15` selects Thumb state by bit 0 on ARM9 only (44_single_transfer.md R304). -/
def loadPc (v : Word) (s : State) : Result :=
  if s.current = .arm9 ∧ v.getLsbD 0 then
    branchTo (v &&& 0xFFFFFFFE) (s.upd fun k => { k with cpsr := setT k.cpsr true })
  else branchTo (v &&& 0xFFFFFFFC) s

/-- A popped `r15` in Thumb state (48_thumb_b.md R475, R479). -/
def popPc (v : Word) (s : State) : Result :=
  match s.current with
  | .arm9 => branchExchange v s
  | .arm7 => branchTo (v &&& 0xFFFFFFFE) s

/-! Exceptions. -/

/-- `exception_base(c)` (60_exceptions.md R503). -/
def exceptionBase (s : State) (c : CoreId) : Word :=
  match c with
  | .arm7 => 0
  | .arm9 => if s.cp15.v then 0xFFFF0000 else 0

/-- The register part of `EnterException` (R504): the old CPSR goes to the SPSR of the new mode, the link
value to its `r14`; the mode changes, I is set and T is cleared. -/
def Cpu.enterMode (mode : BitVec 5) (lr : Word) (k : Cpu) : Cpu :=
  let k1 := { k with cpsr := setT (setI (setMode k.cpsr mode) true) false }
  (k1.setSpsrAt (bankOf mode) k.cpsr).setRegAt (bankOf mode) regLr lr

/-- `EnterException(mode, offset, lr)`: taking an exception (R504). -/
def enterException (mode : BitVec 5) (offset lr : Word) (s : State) : Result :=
  branchTo (exceptionBase s s.current + offset) (s.upd (Cpu.enterMode mode lr))

/-- `raise SWI` (R505). -/
def raiseSwi (s : State) : Result :=
  enterException modeSupervisor 0x08 (if s.cur.thumb then s.cur.r15 - 2 else s.cur.r15 - 4) s

/-- `raise IRQ` (R506). -/
def raiseIrq (s : State) : Result :=
  enterException modeIrq 0x18 (if s.cur.thumb then s.cur.r15 else s.cur.r15 - 4) s

/-- `CopySPSRtoCPSR`: the status part of the return from an exception (41_data_processing.md R213). -/
def copySpsr (s : State) : Result :=
  match s.cur.spsrAt s.cur.bank with
  | none => .refused .spsrInUserMode
  | some v =>
    if validMode (modeOf v) then .next (s.upd fun k => { k with cpsr := v }) else .fault .invalidMode

/-- The return from an exception: restore CPSR from the SPSR, then `pc <- target` in the restored state
(R213, 45_block_transfer.md R347, 60_exceptions.md R512). -/
def returnTo (target : Word) (s : State) : Result := thenDo (copySpsr s) (branchTo target)

/-! Data processing. -/

/-- The operations of R220 to R235: first operand, operand 2, the carry before. -/
abbrev AluOp := Word → Shifted → Bool → AluResult

/-- Write a result, and the flags where `S` (R210). -/
def Cpu.writeResult (k : Cpu) (S : Bool) (rd : Reg) (a : AluResult) : Cpu :=
  let k1 := k.setReg rd a.value
  if S then { k1 with cpsr := setFlags k1.cpsr a } else k1

/-- The end of a data-processing instruction that writes `Rd` (R210, R213). -/
def dpFinish (S : Bool) (rd : Reg) (a : AluResult) (s : State) : Result :=
  if isPc rd then (if S then returnTo a.value s else branchTo a.value s)
  else finishArm (fun k => k.writeResult S rd a) s

/-- The end of a comparison (R214). -/
def dpCompare (rd : Reg) (a : AluResult) (s : State) : Result :=
  refuseIf (isPc rd) .compareR15 (finishArm (fun k => { k with cpsr := setFlags k.cpsr a }) s)

/-- The result of an operation, operand 2 a register shifted by an immediate (R210, R211). -/
def aluShiftImm (op : AluOp) (rn : Reg) (imm5 : BitVec 5) (ty : ShiftType) (rm : Reg) (k : Cpu) : AluResult :=
  op (k.reg rn) (op2ShiftImm k imm5 ty rm) (psrC k.cpsr)

/-- The same, operand 2 a register shifted by a register: `r15` reads `A + 12` (R211). -/
def aluShiftReg (op : AluOp) (rn rs : Reg) (ty : ShiftType) (rm : Reg) (k : Cpu) : AluResult :=
  op (k.regShifted rn) (op2ShiftReg k rs ty rm) (psrC k.cpsr)

/-- The same, operand 2 an immediate (R211). -/
def aluImm (op : AluOp) (rn : Reg) (rot4 : BitVec 4) (imm8 : BitVec 8) (k : Cpu) : AluResult :=
  op (k.reg rn) (op2Imm k rot4 imm8) (psrC k.cpsr)

/-- Data processing, operand 2 a register shifted by an immediate (R210). -/
def dpShiftImm (op : AluOp) (cond : Cond) (S : Bool) (rn rd : Reg) (imm5 : BitVec 5) (ty : ShiftType)
    (rm : Reg) (s : State) : Result :=
  ifCond cond s fun s => dpFinish S rd (aluShiftImm op rn imm5 ty rm s.cur) s

/-- Data processing, operand 2 a register shifted by a register (R210, R215). -/
def dpShiftReg (op : AluOp) (cond : Cond) (S : Bool) (rn rd rs : Reg) (ty : ShiftType) (rm : Reg)
    (s : State) : Result :=
  ifCond cond s fun s =>
    refuseIf (isPc rs) .shiftAmountR15 (dpFinish S rd (aluShiftReg op rn rs ty rm s.cur) s)

/-- Data processing, operand 2 an immediate (R210). -/
def dpImm (op : AluOp) (cond : Cond) (S : Bool) (rn rd : Reg) (rot4 : BitVec 4) (imm8 : BitVec 8)
    (s : State) : Result :=
  ifCond cond s fun s => dpFinish S rd (aluImm op rn rot4 imm8 s.cur) s

/-- A comparison, operand 2 a register shifted by an immediate (R214). -/
def cmpShiftImm (op : AluOp) (cond : Cond) (rn rd : Reg) (imm5 : BitVec 5) (ty : ShiftType) (rm : Reg)
    (s : State) : Result :=
  ifCond cond s fun s => dpCompare rd (aluShiftImm op rn imm5 ty rm s.cur) s

/-- A comparison, operand 2 a register shifted by a register (R214, R215). -/
def cmpShiftReg (op : AluOp) (cond : Cond) (rn rd rs : Reg) (ty : ShiftType) (rm : Reg) (s : State) : Result :=
  ifCond cond s fun s =>
    refuseIf (isPc rs) .shiftAmountR15 (dpCompare rd (aluShiftReg op rn rs ty rm s.cur) s)

/-- A comparison, operand 2 an immediate (R214). -/
def cmpImm (op : AluOp) (cond : Cond) (rn rd : Reg) (rot4 : BitVec 4) (imm8 : BitVec 8) (s : State) : Result :=
  ifCond cond s fun s => dpCompare rd (aluImm op rn rot4 imm8 s.cur) s

/-! Status transfer. -/

/-- The lanes an MSR to CPSR may write: in User mode only the flag byte (42_status_transfer.md R251). -/
def cpsrLanes (psr : Word) (mask : BitVec 4) : Word :=
  if modeOf psr = modeUser then laneBits mask &&& 0xFF000000 else laneBits mask

/-- `WritePSR` to CPSR (R251). -/
def writeCpsr (mask : BitVec 4) (v : Word) (s : State) : Result :=
  let lanes := cpsrLanes s.cur.cpsr mask
  let new := mergeLanes s.cur.cpsr v lanes
  if lanes &&& 0xFF ≠ 0 ∧ validMode (modeOf new) = false then .fault .invalidMode
  else if lanes &&& 0xFF ≠ 0 ∧ psrT new ≠ psrT s.cur.cpsr then .refused .msrChangesT
  else .next (s.upd fun k => { k with cpsr := new })

/-- `WritePSR` to the SPSR; ignored where there is none (R251, 10_state.md R35). -/
def writeSpsr (mask : BitVec 4) (v : Word) (s : State) : State :=
  match s.cur.spsrAt s.cur.bank with
  | none => s
  | some old => s.upd fun k => k.setSpsrAt k.bank (mergeLanes old v (laneBits mask))

/-- `WritePSR(R, mask, val)`, then the advance (R251). -/
def writePsr (R : Bool) (mask : BitVec 4) (v : Word) (s : State) : Result :=
  if R then .next (advanceArm (writeSpsr mask v s))
  else thenDo (writeCpsr mask v s) fun s1 => .next (advanceArm s1)

/-- The value MRS reads: a free value for an SPSR that is not there (R252). -/
def psrValue (R : Bool) (s : State) : Word × State :=
  if R then
    match s.cur.spsrAt s.cur.bank with
    | some v => (v, s)
    | none => draw s
  else (s.cur.cpsr, s)

/-! Multiplies. -/

/-- A 32-bit product and its accumulation (43_multiply.md R272, R273). -/
def product32 (a b acc : Word) : Word := a * b + acc

/-- The 64-bit product of two words (40_execution_and_shifter.md R189). -/
def product64 (signed : Bool) (a b : Word) : BitVec 64 :=
  if signed then BitVec.ofInt 64 (a.toInt * b.toInt) else BitVec.ofNat 64 (a.toNat * b.toNat)

/-- Write a 32-bit product, and N and Z where `S` (R271). -/
def Cpu.writeProduct (k : Cpu) (S : Bool) (rd : Reg) (v : Word) : Cpu :=
  let k1 := k.setReg rd v
  if S then { k1 with cpsr := setNZ k1.cpsr v } else k1

/-- Write a 64-bit product, and N and Z where `S` (R271). -/
def Cpu.writeLong (k : Cpu) (S : Bool) (rdHi rdLo : Reg) (v : BitVec 64) : Cpu :=
  let k1 := (k.setReg rdLo (v.extractLsb' 0 32)).setReg rdHi (v.extractLsb' 32 32)
  if S then { k1 with cpsr := setNZ64 k1.cpsr v } else k1

/-- The accumulator of a long multiply (R275). -/
def longAcc (k : Cpu) (rdHi rdLo : Reg) : BitVec 64 := k.reg rdHi ++ k.reg rdLo

/-- A long multiply (R274 to R277). -/
def longMultiply (signed accumulate : Bool) (cond : Cond) (S : Bool) (rdHi rdLo rs rm : Reg)
    (s : State) : Result :=
  ifCond cond s fun s =>
    refuseIf (isPc rdHi || isPc rdLo || isPc rs || isPc rm) .multiplyR15 <|
    refuseIf (rdHi == rdLo) .multiplySameHiLo <|
    finishArm (fun k =>
      k.writeLong S rdHi rdLo (product64 signed (k.reg rm) (k.reg rs) +
        (if accumulate then longAcc k rdHi rdLo else 0))) s

/-- Add to a 32-bit accumulator: the wrapped sum, Q set on signed overflow (R279). -/
def Cpu.accumulateQ (k : Cpu) (rd : Reg) (p acc : Word) : Cpu :=
  let a := addWithCarry p acc false
  let k1 := k.setReg rd a.value
  { k1 with cpsr := stickyQ k1.cpsr (a.overflow == some true) }

/-- The product of two halves (R280). -/
def halfProduct (k : Cpu) (rm rs : Reg) (x y : Bool) : Int :=
  halfOf (k.reg rm) x * halfOf (k.reg rs) y

/-- Bits 47:16 of the product of a word and a half (R281). -/
def wordHalfProduct (k : Cpu) (rm rs : Reg) (y : Bool) : Word :=
  BitVec.ofInt 32 ((k.reg rm).toInt * halfOf (k.reg rs) y / 65536)

/-! Single transfers. -/

/-- Write back the moved base (44_single_transfer.md R302). -/
def writeBack (ad : Address) (rn : Reg) (s : State) : State :=
  if ad.writeback then s.upd fun k => k.setReg rn ad.moved else s

/-- A load: the bus read, the writeback, then the register (R302); a loaded `r15` is `LoadPC` (R304). -/
def loadTo (load : Word → State → ValueResult Word) (ad : Address) (rn rd : Reg) (s : State) : Result :=
  bindVal (load ad.addr s) fun v s1 =>
    let s2 := writeBack ad rn s1
    if isPc rd then loadPc v s2 else finishArm (fun k => k.setReg rd v) s2

/-- A store: the bus write, then the writeback (R302, R303). -/
def storeFrom (w : Width) (ad : Address) (rn rd : Reg) (s : State) : Result :=
  thenDo (memWrite ad.addr w (s.cur.regStored rd) s) fun s1 => .next (advanceArm (writeBack ad rn s1))

/-- What R302 and R310 refuse: writeback to `r15`, and `r15` as the offset register. -/
def refuseBase (ad : Address) (rn : Reg) (k : Result) : Result :=
  refuseIf (ad.writeback && isPc rn) .writebackR15 k

/-- LDR, STR and the byte forms with an immediate offset (R301). -/
def transferImm12 (go : Address → State → Result) (cond : Cond) (P U W : Bool) (rn : Reg)
    (imm12 : BitVec 12) (s : State) : Result :=
  ifCond cond s fun s =>
    let ad := addrImm12 s.cur P U W rn imm12
    refuseBase ad rn (go ad s)

/-- The same with a shifted register offset (R301). -/
def transferShifted (go : Address → State → Result) (cond : Cond) (P U W : Bool) (rn : Reg)
    (imm5 : BitVec 5) (ty : ShiftType) (rm : Reg) (s : State) : Result :=
  ifCond cond s fun s =>
    let ad := addrShifted s.cur P U W rn imm5 ty rm
    refuseBase ad rn (refuseIf (isPc rm) .offsetR15 (go ad s))

/-- Halfword, signed and double transfers with a register offset (R310). -/
def transferReg (go : Address → State → Result) (P U W : Bool) (rn rm : Reg) (s : State) : Result :=
  let ad := addrReg s.cur P U W rn rm
  refuseBase ad rn (refuseIf (isPc rm) .offsetR15 (go ad s))

/-- The same with an immediate offset (R310). -/
def transferImm8 (go : Address → State → Result) (P U W : Bool) (rn : Reg) (imm8 : BitVec 8)
    (s : State) : Result :=
  let ad := addrImm8 s.cur P U W rn imm8
  refuseBase ad rn (go ad s)

/-- A byte or halfword load; `r15` is refused (R304). -/
def loadNarrow (load : Word → State → ValueResult Word) (rn rd : Reg) (ad : Address) (s : State) : Result :=
  refuseIf (isPc rd) .narrowLoadR15 (loadTo load ad rn rd s)

/-- What R319 stops LDRD and STRD on: an odd register panics, `Rd = 14` is refused. -/
def doubleGuard (rd : Reg) (k : Result) : Result :=
  if rd.getLsbD 0 then .fault .undefinedInstruction else refuseIf (rd == 14) .doubleR14 k

/-- LDRD: the writeback occurs between the two loads (R320). -/
def loadDouble (rn rd : Reg) (ad : Address) (s : State) : Result :=
  bindVal (loadAligned ad.addr s) fun v0 s1 =>
    bindVal (loadAligned (alignTo .word ad.addr + 4)
      (writeBack ad rn (s1.upd fun k => k.setReg rd v0))) fun v1 s2 =>
      finishArm (fun k => k.setReg (rd + 1) v1) s2

/-- STRD (R321). -/
def storeDouble (rn rd : Reg) (ad : Address) (s : State) : Result :=
  thenDo (memWrite ad.addr .word (s.cur.reg rd) s) fun s1 =>
    thenDo (memWrite (alignTo .word ad.addr + 4) .word (s.cur.reg (rd + 1)) s1) fun s2 =>
      .next (advanceArm (writeBack ad rn s2))

/-- SWP and SWPB: the read, the write, then the register (R329 to R331). -/
def swapOp (load : Word → State → ValueResult Word) (w : Width) (cond : Cond) (rn rd rm : Reg)
    (s : State) : Result :=
  ifCond cond s fun s =>
    refuseIf (isPc rn || isPc rd || isPc rm) .swapR15 <|
    bindVal (load (s.cur.reg rn) s) fun t s1 =>
      thenDo (memWrite (s.cur.reg rn) w (s.cur.reg rm) s1) fun s2 =>
        finishArm (fun k => k.setReg rd t) s2

/-! Block transfers. -/

/-- The registers a block transfer moves: an empty list moves `r15` alone (45_block_transfer.md R343). -/
def blockRegs (list : BitVec 16) : List Reg := if list = 0 then [15] else listRegs list

/-- The width of the list in bytes; that of an empty list is 64 (R343). -/
def blockWidth (list : BitVec 16) : Word := if list = 0 then 64 else BitVec.ofNat 32 (4 * listCount list)

/-- The address of the first word (R341). -/
def BlockAddress.first (b : BlockAddress) : Word := if b.pre then b.start + 4 else b.start

/-- An empty list panics on ARM9; with the S bit it is refused on ARM7 (R343). -/
def emptyGuard (list : BitVec 16) (S : Bool) (s : State) (k : Result) : Result :=
  if list = 0 then
    match s.current with
    | .arm9 => .fault .emptyRegisterList
    | .arm7 => refuseIf S .blockEmptyUser k
  else k

/-- Load the registers from consecutive words; the word loaded for `r15` is the value (R350). -/
def loadRegs (user : Bool) : List Reg → Word → Option Word → State → ValueResult (Option Word)
  | [], _, pc, s => .next (pc, s)
  | r :: rest, addr, pc, s =>
    mapVal (loadAligned addr s) fun v s1 =>
      if isPc r then loadRegs user rest (addr + 4) (some v) s1
      else
        loadRegs user rest (addr + 4) pc
          (s1.upd fun k => if user then k.setRegUsr r v else k.setReg r v)

/-- Store the values at consecutive words (R351). -/
def storeWords : List Word → Word → State → Result
  | [], _, s => .next s
  | v :: rest, addr, s => thenDo (memWrite addr .word v s) (storeWords rest (addr + 4))

/-- `StoredBase`: what STM stores for its base (R344). -/
def storedBase (c : CoreId) (W : Bool) (list : BitVec 16) (rn : Reg) (base final : Word) : Word :=
  if W = false then base
  else
    match c with
    | .arm9 => base
    | .arm7 => if lowestIs list rn then base else final

/-- `LdmWriteback`: whether LDM writes its base back (R345). -/
def ldmWrites (c : CoreId) (list : BitVec 16) (rn : Reg) : Bool :=
  if list.getLsbD rn.toNat = false then true
  else
    match c with
    | .arm7 => false
    | .arm9 => !(decide (1 < listCount list) && highestIs list rn)

/-- The value STM stores for register `i` (R351); `r15` stores one width more than it reads (R303, R479). -/
def storedValue (k : Cpu) (c : CoreId) (user W : Bool) (list : BitVec 16) (rn : Reg) (b : BlockAddress)
    (i : Reg) : Word :=
  if isPc i then k.r15 + k.stride
  else if i = rn ∧ user = false then storedBase c W list rn (k.reg rn) b.final
  else if user then k.regUsr i
  else k.reg i

/-- The load of a block transfer with its writeback; `pc` says what happens to a loaded `r15`, `done` ends
an instruction that loads none (R350). -/
def blockLoad (P U user W : Bool) (rn : Reg) (list : BitVec 16) (pc : Word → State → Result)
    (done : State → State) (s : State) : Result :=
  let b := blockAddr P U (s.cur.reg rn) (blockWidth list)
  bindVal (loadRegs user (blockRegs list) b.first none s) fun loaded s1 =>
    let s2 := if W && ldmWrites s1.current list rn then s1.upd fun k => k.setReg rn b.final else s1
    match loaded with
    | some v => pc v s2
    | none => .next (done s2)

/-- The store of a block transfer with its writeback (R351). -/
def blockStore (P U user W : Bool) (rn : Reg) (list : BitVec 16) (done : State → State) (s : State) : Result :=
  let b := blockAddr P U (s.cur.reg rn) (blockWidth list)
  let values := (blockRegs list).map (storedValue s.cur s.current user W list rn b)
  thenDo (storeWords values b.first s) fun s1 =>
    .next (done (if W then s1.upd fun k => k.setReg rn b.final else s1))

/-! Thumb shapes. -/

/-- A Thumb operation that writes `Rd` and all its flags (47_thumb_a.md R410). -/
def thumbAlu (rd : LowReg) (a : Cpu → AluResult) (s : State) : Result :=
  finishThumb (fun k => k.writeResult true (low rd) (a k)) s

/-- A Thumb operation that writes flags only. -/
def thumbCompare (a : Cpu → AluResult) (s : State) : Result :=
  finishThumb (fun k => { k with cpsr := setFlags k.cpsr (a k) }) s

/-- Operand 2 without a shift: the carry stays (R425). -/
def plain (k : Cpu) (v : Word) : Shifted := ⟨v, psrC k.cpsr⟩

/-- A format 4 operation over `Rd` and `Rs` (R425). -/
def thumbOp (op : AluOp) (rs rd : LowReg) (k : Cpu) : AluResult :=
  op (k.reg (low rd)) (plain k (k.reg (low rs))) (psrC k.cpsr)

/-- A format 4 shift of `Rd` by the low byte of `Rs` (R428). -/
def thumbShift (ty : ShiftType) (rs rd : LowReg) (k : Cpu) : AluResult :=
  let o := shiftReg ty (k.reg (low rd)) ((k.reg (low rs)).extractLsb' 0 8) (psrC k.cpsr)
  logical o.value o.carry

/-- A format 1 shift of `Rs` by an immediate (R411). -/
def thumbShiftImm (ty : ShiftType) (imm5 : BitVec 5) (rs : LowReg) (k : Cpu) : AluResult :=
  let o := shiftImm ty (k.reg (low rs)) imm5 (psrC k.cpsr)
  logical o.value o.carry

/-- A Thumb load (R450). -/
def thumbLoad (load : Word → State → ValueResult Word) (addr : Word) (rd : LowReg) (s : State) : Result :=
  bindVal (load addr s) fun v s1 => finishThumb (fun k => k.setReg (low rd) v) s1

/-- A Thumb store (R450). -/
def thumbStore (w : Width) (addr : Word) (rd : LowReg) (s : State) : Result :=
  thenDo (memWrite addr w (s.cur.reg (low rd)) s) fun s1 => .next (advanceThumb s1)

/-- The address of formats 7 and 8 (R450). -/
def thumbAddrReg (k : Cpu) (ro rb : LowReg) : Word := k.reg (low rb) + k.reg (low ro)

/-- The address of formats 9 and 10: `imm5` scaled by `2 ^ scale` (48_thumb_b.md R460, R465). -/
def thumbAddrImm (k : Cpu) (imm5 : BitVec 5) (scale : Nat) (rb : LowReg) : Word :=
  k.reg (low rb) + (imm5.setWidth 32 <<< scale)

/-- `imm8 * 4` (30_encoding.md R152). -/
def wordOffset (imm8 : BitVec 8) : Word := imm8.setWidth 32 <<< 2

/-- The address of format 11 (R467). -/
def thumbAddrSp (k : Cpu) (imm8 : BitVec 8) : Word := k.reg regSp + wordOffset imm8

/-- The PC-relative address of formats 6 and 12 (R449, R470). -/
def thumbAddrPc (k : Cpu) (imm8 : BitVec 8) : Word := (k.r15 &&& 0xFFFFFFFD) + wordOffset imm8

/-- Format 16 (R480). -/
def thumbBranchIf (cond : Cond) (imm8 : BitVec 8) (s : State) : Result :=
  if condPass cond s.cur.cpsr then branchTo (s.cur.r15 + (imm8.signExtend 32 <<< 1)) s
  else .next (advanceThumb s)

/-- The end of a format 5 operation: `Rd = 15` branches within Thumb state (47_thumb_a.md R443, R445). -/
def thumbHigh (rd : Reg) (v : Word) (s : State) : Result :=
  if isPc rd then branchTo (v &&& 0xFFFFFFFE) s else finishThumb (fun k => k.setReg rd v) s

/-- The link value of the second half of BL and BLX: the next halfword with bit 0 set (R447, R493). -/
def thumbLink (k : Cpu) : Word := (k.r15 - 2) ||| 1

end Sys2Proof.Machine
end

