-- ==== Sys2Proof/Machine/Block.lean ====
section
/-! DEFINITION. Block transfers (45_block_transfer.md R340 to R355). -/
namespace Sys2Proof.Machine

/-- LDM (45_block_transfer.md R350). -/
def execLdm (cond : Cond) (P U S W : Bool) (rn : Reg) (list : BitVec 16) (s : State) : Result :=
  ifCond cond s fun s =>
    emptyGuard list S s <|
    refuseIf (isPc rn) .blockBaseR15 <|
    let user := S && !list.getLsbD 15
    refuseIf (user && W) .blockUserWriteback <|
    blockLoad P U user W rn list (if S then returnTo else loadPc) advanceArm s

/-- STM (45_block_transfer.md R351). -/
def execStm (cond : Cond) (P U S W : Bool) (rn : Reg) (list : BitVec 16) (s : State) : Result :=
  ifCond cond s fun s =>
    emptyGuard list S s <|
    refuseIf (isPc rn) .blockBaseR15 <|
    refuseIf (S && W) .blockUserWriteback <|
    blockStore P U S W rn list advanceArm s

end Sys2Proof.Machine
end

