-- ==== Sys2Proof/Machine/Branch.lean ====
section
/-! DEFINITION. Branches, CLZ, saturating arithmetic, SWI and coprocessor transfer (46_branch_misc.md R370 to R398). -/
namespace Sys2Proof.Machine

/-- The saturating operations: `Rm` first, `Rn` second; QDADD and QDSUB double `Rn` with a saturation of
its own (R381 to R385). -/
def satAdd (m n : Word) : Saturated := satS32 (m.toInt + n.toInt)
def satSub (m n : Word) : Saturated := satS32 (m.toInt - n.toInt)
def satDoubled (n : Word) : Saturated := satS32 (2 * n.toInt)
def satDoubleAdd (m n : Word) : Saturated :=
  let d := satDoubled n
  let r := satS32 (m.toInt + d.value.toInt)
  { value := r.value, sat := d.sat || r.sat }
def satDoubleSub (m n : Word) : Saturated :=
  let d := satDoubled n
  let r := satS32 (m.toInt - d.value.toInt)
  { value := r.value, sat := d.sat || r.sat }

/-- Write a saturated result, and Q where it was clamped (R381). -/
def Cpu.writeSaturated (k : Cpu) (rd : Reg) (r : Saturated) : Cpu :=
  let k1 := k.setReg rd r.value
  { k1 with cpsr := stickyQ k1.cpsr r.sat }

/-- The shape of the saturating instructions (R381). -/
def saturating (op : Word → Word → Saturated) (cond : Cond) (rn rd rm : Reg) (s : State) : Result :=
  ifCond cond s fun s => onArm9 s fun s =>
    refuseIf (isPc rn || isPc rd || isPc rm) .saturatingR15 <|
    finishArm (fun k => k.writeSaturated rd (op (k.reg rm) (k.reg rn))) s

/-- A transfer to a coprocessor the core has not panics (R397). -/
def coprocGuard (cp : BitVec 4) (s : State) (k : Result) : Result :=
  if Config.copTable s.current cp then k else .fault .unknownCoprocessor

/-- B (46_branch_misc.md R372). -/
def execB (cond : Cond) (imm24 : BitVec 24) (s : State) : Result :=
  ifCond cond s fun s => branchTo (s.cur.r15 + branchOffset imm24) s

/-- BL (R373). -/
def execBl (cond : Cond) (imm24 : BitVec 24) (s : State) : Result :=
  ifCond cond s fun s =>
    branchTo (s.cur.r15 + branchOffset imm24) (s.upd fun k => k.setReg regLr (k.r15 - 4))

/-- BX (R376). -/
def execBx (cond : Cond) (rm : Reg) (s : State) : Result :=
  ifCond cond s fun s => branchExchange (s.cur.reg rm) s

/-- BLX, register form, ARM9 only (R377). -/
def execBlxReg (cond : Cond) (rm : Reg) (s : State) : Result :=
  ifCond cond s fun s => onArm9 s fun s =>
    refuseIf (isPc rm) .blxR15 <|
    branchExchange (s.cur.reg rm) (s.upd fun k => k.setReg regLr (k.r15 - 4))

/-- BLX, immediate form: the only instruction of the NV space (R378). -/
def execBlxImm (H : Bool) (imm24 : BitVec 24) (s : State) : Result :=
  ifNv s fun s =>
    branchTo (s.cur.r15 + branchOffset imm24 + bitAt H 1)
      (s.upd fun k =>
        let k1 := k.setReg regLr (k.r15 - 4)
        { k1 with cpsr := setT k1.cpsr true })

/-- CLZ, ARM9 only (R380). -/
def execClz (cond : Cond) (rd rm : Reg) (s : State) : Result :=
  ifCond cond s fun s => onArm9 s fun s =>
    refuseIf (isPc rd || isPc rm) .clzR15 <|
    finishArm (fun k => k.setReg rd (BitVec.ofNat 32 (leadingZeros (k.reg rm) 32))) s

/-- QADD, ARM9 only (R382). -/
def execQadd (cond : Cond) (rn rd rm : Reg) (s : State) : Result :=
  saturating satAdd cond rn rd rm s

/-- QSUB, ARM9 only (R383). -/
def execQsub (cond : Cond) (rn rd rm : Reg) (s : State) : Result :=
  saturating satSub cond rn rd rm s

/-- QDADD, ARM9 only (R384). -/
def execQdadd (cond : Cond) (rn rd rm : Reg) (s : State) : Result :=
  saturating satDoubleAdd cond rn rd rm s

/-- QDSUB, ARM9 only (R385). -/
def execQdsub (cond : Cond) (rn rd rm : Reg) (s : State) : Result :=
  saturating satDoubleSub cond rn rd rm s

/-- SWI (R390). -/
def execSwi (cond : Cond) (_imm24 : BitVec 24) (s : State) : Result :=
  ifCond cond s raiseSwi

/-- MCR, ARM9 only (R395). -/
def execMcr (cond : Cond) (opc1 : BitVec 3) (crn : BitVec 4) (rd : Reg) (cp : BitVec 4) (opc2 : BitVec 3) (crm : BitVec 4) (s : State) : Result :=
  ifCond cond s fun s => onArm9 s fun s =>
    coprocGuard cp s <|
    .next (advanceArm (cp15Write opc1 crn crm opc2 (s.cur.reg rd) s))

/-- MRC, ARM9 only (R396). -/
def execMrc (cond : Cond) (opc1 : BitVec 3) (crn : BitVec 4) (rd : Reg) (cp : BitVec 4) (opc2 : BitVec 3) (crm : BitVec 4) (s : State) : Result :=
  ifCond cond s fun s => onArm9 s fun s =>
    coprocGuard cp s <|
    refuseIf (isPc rd) .mrcR15 <|
    let (v, s1) := cp15Read opc1 crn crm opc2 s
    finishArm (fun k => k.setReg rd v) s1

end Sys2Proof.Machine
end

