-- ==== Sys2Proof/Machine/DataProc.lean ====
section
/-! DEFINITION. The data-processing instructions (41_data_processing.md R210 to R236). -/
namespace Sys2Proof.Machine

/-- AND, operand 2 a register shifted by an immediate (41_data_processing.md R220). -/
def execAndShiftImm (cond : Cond) (S : Bool) (rn rd : Reg) (imm5 : BitVec 5) (ty : ShiftType) (rm : Reg) (s : State) : Result :=
  dpShiftImm aluAnd cond S rn rd imm5 ty rm s

/-- AND, operand 2 a register shifted by a register (R220). -/
def execAndShiftReg (cond : Cond) (S : Bool) (rn rd rs : Reg) (ty : ShiftType) (rm : Reg) (s : State) : Result :=
  dpShiftReg aluAnd cond S rn rd rs ty rm s

/-- AND, operand 2 a rotated immediate (R220). -/
def execAndImm (cond : Cond) (S : Bool) (rn rd : Reg) (rot4 : BitVec 4) (imm8 : BitVec 8) (s : State) : Result :=
  dpImm aluAnd cond S rn rd rot4 imm8 s

/-- EOR, operand 2 a register shifted by an immediate (41_data_processing.md R221). -/
def execEorShiftImm (cond : Cond) (S : Bool) (rn rd : Reg) (imm5 : BitVec 5) (ty : ShiftType) (rm : Reg) (s : State) : Result :=
  dpShiftImm aluEor cond S rn rd imm5 ty rm s

/-- EOR, operand 2 a register shifted by a register (R221). -/
def execEorShiftReg (cond : Cond) (S : Bool) (rn rd rs : Reg) (ty : ShiftType) (rm : Reg) (s : State) : Result :=
  dpShiftReg aluEor cond S rn rd rs ty rm s

/-- EOR, operand 2 a rotated immediate (R221). -/
def execEorImm (cond : Cond) (S : Bool) (rn rd : Reg) (rot4 : BitVec 4) (imm8 : BitVec 8) (s : State) : Result :=
  dpImm aluEor cond S rn rd rot4 imm8 s

/-- SUB, operand 2 a register shifted by an immediate (41_data_processing.md R222). -/
def execSubShiftImm (cond : Cond) (S : Bool) (rn rd : Reg) (imm5 : BitVec 5) (ty : ShiftType) (rm : Reg) (s : State) : Result :=
  dpShiftImm aluSub cond S rn rd imm5 ty rm s

/-- SUB, operand 2 a register shifted by a register (R222). -/
def execSubShiftReg (cond : Cond) (S : Bool) (rn rd rs : Reg) (ty : ShiftType) (rm : Reg) (s : State) : Result :=
  dpShiftReg aluSub cond S rn rd rs ty rm s

/-- SUB, operand 2 a rotated immediate (R222). -/
def execSubImm (cond : Cond) (S : Bool) (rn rd : Reg) (rot4 : BitVec 4) (imm8 : BitVec 8) (s : State) : Result :=
  dpImm aluSub cond S rn rd rot4 imm8 s

/-- RSB, operand 2 a register shifted by an immediate (41_data_processing.md R223). -/
def execRsbShiftImm (cond : Cond) (S : Bool) (rn rd : Reg) (imm5 : BitVec 5) (ty : ShiftType) (rm : Reg) (s : State) : Result :=
  dpShiftImm aluRsb cond S rn rd imm5 ty rm s

/-- RSB, operand 2 a register shifted by a register (R223). -/
def execRsbShiftReg (cond : Cond) (S : Bool) (rn rd rs : Reg) (ty : ShiftType) (rm : Reg) (s : State) : Result :=
  dpShiftReg aluRsb cond S rn rd rs ty rm s

/-- RSB, operand 2 a rotated immediate (R223). -/
def execRsbImm (cond : Cond) (S : Bool) (rn rd : Reg) (rot4 : BitVec 4) (imm8 : BitVec 8) (s : State) : Result :=
  dpImm aluRsb cond S rn rd rot4 imm8 s

/-- ADD, operand 2 a register shifted by an immediate (41_data_processing.md R224). -/
def execAddShiftImm (cond : Cond) (S : Bool) (rn rd : Reg) (imm5 : BitVec 5) (ty : ShiftType) (rm : Reg) (s : State) : Result :=
  dpShiftImm aluAdd cond S rn rd imm5 ty rm s

/-- ADD, operand 2 a register shifted by a register (R224). -/
def execAddShiftReg (cond : Cond) (S : Bool) (rn rd rs : Reg) (ty : ShiftType) (rm : Reg) (s : State) : Result :=
  dpShiftReg aluAdd cond S rn rd rs ty rm s

/-- ADD, operand 2 a rotated immediate (R224). -/
def execAddImm (cond : Cond) (S : Bool) (rn rd : Reg) (rot4 : BitVec 4) (imm8 : BitVec 8) (s : State) : Result :=
  dpImm aluAdd cond S rn rd rot4 imm8 s

/-- ADC, operand 2 a register shifted by an immediate (41_data_processing.md R225). -/
def execAdcShiftImm (cond : Cond) (S : Bool) (rn rd : Reg) (imm5 : BitVec 5) (ty : ShiftType) (rm : Reg) (s : State) : Result :=
  dpShiftImm aluAdc cond S rn rd imm5 ty rm s

/-- ADC, operand 2 a register shifted by a register (R225). -/
def execAdcShiftReg (cond : Cond) (S : Bool) (rn rd rs : Reg) (ty : ShiftType) (rm : Reg) (s : State) : Result :=
  dpShiftReg aluAdc cond S rn rd rs ty rm s

/-- ADC, operand 2 a rotated immediate (R225). -/
def execAdcImm (cond : Cond) (S : Bool) (rn rd : Reg) (rot4 : BitVec 4) (imm8 : BitVec 8) (s : State) : Result :=
  dpImm aluAdc cond S rn rd rot4 imm8 s

/-- SBC, operand 2 a register shifted by an immediate (41_data_processing.md R226). -/
def execSbcShiftImm (cond : Cond) (S : Bool) (rn rd : Reg) (imm5 : BitVec 5) (ty : ShiftType) (rm : Reg) (s : State) : Result :=
  dpShiftImm aluSbc cond S rn rd imm5 ty rm s

/-- SBC, operand 2 a register shifted by a register (R226). -/
def execSbcShiftReg (cond : Cond) (S : Bool) (rn rd rs : Reg) (ty : ShiftType) (rm : Reg) (s : State) : Result :=
  dpShiftReg aluSbc cond S rn rd rs ty rm s

/-- SBC, operand 2 a rotated immediate (R226). -/
def execSbcImm (cond : Cond) (S : Bool) (rn rd : Reg) (rot4 : BitVec 4) (imm8 : BitVec 8) (s : State) : Result :=
  dpImm aluSbc cond S rn rd rot4 imm8 s

/-- RSC, operand 2 a register shifted by an immediate (41_data_processing.md R227). -/
def execRscShiftImm (cond : Cond) (S : Bool) (rn rd : Reg) (imm5 : BitVec 5) (ty : ShiftType) (rm : Reg) (s : State) : Result :=
  dpShiftImm aluRsc cond S rn rd imm5 ty rm s

/-- RSC, operand 2 a register shifted by a register (R227). -/
def execRscShiftReg (cond : Cond) (S : Bool) (rn rd rs : Reg) (ty : ShiftType) (rm : Reg) (s : State) : Result :=
  dpShiftReg aluRsc cond S rn rd rs ty rm s

/-- RSC, operand 2 a rotated immediate (R227). -/
def execRscImm (cond : Cond) (S : Bool) (rn rd : Reg) (rot4 : BitVec 4) (imm8 : BitVec 8) (s : State) : Result :=
  dpImm aluRsc cond S rn rd rot4 imm8 s

/-- TST, operand 2 a register shifted by an immediate (41_data_processing.md R228). -/
def execTstShiftImm (cond : Cond) (rn rd : Reg) (imm5 : BitVec 5) (ty : ShiftType) (rm : Reg) (s : State) : Result :=
  cmpShiftImm aluTst cond rn rd imm5 ty rm s

/-- TST, operand 2 a register shifted by a register (R228). -/
def execTstShiftReg (cond : Cond) (rn rd rs : Reg) (ty : ShiftType) (rm : Reg) (s : State) : Result :=
  cmpShiftReg aluTst cond rn rd rs ty rm s

/-- TST, operand 2 a rotated immediate (R228). -/
def execTstImm (cond : Cond) (rn rd : Reg) (rot4 : BitVec 4) (imm8 : BitVec 8) (s : State) : Result :=
  cmpImm aluTst cond rn rd rot4 imm8 s

/-- TEQ, operand 2 a register shifted by an immediate (41_data_processing.md R229). -/
def execTeqShiftImm (cond : Cond) (rn rd : Reg) (imm5 : BitVec 5) (ty : ShiftType) (rm : Reg) (s : State) : Result :=
  cmpShiftImm aluTeq cond rn rd imm5 ty rm s

/-- TEQ, operand 2 a register shifted by a register (R229). -/
def execTeqShiftReg (cond : Cond) (rn rd rs : Reg) (ty : ShiftType) (rm : Reg) (s : State) : Result :=
  cmpShiftReg aluTeq cond rn rd rs ty rm s

/-- TEQ, operand 2 a rotated immediate (R229). -/
def execTeqImm (cond : Cond) (rn rd : Reg) (rot4 : BitVec 4) (imm8 : BitVec 8) (s : State) : Result :=
  cmpImm aluTeq cond rn rd rot4 imm8 s

/-- CMP, operand 2 a register shifted by an immediate (41_data_processing.md R230). -/
def execCmpShiftImm (cond : Cond) (rn rd : Reg) (imm5 : BitVec 5) (ty : ShiftType) (rm : Reg) (s : State) : Result :=
  cmpShiftImm aluCmp cond rn rd imm5 ty rm s

/-- CMP, operand 2 a register shifted by a register (R230). -/
def execCmpShiftReg (cond : Cond) (rn rd rs : Reg) (ty : ShiftType) (rm : Reg) (s : State) : Result :=
  cmpShiftReg aluCmp cond rn rd rs ty rm s

/-- CMP, operand 2 a rotated immediate (R230). -/
def execCmpImm (cond : Cond) (rn rd : Reg) (rot4 : BitVec 4) (imm8 : BitVec 8) (s : State) : Result :=
  cmpImm aluCmp cond rn rd rot4 imm8 s

/-- CMN, operand 2 a register shifted by an immediate (41_data_processing.md R231). -/
def execCmnShiftImm (cond : Cond) (rn rd : Reg) (imm5 : BitVec 5) (ty : ShiftType) (rm : Reg) (s : State) : Result :=
  cmpShiftImm aluCmn cond rn rd imm5 ty rm s

/-- CMN, operand 2 a register shifted by a register (R231). -/
def execCmnShiftReg (cond : Cond) (rn rd rs : Reg) (ty : ShiftType) (rm : Reg) (s : State) : Result :=
  cmpShiftReg aluCmn cond rn rd rs ty rm s

/-- CMN, operand 2 a rotated immediate (R231). -/
def execCmnImm (cond : Cond) (rn rd : Reg) (rot4 : BitVec 4) (imm8 : BitVec 8) (s : State) : Result :=
  cmpImm aluCmn cond rn rd rot4 imm8 s

/-- ORR, operand 2 a register shifted by an immediate (41_data_processing.md R232). -/
def execOrrShiftImm (cond : Cond) (S : Bool) (rn rd : Reg) (imm5 : BitVec 5) (ty : ShiftType) (rm : Reg) (s : State) : Result :=
  dpShiftImm aluOrr cond S rn rd imm5 ty rm s

/-- ORR, operand 2 a register shifted by a register (R232). -/
def execOrrShiftReg (cond : Cond) (S : Bool) (rn rd rs : Reg) (ty : ShiftType) (rm : Reg) (s : State) : Result :=
  dpShiftReg aluOrr cond S rn rd rs ty rm s

/-- ORR, operand 2 a rotated immediate (R232). -/
def execOrrImm (cond : Cond) (S : Bool) (rn rd : Reg) (rot4 : BitVec 4) (imm8 : BitVec 8) (s : State) : Result :=
  dpImm aluOrr cond S rn rd rot4 imm8 s

/-- MOV, operand 2 a register shifted by an immediate (41_data_processing.md R233). -/
def execMovShiftImm (cond : Cond) (S : Bool) (rd : Reg) (imm5 : BitVec 5) (ty : ShiftType) (rm : Reg) (s : State) : Result :=
  dpShiftImm aluMov cond S 0 rd imm5 ty rm s

/-- MOV, operand 2 a register shifted by a register (R233). -/
def execMovShiftReg (cond : Cond) (S : Bool) (rd rs : Reg) (ty : ShiftType) (rm : Reg) (s : State) : Result :=
  dpShiftReg aluMov cond S 0 rd rs ty rm s

/-- MOV, operand 2 a rotated immediate (R233). -/
def execMovImm (cond : Cond) (S : Bool) (rd : Reg) (rot4 : BitVec 4) (imm8 : BitVec 8) (s : State) : Result :=
  dpImm aluMov cond S 0 rd rot4 imm8 s

/-- BIC, operand 2 a register shifted by an immediate (41_data_processing.md R234). -/
def execBicShiftImm (cond : Cond) (S : Bool) (rn rd : Reg) (imm5 : BitVec 5) (ty : ShiftType) (rm : Reg) (s : State) : Result :=
  dpShiftImm aluBic cond S rn rd imm5 ty rm s

/-- BIC, operand 2 a register shifted by a register (R234). -/
def execBicShiftReg (cond : Cond) (S : Bool) (rn rd rs : Reg) (ty : ShiftType) (rm : Reg) (s : State) : Result :=
  dpShiftReg aluBic cond S rn rd rs ty rm s

/-- BIC, operand 2 a rotated immediate (R234). -/
def execBicImm (cond : Cond) (S : Bool) (rn rd : Reg) (rot4 : BitVec 4) (imm8 : BitVec 8) (s : State) : Result :=
  dpImm aluBic cond S rn rd rot4 imm8 s

/-- MVN, operand 2 a register shifted by an immediate (41_data_processing.md R235). -/
def execMvnShiftImm (cond : Cond) (S : Bool) (rd : Reg) (imm5 : BitVec 5) (ty : ShiftType) (rm : Reg) (s : State) : Result :=
  dpShiftImm aluMvn cond S 0 rd imm5 ty rm s

/-- MVN, operand 2 a register shifted by a register (R235). -/
def execMvnShiftReg (cond : Cond) (S : Bool) (rd rs : Reg) (ty : ShiftType) (rm : Reg) (s : State) : Result :=
  dpShiftReg aluMvn cond S 0 rd rs ty rm s

/-- MVN, operand 2 a rotated immediate (R235). -/
def execMvnImm (cond : Cond) (S : Bool) (rd : Reg) (rot4 : BitVec 4) (imm8 : BitVec 8) (s : State) : Result :=
  dpImm aluMvn cond S 0 rd rot4 imm8 s

end Sys2Proof.Machine
end

