-- ==== Sys2Proof/Machine/Multiply.lean ====
section
/-! DEFINITION. The multiplies (43_multiply.md R270 to R284). -/
namespace Sys2Proof.Machine

/-- MUL (43_multiply.md R272). -/
def execMul (cond : Cond) (S : Bool) (rd rs rm : Reg) (s : State) : Result :=
  ifCond cond s fun s =>
    refuseIf (isPc rd || isPc rs || isPc rm) .multiplyR15 <|
    finishArm (fun k => k.writeProduct S rd (product32 (k.reg rm) (k.reg rs) 0)) s

/-- MLA (R273). -/
def execMla (cond : Cond) (S : Bool) (rd rn rs rm : Reg) (s : State) : Result :=
  ifCond cond s fun s =>
    refuseIf (isPc rd || isPc rn || isPc rs || isPc rm) .multiplyR15 <|
    finishArm (fun k => k.writeProduct S rd (product32 (k.reg rm) (k.reg rs) (k.reg rn))) s

/-- UMULL (R274). -/
def execUmull (cond : Cond) (S : Bool) (rdHi rdLo rs rm : Reg) (s : State) : Result :=
  longMultiply false false cond S rdHi rdLo rs rm s

/-- UMLAL (R275). -/
def execUmlal (cond : Cond) (S : Bool) (rdHi rdLo rs rm : Reg) (s : State) : Result :=
  longMultiply false true cond S rdHi rdLo rs rm s

/-- SMULL (R276). -/
def execSmull (cond : Cond) (S : Bool) (rdHi rdLo rs rm : Reg) (s : State) : Result :=
  longMultiply true false cond S rdHi rdLo rs rm s

/-- SMLAL (R277). -/
def execSmlal (cond : Cond) (S : Bool) (rdHi rdLo rs rm : Reg) (s : State) : Result :=
  longMultiply true true cond S rdHi rdLo rs rm s

/-- SMLAxy, ARM9 only (R280). -/
def execSmlaXY (cond : Cond) (rd rn rs : Reg) (y x : Bool) (rm : Reg) (s : State) : Result :=
  ifCond cond s fun s => onArm9 s fun s =>
    refuseIf (isPc rd || isPc rn || isPc rs || isPc rm) .multiplyR15 <|
    finishArm (fun k => k.accumulateQ rd (BitVec.ofInt 32 (halfProduct k rm rs x y)) (k.reg rn)) s

/-- SMLAWy, ARM9 only (R281). -/
def execSmlaWY (cond : Cond) (rd rn rs : Reg) (y : Bool) (rm : Reg) (s : State) : Result :=
  ifCond cond s fun s => onArm9 s fun s =>
    refuseIf (isPc rd || isPc rn || isPc rs || isPc rm) .multiplyR15 <|
    finishArm (fun k => k.accumulateQ rd (wordHalfProduct k rm rs y) (k.reg rn)) s

/-- SMULWy, ARM9 only (R282). -/
def execSmulWY (cond : Cond) (rd rs : Reg) (y : Bool) (rm : Reg) (s : State) : Result :=
  ifCond cond s fun s => onArm9 s fun s =>
    refuseIf (isPc rd || isPc rs || isPc rm) .multiplyR15 <|
    finishArm (fun k => k.setReg rd (wordHalfProduct k rm rs y)) s

/-- SMLALxy, ARM9 only (R283). -/
def execSmlalXY (cond : Cond) (rdHi rdLo rs : Reg) (y x : Bool) (rm : Reg) (s : State) : Result :=
  ifCond cond s fun s => onArm9 s fun s =>
    refuseIf (isPc rdHi || isPc rdLo || isPc rs || isPc rm) .multiplyR15 <|
    refuseIf (rdHi == rdLo) .multiplySameHiLo <|
    finishArm (fun k =>
      k.writeLong false rdHi rdLo (BitVec.ofInt 64 (halfProduct k rm rs x y) + longAcc k rdHi rdLo)) s

/-- SMULxy, ARM9 only (R284). -/
def execSmulXY (cond : Cond) (rd rs : Reg) (y x : Bool) (rm : Reg) (s : State) : Result :=
  ifCond cond s fun s => onArm9 s fun s =>
    refuseIf (isPc rd || isPc rs || isPc rm) .multiplyR15 <|
    finishArm (fun k => k.setReg rd (BitVec.ofInt 32 (halfProduct k rm rs x y))) s

end Sys2Proof.Machine
end

