-- ==== Sys2Proof/Machine/Status.lean ====
section
/-! DEFINITION. Status transfer and hints (42_status_transfer.md R250 to R260). -/
namespace Sys2Proof.Machine

/-- MRS: status word to register (42_status_transfer.md R252); `R` selects SPSR. -/
def execMrs (cond : Cond) (R : Bool) (rd : Reg) (s : State) : Result :=
  ifCond cond s fun s =>
    refuseIf (isPc rd) .mrsR15 <|
    let (v, s1) := psrValue R s
    finishArm (fun k => k.setReg rd v) s1

/-- MSR, register form (R254). -/
def execMsrReg (cond : Cond) (R : Bool) (mask : BitVec 4) (rm : Reg) (s : State) : Result :=
  ifCond cond s fun s => writePsr R mask (s.cur.reg rm) s

/-- MSR, immediate form (R255); with `R` clear and an empty mask the word is a hint instead. -/
def execMsrImm (cond : Cond) (R : Bool) (mask rot4 : BitVec 4) (imm8 : BitVec 8) (s : State) : Result :=
  ifCond cond s fun s => writePsr R mask (rotatedImm rot4 imm8) s

/-- NOP, hint 0 (R257). -/
def execNop (cond : Cond) (s : State) : Result :=
  ifCond cond s fun s => finishArm id s

/-- WFI, hint 3 (R258). -/
def execWfi (cond : Cond) (s : State) : Result :=
  ifCond cond s fun s => finishArm (fun k => { k with waiting := true }) s

/-- Every other hint number (30_encoding.md R142). -/
def execHintOther (cond : Cond) (_imm8 : BitVec 8) (s : State) : Result :=
  ifCond cond s fun _ => .fault .unimplementedHint

end Sys2Proof.Machine
end

