-- ==== Sys2Proof/Machine/ThumbA.lean ====
section
/-! DEFINITION. Thumb formats 1 to 8 (47_thumb_a.md R410 to R458). -/
namespace Sys2Proof.Machine

/-- Format 1 LSL (47_thumb_a.md R412). -/
def execTLslImm (imm5 : BitVec 5) (rs rd : LowReg) (s : State) : Result :=
  thumbAlu rd (thumbShiftImm .lsl imm5 rs) s

/-- Format 1 LSR (47_thumb_a.md R413). -/
def execTLsrImm (imm5 : BitVec 5) (rs rd : LowReg) (s : State) : Result :=
  thumbAlu rd (thumbShiftImm .lsr imm5 rs) s

/-- Format 1 ASR (47_thumb_a.md R414). -/
def execTAsrImm (imm5 : BitVec 5) (rs rd : LowReg) (s : State) : Result :=
  thumbAlu rd (thumbShiftImm .asr imm5 rs) s

/-- Format 2 ADD (R416). -/
def execTAddReg (rn rs rd : LowReg) (s : State) : Result :=
  thumbAlu rd (fun k => addWithCarry (k.reg (low rs)) (k.reg (low rn)) false) s

/-- Format 2 SUB (R417). -/
def execTSubReg (rn rs rd : LowReg) (s : State) : Result :=
  thumbAlu rd (fun k => addWithCarry (k.reg (low rs)) (~~~k.reg (low rn)) true) s

/-- Format 2 ADD with a 3-bit immediate (R418). -/
def execTAddImm3 (imm3 : BitVec 3) (rs rd : LowReg) (s : State) : Result :=
  thumbAlu rd (fun k => addWithCarry (k.reg (low rs)) (imm3.setWidth 32) false) s

/-- Format 2 SUB with a 3-bit immediate (R419). -/
def execTSubImm3 (imm3 : BitVec 3) (rs rd : LowReg) (s : State) : Result :=
  thumbAlu rd (fun k => addWithCarry (k.reg (low rs)) (~~~imm3.setWidth 32) true) s

/-- Format 3 MOV (R421). -/
def execTMovImm (rd : LowReg) (imm8 : BitVec 8) (s : State) : Result :=
  thumbAlu rd (fun k => logical (imm8.setWidth 32) (psrC k.cpsr)) s

/-- Format 3 CMP (R422). -/
def execTCmpImm (rd : LowReg) (imm8 : BitVec 8) (s : State) : Result :=
  thumbCompare (fun k => addWithCarry (k.reg (low rd)) (~~~imm8.setWidth 32) true) s

/-- Format 3 ADD (R423). -/
def execTAddImm8 (rd : LowReg) (imm8 : BitVec 8) (s : State) : Result :=
  thumbAlu rd (fun k => addWithCarry (k.reg (low rd)) (imm8.setWidth 32) false) s

/-- Format 3 SUB (R424). -/
def execTSubImm8 (rd : LowReg) (imm8 : BitVec 8) (s : State) : Result :=
  thumbAlu rd (fun k => addWithCarry (k.reg (low rd)) (~~~imm8.setWidth 32) true) s

/-- Format 4 AND (R426). -/
def execTAnd (rs rd : LowReg) (s : State) : Result :=
  thumbAlu rd (thumbOp aluAnd rs rd) s

/-- Format 4 EOR (R427). -/
def execTEor (rs rd : LowReg) (s : State) : Result :=
  thumbAlu rd (thumbOp aluEor rs rd) s

/-- Format 4 LSL (R428). -/
def execTLslReg (rs rd : LowReg) (s : State) : Result :=
  thumbAlu rd (thumbShift .lsl rs rd) s

/-- Format 4 LSR (R429). -/
def execTLsrReg (rs rd : LowReg) (s : State) : Result :=
  thumbAlu rd (thumbShift .lsr rs rd) s

/-- Format 4 ASR (R430). -/
def execTAsrReg (rs rd : LowReg) (s : State) : Result :=
  thumbAlu rd (thumbShift .asr rs rd) s

/-- Format 4 ADC (R431). -/
def execTAdc (rs rd : LowReg) (s : State) : Result :=
  thumbAlu rd (thumbOp aluAdc rs rd) s

/-- Format 4 SBC (R432). -/
def execTSbc (rs rd : LowReg) (s : State) : Result :=
  thumbAlu rd (thumbOp aluSbc rs rd) s

/-- Format 4 ROR (R433). -/
def execTRor (rs rd : LowReg) (s : State) : Result :=
  thumbAlu rd (thumbShift .ror rs rd) s

/-- Format 4 TST (R434). -/
def execTTst (rs rd : LowReg) (s : State) : Result :=
  thumbCompare (thumbOp aluTst rs rd) s

/-- Format 4 NEG (R435). -/
def execTNeg (rs rd : LowReg) (s : State) : Result :=
  thumbAlu rd (fun k => addWithCarry 0 (~~~k.reg (low rs)) true) s

/-- Format 4 CMP (R436). -/
def execTCmpReg (rs rd : LowReg) (s : State) : Result :=
  thumbCompare (thumbOp aluCmp rs rd) s

/-- Format 4 CMN (R437). -/
def execTCmn (rs rd : LowReg) (s : State) : Result :=
  thumbCompare (thumbOp aluCmn rs rd) s

/-- Format 4 ORR (R438). -/
def execTOrr (rs rd : LowReg) (s : State) : Result :=
  thumbAlu rd (thumbOp aluOrr rs rd) s

/-- Format 4 MUL (R439). -/
def execTMul (rs rd : LowReg) (s : State) : Result :=
  finishThumb (fun k =>
    k.writeProduct true (low rd) (product32 (k.reg (low rd)) (k.reg (low rs)) 0)) s

/-- Format 4 BIC (R440). -/
def execTBic (rs rd : LowReg) (s : State) : Result :=
  thumbAlu rd (thumbOp aluBic rs rd) s

/-- Format 4 MVN (R441). -/
def execTMvn (rs rd : LowReg) (s : State) : Result :=
  thumbAlu rd (thumbOp aluMvn rs rd) s

/-- Format 5 ADD on high registers (R443). -/
def execTAddHi (rs rd : Reg) (s : State) : Result :=
  thumbHigh rd (s.cur.reg rd + s.cur.reg rs) s

/-- Format 5 CMP on high registers (R444). -/
def execTCmpHi (rs rd : Reg) (s : State) : Result :=
  refuseIf (isPc rd) .compareR15 <|
  thumbCompare (fun k => addWithCarry (k.reg rd) (~~~k.reg rs) true) s

/-- Format 5 MOV on high registers (R445). -/
def execTMovHi (rs rd : Reg) (s : State) : Result :=
  thumbHigh rd (s.cur.reg rs) s

/-- Format 5 BX (R446). -/
def execTBx (rs : Reg) (s : State) : Result :=
  branchExchange (s.cur.reg rs) s

/-- Format 5 BLX, ARM9 only (R447). -/
def execTBlxReg (rs : Reg) (s : State) : Result :=
  onArm9 s fun s =>
    refuseIf (isPc rs) .blxR15 <|
    branchExchange (s.cur.reg rs) (s.upd fun k => k.setReg regLr (thumbLink k))

/-- Format 6, PC-relative LDR (R449). -/
def execTLdrPc (rd : LowReg) (imm8 : BitVec 8) (s : State) : Result :=
  thumbLoad loadAligned (thumbAddrPc s.cur imm8) rd s

/-- Format 7, register offset (R451). -/
def execTStrReg (ro rb rd : LowReg) (s : State) : Result :=
  thumbStore .word (thumbAddrReg s.cur ro rb) rd s

/-- Format 7, register offset (R452). -/
def execTStrbReg (ro rb rd : LowReg) (s : State) : Result :=
  thumbStore .byte (thumbAddrReg s.cur ro rb) rd s

/-- Format 7, register offset (R453). -/
def execTLdrReg (ro rb rd : LowReg) (s : State) : Result :=
  thumbLoad loadWord (thumbAddrReg s.cur ro rb) rd s

/-- Format 7, register offset (R454). -/
def execTLdrbReg (ro rb rd : LowReg) (s : State) : Result :=
  thumbLoad loadByte (thumbAddrReg s.cur ro rb) rd s

/-- Format 8, register offset (R455). -/
def execTStrhReg (ro rb rd : LowReg) (s : State) : Result :=
  thumbStore .half (thumbAddrReg s.cur ro rb) rd s

/-- Format 8, register offset (R456). -/
def execTLdsb (ro rb rd : LowReg) (s : State) : Result :=
  thumbLoad loadSignedByte (thumbAddrReg s.cur ro rb) rd s

/-- Format 8, register offset (R457). -/
def execTLdrhReg (ro rb rd : LowReg) (s : State) : Result :=
  thumbLoad loadHalf (thumbAddrReg s.cur ro rb) rd s

/-- Format 8, register offset (R458). -/
def execTLdsh (ro rb rd : LowReg) (s : State) : Result :=
  thumbLoad loadSignedHalf (thumbAddrReg s.cur ro rb) rd s

end Sys2Proof.Machine
end

