-- ==== Sys2Proof/Machine/ThumbB.lean ====
section
/-! DEFINITION. Thumb formats 9 to 19 (48_thumb_b.md R460 to R494). -/
namespace Sys2Proof.Machine

/-- Format 9, immediate offset (48_thumb_b.md R461). -/
def execTStrImm (imm5 : BitVec 5) (rb rd : LowReg) (s : State) : Result :=
  thumbStore .word (thumbAddrImm s.cur imm5 2 rb) rd s

/-- Format 9, immediate offset (48_thumb_b.md R462). -/
def execTLdrImm (imm5 : BitVec 5) (rb rd : LowReg) (s : State) : Result :=
  thumbLoad loadWord (thumbAddrImm s.cur imm5 2 rb) rd s

/-- Format 9, immediate offset (48_thumb_b.md R463). -/
def execTStrbImm (imm5 : BitVec 5) (rb rd : LowReg) (s : State) : Result :=
  thumbStore .byte (thumbAddrImm s.cur imm5 0 rb) rd s

/-- Format 9, immediate offset (48_thumb_b.md R464). -/
def execTLdrbImm (imm5 : BitVec 5) (rb rd : LowReg) (s : State) : Result :=
  thumbLoad loadByte (thumbAddrImm s.cur imm5 0 rb) rd s

/-- Format 10, immediate offset (48_thumb_b.md R465). -/
def execTStrhImm (imm5 : BitVec 5) (rb rd : LowReg) (s : State) : Result :=
  thumbStore .half (thumbAddrImm s.cur imm5 1 rb) rd s

/-- Format 10, immediate offset (48_thumb_b.md R466). -/
def execTLdrhImm (imm5 : BitVec 5) (rb rd : LowReg) (s : State) : Result :=
  thumbLoad loadHalf (thumbAddrImm s.cur imm5 1 rb) rd s

/-- Format 11 (R467). -/
def execTStrSp (rd : LowReg) (imm8 : BitVec 8) (s : State) : Result :=
  thumbStore .word (thumbAddrSp s.cur imm8) rd s

/-- Format 11 (R468). -/
def execTLdrSp (rd : LowReg) (imm8 : BitVec 8) (s : State) : Result :=
  thumbLoad loadWord (thumbAddrSp s.cur imm8) rd s

/-- Format 12 (R470). -/
def execTAddPc (rd : LowReg) (imm8 : BitVec 8) (s : State) : Result :=
  finishThumb (fun k => k.setReg (low rd) (thumbAddrPc k imm8)) s

/-- Format 12 (R471). -/
def execTAddSp (rd : LowReg) (imm8 : BitVec 8) (s : State) : Result :=
  finishThumb (fun k => k.setReg (low rd) (thumbAddrSp k imm8)) s

/-- Format 13, stack adjust (R472). -/
def execTAdjustSp (sub : Bool) (imm7 : BitVec 7) (s : State) : Result :=
  finishThumb (fun k =>
    let d : Word := imm7.setWidth 32 <<< 2
    k.setReg regSp (if sub then k.reg regSp - d else k.reg regSp + d)) s

/-- Format 14 (R474); `r` adds `r14` or `r15`. -/
def execTPush (r : Bool) (list : BitVec 8) (s : State) : Result :=
  emptyGuard (stackList list r 14) false s <|
  blockStore true false false true regSp (stackList list r 14) advanceThumb s

/-- Format 14 (R475); `r` adds `r14` or `r15`. -/
def execTPop (r : Bool) (list : BitVec 8) (s : State) : Result :=
  emptyGuard (stackList list r 15) false s <|
  blockLoad false true false true regSp (stackList list r 15) popPc advanceThumb s

/-- Format 15 (R477). -/
def execTStmia (rb : LowReg) (list : BitVec 8) (s : State) : Result :=
  emptyGuard (list.setWidth 16) false s <|
  blockStore false true false true (low rb) (list.setWidth 16) advanceThumb s

/-- Format 15 (R478). -/
def execTLdmia (rb : LowReg) (list : BitVec 8) (s : State) : Result :=
  emptyGuard (list.setWidth 16) false s <|
  blockLoad false true false true (low rb) (list.setWidth 16) popPc advanceThumb s

/-- Format 16 BEQ (R480). -/
def execTBeq (imm8 : BitVec 8) (s : State) : Result :=
  thumbBranchIf .eq imm8 s

/-- Format 16 BNE (R480). -/
def execTBne (imm8 : BitVec 8) (s : State) : Result :=
  thumbBranchIf .ne imm8 s

/-- Format 16 BCS (R480). -/
def execTBcs (imm8 : BitVec 8) (s : State) : Result :=
  thumbBranchIf .cs imm8 s

/-- Format 16 BCC (R480). -/
def execTBcc (imm8 : BitVec 8) (s : State) : Result :=
  thumbBranchIf .cc imm8 s

/-- Format 16 BMI (R480). -/
def execTBmi (imm8 : BitVec 8) (s : State) : Result :=
  thumbBranchIf .mi imm8 s

/-- Format 16 BPL (R480). -/
def execTBpl (imm8 : BitVec 8) (s : State) : Result :=
  thumbBranchIf .pl imm8 s

/-- Format 16 BVS (R480). -/
def execTBvs (imm8 : BitVec 8) (s : State) : Result :=
  thumbBranchIf .vs imm8 s

/-- Format 16 BVC (R480). -/
def execTBvc (imm8 : BitVec 8) (s : State) : Result :=
  thumbBranchIf .vc imm8 s

/-- Format 16 BHI (R480). -/
def execTBhi (imm8 : BitVec 8) (s : State) : Result :=
  thumbBranchIf .hi imm8 s

/-- Format 16 BLS (R480). -/
def execTBls (imm8 : BitVec 8) (s : State) : Result :=
  thumbBranchIf .ls imm8 s

/-- Format 16 BGE (R480). -/
def execTBge (imm8 : BitVec 8) (s : State) : Result :=
  thumbBranchIf .ge imm8 s

/-- Format 16 BLT (R480). -/
def execTBlt (imm8 : BitVec 8) (s : State) : Result :=
  thumbBranchIf .lt imm8 s

/-- Format 16 BGT (R480). -/
def execTBgt (imm8 : BitVec 8) (s : State) : Result :=
  thumbBranchIf .gt imm8 s

/-- Format 16 BLE (R480). -/
def execTBle (imm8 : BitVec 8) (s : State) : Result :=
  thumbBranchIf .le imm8 s

/-- Format 17 SWI (R482). -/
def execTSwi (_imm8 : BitVec 8) (s : State) : Result :=
  raiseSwi s

/-- Format 18 B (R484). -/
def execTB (imm11 : BitVec 11) (s : State) : Result :=
  branchTo (s.cur.r15 + (imm11.signExtend 32 <<< 1)) s

/-- Format 19, first half of BL (R492). -/
def execTBlFirst (imm11 : BitVec 11) (s : State) : Result :=
  finishThumb (fun k => k.setReg regLr (k.r15 + (imm11.signExtend 32 <<< 12))) s

/-- Format 19, second half of BL (R493). -/
def execTBlSecond (imm11 : BitVec 11) (s : State) : Result :=
  branchTo ((s.cur.reg regLr + (imm11.setWidth 32 <<< 1)) &&& 0xFFFFFFFE)
    (s.upd fun k => k.setReg regLr (thumbLink k))

/-- Format 19, second half of BLX, ARM9 only (R494). -/
def execTBlxSecond (imm11 : BitVec 11) (s : State) : Result :=
  onArm9 s fun s =>
    branchTo ((s.cur.reg regLr + (imm11.setWidth 32 <<< 1)) &&& 0xFFFFFFFC)
      (s.upd fun k =>
        let k1 := k.setReg regLr (thumbLink k)
        { k1 with cpsr := setT k1.cpsr false })

end Sys2Proof.Machine
end

