-- ==== Sys2Proof/Machine/Transfer.lean ====
section
/-! DEFINITION. Single, halfword, signed and double transfers and swaps (44_single_transfer.md R300 to R331). -/
namespace Sys2Proof.Machine

/-- LDR, immediate offset (44_single_transfer.md R305). -/
def execLdrImm (cond : Cond) (P U W : Bool) (rn rd : Reg) (imm12 : BitVec 12) (s : State) : Result :=
  transferImm12 (fun ad => loadTo loadWord ad rn rd) cond P U W rn imm12 s

/-- LDR, shifted register offset (R305). -/
def execLdrReg (cond : Cond) (P U W : Bool) (rn rd : Reg) (imm5 : BitVec 5) (ty : ShiftType) (rm : Reg) (s : State) : Result :=
  transferShifted (fun ad => loadTo loadWord ad rn rd) cond P U W rn imm5 ty rm s

/-- STR, immediate offset (44_single_transfer.md R306). -/
def execStrImm (cond : Cond) (P U W : Bool) (rn rd : Reg) (imm12 : BitVec 12) (s : State) : Result :=
  transferImm12 (fun ad => storeFrom .word ad rn rd) cond P U W rn imm12 s

/-- STR, shifted register offset (R306). -/
def execStrReg (cond : Cond) (P U W : Bool) (rn rd : Reg) (imm5 : BitVec 5) (ty : ShiftType) (rm : Reg) (s : State) : Result :=
  transferShifted (fun ad => storeFrom .word ad rn rd) cond P U W rn imm5 ty rm s

/-- LDRB, immediate offset (44_single_transfer.md R307). -/
def execLdrbImm (cond : Cond) (P U W : Bool) (rn rd : Reg) (imm12 : BitVec 12) (s : State) : Result :=
  transferImm12 (loadNarrow loadByte rn rd) cond P U W rn imm12 s

/-- LDRB, shifted register offset (R307). -/
def execLdrbReg (cond : Cond) (P U W : Bool) (rn rd : Reg) (imm5 : BitVec 5) (ty : ShiftType) (rm : Reg) (s : State) : Result :=
  transferShifted (loadNarrow loadByte rn rd) cond P U W rn imm5 ty rm s

/-- STRB, immediate offset (44_single_transfer.md R308). -/
def execStrbImm (cond : Cond) (P U W : Bool) (rn rd : Reg) (imm12 : BitVec 12) (s : State) : Result :=
  transferImm12 (fun ad => storeFrom .byte ad rn rd) cond P U W rn imm12 s

/-- STRB, shifted register offset (R308). -/
def execStrbReg (cond : Cond) (P U W : Bool) (rn rd : Reg) (imm5 : BitVec 5) (ty : ShiftType) (rm : Reg) (s : State) : Result :=
  transferShifted (fun ad => storeFrom .byte ad rn rd) cond P U W rn imm5 ty rm s

/-- STRH, register offset (R316). -/
def execStrhReg (cond : Cond) (P U W : Bool) (rn rd rm : Reg) (s : State) : Result :=
  ifCond cond s fun s => transferReg (fun ad => storeFrom .half ad rn rd) P U W rn rm s

/-- STRH, immediate offset (R316). -/
def execStrhImm (cond : Cond) (P U W : Bool) (rn rd : Reg) (imm8 : BitVec 8) (s : State) : Result :=
  ifCond cond s fun s => transferImm8 (fun ad => storeFrom .half ad rn rd) P U W rn imm8 s

/-- LDRH, register offset (R315). -/
def execLdrhReg (cond : Cond) (P U W : Bool) (rn rd rm : Reg) (s : State) : Result :=
  ifCond cond s fun s => transferReg (loadNarrow loadHalf rn rd) P U W rn rm s

/-- LDRH, immediate offset (R315). -/
def execLdrhImm (cond : Cond) (P U W : Bool) (rn rd : Reg) (imm8 : BitVec 8) (s : State) : Result :=
  ifCond cond s fun s => transferImm8 (loadNarrow loadHalf rn rd) P U W rn imm8 s

/-- LDRSB, register offset (R317). -/
def execLdrsbReg (cond : Cond) (P U W : Bool) (rn rd rm : Reg) (s : State) : Result :=
  ifCond cond s fun s => transferReg (loadNarrow loadSignedByte rn rd) P U W rn rm s

/-- LDRSB, immediate offset (R317). -/
def execLdrsbImm (cond : Cond) (P U W : Bool) (rn rd : Reg) (imm8 : BitVec 8) (s : State) : Result :=
  ifCond cond s fun s => transferImm8 (loadNarrow loadSignedByte rn rd) P U W rn imm8 s

/-- LDRSH, register offset (R318). -/
def execLdrshReg (cond : Cond) (P U W : Bool) (rn rd rm : Reg) (s : State) : Result :=
  ifCond cond s fun s => transferReg (loadNarrow loadSignedHalf rn rd) P U W rn rm s

/-- LDRSH, immediate offset (R318). -/
def execLdrshImm (cond : Cond) (P U W : Bool) (rn rd : Reg) (imm8 : BitVec 8) (s : State) : Result :=
  ifCond cond s fun s => transferImm8 (loadNarrow loadSignedHalf rn rd) P U W rn imm8 s

/-- LDRD, register offset, ARM9 only (R320). -/
def execLdrdReg (cond : Cond) (P U W : Bool) (rn rd rm : Reg) (s : State) : Result :=
  ifCond cond s fun s => onArm9 s fun s =>
    doubleGuard rd (transferReg (loadDouble rn rd) P U W rn rm s)

/-- LDRD, immediate offset, ARM9 only (R320). -/
def execLdrdImm (cond : Cond) (P U W : Bool) (rn rd : Reg) (imm8 : BitVec 8) (s : State) : Result :=
  ifCond cond s fun s => onArm9 s fun s =>
    doubleGuard rd (transferImm8 (loadDouble rn rd) P U W rn imm8 s)

/-- STRD, register offset, ARM9 only (R321). -/
def execStrdReg (cond : Cond) (P U W : Bool) (rn rd rm : Reg) (s : State) : Result :=
  ifCond cond s fun s => onArm9 s fun s =>
    doubleGuard rd (transferReg (storeDouble rn rd) P U W rn rm s)

/-- STRD, immediate offset, ARM9 only (R321). -/
def execStrdImm (cond : Cond) (P U W : Bool) (rn rd : Reg) (imm8 : BitVec 8) (s : State) : Result :=
  ifCond cond s fun s => onArm9 s fun s =>
    doubleGuard rd (transferImm8 (storeDouble rn rd) P U W rn imm8 s)

/-- SWP (R330). -/
def execSwp (cond : Cond) (rn rd rm : Reg) (s : State) : Result :=
  swapOp loadWord .word cond rn rd rm s

/-- SWPB (R331). -/
def execSwpb (cond : Cond) (rn rd rm : Reg) (s : State) : Result :=
  swapOp loadByte .byte cond rn rd rm s

end Sys2Proof.Machine
end

