-- ==== Sys2Proof/Machine/Undefined.lean ====
section
/-! DEFINITION. The undefined and unimplemented encodings (30_encoding.md R124, R140, R153). -/
namespace Sys2Proof.Machine

/-- An undefined Thumb encoding panics whatever the state (R153). -/
def undefinedThumb (_ : State) : Result := .fault .undefinedInstruction

/-- Undefined encodings bits 27:20 = 0000 01xx, bits 7:4 = 1001 (30_encoding.md R140). -/
def execUndMultiply (cond : Cond) (s : State) : Result :=
  ifCond cond s fun _ => .fault .undefinedInstruction

/-- Undefined encodings 0001 0xx1, 1001 (30_encoding.md R140). -/
def execUndSwapLoad (cond : Cond) (s : State) : Result :=
  ifCond cond s fun _ => .fault .undefinedInstruction

/-- Undefined encodings 0001 1xxx, 1001 (30_encoding.md R140). -/
def execUndSwapWide (cond : Cond) (s : State) : Result :=
  ifCond cond s fun _ => .fault .undefinedInstruction

/-- Undefined encodings 0001 0x10, 1001 (30_encoding.md R140). -/
def execUndSwapOdd (cond : Cond) (s : State) : Result :=
  ifCond cond s fun _ => .fault .undefinedInstruction

/-- Undefined encodings 0001 0x00, 00x1 (30_encoding.md R140). -/
def execUndMiscBranch (cond : Cond) (s : State) : Result :=
  ifCond cond s fun _ => .fault .undefinedInstruction

/-- Undefined encodings 0001 0110, 0011 (30_encoding.md R140). -/
def execUndMiscClz (cond : Cond) (s : State) : Result :=
  ifCond cond s fun _ => .fault .undefinedInstruction

/-- Undefined encodings 0001 0xx0, 0010 (30_encoding.md R140). -/
def execUndMiscTwo (cond : Cond) (s : State) : Result :=
  ifCond cond s fun _ => .fault .undefinedInstruction

/-- Undefined encodings 0001 0xx0, 01x0 (30_encoding.md R140). -/
def execUndMiscFourSix (cond : Cond) (s : State) : Result :=
  ifCond cond s fun _ => .fault .undefinedInstruction

/-- Undefined encodings 0001 0xx0, 0111, BKPT among them (30_encoding.md R140). -/
def execUndMiscSeven (cond : Cond) (s : State) : Result :=
  ifCond cond s fun _ => .fault .undefinedInstruction

/-- Undefined encodings 0011 0x00 (30_encoding.md R140). -/
def execUndCompareImm (cond : Cond) (s : State) : Result :=
  ifCond cond s fun _ => .fault .undefinedInstruction

/-- Undefined encodings 011x xxxx, xxx1 (30_encoding.md R140). -/
def execUndMedia (cond : Cond) (s : State) : Result :=
  ifCond cond s fun _ => .fault .undefinedInstruction

/-- Undefined encodings 110x xxxx: LDC, STC, MCRR, MRRC (30_encoding.md R140). -/
def execUndCoprocTransfer (cond : Cond) (s : State) : Result :=
  ifCond cond s fun _ => .fault .undefinedInstruction

/-- Undefined encodings 1110 xxxx, xxx0: CDP (30_encoding.md R140). -/
def execUndCoprocOp (cond : Cond) (s : State) : Result :=
  ifCond cond s fun _ => .fault .undefinedInstruction

/-- NV words with bit 27 clear (R124). -/
def execUndNvLow (s : State) : Result :=
  ifNv s fun _ => .fault .unimplementedNv

/-- NV words with bits 27:26 = 11 (R124). -/
def execUndNvCoproc (s : State) : Result :=
  ifNv s fun _ => .fault .unimplementedNv

/-- NV words with bits 27:25 = 100 (R124). -/
def execUndNvBlock (s : State) : Result :=
  ifNv s fun _ => .fault .unimplementedNv

/-- Undefined Thumb encodings 0xB100 under 0xFF00 (30_encoding.md R153). -/
def execTUndB1 (s : State) : Result :=
  undefinedThumb s

/-- Undefined Thumb encodings 0xB200 under 0xFE00 (30_encoding.md R153). -/
def execTUndB2 (s : State) : Result :=
  undefinedThumb s

/-- Undefined Thumb encodings 0xB600 under 0xFE00 (30_encoding.md R153). -/
def execTUndB6 (s : State) : Result :=
  undefinedThumb s

/-- Undefined Thumb encodings 0xB800 under 0xFC00 (30_encoding.md R153). -/
def execTUndB8 (s : State) : Result :=
  undefinedThumb s

/-- Undefined Thumb encodings 0xBE00 under 0xFE00 (30_encoding.md R153). -/
def execTUndBE (s : State) : Result :=
  undefinedThumb s

/-- Undefined Thumb encodings 0xDE00 under 0xFF00 (30_encoding.md R153). -/
def execTUndDE (s : State) : Result :=
  undefinedThumb s

end Sys2Proof.Machine
end

