-- ==== Sys2Proof/Machine/Dispatch.lean ====
section
/-! DEFINITION. The dispatch: one arm for each instruction. -/
namespace Sys2Proof.Machine

def exec (i : Instr) (s : State) : Host.Outcome State Fault Refusal :=
  match i with
  | .andShiftImm cond S rn rd imm5 ty rm => Sys2Proof.Machine.execAndShiftImm cond S rn rd imm5 ty rm s
  | .andShiftReg cond S rn rd rs ty rm => Sys2Proof.Machine.execAndShiftReg cond S rn rd rs ty rm s
  | .andImm cond S rn rd rot4 imm8 => Sys2Proof.Machine.execAndImm cond S rn rd rot4 imm8 s
  | .eorShiftImm cond S rn rd imm5 ty rm => Sys2Proof.Machine.execEorShiftImm cond S rn rd imm5 ty rm s
  | .eorShiftReg cond S rn rd rs ty rm => Sys2Proof.Machine.execEorShiftReg cond S rn rd rs ty rm s
  | .eorImm cond S rn rd rot4 imm8 => Sys2Proof.Machine.execEorImm cond S rn rd rot4 imm8 s
  | .subShiftImm cond S rn rd imm5 ty rm => Sys2Proof.Machine.execSubShiftImm cond S rn rd imm5 ty rm s
  | .subShiftReg cond S rn rd rs ty rm => Sys2Proof.Machine.execSubShiftReg cond S rn rd rs ty rm s
  | .subImm cond S rn rd rot4 imm8 => Sys2Proof.Machine.execSubImm cond S rn rd rot4 imm8 s
  | .rsbShiftImm cond S rn rd imm5 ty rm => Sys2Proof.Machine.execRsbShiftImm cond S rn rd imm5 ty rm s
  | .rsbShiftReg cond S rn rd rs ty rm => Sys2Proof.Machine.execRsbShiftReg cond S rn rd rs ty rm s
  | .rsbImm cond S rn rd rot4 imm8 => Sys2Proof.Machine.execRsbImm cond S rn rd rot4 imm8 s
  | .addShiftImm cond S rn rd imm5 ty rm => Sys2Proof.Machine.execAddShiftImm cond S rn rd imm5 ty rm s
  | .addShiftReg cond S rn rd rs ty rm => Sys2Proof.Machine.execAddShiftReg cond S rn rd rs ty rm s
  | .addImm cond S rn rd rot4 imm8 => Sys2Proof.Machine.execAddImm cond S rn rd rot4 imm8 s
  | .adcShiftImm cond S rn rd imm5 ty rm => Sys2Proof.Machine.execAdcShiftImm cond S rn rd imm5 ty rm s
  | .adcShiftReg cond S rn rd rs ty rm => Sys2Proof.Machine.execAdcShiftReg cond S rn rd rs ty rm s
  | .adcImm cond S rn rd rot4 imm8 => Sys2Proof.Machine.execAdcImm cond S rn rd rot4 imm8 s
  | .sbcShiftImm cond S rn rd imm5 ty rm => Sys2Proof.Machine.execSbcShiftImm cond S rn rd imm5 ty rm s
  | .sbcShiftReg cond S rn rd rs ty rm => Sys2Proof.Machine.execSbcShiftReg cond S rn rd rs ty rm s
  | .sbcImm cond S rn rd rot4 imm8 => Sys2Proof.Machine.execSbcImm cond S rn rd rot4 imm8 s
  | .rscShiftImm cond S rn rd imm5 ty rm => Sys2Proof.Machine.execRscShiftImm cond S rn rd imm5 ty rm s
  | .rscShiftReg cond S rn rd rs ty rm => Sys2Proof.Machine.execRscShiftReg cond S rn rd rs ty rm s
  | .rscImm cond S rn rd rot4 imm8 => Sys2Proof.Machine.execRscImm cond S rn rd rot4 imm8 s
  | .tstShiftImm cond rn rd imm5 ty rm => Sys2Proof.Machine.execTstShiftImm cond rn rd imm5 ty rm s
  | .tstShiftReg cond rn rd rs ty rm => Sys2Proof.Machine.execTstShiftReg cond rn rd rs ty rm s
  | .tstImm cond rn rd rot4 imm8 => Sys2Proof.Machine.execTstImm cond rn rd rot4 imm8 s
  | .teqShiftImm cond rn rd imm5 ty rm => Sys2Proof.Machine.execTeqShiftImm cond rn rd imm5 ty rm s
  | .teqShiftReg cond rn rd rs ty rm => Sys2Proof.Machine.execTeqShiftReg cond rn rd rs ty rm s
  | .teqImm cond rn rd rot4 imm8 => Sys2Proof.Machine.execTeqImm cond rn rd rot4 imm8 s
  | .cmpShiftImm cond rn rd imm5 ty rm => Sys2Proof.Machine.execCmpShiftImm cond rn rd imm5 ty rm s
  | .cmpShiftReg cond rn rd rs ty rm => Sys2Proof.Machine.execCmpShiftReg cond rn rd rs ty rm s
  | .cmpImm cond rn rd rot4 imm8 => Sys2Proof.Machine.execCmpImm cond rn rd rot4 imm8 s
  | .cmnShiftImm cond rn rd imm5 ty rm => Sys2Proof.Machine.execCmnShiftImm cond rn rd imm5 ty rm s
  | .cmnShiftReg cond rn rd rs ty rm => Sys2Proof.Machine.execCmnShiftReg cond rn rd rs ty rm s
  | .cmnImm cond rn rd rot4 imm8 => Sys2Proof.Machine.execCmnImm cond rn rd rot4 imm8 s
  | .orrShiftImm cond S rn rd imm5 ty rm => Sys2Proof.Machine.execOrrShiftImm cond S rn rd imm5 ty rm s
  | .orrShiftReg cond S rn rd rs ty rm => Sys2Proof.Machine.execOrrShiftReg cond S rn rd rs ty rm s
  | .orrImm cond S rn rd rot4 imm8 => Sys2Proof.Machine.execOrrImm cond S rn rd rot4 imm8 s
  | .movShiftImm cond S rd imm5 ty rm => Sys2Proof.Machine.execMovShiftImm cond S rd imm5 ty rm s
  | .movShiftReg cond S rd rs ty rm => Sys2Proof.Machine.execMovShiftReg cond S rd rs ty rm s
  | .movImm cond S rd rot4 imm8 => Sys2Proof.Machine.execMovImm cond S rd rot4 imm8 s
  | .bicShiftImm cond S rn rd imm5 ty rm => Sys2Proof.Machine.execBicShiftImm cond S rn rd imm5 ty rm s
  | .bicShiftReg cond S rn rd rs ty rm => Sys2Proof.Machine.execBicShiftReg cond S rn rd rs ty rm s
  | .bicImm cond S rn rd rot4 imm8 => Sys2Proof.Machine.execBicImm cond S rn rd rot4 imm8 s
  | .mvnShiftImm cond S rd imm5 ty rm => Sys2Proof.Machine.execMvnShiftImm cond S rd imm5 ty rm s
  | .mvnShiftReg cond S rd rs ty rm => Sys2Proof.Machine.execMvnShiftReg cond S rd rs ty rm s
  | .mvnImm cond S rd rot4 imm8 => Sys2Proof.Machine.execMvnImm cond S rd rot4 imm8 s
  | .mrs cond R rd => Sys2Proof.Machine.execMrs cond R rd s
  | .msrReg cond R mask rm => Sys2Proof.Machine.execMsrReg cond R mask rm s
  | .msrImm cond R mask rot4 imm8 => Sys2Proof.Machine.execMsrImm cond R mask rot4 imm8 s
  | .nop cond => Sys2Proof.Machine.execNop cond s
  | .wfi cond => Sys2Proof.Machine.execWfi cond s
  | .mul cond S rd rs rm => Sys2Proof.Machine.execMul cond S rd rs rm s
  | .mla cond S rd rn rs rm => Sys2Proof.Machine.execMla cond S rd rn rs rm s
  | .umull cond S rdHi rdLo rs rm => Sys2Proof.Machine.execUmull cond S rdHi rdLo rs rm s
  | .umlal cond S rdHi rdLo rs rm => Sys2Proof.Machine.execUmlal cond S rdHi rdLo rs rm s
  | .smull cond S rdHi rdLo rs rm => Sys2Proof.Machine.execSmull cond S rdHi rdLo rs rm s
  | .smlal cond S rdHi rdLo rs rm => Sys2Proof.Machine.execSmlal cond S rdHi rdLo rs rm s
  | .smlaXY cond rd rn rs y x rm => Sys2Proof.Machine.execSmlaXY cond rd rn rs y x rm s
  | .smlaWY cond rd rn rs y rm => Sys2Proof.Machine.execSmlaWY cond rd rn rs y rm s
  | .smulWY cond rd rs y rm => Sys2Proof.Machine.execSmulWY cond rd rs y rm s
  | .smlalXY cond rdHi rdLo rs y x rm => Sys2Proof.Machine.execSmlalXY cond rdHi rdLo rs y x rm s
  | .smulXY cond rd rs y x rm => Sys2Proof.Machine.execSmulXY cond rd rs y x rm s
  | .ldrImm cond P U W rn rd imm12 => Sys2Proof.Machine.execLdrImm cond P U W rn rd imm12 s
  | .ldrReg cond P U W rn rd imm5 ty rm => Sys2Proof.Machine.execLdrReg cond P U W rn rd imm5 ty rm s
  | .strImm cond P U W rn rd imm12 => Sys2Proof.Machine.execStrImm cond P U W rn rd imm12 s
  | .strReg cond P U W rn rd imm5 ty rm => Sys2Proof.Machine.execStrReg cond P U W rn rd imm5 ty rm s
  | .ldrbImm cond P U W rn rd imm12 => Sys2Proof.Machine.execLdrbImm cond P U W rn rd imm12 s
  | .ldrbReg cond P U W rn rd imm5 ty rm => Sys2Proof.Machine.execLdrbReg cond P U W rn rd imm5 ty rm s
  | .strbImm cond P U W rn rd imm12 => Sys2Proof.Machine.execStrbImm cond P U W rn rd imm12 s
  | .strbReg cond P U W rn rd imm5 ty rm => Sys2Proof.Machine.execStrbReg cond P U W rn rd imm5 ty rm s
  | .strhReg cond P U W rn rd rm => Sys2Proof.Machine.execStrhReg cond P U W rn rd rm s
  | .strhImm cond P U W rn rd imm8 => Sys2Proof.Machine.execStrhImm cond P U W rn rd imm8 s
  | .ldrhReg cond P U W rn rd rm => Sys2Proof.Machine.execLdrhReg cond P U W rn rd rm s
  | .ldrhImm cond P U W rn rd imm8 => Sys2Proof.Machine.execLdrhImm cond P U W rn rd imm8 s
  | .ldrsbReg cond P U W rn rd rm => Sys2Proof.Machine.execLdrsbReg cond P U W rn rd rm s
  | .ldrsbImm cond P U W rn rd imm8 => Sys2Proof.Machine.execLdrsbImm cond P U W rn rd imm8 s
  | .ldrshReg cond P U W rn rd rm => Sys2Proof.Machine.execLdrshReg cond P U W rn rd rm s
  | .ldrshImm cond P U W rn rd imm8 => Sys2Proof.Machine.execLdrshImm cond P U W rn rd imm8 s
  | .ldrdReg cond P U W rn rd rm => Sys2Proof.Machine.execLdrdReg cond P U W rn rd rm s
  | .ldrdImm cond P U W rn rd imm8 => Sys2Proof.Machine.execLdrdImm cond P U W rn rd imm8 s
  | .strdReg cond P U W rn rd rm => Sys2Proof.Machine.execStrdReg cond P U W rn rd rm s
  | .strdImm cond P U W rn rd imm8 => Sys2Proof.Machine.execStrdImm cond P U W rn rd imm8 s
  | .swp cond rn rd rm => Sys2Proof.Machine.execSwp cond rn rd rm s
  | .swpb cond rn rd rm => Sys2Proof.Machine.execSwpb cond rn rd rm s
  | .ldm cond P U S W rn list => Sys2Proof.Machine.execLdm cond P U S W rn list s
  | .stm cond P U S W rn list => Sys2Proof.Machine.execStm cond P U S W rn list s
  | .b cond imm24 => Sys2Proof.Machine.execB cond imm24 s
  | .bl cond imm24 => Sys2Proof.Machine.execBl cond imm24 s
  | .bx cond rm => Sys2Proof.Machine.execBx cond rm s
  | .blxReg cond rm => Sys2Proof.Machine.execBlxReg cond rm s
  | .blxImm H imm24 => Sys2Proof.Machine.execBlxImm H imm24 s
  | .clz cond rd rm => Sys2Proof.Machine.execClz cond rd rm s
  | .qadd cond rn rd rm => Sys2Proof.Machine.execQadd cond rn rd rm s
  | .qsub cond rn rd rm => Sys2Proof.Machine.execQsub cond rn rd rm s
  | .qdadd cond rn rd rm => Sys2Proof.Machine.execQdadd cond rn rd rm s
  | .qdsub cond rn rd rm => Sys2Proof.Machine.execQdsub cond rn rd rm s
  | .swi cond imm24 => Sys2Proof.Machine.execSwi cond imm24 s
  | .mcr cond opc1 crn rd cp opc2 crm => Sys2Proof.Machine.execMcr cond opc1 crn rd cp opc2 crm s
  | .mrc cond opc1 crn rd cp opc2 crm => Sys2Proof.Machine.execMrc cond opc1 crn rd cp opc2 crm s
  | .hintOther cond imm8 => Sys2Proof.Machine.execHintOther cond imm8 s
  | .undMultiply cond => Sys2Proof.Machine.execUndMultiply cond s
  | .undSwapLoad cond => Sys2Proof.Machine.execUndSwapLoad cond s
  | .undSwapWide cond => Sys2Proof.Machine.execUndSwapWide cond s
  | .undSwapOdd cond => Sys2Proof.Machine.execUndSwapOdd cond s
  | .undMiscBranch cond => Sys2Proof.Machine.execUndMiscBranch cond s
  | .undMiscClz cond => Sys2Proof.Machine.execUndMiscClz cond s
  | .undMiscTwo cond => Sys2Proof.Machine.execUndMiscTwo cond s
  | .undMiscFourSix cond => Sys2Proof.Machine.execUndMiscFourSix cond s
  | .undMiscSeven cond => Sys2Proof.Machine.execUndMiscSeven cond s
  | .undCompareImm cond => Sys2Proof.Machine.execUndCompareImm cond s
  | .undMedia cond => Sys2Proof.Machine.execUndMedia cond s
  | .undCoprocTransfer cond => Sys2Proof.Machine.execUndCoprocTransfer cond s
  | .undCoprocOp cond => Sys2Proof.Machine.execUndCoprocOp cond s
  | .undNvLow => Sys2Proof.Machine.execUndNvLow s
  | .undNvCoproc => Sys2Proof.Machine.execUndNvCoproc s
  | .undNvBlock => Sys2Proof.Machine.execUndNvBlock s
  | .tLslImm imm5 rs rd => Sys2Proof.Machine.execTLslImm imm5 rs rd s
  | .tLsrImm imm5 rs rd => Sys2Proof.Machine.execTLsrImm imm5 rs rd s
  | .tAsrImm imm5 rs rd => Sys2Proof.Machine.execTAsrImm imm5 rs rd s
  | .tAddReg rn rs rd => Sys2Proof.Machine.execTAddReg rn rs rd s
  | .tSubReg rn rs rd => Sys2Proof.Machine.execTSubReg rn rs rd s
  | .tAddImm3 imm3 rs rd => Sys2Proof.Machine.execTAddImm3 imm3 rs rd s
  | .tSubImm3 imm3 rs rd => Sys2Proof.Machine.execTSubImm3 imm3 rs rd s
  | .tMovImm rd imm8 => Sys2Proof.Machine.execTMovImm rd imm8 s
  | .tCmpImm rd imm8 => Sys2Proof.Machine.execTCmpImm rd imm8 s
  | .tAddImm8 rd imm8 => Sys2Proof.Machine.execTAddImm8 rd imm8 s
  | .tSubImm8 rd imm8 => Sys2Proof.Machine.execTSubImm8 rd imm8 s
  | .tAnd rs rd => Sys2Proof.Machine.execTAnd rs rd s
  | .tEor rs rd => Sys2Proof.Machine.execTEor rs rd s
  | .tLslReg rs rd => Sys2Proof.Machine.execTLslReg rs rd s
  | .tLsrReg rs rd => Sys2Proof.Machine.execTLsrReg rs rd s
  | .tAsrReg rs rd => Sys2Proof.Machine.execTAsrReg rs rd s
  | .tAdc rs rd => Sys2Proof.Machine.execTAdc rs rd s
  | .tSbc rs rd => Sys2Proof.Machine.execTSbc rs rd s
  | .tRor rs rd => Sys2Proof.Machine.execTRor rs rd s
  | .tTst rs rd => Sys2Proof.Machine.execTTst rs rd s
  | .tNeg rs rd => Sys2Proof.Machine.execTNeg rs rd s
  | .tCmpReg rs rd => Sys2Proof.Machine.execTCmpReg rs rd s
  | .tCmn rs rd => Sys2Proof.Machine.execTCmn rs rd s
  | .tOrr rs rd => Sys2Proof.Machine.execTOrr rs rd s
  | .tMul rs rd => Sys2Proof.Machine.execTMul rs rd s
  | .tBic rs rd => Sys2Proof.Machine.execTBic rs rd s
  | .tMvn rs rd => Sys2Proof.Machine.execTMvn rs rd s
  | .tAddHi rs rd => Sys2Proof.Machine.execTAddHi rs rd s
  | .tCmpHi rs rd => Sys2Proof.Machine.execTCmpHi rs rd s
  | .tMovHi rs rd => Sys2Proof.Machine.execTMovHi rs rd s
  | .tBx rs => Sys2Proof.Machine.execTBx rs s
  | .tBlxReg rs => Sys2Proof.Machine.execTBlxReg rs s
  | .tLdrPc rd imm8 => Sys2Proof.Machine.execTLdrPc rd imm8 s
  | .tStrReg ro rb rd => Sys2Proof.Machine.execTStrReg ro rb rd s
  | .tStrbReg ro rb rd => Sys2Proof.Machine.execTStrbReg ro rb rd s
  | .tLdrReg ro rb rd => Sys2Proof.Machine.execTLdrReg ro rb rd s
  | .tLdrbReg ro rb rd => Sys2Proof.Machine.execTLdrbReg ro rb rd s
  | .tStrhReg ro rb rd => Sys2Proof.Machine.execTStrhReg ro rb rd s
  | .tLdsb ro rb rd => Sys2Proof.Machine.execTLdsb ro rb rd s
  | .tLdrhReg ro rb rd => Sys2Proof.Machine.execTLdrhReg ro rb rd s
  | .tLdsh ro rb rd => Sys2Proof.Machine.execTLdsh ro rb rd s
  | .tStrImm imm5 rb rd => Sys2Proof.Machine.execTStrImm imm5 rb rd s
  | .tLdrImm imm5 rb rd => Sys2Proof.Machine.execTLdrImm imm5 rb rd s
  | .tStrbImm imm5 rb rd => Sys2Proof.Machine.execTStrbImm imm5 rb rd s
  | .tLdrbImm imm5 rb rd => Sys2Proof.Machine.execTLdrbImm imm5 rb rd s
  | .tStrhImm imm5 rb rd => Sys2Proof.Machine.execTStrhImm imm5 rb rd s
  | .tLdrhImm imm5 rb rd => Sys2Proof.Machine.execTLdrhImm imm5 rb rd s
  | .tStrSp rd imm8 => Sys2Proof.Machine.execTStrSp rd imm8 s
  | .tLdrSp rd imm8 => Sys2Proof.Machine.execTLdrSp rd imm8 s
  | .tAddPc rd imm8 => Sys2Proof.Machine.execTAddPc rd imm8 s
  | .tAddSp rd imm8 => Sys2Proof.Machine.execTAddSp rd imm8 s
  | .tAdjustSp sub imm7 => Sys2Proof.Machine.execTAdjustSp sub imm7 s
  | .tPush r list => Sys2Proof.Machine.execTPush r list s
  | .tPop r list => Sys2Proof.Machine.execTPop r list s
  | .tStmia rb list => Sys2Proof.Machine.execTStmia rb list s
  | .tLdmia rb list => Sys2Proof.Machine.execTLdmia rb list s
  | .tBeq imm8 => Sys2Proof.Machine.execTBeq imm8 s
  | .tBne imm8 => Sys2Proof.Machine.execTBne imm8 s
  | .tBcs imm8 => Sys2Proof.Machine.execTBcs imm8 s
  | .tBcc imm8 => Sys2Proof.Machine.execTBcc imm8 s
  | .tBmi imm8 => Sys2Proof.Machine.execTBmi imm8 s
  | .tBpl imm8 => Sys2Proof.Machine.execTBpl imm8 s
  | .tBvs imm8 => Sys2Proof.Machine.execTBvs imm8 s
  | .tBvc imm8 => Sys2Proof.Machine.execTBvc imm8 s
  | .tBhi imm8 => Sys2Proof.Machine.execTBhi imm8 s
  | .tBls imm8 => Sys2Proof.Machine.execTBls imm8 s
  | .tBge imm8 => Sys2Proof.Machine.execTBge imm8 s
  | .tBlt imm8 => Sys2Proof.Machine.execTBlt imm8 s
  | .tBgt imm8 => Sys2Proof.Machine.execTBgt imm8 s
  | .tBle imm8 => Sys2Proof.Machine.execTBle imm8 s
  | .tSwi imm8 => Sys2Proof.Machine.execTSwi imm8 s
  | .tB imm11 => Sys2Proof.Machine.execTB imm11 s
  | .tBlFirst imm11 => Sys2Proof.Machine.execTBlFirst imm11 s
  | .tBlSecond imm11 => Sys2Proof.Machine.execTBlSecond imm11 s
  | .tBlxSecond imm11 => Sys2Proof.Machine.execTBlxSecond imm11 s
  | .tUndB1 => Sys2Proof.Machine.execTUndB1 s
  | .tUndB2 => Sys2Proof.Machine.execTUndB2 s
  | .tUndB6 => Sys2Proof.Machine.execTUndB6 s
  | .tUndB8 => Sys2Proof.Machine.execTUndB8 s
  | .tUndBE => Sys2Proof.Machine.execTUndBE s
  | .tUndDE => Sys2Proof.Machine.execTUndDE s

end Sys2Proof.Machine
end

