-- ==== Sys2Proof/Machine/Facade.lean ====
section
/-! DEFINITION. The host's calls of the facade, and the firing of events (60_exceptions.md R566, R575 to
R578; 70_reset_and_hazards.md R600 to R605). -/
namespace Sys2Proof.Machine

/-- Run an operation of the core that runs on core `c`. -/
def onCore (c : CoreId) (op : State → Result) (s : State) : Result :=
  thenDo (op { s with current := c }) fun s1 => .next { s1 with current := s.current }

/-- The registers of a core that `Reset()` sets, before the pipeline reload (R600). -/
def Cpu.reinit (k : Cpu) : Cpu :=
  { k with
    regs := Vector.replicate 30 Config.resetGpr
    spsr := Vector.replicate 5 Config.resetGpr
    cpsr := 0x000000D3
    waiting := false
    cyc := 0 }

/-- What `Reset()` does to the CP15 port: `V` and the two TCM enables (R600, log 2). -/
def Cp15.reinit (p : Cp15) : Cp15 :=
  { p with control := setBit (setBit (setBit p.control 13 Config.vReset) 16 false) 18 false }

/-- Core `c` enters the reset vector (60_exceptions.md R507). -/
def enterResetVector (s : State) : Result :=
  branchTo (exceptionBase s s.current) (s.upd Cpu.reinit)

/-- `Reset()` (R600); memory, the boot images and the ROM keep their contents (R601). -/
def facadeReset (s : State) : Result :=
  let s1 :=
    { s with
      sched := Sched.atReset (s.sched.epoch + 1)
      irq := { arm9 := IrqCtl.atReset, arm7 := IrqCtl.atReset }
      ipc := { arm9 := IpcSide.atReset, arm7 := IpcSide.atReset }
      cp15 := s.cp15.reinit
      bootromInert := false }
  thenDo (onCore .arm9 enterResetVector s1) (onCore .arm7 enterResetVector)

/-- `LoadBootROM9(image)` (R602). -/
def loadBoot9 (image : List Byte) (s : State) : Result :=
  refuseIf (image.length != Config.bootRom9Size) .bootImageLength
    (.next { s with mem := { s.mem with bootRom9 := cellsOfBytes 0 image } })

/-- `LoadBootROM7(image)` (R602). -/
def loadBoot7 (image : List Byte) (s : State) : Result :=
  refuseIf (image.length != Config.bootRom7Size) .bootImageLength
    (.next { s with mem := { s.mem with bootRom7 := cellsOfBytes 0 image } })

/-- The little-endian word at byte offset `off` of the attached ROM (R605). -/
def romWord (rom : List Byte) (off : Nat) : Word :=
  rom.getD (off + 3) 0 ++ rom.getD (off + 2) 0 ++ rom.getD (off + 1) 0 ++ rom.getD off 0

/-- What `BootHeader` gives for one core (R605). -/
structure BootEntry where
  off : Nat
  entry : Word
  dst : Word
  len : Nat
  deriving DecidableEq, Repr

/-- `BootHeader(h, c)`: the four words of each core at the offsets of R605. DESIGN CHOICE (log 30): the
512-byte header view of R603, of which the spec does not say where it lies, is the first 512 bytes of the
attached ROM. -/
def bootHeader (rom : List Byte) (c : CoreId) : BootEntry :=
  let at0 := match c with
    | .arm9 => 0x20
    | .arm7 => 0x30
  { off := (romWord rom at0).toNat, entry := romWord rom (at0 + 4), dst := romWord rom (at0 + 8)
    len := (romWord rom (at0 + 12)).toNat }

/-- The `n` bytes from `dst` on the bus of core `c` are RAM. -/
def bytesAreRam (s : State) (c : CoreId) (dst : Word) : Nat → Bool
  | 0 => true
  | n + 1 =>
    (match region s c (dst + BitVec.ofNat 32 n) .data with
      | .ram _ _ => true
      | _ => false) && bytesAreRam s c dst n

/-- The copy of one core is well formed: its source lies in the ROM, its destination is RAM (R605). -/
def BootEntry.wellFormed (e : BootEntry) (s : State) (c : CoreId) : Bool :=
  decide (e.off + e.len ≤ s.rom.length) && bytesAreRam s c e.dst e.len

/-- Write bytes at consecutive addresses on the bus of core `c`. -/
def copyBytes (c : CoreId) : List Byte → Word → State → Result
  | [], _, s => .next s
  | b :: rest, addr, s => thenDo (busWrite c addr .byte (b.setWidth 32) s) (copyBytes c rest (addr + 1))

/-- `BootRegs(c)`: the stacks of the User, IRQ and Supervisor banks, System mode, and the entry in `r12`
and `r14` (R605). -/
def Cpu.bootRegs (usr irq svc entry : Word) (k : Cpu) : Cpu :=
  let k1 := { k with cpsr := 0x0000001F }
  ((((k1.setRegAt .usr regSp usr).setRegAt .irq regSp irq).setRegAt .svc regSp svc).setRegAt .usr 12
    entry).setRegAt .usr regLr entry

/-- The boot registers of the core that runs (R605). -/
def bootRegsOf (c : CoreId) (entry : Word) (k : Cpu) : Cpu :=
  match c with
  | .arm9 => k.bootRegs 0x03002F7C 0x03003F80 0x03003FC0 entry
  | .arm7 => k.bootRegs 0x0380FD80 0x0380FF80 0x0380FFC0 entry

/-- `BootCp15`: both TCMs enabled, DTCM of 16 KiB at 0x03000000, ITCM of 32 MiB, `V` unchanged (R605).
DESIGN CHOICE (log 31): the bits of the two TCM words outside base and size, which R605 does not give, are 0,
and the other bits of the control word are kept. -/
def Cp15.boot (p : Cp15) : Cp15 :=
  { control := setBit (setBit p.control 16 true) 18 true, dtcm := 0x0300000A, itcm := 0x00000020 }

/-- A core enters the program at `entry` (R604). -/
def bootCore (entry : Word) (s : State) : Result :=
  branchTo entry (s.upd (bootRegsOf s.current entry))

/-- `DirectBoot()` (R604); what counts as malformed is log 18, where the header view lies log 30. -/
def directBoot (s : State) : Result :=
  let e9 := bootHeader s.rom .arm9
  let e7 := bootHeader s.rom .arm7
  if s.rom.length < Config.headerSize ∨ e9.wellFormed s .arm9 = false ∨ e7.wellFormed s .arm7 = false then
    .fault .malformedRomHeader
  else
    thenDo (copyBytes .arm9 ((s.rom.drop e9.off).take e9.len) e9.dst s) fun s1 =>
      thenDo (copyBytes .arm7 ((s.rom.drop e7.off).take e7.len) e7.dst s1) fun s2 =>
        thenDo (onCore .arm9 (bootCore e9.entry)
          { s2 with cp15 := s2.cp15.boot, bootromInert := true }) (onCore .arm7 (bootCore e7.entry))

/-- The beginning of `Step(N)` (R575). -/
def beginStep (n : Cycles) (s : State) : Result :=
  if 2 ^ 64 ≤ s.sched.now.toNat + n.toNat then .refused .horizonOverflow
  else
    .next { s with
      sched := { s.sched with horizon := s.sched.now + n }
      phase := if n = 0 then .idle else .slice false }

/-- One call of the facade, or the acts of agents between two calls (R575, R577, R578). -/
def hostCall (h : HostCall) (s : State) : Result :=
  match h with
  | .reset => facadeReset s
  | .loadBootRom9 image => loadBoot9 image s
  | .loadBootRom7 image => loadBoot7 image s
  | .loadRom bytes => .next { s with rom := bytes }
  | .directBoot => directBoot s
  | .step n => beginStep n s
  | .agents acts => agentActs acts s

/-- Between two calls: the host makes its next one (log 8). -/
def idleStep (s : State) : Result :=
  match s.hostCalls with
  | [] => beginStep s.quantum s
  | h :: rest => hostCall h { s with hostCalls := rest }

/-- The core of the first or second place in a slice (R575). -/
def sliceCore (s : State) (second : Bool) : CoreId :=
  if second then s.firstCore.peer else s.firstCore

/-- What follows a core's slice: the other core's, or the firing of due events (R575). -/
def afterSlice (second : Bool) (s : State) : State :=
  { s with phase := if second then .fire s.sched.target else .slice true }

/-- A core is given its slice where it is behind the target (R575). -/
def sliceStep (second : Bool) (s : State) : Result :=
  let c := sliceCore s second
  let t := s.sched.target
  let cyc := (s.cpu.get c).cyc
  if cyc < t then .next { s with current := c, phase := .run second (t - cyc) }
  else .next (afterSlice second s)

/-- One event of `Sched.Run(limit)`, or its end (R566). -/
def fireStep (limit : Cycles) (s : State) : Result :=
  match s.sched.events with
  | e :: rest =>
    if e.time ≤ limit then
      agentPoint { s with sched := { s.sched with events := rest, now := laterOf s.sched.now e.time } }
    else .next (fireEnd limit s)
  | [] => .next (fireEnd limit s)
where
  /-- The clock stands at the limit; the loop of `Step(N)` goes on while it is below the horizon (R575). -/
  fireEnd (limit : Cycles) (s : State) : State :=
    let now := laterOf s.sched.now limit
    { s with
      sched := { s.sched with now := now }
      phase := if now < s.sched.horizon then .slice false else .idle }

end Sys2Proof.Machine
end

