-- ==== Sys2Proof/Machine/Run.lean ====
section
/-! DEFINITION. One step of a core and of the facade that interleaves the cores
(40_execution_and_shifter.md R170 to R174, 60_exceptions.md R575). -/
namespace Sys2Proof.Machine

/-- Take the opcode from slot 0, shift the pipeline and prefetch: step 3 of R172. -/
def takeOpcode (s : State) : ValueResult Word :=
  mapVal (fetch s.cur.r15 s.cur.fetchWidth s) fun v s1 =>
    .next (s1.cur.pipe0, s1.upd fun k => { k with pipe0 := k.pipe1, pipe1 := v })

/-- The instruction an opcode of the pipeline holds (R173, R174). -/
def decodeOpcode (thumb : Bool) (op : Word) : Option Instr :=
  if thumb then decodeThumb (op.setWidth 16) else decodeArm op

/-- Step 4 of R172: what no row selects panics (R173, R174). -/
def dispatchOpcode (op : Word) (s : State) : Result :=
  match decodeOpcode s.cur.thumb op with
  | some i => exec i s
  | none => .fault .undefinedInstruction

/-- Step 5 of R172: the cycle. -/
def countCycle (s : State) : State := s.upd fun k => { k with cyc := k.cyc + Config.cyclesPerInsn }

/-- Steps 3 to 5 of R172. -/
def executeNext (s : State) : Result :=
  thenDo (bindVal (takeOpcode s) dispatchOpcode) fun s1 => .next (countCycle s1)

/-- The interrupt is taken at this boundary: step 2 of R172. -/
def irqTaken (s : State) : Bool := irqLine s s.current && !psrI s.cur.cpsr

/-- `CpuStep` (R172). -/
def cpuStep (s : State) : Result :=
  thenDo (if irqTaken s then raiseIrq s else .next s) executeNext

/-- The core waits and its line is not asserted (R171). -/
def stillWaiting (s : State) : Bool := s.cur.waiting && !irqLine s s.current

/-- One iteration of `CpuRun` (R170): its end, the wait that consumes the budget, or one `CpuStep`. -/
def runStep (second : Bool) (budget : Cycles) (s : State) : Result :=
  if budget = 0 ∨ ¬ s.cur.cyc < s.sched.target then .next (afterSlice second s)
  else if stillWaiting s then
    .next (afterSlice second (s.upd fun k => { k with cyc := k.cyc + budget }))
  else
    cpuStep { (s.upd fun k => { k with waiting := false }) with phase := .run second (budget - 1) }

/-- One step of the facade (R575, log 8). -/
def facadeStep (s : State) : Result :=
  match s.phase with
  | .idle => idleStep s
  | .slice second => sliceStep second s
  | .run second budget => runStep second budget s
  | .fire limit => fireStep limit s

/-- The opcode of a row of `nbits` bits whose bits are `w`. -/
def tableOpcode (nbits w : Nat) : Word := BitVec.ofNat 32 (w % 2 ^ nbits)

/-- The core that takes the opcode from slot 0 next, in the state that the row's width names. -/
def placeOpcode (nbits w : Nat) (k : Cpu) : Cpu :=
  let thumb := decide (nbits ≤ 16)
  { k with
    cpsr := setT k.cpsr thumb
    r15 := alignTo (if thumb then .half else .word) k.r15
    pipe0 := tableOpcode nbits w
    waiting := false }

/-- The clock and the events leave the core that runs a cycle to execute in. -/
def leaveRoom (cyc : Cycles) (d : Sched) : Sched :=
  if cyc < d.target then d
  else { d with horizon := cyc + 1, events := d.events.filter fun e => decide (cyc < e.time) }

/-- The machine whose very next step runs the given opcode on the core that runs: slot 0 holds it, and the
facade stands inside that core's slice (log 9). -/
def placeWord (s : State) (nbits w : Nat) : State :=
  let s1 := s.upd (placeOpcode nbits w)
  { s1 with
    irq := if irqTaken s1 then s1.irq.set s1.current { s1.irq.get s1.current with ime := false } else s1.irq
    sched := leaveRoom s1.cur.cyc s1.sched
    phase := .run (s1.current != s1.firstCore) 1 }

end Sys2Proof.Machine
end

