-- ==== Sys2Proof/Machine/Step.lean ====
section
/-! DEFINITION. The step of the machine. -/
namespace Sys2Proof.Machine

/-- One step: one `CpuStep` of one core, or one transition of the facade (log 8). -/
def step (s : State) : Host.Outcome State Fault Refusal := facadeStep s

/-- `s` with an instruction stored where the next step fetches: slot 0 of the pipeline (log 9). -/
def State.withFetchWord (s : State) (nbits w : Nat) : State := placeWord s nbits w

end Sys2Proof.Machine
end

