-- ==== Sys2Proof/Safety.lean ====
section
/-! DEFINITION. What claims are stated in: the invariant of a safe run, the frames of the instructions, and
the shapes of the instructions as the spec describes them, in the spec's own arithmetic. Nothing here is
part of the machine. -/
namespace Sys2Proof.Machine

/-! The invariant of a run (10_state.md R47, 60_exceptions.md R569). -/

/-- A core in order: a mode of the table, `R15` a multiple of the width, and halfwords in the slots in
Thumb state (R23, R28, R29). -/
structure Cpu.Inv (k : Cpu) : Prop where
  mode : validMode (modeOf k.cpsr) = true
  aligned : k.r15.toNat % k.stride.toNat = 0
  slots : k.thumb = true → k.pipe0.toNat < 65536 ∧ k.pipe1.toNat < 65536

/-- The scheduler in order: events sorted by `(time, seq)`, none of the past, numbered and named by their
insertion (R566, R567, R569). -/
structure Sched.Inv (d : Sched) : Prop where
  sorted : d.events.Pairwise fun a b => a.before b = true
  future : ∀ e ∈ d.events, d.now ≤ e.time
  numbered : ∀ e ∈ d.events, e.seq < d.nextSeq
  named : ∀ e ∈ d.events, e.token = ⟨d.epoch, e.seq⟩

/-- `t` is the least of the horizon and the times of the events (60_exceptions.md R565). -/
def Sched.TargetIs (d : Sched) (t : Cycles) : Prop :=
  (t = d.horizon ∨ ∃ e ∈ d.events, e.time = t) ∧ t ≤ d.horizon ∧ ∀ e ∈ d.events, t ≤ e.time

/-- Memory in order: canonical, and inside the arrays the map of 20_memory.md R81 gives. -/
structure Memory.Inv (m : Memory) : Prop where
  canonical : m.wf = true
  mainRam : ∀ p ∈ m.mainRam, p.1 < 0x400000
  wram7 : ∀ p ∈ m.wram7, p.1 < 0x10000
  itcm : ∀ p ∈ m.itcm, p.1 < 0x8000
  dtcm : ∀ p ∈ m.dtcm, p.1 < 0x4000
  bootRom9 : ∀ p ∈ m.bootRom9, p.1 < 8192
  bootRom7 : ∀ p ∈ m.bootRom7, p.1 < 16384

/-- The machine in order (R47). -/
structure Inv (s : State) : Prop where
  cpu : ∀ c, (s.cpu.get c).Inv
  queue : ∀ c, (s.ipc.get c).q.length ≤ 16
  sched : s.sched.Inv
  mem : s.mem.Inv

/-! What an instruction leaves alone. -/

/-- Every byte of every array reads as before. -/
def SameBytes (s t : State) : Prop :=
  ∀ arr off, t.mem.readByte arr off = s.mem.readByte arr off

/-- Outside the core that runs nothing differs: not the other core, no device, no byte, no host state. -/
def OnlyCore (s t : State) : Prop :=
  t = { s with cpu := s.cpu.set s.current t.cur }

/-- Outside the core that runs only bytes of memory can differ. -/
def OnlyCoreAndBytes (s t : State) : Prop :=
  t = { s with cpu := s.cpu.set s.current t.cur, mem := t.mem }

/-- In the core that runs, the register slots other than `ws`, every SPSR, the wait flag and the cycle
counter are as before. -/
structure KeepsRegisters (ws : List (Fin 30)) (s t : State) : Prop where
  regs : ∀ j, j ∉ ws → t.cur.regs[j] = s.cur.regs[j]
  spsr : t.cur.spsr = s.cur.spsr
  waiting : t.cur.waiting = s.cur.waiting
  cyc : t.cur.cyc = s.cur.cyc

/-- The core goes on to the next instruction: `R15` moves by the width, the slots and the latch stay
(40_execution_and_shifter.md R176). -/
structure GoesOn (width : Word) (s t : State) : Prop where
  pc : t.cur.r15 = s.cur.r15 + width
  pipe0 : t.cur.pipe0 = s.cur.pipe0
  pipe1 : t.cur.pipe1 = s.cur.pipe1
  latch : t.cur.lastFetch = s.cur.lastFetch

/-- The bits of CPSR outside `bits` are as before. -/
def KeepsStatus (bits : Word) (s t : State) : Prop :=
  t.cur.cpsr &&& ~~~bits = s.cur.cpsr &&& ~~~bits

/-- The frame of an instruction that stores nothing and does not branch: it can write the register slots
`ws` and the CPSR bits `bits`, and moves `R15` by `width`. -/
structure RegisterFrame (ws : List (Fin 30)) (bits width : Word) (s t : State) : Prop where
  outside : OnlyCore s t
  bytes : SameBytes s t
  kept : KeepsRegisters ws s t
  status : KeepsStatus bits s t
  next : GoesOn width s t

/-- The frame of a store: memory reads as `after` says at every byte, the register slots `ws` can be
written, CPSR cannot. -/
structure StoreFrame (after : MemArray → Nat → Byte) (ws : List (Fin 30)) (width : Word) (s t : State) :
    Prop where
  outside : OnlyCoreAndBytes s t
  bytes : ∀ arr off, t.mem.readByte arr off = after arr off
  kept : KeepsRegisters ws s t
  status : t.cur.cpsr = s.cur.cpsr
  next : GoesOn width s t

/-- The masks of the CPSR bits an instruction can write (10_state.md R30). -/
def bitsNZ : Word := 0xC0000000
def bitsNZC : Word := 0xE0000000
def bitsNZCV : Word := 0xF0000000
def bitQ : Word := 0x08000000

/-- A status word with `T` replaced. -/
def withT (psr : Word) (t : Bool) : Word := if t then psr ||| 0x20 else psr &&& ~~~0x20#32

/-- The slot of register `r` of the core that runs, in its current bank. -/
def State.slotOf (s : State) (r : Reg) : Fin 30 := slot s.cur.bank r

/-! Memory as a data access or a fetch sees it. -/

/-- An access there meets memory, or nothing: it has no effect but on bytes (20_memory.md R82, R84, R87). -/
def plainAt (s : State) (c : CoreId) (a : Word) (kind : AccessKind) : Bool :=
  match region s c a kind with
  | .ram _ _ => true
  | .rom _ _ => true
  | .unmapped => true
  | .io => false
  | .external => false

/-- What such an access reads at an aligned address: the bytes of the array, or the open bus over `latch`
(R72, R87). -/
def peekFrom (latch : Word) (s : State) (c : CoreId) (a : Word) (w : Width) (kind : AccessKind) : Word :=
  match region s c a kind with
  | .ram arr off => s.mem.read arr off w
  | .rom arr off => s.mem.read arr off w
  | .unmapped => selectLanes a w latch
  | .io => 0
  | .external => 0

/-- What a data read of the core that runs gives at `addr`, forced down to the width (R72). -/
def peek (s : State) (addr : Word) (w : Width) : Word :=
  peekFrom s.cur.lastFetch s s.current (alignTo w addr) w .data

/-- A data access of the core that runs at `addr` is plain. -/
def dataAt (s : State) (addr : Word) (w : Width) : Bool :=
  plainAt s s.current (alignTo w addr) .data

/-- What memory reads as after a data write of `v` at `addr` by the core that runs, over contents that read
as `old`: the bytes of the width change where the address is RAM, none elsewhere (R73, R79). -/
def poked (s : State) (addr : Word) (w : Width) (v : Word) (old : MemArray → Nat → Byte) :
    MemArray → Nat → Byte := fun arr off =>
  match region s s.current (alignTo w addr) .data with
  | .ram arr0 off0 =>
    if arr = arr0 ∧ off0 ≤ off ∧ off < off0 + w.bytes then laneOf v (off - off0) else old arr off
  | _ => old arr off

/-- The same for a list of writes of words, in order. -/
def pokedAll (s : State) : List (Word × Word) → (MemArray → Nat → Byte) → MemArray → Nat → Byte
  | [], old => old
  | (addr, v) :: rest, old => pokedAll s rest (poked s addr .word v old)

/-! Memory and devices as a data access sees them. -/

/-- An external device answers at the aligned address `a`: an external region, or a place of the I/O window
that no register of the block has (R85, R88). -/
def externalAt (s : State) (a : Word) : Bool :=
  match region s s.current a .data with
  | .external => true
  | .io => (ioReg (a &&& ~~~3#32)).isNone
  | _ => false

/-- A data read of the core that runs, of width `w` at `addr`, gives `v` and leaves `t`: at a plain address
its bytes and no effect; at a register one `RegRead` and the lanes of the access; at an external device a free
value of the width, after which the agents act as the tape says (R72, R85, R88, R91, log 6). -/
inductive ReadsAs (s : State) (addr : Word) (w : Width) : Word → State → Prop where
  | plain : dataAt s addr w = true → ReadsAs s addr w (peek s addr w) s
  | register (r : IoReg) (v : Word) (t : State) :
      region s s.current (alignTo w addr) .data = .io → ioReg (alignTo w addr &&& ~~~3#32) = some r →
      regRead s.current r s = .next (v, t) → ReadsAs s addr w (selectLanes (alignTo w addr) w v) t
  | device (t : State) : externalAt s (alignTo w addr) = true →
      agentActs (s.agentTape.headD []) { s with draws := s.draws + 1, agentTape := s.agentTape.tail } =
        .next t →
      ReadsAs s addr w (truncWidth w (Config.freeWord s.draws)) t

/-- A data write of the core that runs, of the low bits of `v` at `addr`, leaves `t`: RAM holds the bytes; a
ROM and an unmapped address drop them; a register takes one `RegWrite` with the value at the lanes of the
access and those lanes driven; an external device takes it, and the agents act (R73, R85, R88, log 6). -/
inductive WritesAs (s : State) (addr : Word) (w : Width) (v : Word) : State → Prop where
  | ram (arr : MemArray) (off : Nat) : region s s.current (alignTo w addr) .data = .ram arr off →
      WritesAs s addr w v { s with mem := s.mem.write arr off w v }
  | rom (arr : MemArray) (off : Nat) : region s s.current (alignTo w addr) .data = .rom arr off →
      WritesAs s addr w v s
  | unmapped : region s s.current (alignTo w addr) .data = .unmapped → WritesAs s addr w v s
  | register (r : IoReg) (t : State) :
      region s s.current (alignTo w addr) .data = .io → ioReg (alignTo w addr &&& ~~~3#32) = some r →
      regWrite s.current r (truncWidth w v <<< (8 * (alignTo w addr &&& 3).toNat))
        (BitVec.ofNat 4 (2 ^ w.bytes - 1) <<< (alignTo w addr &&& 3).toNat) s = .next t →
      WritesAs s addr w v t
  | device (t : State) : externalAt s (alignTo w addr) = true →
      agentActs (s.agentTape.headD []) { s with agentTape := s.agentTape.tail } = .next t →
      WritesAs s addr w v t

/-- Reads of words at a list of addresses, in order, with the values they give (R79). -/
inductive ReadsAll : State → List Word → List Word → State → Prop where
  | done (s : State) : ReadsAll s [] [] s
  | more {s t u : State} {addr v : Word} {addrs vs : List Word} :
      ReadsAs s addr .word v t → ReadsAll t addrs vs u → ReadsAll s (addr :: addrs) (v :: vs) u

/-- Writes of words at addresses, in order (R79). -/
inductive WritesAll : State → List (Word × Word) → State → Prop where
  | done (s : State) : WritesAll s [] s
  | more {s t u : State} {addr v : Word} {rest : List (Word × Word)} :
      WritesAs s addr .word v t → WritesAll t rest u → WritesAll s ((addr, v) :: rest) u

/-- Both fetches of a reload at `target` are plain, the width that of Thumb where `thumb`. -/
def codeAt (s : State) (thumb : Bool) (target : Word) : Bool :=
  let w := if thumb then Width.half else Width.word
  let n : Word := if thumb then 2 else 4
  plainAt s s.current (alignTo w target) .fetch && plainAt s s.current (alignTo w target + n) .fetch

/-- In `t` the core that runs has performed `pc <- target` in the state its `T` names, over the memory of
`s` (40_execution_and_shifter.md R175). -/
structure Landed (target : Word) (s t : State) : Prop where
  pc : t.cur.r15 = alignTo t.cur.fetchWidth target + t.cur.stride + t.cur.stride
  pipe0 : t.cur.pipe0 =
    peekFrom s.cur.lastFetch s s.current (alignTo t.cur.fetchWidth target) t.cur.fetchWidth .fetch
  pipe1 : t.cur.pipe1 =
    peekFrom t.cur.pipe0 s s.current (alignTo t.cur.fetchWidth target + t.cur.stride) t.cur.fetchWidth .fetch
  latch : t.cur.lastFetch = t.cur.pipe1

/-- The frame of a branch: it can write the register slots `ws`, leaves `psr` in CPSR and reloads from
`target`. -/
structure BranchFrame (ws : List (Fin 30)) (psr target : Word) (s t : State) : Prop where
  outside : OnlyCore s t
  bytes : SameBytes s t
  kept : KeepsRegisters ws s t
  status : t.cur.cpsr = psr
  landed : Landed target s t

/-- The whole effect of `EnterException(mode, offset, lr)` from CPSR `old` (60_exceptions.md R504): the old
CPSR and the link value in the new mode's bank, M, I and T changed and no other bit, the vector fetched as
words; nothing else. -/
structure Entered (mode : BitVec 5) (offset lr : Word) (s t : State) : Prop where
  outside : OnlyCore s t
  bytes : SameBytes s t
  saved : t.cur.spsrAt (bankOf mode) = some s.cur.cpsr
  link : t.cur.regAt (bankOf mode) 14 = lr
  modeSet : modeOf t.cur.cpsr = mode
  masked : psrI t.cur.cpsr = true
  armState : psrT t.cur.cpsr = false
  status : KeepsStatus 0x000000BF s t
  regs : ∀ j, j ≠ slot (bankOf mode) 14 → t.cur.regs[j] = s.cur.regs[j]
  spsr : ∀ j, some j ≠ spsrSlot (bankOf mode) → t.cur.spsr[j] = s.cur.spsr[j]
  waiting : t.cur.waiting = s.cur.waiting
  cyc : t.cur.cyc = s.cur.cyc
  landed : Landed ((match s.current with
    | .arm7 => 0
    | .arm9 => if s.cp15.control.getLsbD 13 then 0xFFFF0000 else 0) + offset) s t

end Sys2Proof.Machine

/-! The shapes of the instructions. -/
namespace Sys2Proof

/-- The condition an ARM instruction evaluates; the NV space and Thumb evaluate none (R173, R174). -/
def Instr.cond? : Instr → Option Cond
  | .andShiftImm cond _ _ _ _ _ _ => some cond
  | .andShiftReg cond _ _ _ _ _ _ => some cond
  | .andImm cond _ _ _ _ _ => some cond
  | .eorShiftImm cond _ _ _ _ _ _ => some cond
  | .eorShiftReg cond _ _ _ _ _ _ => some cond
  | .eorImm cond _ _ _ _ _ => some cond
  | .subShiftImm cond _ _ _ _ _ _ => some cond
  | .subShiftReg cond _ _ _ _ _ _ => some cond
  | .subImm cond _ _ _ _ _ => some cond
  | .rsbShiftImm cond _ _ _ _ _ _ => some cond
  | .rsbShiftReg cond _ _ _ _ _ _ => some cond
  | .rsbImm cond _ _ _ _ _ => some cond
  | .addShiftImm cond _ _ _ _ _ _ => some cond
  | .addShiftReg cond _ _ _ _ _ _ => some cond
  | .addImm cond _ _ _ _ _ => some cond
  | .adcShiftImm cond _ _ _ _ _ _ => some cond
  | .adcShiftReg cond _ _ _ _ _ _ => some cond
  | .adcImm cond _ _ _ _ _ => some cond
  | .sbcShiftImm cond _ _ _ _ _ _ => some cond
  | .sbcShiftReg cond _ _ _ _ _ _ => some cond
  | .sbcImm cond _ _ _ _ _ => some cond
  | .rscShiftImm cond _ _ _ _ _ _ => some cond
  | .rscShiftReg cond _ _ _ _ _ _ => some cond
  | .rscImm cond _ _ _ _ _ => some cond
  | .tstShiftImm cond _ _ _ _ _ => some cond
  | .tstShiftReg cond _ _ _ _ _ => some cond
  | .tstImm cond _ _ _ _ => some cond
  | .teqShiftImm cond _ _ _ _ _ => some cond
  | .teqShiftReg cond _ _ _ _ _ => some cond
  | .teqImm cond _ _ _ _ => some cond
  | .cmpShiftImm cond _ _ _ _ _ => some cond
  | .cmpShiftReg cond _ _ _ _ _ => some cond
  | .cmpImm cond _ _ _ _ => some cond
  | .cmnShiftImm cond _ _ _ _ _ => some cond
  | .cmnShiftReg cond _ _ _ _ _ => some cond
  | .cmnImm cond _ _ _ _ => some cond
  | .orrShiftImm cond _ _ _ _ _ _ => some cond
  | .orrShiftReg cond _ _ _ _ _ _ => some cond
  | .orrImm cond _ _ _ _ _ => some cond
  | .movShiftImm cond _ _ _ _ _ => some cond
  | .movShiftReg cond _ _ _ _ _ => some cond
  | .movImm cond _ _ _ _ => some cond
  | .bicShiftImm cond _ _ _ _ _ _ => some cond
  | .bicShiftReg cond _ _ _ _ _ _ => some cond
  | .bicImm cond _ _ _ _ _ => some cond
  | .mvnShiftImm cond _ _ _ _ _ => some cond
  | .mvnShiftReg cond _ _ _ _ _ => some cond
  | .mvnImm cond _ _ _ _ => some cond
  | .mrs cond _ _ => some cond
  | .msrReg cond _ _ _ => some cond
  | .msrImm cond _ _ _ _ => some cond
  | .nop cond => some cond
  | .wfi cond => some cond
  | .mul cond _ _ _ _ => some cond
  | .mla cond _ _ _ _ _ => some cond
  | .umull cond _ _ _ _ _ => some cond
  | .umlal cond _ _ _ _ _ => some cond
  | .smull cond _ _ _ _ _ => some cond
  | .smlal cond _ _ _ _ _ => some cond
  | .smlaXY cond _ _ _ _ _ _ => some cond
  | .smlaWY cond _ _ _ _ _ => some cond
  | .smulWY cond _ _ _ _ => some cond
  | .smlalXY cond _ _ _ _ _ _ => some cond
  | .smulXY cond _ _ _ _ _ => some cond
  | .ldrImm cond _ _ _ _ _ _ => some cond
  | .ldrReg cond _ _ _ _ _ _ _ _ => some cond
  | .strImm cond _ _ _ _ _ _ => some cond
  | .strReg cond _ _ _ _ _ _ _ _ => some cond
  | .ldrbImm cond _ _ _ _ _ _ => some cond
  | .ldrbReg cond _ _ _ _ _ _ _ _ => some cond
  | .strbImm cond _ _ _ _ _ _ => some cond
  | .strbReg cond _ _ _ _ _ _ _ _ => some cond
  | .strhReg cond _ _ _ _ _ _ => some cond
  | .strhImm cond _ _ _ _ _ _ => some cond
  | .ldrhReg cond _ _ _ _ _ _ => some cond
  | .ldrhImm cond _ _ _ _ _ _ => some cond
  | .ldrsbReg cond _ _ _ _ _ _ => some cond
  | .ldrsbImm cond _ _ _ _ _ _ => some cond
  | .ldrshReg cond _ _ _ _ _ _ => some cond
  | .ldrshImm cond _ _ _ _ _ _ => some cond
  | .ldrdReg cond _ _ _ _ _ _ => some cond
  | .ldrdImm cond _ _ _ _ _ _ => some cond
  | .strdReg cond _ _ _ _ _ _ => some cond
  | .strdImm cond _ _ _ _ _ _ => some cond
  | .swp cond _ _ _ => some cond
  | .swpb cond _ _ _ => some cond
  | .ldm cond _ _ _ _ _ _ => some cond
  | .stm cond _ _ _ _ _ _ => some cond
  | .b cond _ => some cond
  | .bl cond _ => some cond
  | .bx cond _ => some cond
  | .blxReg cond _ => some cond
  | .blxImm _ _ => none
  | .clz cond _ _ => some cond
  | .qadd cond _ _ _ => some cond
  | .qsub cond _ _ _ => some cond
  | .qdadd cond _ _ _ => some cond
  | .qdsub cond _ _ _ => some cond
  | .swi cond _ => some cond
  | .mcr cond _ _ _ _ _ _ => some cond
  | .mrc cond _ _ _ _ _ _ => some cond
  | .hintOther cond _ => some cond
  | .undMultiply cond => some cond
  | .undSwapLoad cond => some cond
  | .undSwapWide cond => some cond
  | .undSwapOdd cond => some cond
  | .undMiscBranch cond => some cond
  | .undMiscClz cond => some cond
  | .undMiscTwo cond => some cond
  | .undMiscFourSix cond => some cond
  | .undMiscSeven cond => some cond
  | .undCompareImm cond => some cond
  | .undMedia cond => some cond
  | .undCoprocTransfer cond => some cond
  | .undCoprocOp cond => some cond
  | .undNvLow => none
  | .undNvCoproc => none
  | .undNvBlock => none
  | .tLslImm _ _ _ => none
  | .tLsrImm _ _ _ => none
  | .tAsrImm _ _ _ => none
  | .tAddReg _ _ _ => none
  | .tSubReg _ _ _ => none
  | .tAddImm3 _ _ _ => none
  | .tSubImm3 _ _ _ => none
  | .tMovImm _ _ => none
  | .tCmpImm _ _ => none
  | .tAddImm8 _ _ => none
  | .tSubImm8 _ _ => none
  | .tAnd _ _ => none
  | .tEor _ _ => none
  | .tLslReg _ _ => none
  | .tLsrReg _ _ => none
  | .tAsrReg _ _ => none
  | .tAdc _ _ => none
  | .tSbc _ _ => none
  | .tRor _ _ => none
  | .tTst _ _ => none
  | .tNeg _ _ => none
  | .tCmpReg _ _ => none
  | .tCmn _ _ => none
  | .tOrr _ _ => none
  | .tMul _ _ => none
  | .tBic _ _ => none
  | .tMvn _ _ => none
  | .tAddHi _ _ => none
  | .tCmpHi _ _ => none
  | .tMovHi _ _ => none
  | .tBx _ => none
  | .tBlxReg _ => none
  | .tLdrPc _ _ => none
  | .tStrReg _ _ _ => none
  | .tStrbReg _ _ _ => none
  | .tLdrReg _ _ _ => none
  | .tLdrbReg _ _ _ => none
  | .tStrhReg _ _ _ => none
  | .tLdsb _ _ _ => none
  | .tLdrhReg _ _ _ => none
  | .tLdsh _ _ _ => none
  | .tStrImm _ _ _ => none
  | .tLdrImm _ _ _ => none
  | .tStrbImm _ _ _ => none
  | .tLdrbImm _ _ _ => none
  | .tStrhImm _ _ _ => none
  | .tLdrhImm _ _ _ => none
  | .tStrSp _ _ => none
  | .tLdrSp _ _ => none
  | .tAddPc _ _ => none
  | .tAddSp _ _ => none
  | .tAdjustSp _ _ => none
  | .tPush _ _ => none
  | .tPop _ _ => none
  | .tStmia _ _ => none
  | .tLdmia _ _ => none
  | .tBeq _ => none
  | .tBne _ => none
  | .tBcs _ => none
  | .tBcc _ => none
  | .tBmi _ => none
  | .tBpl _ => none
  | .tBvs _ => none
  | .tBvc _ => none
  | .tBhi _ => none
  | .tBls _ => none
  | .tBge _ => none
  | .tBlt _ => none
  | .tBgt _ => none
  | .tBle _ => none
  | .tSwi _ => none
  | .tB _ => none
  | .tBlFirst _ => none
  | .tBlSecond _ => none
  | .tBlxSecond _ => none
  | .tUndB1 => none
  | .tUndB2 => none
  | .tUndB6 => none
  | .tUndB8 => none
  | .tUndBE => none
  | .tUndDE => none

/-- The condition of an instruction passes; one that evaluates none passes (R173, R174). -/
def Instr.passes (i : Instr) (psr : Word) : Bool :=
  match i.cond? with
  | some c => Machine.condPass c psr
  | none => true

end Sys2Proof

namespace Sys2Proof.Machine

/-- The operations of 41_data_processing.md R220 to R235 and of their Thumb forms. -/
inductive DataOp where
  | and | eor | sub | rsb | add | adc | sbc | rsc | orr | mov | bic | mvn
  deriving DecidableEq, Repr

/-- The result, in arithmetic modulo `2 ^ 32`: `a` the first operand, `b` operand 2, `c` the carry before. -/
def DataOp.value (o : DataOp) (a b : Word) (c : Bool) : Word :=
  match o with
  | .and => a &&& b
  | .eor => a ^^^ b
  | .sub => a - b
  | .rsb => b - a
  | .add => a + b
  | .adc => a + b + (if c then 1 else 0)
  | .sbc => a - b - (if c then 0 else 1)
  | .rsc => b - a - (if c then 0 else 1)
  | .orr => a ||| b
  | .mov => b
  | .bic => a &&& ~~~b
  | .mvn => ~~~b

/-- The new C: the shifter's for a logical operation, the carry out or "no borrow" for an arithmetic one,
over naturals (R187, R220 to R235). -/
def DataOp.carry (o : DataOp) (a b : Word) (c sc : Bool) : Bool :=
  match o with
  | .and | .eor | .orr | .mov | .bic | .mvn => sc
  | .sub => decide (b.toNat ≤ a.toNat)
  | .rsb => decide (a.toNat ≤ b.toNat)
  | .add => decide (2 ^ 32 ≤ a.toNat + b.toNat)
  | .adc => decide (2 ^ 32 ≤ a.toNat + b.toNat + c.toNat)
  | .sbc => decide (b.toNat + (!c).toNat ≤ a.toNat)
  | .rsc => decide (a.toNat + (!c).toNat ≤ b.toNat)

/-- The exact signed result of an arithmetic operation; a logical one has none. -/
def DataOp.exact (o : DataOp) (a b : Word) (c : Bool) : Option Int :=
  match o with
  | .and | .eor | .orr | .mov | .bic | .mvn => none
  | .sub => some (a.toInt - b.toInt)
  | .rsb => some (b.toInt - a.toInt)
  | .add => some (a.toInt + b.toInt)
  | .adc => some (a.toInt + b.toInt + c.toNat)
  | .sbc => some (a.toInt - b.toInt - (!c).toNat)
  | .rsc => some (b.toInt - a.toInt - (!c).toNat)

/-- The new V: the exact signed result does not fit in 32 bits; a logical operation keeps `v`. -/
def DataOp.overflow (o : DataOp) (a b : Word) (c v : Bool) : Bool :=
  match o.exact a b c with
  | some r => decide (r < -2 ^ 31 ∨ 2 ^ 31 ≤ r)
  | none => v

/-- The CPSR bits the operation can write: a logical one leaves V alone. -/
def DataOp.bits (o : DataOp) : Word :=
  match o with
  | .and | .eor | .orr | .mov | .bic | .mvn => bitsNZC
  | .sub | .rsb | .add | .adc | .sbc | .rsc => bitsNZCV

/-- The four flags of CPSR `new` are those of the operation, the flags before being those of `old`. -/
structure FlagsOf (o : DataOp) (a b : Word) (sc : Bool) (old new : Word) : Prop where
  n : psrN new = (o.value a b (psrC old)).msb
  z : psrZ new = decide (o.value a b (psrC old) = 0)
  c : psrC new = o.carry a b (psrC old) sc
  v : psrV new = o.overflow a b (psrC old) (psrV old)

/-- The three forms of operand 2 (R183). -/
inductive Operand2 where
  | shiftImm (imm5 : BitVec 5) (ty : ShiftType) (rm : Reg)
  | shiftReg (rs : Reg) (ty : ShiftType) (rm : Reg)
  | imm (rot4 : BitVec 4) (imm8 : BitVec 8)
  deriving DecidableEq, Repr

/-- What `r15` reads as beside this form: `A + 12` where the shift amount comes from a register, else
`A + 8` (R186, R211). -/
def Operand2.read (f : Operand2) (k : Cpu) (r : Reg) : Word :=
  match f with
  | .shiftReg _ _ _ => if r = 15 then k.r15 + 4 else k.reg r
  | .shiftImm _ _ _ => k.reg r
  | .imm _ _ => k.reg r

/-- Operand 2 and the shifter's carry (R183). -/
def Operand2.shifted (f : Operand2) (k : Cpu) : Shifted :=
  match f with
  | .shiftImm imm5 ty rm => Machine.shiftImm ty (f.read k rm) imm5 (psrC k.cpsr)
  | .shiftReg rs ty rm => Machine.shiftReg ty (f.read k rm) ((k.reg rs).extractLsb' 0 8) (psrC k.cpsr)
  | .imm rot4 imm8 => expandImm rot4 imm8 (psrC k.cpsr)

/-- The shift amount is in `r15`, which R183 refuses. -/
def Operand2.amountInPc (f : Operand2) : Bool :=
  match f with
  | .shiftReg rs _ _ => rs == 15
  | .shiftImm _ _ _ => false
  | .imm _ _ => false

/-- A data-processing instruction that writes `Rd` (R210). -/
structure DataShape where
  op : DataOp
  S : Bool
  rn : Reg
  rd : Reg
  form : Operand2
  deriving DecidableEq, Repr

/-- The data-processing instructions that write a register (R220 to R227, R232 to R235). -/
def dataShape? : Instr → Option DataShape
  | .andShiftImm _ S rn rd i t m => some ⟨.and, S, rn, rd, .shiftImm i t m⟩
  | .andShiftReg _ S rn rd r t m => some ⟨.and, S, rn, rd, .shiftReg r t m⟩
  | .andImm _ S rn rd r i => some ⟨.and, S, rn, rd, .imm r i⟩
  | .eorShiftImm _ S rn rd i t m => some ⟨.eor, S, rn, rd, .shiftImm i t m⟩
  | .eorShiftReg _ S rn rd r t m => some ⟨.eor, S, rn, rd, .shiftReg r t m⟩
  | .eorImm _ S rn rd r i => some ⟨.eor, S, rn, rd, .imm r i⟩
  | .subShiftImm _ S rn rd i t m => some ⟨.sub, S, rn, rd, .shiftImm i t m⟩
  | .subShiftReg _ S rn rd r t m => some ⟨.sub, S, rn, rd, .shiftReg r t m⟩
  | .subImm _ S rn rd r i => some ⟨.sub, S, rn, rd, .imm r i⟩
  | .rsbShiftImm _ S rn rd i t m => some ⟨.rsb, S, rn, rd, .shiftImm i t m⟩
  | .rsbShiftReg _ S rn rd r t m => some ⟨.rsb, S, rn, rd, .shiftReg r t m⟩
  | .rsbImm _ S rn rd r i => some ⟨.rsb, S, rn, rd, .imm r i⟩
  | .addShiftImm _ S rn rd i t m => some ⟨.add, S, rn, rd, .shiftImm i t m⟩
  | .addShiftReg _ S rn rd r t m => some ⟨.add, S, rn, rd, .shiftReg r t m⟩
  | .addImm _ S rn rd r i => some ⟨.add, S, rn, rd, .imm r i⟩
  | .adcShiftImm _ S rn rd i t m => some ⟨.adc, S, rn, rd, .shiftImm i t m⟩
  | .adcShiftReg _ S rn rd r t m => some ⟨.adc, S, rn, rd, .shiftReg r t m⟩
  | .adcImm _ S rn rd r i => some ⟨.adc, S, rn, rd, .imm r i⟩
  | .sbcShiftImm _ S rn rd i t m => some ⟨.sbc, S, rn, rd, .shiftImm i t m⟩
  | .sbcShiftReg _ S rn rd r t m => some ⟨.sbc, S, rn, rd, .shiftReg r t m⟩
  | .sbcImm _ S rn rd r i => some ⟨.sbc, S, rn, rd, .imm r i⟩
  | .rscShiftImm _ S rn rd i t m => some ⟨.rsc, S, rn, rd, .shiftImm i t m⟩
  | .rscShiftReg _ S rn rd r t m => some ⟨.rsc, S, rn, rd, .shiftReg r t m⟩
  | .rscImm _ S rn rd r i => some ⟨.rsc, S, rn, rd, .imm r i⟩
  | .orrShiftImm _ S rn rd i t m => some ⟨.orr, S, rn, rd, .shiftImm i t m⟩
  | .orrShiftReg _ S rn rd r t m => some ⟨.orr, S, rn, rd, .shiftReg r t m⟩
  | .orrImm _ S rn rd r i => some ⟨.orr, S, rn, rd, .imm r i⟩
  | .movShiftImm _ S rd i t m => some ⟨.mov, S, 0, rd, .shiftImm i t m⟩
  | .movShiftReg _ S rd r t m => some ⟨.mov, S, 0, rd, .shiftReg r t m⟩
  | .movImm _ S rd r i => some ⟨.mov, S, 0, rd, .imm r i⟩
  | .bicShiftImm _ S rn rd i t m => some ⟨.bic, S, rn, rd, .shiftImm i t m⟩
  | .bicShiftReg _ S rn rd r t m => some ⟨.bic, S, rn, rd, .shiftReg r t m⟩
  | .bicImm _ S rn rd r i => some ⟨.bic, S, rn, rd, .imm r i⟩
  | .mvnShiftImm _ S rd i t m => some ⟨.mvn, S, 0, rd, .shiftImm i t m⟩
  | .mvnShiftReg _ S rd r t m => some ⟨.mvn, S, 0, rd, .shiftReg r t m⟩
  | .mvnImm _ S rd r i => some ⟨.mvn, S, 0, rd, .imm r i⟩
  | _ => none

/-- The comparisons, each the operation whose flags it sets (R228 to R231). -/
def compareShape? : Instr → Option DataShape
  | .tstShiftImm _ rn rd i t m => some ⟨.and, true, rn, rd, .shiftImm i t m⟩
  | .tstShiftReg _ rn rd r t m => some ⟨.and, true, rn, rd, .shiftReg r t m⟩
  | .tstImm _ rn rd r i => some ⟨.and, true, rn, rd, .imm r i⟩
  | .teqShiftImm _ rn rd i t m => some ⟨.eor, true, rn, rd, .shiftImm i t m⟩
  | .teqShiftReg _ rn rd r t m => some ⟨.eor, true, rn, rd, .shiftReg r t m⟩
  | .teqImm _ rn rd r i => some ⟨.eor, true, rn, rd, .imm r i⟩
  | .cmpShiftImm _ rn rd i t m => some ⟨.sub, true, rn, rd, .shiftImm i t m⟩
  | .cmpShiftReg _ rn rd r t m => some ⟨.sub, true, rn, rd, .shiftReg r t m⟩
  | .cmpImm _ rn rd r i => some ⟨.sub, true, rn, rd, .imm r i⟩
  | .cmnShiftImm _ rn rd i t m => some ⟨.add, true, rn, rd, .shiftImm i t m⟩
  | .cmnShiftReg _ rn rd r t m => some ⟨.add, true, rn, rd, .shiftReg r t m⟩
  | .cmnImm _ rn rd r i => some ⟨.add, true, rn, rd, .imm r i⟩
  | _ => none

/-- A Thumb operation of formats 1 to 4: the destination, where it writes one, and its two operands. -/
structure ThumbShape where
  op : DataOp
  rd : Option LowReg
  first : Cpu → Word
  second : Cpu → Shifted

/-- A second operand that is not shifted: the shifter's carry is C itself (47_thumb_a.md R425). -/
def unshifted (v : Cpu → Word) (k : Cpu) : Shifted := ⟨v k, psrC k.cpsr⟩

/-- The Thumb operations of formats 1 to 4 but MUL (47_thumb_a.md R411 to R441). -/
def thumbShape? : Instr → Option ThumbShape
  | .tLslImm i s d => some ⟨.mov, some d, fun _ => 0, fun k => shiftImm .lsl (k.reg (low s)) i (psrC k.cpsr)⟩
  | .tLsrImm i s d => some ⟨.mov, some d, fun _ => 0, fun k => shiftImm .lsr (k.reg (low s)) i (psrC k.cpsr)⟩
  | .tAsrImm i s d => some ⟨.mov, some d, fun _ => 0, fun k => shiftImm .asr (k.reg (low s)) i (psrC k.cpsr)⟩
  | .tAddReg n s d => some ⟨.add, some d, fun k => k.reg (low s), unshifted fun k => k.reg (low n)⟩
  | .tSubReg n s d => some ⟨.sub, some d, fun k => k.reg (low s), unshifted fun k => k.reg (low n)⟩
  | .tAddImm3 i s d => some ⟨.add, some d, fun k => k.reg (low s), unshifted fun _ => i.setWidth 32⟩
  | .tSubImm3 i s d => some ⟨.sub, some d, fun k => k.reg (low s), unshifted fun _ => i.setWidth 32⟩
  | .tMovImm d i => some ⟨.mov, some d, fun _ => 0, unshifted fun _ => i.setWidth 32⟩
  | .tCmpImm d i => some ⟨.sub, none, fun k => k.reg (low d), unshifted fun _ => i.setWidth 32⟩
  | .tAddImm8 d i => some ⟨.add, some d, fun k => k.reg (low d), unshifted fun _ => i.setWidth 32⟩
  | .tSubImm8 d i => some ⟨.sub, some d, fun k => k.reg (low d), unshifted fun _ => i.setWidth 32⟩
  | .tAnd s d => some ⟨.and, some d, fun k => k.reg (low d), unshifted fun k => k.reg (low s)⟩
  | .tEor s d => some ⟨.eor, some d, fun k => k.reg (low d), unshifted fun k => k.reg (low s)⟩
  | .tLslReg s d => some ⟨.mov, some d, fun _ => 0, fun k =>
      shiftReg .lsl (k.reg (low d)) ((k.reg (low s)).extractLsb' 0 8) (psrC k.cpsr)⟩
  | .tLsrReg s d => some ⟨.mov, some d, fun _ => 0, fun k =>
      shiftReg .lsr (k.reg (low d)) ((k.reg (low s)).extractLsb' 0 8) (psrC k.cpsr)⟩
  | .tAsrReg s d => some ⟨.mov, some d, fun _ => 0, fun k =>
      shiftReg .asr (k.reg (low d)) ((k.reg (low s)).extractLsb' 0 8) (psrC k.cpsr)⟩
  | .tRor s d => some ⟨.mov, some d, fun _ => 0, fun k =>
      shiftReg .ror (k.reg (low d)) ((k.reg (low s)).extractLsb' 0 8) (psrC k.cpsr)⟩
  | .tAdc s d => some ⟨.adc, some d, fun k => k.reg (low d), unshifted fun k => k.reg (low s)⟩
  | .tSbc s d => some ⟨.sbc, some d, fun k => k.reg (low d), unshifted fun k => k.reg (low s)⟩
  | .tTst s d => some ⟨.and, none, fun k => k.reg (low d), unshifted fun k => k.reg (low s)⟩
  | .tNeg s d => some ⟨.sub, some d, fun _ => 0, unshifted fun k => k.reg (low s)⟩
  | .tCmpReg s d => some ⟨.sub, none, fun k => k.reg (low d), unshifted fun k => k.reg (low s)⟩
  | .tCmn s d => some ⟨.add, none, fun k => k.reg (low d), unshifted fun k => k.reg (low s)⟩
  | .tOrr s d => some ⟨.orr, some d, fun k => k.reg (low d), unshifted fun k => k.reg (low s)⟩
  | .tBic s d => some ⟨.bic, some d, fun k => k.reg (low d), unshifted fun k => k.reg (low s)⟩
  | .tMvn s d => some ⟨.mvn, some d, fun _ => 0, unshifted fun k => k.reg (low s)⟩
  | _ => none

/-! Multiplies. -/

/-- A multiply with a 32-bit result (43_multiply.md R272, R273, 47_thumb_a.md R439): the registers it
names, its destination, `S`, and its result modulo `2 ^ 32`. -/
structure MulShape where
  regs : List Reg
  rd : Reg
  S : Bool
  value : Cpu → Word
  width : Word

def mulShape? : Instr → Option MulShape
  | .mul _ S rd rs rm => some ⟨[rd, rs, rm], rd, S, fun k => k.reg rm * k.reg rs, 4⟩
  | .mla _ S rd rn rs rm => some ⟨[rd, rn, rs, rm], rd, S, fun k => k.reg rm * k.reg rs + k.reg rn, 4⟩
  | .tMul rs rd => some ⟨[low rd, low rs], low rd, true, fun k => k.reg (low rd) * k.reg (low rs), 2⟩
  | _ => none

/-- The signed half of a register, extended to `n` bits (43_multiply.md R279). -/
def signedHalf (n : Nat) (v : Word) (top : Bool) : BitVec n :=
  (v.extractLsb' (if top then 16 else 0) 16).signExtend n

/-- The exact 64-bit product of two words, unsigned or signed. -/
def wideProduct (signed : Bool) (a b : Word) : BitVec 64 :=
  if signed then a.signExtend 64 * b.signExtend 64 else a.setWidth 64 * b.setWidth 64

/-- A multiply with a 64-bit result (R274 to R277, R283): `arm9` where it exists on that core only. -/
structure LongShape where
  arm9 : Bool
  regs : List Reg
  hi : Reg
  lo : Reg
  S : Bool
  value : Cpu → BitVec 64

def longShape? : Instr → Option LongShape
  | .umull _ S hi lo rs rm => some ⟨false, [hi, lo, rs, rm], hi, lo, S, fun k =>
      wideProduct false (k.reg rm) (k.reg rs)⟩
  | .umlal _ S hi lo rs rm => some ⟨false, [hi, lo, rs, rm], hi, lo, S, fun k =>
      wideProduct false (k.reg rm) (k.reg rs) + (k.reg hi ++ k.reg lo)⟩
  | .smull _ S hi lo rs rm => some ⟨false, [hi, lo, rs, rm], hi, lo, S, fun k =>
      wideProduct true (k.reg rm) (k.reg rs)⟩
  | .smlal _ S hi lo rs rm => some ⟨false, [hi, lo, rs, rm], hi, lo, S, fun k =>
      wideProduct true (k.reg rm) (k.reg rs) + (k.reg hi ++ k.reg lo)⟩
  | .smlalXY _ hi lo rs y x rm => some ⟨true, [hi, lo, rs, rm], hi, lo, false, fun k =>
      signedHalf 64 (k.reg rm) x * signedHalf 64 (k.reg rs) y + (k.reg hi ++ k.reg lo)⟩
  | _ => none

/-- A halfword multiply with a 32-bit result (R280 to R284): the product, and the register accumulated. -/
structure HalfMulShape where
  regs : List Reg
  rd : Reg
  product : Cpu → Word
  acc : Option Reg

def halfMulShape? : Instr → Option HalfMulShape
  | .smlaXY _ rd rn rs y x rm => some ⟨[rd, rn, rs, rm], rd, fun k =>
      signedHalf 32 (k.reg rm) x * signedHalf 32 (k.reg rs) y, some rn⟩
  | .smlaWY _ rd rn rs y rm => some ⟨[rd, rn, rs, rm], rd, fun k =>
      ((k.reg rm).signExtend 64 * signedHalf 64 (k.reg rs) y).extractLsb' 16 32, some rn⟩
  | .smulWY _ rd rs y rm => some ⟨[rd, rs, rm], rd, fun k =>
      ((k.reg rm).signExtend 64 * signedHalf 64 (k.reg rs) y).extractLsb' 16 32, none⟩
  | .smulXY _ rd rs y x rm => some ⟨[rd, rs, rm], rd, fun k =>
      signedHalf 32 (k.reg rm) x * signedHalf 32 (k.reg rs) y, none⟩
  | _ => none

/-! Single transfers. -/

/-- The kinds of load (44_single_transfer.md R305 to R318); `literal` is the PC-relative one of Thumb
(47_thumb_a.md R449). -/
inductive LoadKind where
  | word | literal | byte | half | signedByte | signedHalf
  deriving DecidableEq, Repr

/-- The width of the bus read: an ARM7 signed halfword load at an odd address reads a byte
(20_memory.md R78). -/
def LoadKind.width (kind : LoadKind) (c : CoreId) (addr : Word) : Width :=
  match kind with
  | .word | .literal => .word
  | .byte | .signedByte => .byte
  | .half => .half
  | .signedHalf => if c = .arm7 ∧ addr.getLsbD 0 = true then .byte else .half

/-- What the load makes of the `v` that its bus read gave (R76 to R78, R89). -/
def LoadKind.value (kind : LoadKind) (c : CoreId) (addr v : Word) : Word :=
  match kind with
  | .word => v.rotateRight (8 * (addr &&& 3).toNat)
  | .literal => v
  | .byte => v
  | .half => if c = .arm7 ∧ addr.getLsbD 0 = true then v.rotateRight 8 else v
  | .signedByte => (v.extractLsb' 0 8).signExtend 32
  | .signedHalf =>
    if c = .arm7 ∧ addr.getLsbD 0 = true then (v.extractLsb' 0 8).signExtend 32
    else (v.extractLsb' 0 16).signExtend 32

/-- The value the load gives at a plain address. -/
def loaded (s : State) (kind : LoadKind) (addr : Word) : Word :=
  kind.value s.current addr (peek s addr (kind.width s.current addr))

/-- The load's bus read is plain. -/
def loadable (s : State) (kind : LoadKind) (addr : Word) : Bool :=
  dataAt s addr (kind.width s.current addr)

/-- The offset forms (R301, R310). -/
inductive Offset where
  | imm12 (imm12 : BitVec 12)
  | shifted (imm5 : BitVec 5) (ty : ShiftType) (rm : Reg)
  | reg (rm : Reg)
  | imm8 (imm8 : BitVec 8)
  deriving DecidableEq, Repr

/-- The offset; the shifter's carry is discarded. -/
def Offset.value (o : Offset) (k : Cpu) : Word :=
  match o with
  | .imm12 v => v.setWidth 32
  | .shifted imm5 ty rm => (shiftImm ty (k.reg rm) imm5 (psrC k.cpsr)).value
  | .reg rm => k.reg rm
  | .imm8 v => v.setWidth 32

/-- The offset register is `r15`, which R302 and R310 refuse. -/
def Offset.inPc (o : Offset) : Bool :=
  match o with
  | .imm12 _ => false
  | .shifted _ _ rm => rm == 15
  | .reg rm => rm == 15
  | .imm8 _ => false

/-- The index fields, registers and offset of a single transfer. -/
structure Transfer where
  P : Bool
  U : Bool
  W : Bool
  rn : Reg
  rd : Reg
  off : Offset
  deriving DecidableEq, Repr

/-- The base moved by the offset, modulo `2 ^ 32` (R301). -/
def Transfer.moved (x : Transfer) (k : Cpu) : Word :=
  if x.U then k.reg x.rn + x.off.value k else k.reg x.rn - x.off.value k

/-- The address accessed: pre-indexed the moved base, post-indexed the base (R301). -/
def Transfer.addr (x : Transfer) (k : Cpu) : Word :=
  if x.P then x.moved k else k.reg x.rn

/-- The moved base is written back: always when post-indexed (R301). -/
def Transfer.writes (x : Transfer) : Bool := !x.P || x.W

/-- Neither form that R302 and R310 refuse. -/
def Transfer.legal (x : Transfer) : Bool := !(x.writes && x.rn == 15) && !x.off.inPc

/-- The register slots the writeback can write. -/
def Transfer.baseSlots (x : Transfer) (s : State) : List (Fin 30) :=
  if x.writes then [s.slotOf x.rn] else []

/-- The ARM loads of one register. -/
def loadShape? : Instr → Option (LoadKind × Transfer)
  | .ldrImm _ P U W rn rd i => some (.word, ⟨P, U, W, rn, rd, .imm12 i⟩)
  | .ldrReg _ P U W rn rd i t m => some (.word, ⟨P, U, W, rn, rd, .shifted i t m⟩)
  | .ldrbImm _ P U W rn rd i => some (.byte, ⟨P, U, W, rn, rd, .imm12 i⟩)
  | .ldrbReg _ P U W rn rd i t m => some (.byte, ⟨P, U, W, rn, rd, .shifted i t m⟩)
  | .ldrhReg _ P U W rn rd m => some (.half, ⟨P, U, W, rn, rd, .reg m⟩)
  | .ldrhImm _ P U W rn rd i => some (.half, ⟨P, U, W, rn, rd, .imm8 i⟩)
  | .ldrsbReg _ P U W rn rd m => some (.signedByte, ⟨P, U, W, rn, rd, .reg m⟩)
  | .ldrsbImm _ P U W rn rd i => some (.signedByte, ⟨P, U, W, rn, rd, .imm8 i⟩)
  | .ldrshReg _ P U W rn rd m => some (.signedHalf, ⟨P, U, W, rn, rd, .reg m⟩)
  | .ldrshImm _ P U W rn rd i => some (.signedHalf, ⟨P, U, W, rn, rd, .imm8 i⟩)
  | _ => none

/-- The ARM stores of one register. -/
def storeShape? : Instr → Option (Width × Transfer)
  | .strImm _ P U W rn rd i => some (.word, ⟨P, U, W, rn, rd, .imm12 i⟩)
  | .strReg _ P U W rn rd i t m => some (.word, ⟨P, U, W, rn, rd, .shifted i t m⟩)
  | .strbImm _ P U W rn rd i => some (.byte, ⟨P, U, W, rn, rd, .imm12 i⟩)
  | .strbReg _ P U W rn rd i t m => some (.byte, ⟨P, U, W, rn, rd, .shifted i t m⟩)
  | .strhReg _ P U W rn rd m => some (.half, ⟨P, U, W, rn, rd, .reg m⟩)
  | .strhImm _ P U W rn rd i => some (.half, ⟨P, U, W, rn, rd, .imm8 i⟩)
  | _ => none

/-- LDRD and STRD; `true` marks the load (R320, R321). -/
def doubleShape? : Instr → Option (Bool × Transfer)
  | .ldrdReg _ P U W rn rd m => some (true, ⟨P, U, W, rn, rd, .reg m⟩)
  | .ldrdImm _ P U W rn rd i => some (true, ⟨P, U, W, rn, rd, .imm8 i⟩)
  | .strdReg _ P U W rn rd m => some (false, ⟨P, U, W, rn, rd, .reg m⟩)
  | .strdImm _ P U W rn rd i => some (false, ⟨P, U, W, rn, rd, .imm8 i⟩)
  | _ => none

/-- The Thumb loads (47_thumb_a.md R449 to R458, 48_thumb_b.md R462 to R468): the address and `Rd`. -/
def thumbLoadShape? : Instr → Option (LoadKind × (Cpu → Word) × LowReg)
  | .tLdrPc d i => some (.literal, fun k => (k.r15 &&& ~~~2#32) + (i.setWidth 32 <<< 2), d)
  | .tLdrReg o b d => some (.word, fun k => k.reg (low b) + k.reg (low o), d)
  | .tLdrbReg o b d => some (.byte, fun k => k.reg (low b) + k.reg (low o), d)
  | .tLdsb o b d => some (.signedByte, fun k => k.reg (low b) + k.reg (low o), d)
  | .tLdrhReg o b d => some (.half, fun k => k.reg (low b) + k.reg (low o), d)
  | .tLdsh o b d => some (.signedHalf, fun k => k.reg (low b) + k.reg (low o), d)
  | .tLdrImm i b d => some (.word, fun k => k.reg (low b) + i.setWidth 32 * 4, d)
  | .tLdrbImm i b d => some (.byte, fun k => k.reg (low b) + i.setWidth 32, d)
  | .tLdrhImm i b d => some (.half, fun k => k.reg (low b) + i.setWidth 32 * 2, d)
  | .tLdrSp d i => some (.word, fun k => k.reg 13 + i.setWidth 32 * 4, d)
  | _ => none

/-- The Thumb stores (47_thumb_a.md R451, R452, R455, 48_thumb_b.md R461, R463, R465, R467). -/
def thumbStoreShape? : Instr → Option (Width × (Cpu → Word) × LowReg)
  | .tStrReg o b d => some (.word, fun k => k.reg (low b) + k.reg (low o), d)
  | .tStrbReg o b d => some (.byte, fun k => k.reg (low b) + k.reg (low o), d)
  | .tStrhReg o b d => some (.half, fun k => k.reg (low b) + k.reg (low o), d)
  | .tStrImm i b d => some (.word, fun k => k.reg (low b) + i.setWidth 32 * 4, d)
  | .tStrbImm i b d => some (.byte, fun k => k.reg (low b) + i.setWidth 32, d)
  | .tStrhImm i b d => some (.half, fun k => k.reg (low b) + i.setWidth 32 * 2, d)
  | .tStrSp d i => some (.word, fun k => k.reg 13 + i.setWidth 32 * 4, d)
  | _ => none

/-! Block transfers. -/

/-- A block transfer: its index fields, the S bit, writeback, base and list; `thumb` for the Thumb forms
(45_block_transfer.md R340, 48_thumb_b.md R473, R476). -/
structure Block where
  thumb : Bool
  P : Bool
  U : Bool
  S : Bool
  W : Bool
  rn : Reg
  list : BitVec 16
  deriving DecidableEq, Repr

/-- The block loads. -/
def blockLoad? : Instr → Option Block
  | .ldm _ P U S W rn list => some ⟨false, P, U, S, W, rn, list⟩
  | .tPop r list => some ⟨true, false, true, false, true, 13, bit r ++ 0#7 ++ list⟩
  | .tLdmia rb list => some ⟨true, false, true, false, true, low rb, list.setWidth 16⟩
  | _ => none

/-- The block stores. -/
def blockStore? : Instr → Option Block
  | .stm _ P U S W rn list => some ⟨false, P, U, S, W, rn, list⟩
  | .tPush r list => some ⟨true, true, false, false, true, 13, 0#1 ++ bit r ++ 0#6 ++ list⟩
  | .tStmia rb list => some ⟨true, false, true, false, true, low rb, list.setWidth 16⟩
  | _ => none

/-- The registers of the list, in ascending order. -/
def Block.regs (b : Block) : List Reg :=
  (List.range 16).filterMap fun i => if b.list.getLsbD i then some (BitVec.ofNat 4 i) else none

/-- `4n` (R341). -/
def Block.bytes (b : Block) : Word := BitVec.ofNat 32 (4 * b.regs.length)

/-- The value written back (R341). -/
def Block.final (b : Block) (k : Cpu) : Word :=
  if b.U then k.reg b.rn + b.bytes else k.reg b.rn - b.bytes

/-- The address of the `j`-th word (R341): IA `base`, IB `base + 4`, DA `base - 4n + 4`, DB `base - 4n`,
each plus `4j`. -/
def Block.addr (b : Block) (k : Cpu) (j : Nat) : Word :=
  (if b.U then k.reg b.rn else k.reg b.rn - b.bytes) + (if b.P == b.U then 4 else 0) + BitVec.ofNat 32 (4 * j)

/-- The transfer is of user-bank registers: the S bit, but for a load with `r15` in the list (R346, R347). -/
def Block.user (b : Block) (load : Bool) : Bool := b.S && !(load && b.list.getLsbD 15)

/-- The slot of register `r` in the bank the transfer moves. -/
def Block.slotOf (b : Block) (load : Bool) (s : State) (r : Reg) : Fin 30 :=
  slot (if b.user load then .usr else s.cur.bank) r

/-- A load writes its base back (R345): not on ARM7 where the base is in the list; on ARM9 not where it is
the last of two or more. -/
def Block.loadWrites (b : Block) (c : CoreId) : Bool :=
  b.W && (!b.list.getLsbD b.rn.toNat ||
    (c == .arm9 && !(decide (1 < b.regs.length) && decide (b.list.toNat < 2 ^ (b.rn.toNat + 1)))))

/-- What a store stores for its base in the list (R344): the old value, but on ARM7 with writeback the new
one unless the base is the first of the list. -/
def Block.storedBase (b : Block) (s : State) : Word :=
  if b.W && s.current == .arm7 && decide (b.list.toNat % 2 ^ b.rn.toNat ≠ 0) then b.final s.cur
  else s.cur.reg b.rn

/-- The value a store stores for register `r` (R351, R303, 48_thumb_b.md R479). -/
def Block.stored (b : Block) (s : State) (r : Reg) : Word :=
  if r = 15 then s.cur.r15 + (if b.thumb then 2 else 4)
  else if r = b.rn ∧ b.S = false then b.storedBase s
  else if b.S then s.cur.regUsr r
  else s.cur.reg r

/-- None of the forms R340 and R346 refuse, and not the empty list of R343. -/
def Block.legal (b : Block) (load : Bool) : Bool :=
  b.list != 0 && b.rn != 15 && !(b.user load && b.W)

/-- Every word of the transfer is at a plain address. -/
def Block.reachable (b : Block) (s : State) : Bool :=
  (List.range b.regs.length).all fun j => dataAt s (b.addr s.cur j) .word

/-- The words a store writes, in order. -/
def Block.writes (b : Block) (s : State) : List (Word × Word) :=
  (List.range b.regs.length).zip b.regs |>.map fun p => (b.addr s.cur p.1, b.stored s p.2)

/-- The registers a block load leaves, `t` the state after: each register of the list but `r15` holds its
word, unless the base is written back over it; the base, where it is written back, the final address. -/
structure Block.Loaded (b : Block) (s t : State) : Prop where
  words : ∀ j r, b.regs[j]? = some r → r ≠ 15 → (b.loadWrites s.current = true → r ≠ b.rn) →
    t.cur.regs[b.slotOf true s r] = peek s (b.addr s.cur j) .word
  base : b.loadWrites s.current = true → t.cur.regs[s.slotOf b.rn] = b.final s.cur

/-- The same where the words that were read are `vs`. -/
structure Block.LoadedWith (b : Block) (vs : List Word) (s t : State) : Prop where
  words : ∀ (j : Nat) (r : Reg) (v : Word), b.regs[j]? = some r → vs[j]? = some v → r ≠ 15 →
    (b.loadWrites s.current = true → r ≠ b.rn) → t.cur.regs[b.slotOf true s r] = v
  base : b.loadWrites s.current = true → t.cur.regs[s.slotOf b.rn] = b.final s.cur

/-- Where a word `v` loaded for `r15` goes, with the status word it goes in: with the S bit `v` in the state
of the SPSR; on ARM9 bit 0 selects Thumb state, and a POP with bit 0 clear ARM state; otherwise the state
stays (R347, R348, 48_thumb_b.md R475). None where R347 stops. -/
def Block.landing (b : Block) (s : State) (v : Word) : Option (Word × Word) :=
  if b.S then
    match s.cur.spsrAt s.cur.bank with
    | some psr => if validMode (modeOf psr) then some (psr, v) else none
    | none => none
  else if s.current = .arm9 ∧ v.getLsbD 0 = true then some (withT s.cur.cpsr true, v &&& ~~~1#32)
  else if b.thumb = false then some (s.cur.cpsr, v &&& ~~~3#32)
  else if s.current = .arm9 then some (withT s.cur.cpsr false, v &&& ~~~1#32)
  else some (s.cur.cpsr, v &&& ~~~1#32)

/-- The addresses of the words of the transfer, in order. -/
def Block.addrs (b : Block) (s : State) : List Word :=
  (List.range b.regs.length).map (b.addr s.cur)

/-- The register slots a block load can write. -/
def Block.loadSlots (b : Block) (s : State) : List (Fin 30) :=
  (b.regs.filter (· != 15)).map (b.slotOf true s) ++
    (if b.loadWrites s.current then [s.slotOf b.rn] else [])

/-! Branches, saturating arithmetic. -/

/-- The conditional branches of Thumb format 16 (48_thumb_b.md R480). -/
def thumbBranch? : Instr → Option (Cond × BitVec 8)
  | .tBeq i => some (.eq, i)
  | .tBne i => some (.ne, i)
  | .tBcs i => some (.cs, i)
  | .tBcc i => some (.cc, i)
  | .tBmi i => some (.mi, i)
  | .tBpl i => some (.pl, i)
  | .tBvs i => some (.vs, i)
  | .tBvc i => some (.vc, i)
  | .tBhi i => some (.hi, i)
  | .tBls i => some (.ls, i)
  | .tBge i => some (.ge, i)
  | .tBlt i => some (.lt, i)
  | .tBgt i => some (.gt, i)
  | .tBle i => some (.le, i)
  | _ => none

/-- An integer clamped to 32 signed bits (40_execution_and_shifter.md R188). -/
def clamp32 (i : Int) : Int := max (-2 ^ 31) (min (2 ^ 31 - 1) i)

/-- The saturating instructions: `Rn`, `Rd`, `Rm`, and over the signed values of `Rm` and `Rn` the clamped
result and whether anything was clamped (46_branch_misc.md R382 to R385). -/
structure SatShape where
  rn : Reg
  rd : Reg
  rm : Reg
  value : Int → Int → Int
  clamped : Int → Int → Bool

def satShape? : Instr → Option SatShape
  | .qadd _ rn rd rm => some ⟨rn, rd, rm, fun m n => clamp32 (m + n), fun m n => m + n != clamp32 (m + n)⟩
  | .qsub _ rn rd rm => some ⟨rn, rd, rm, fun m n => clamp32 (m - n), fun m n => m - n != clamp32 (m - n)⟩
  | .qdadd _ rn rd rm => some ⟨rn, rd, rm, fun m n => clamp32 (m + clamp32 (2 * n)), fun m n =>
      2 * n != clamp32 (2 * n) || m + clamp32 (2 * n) != clamp32 (m + clamp32 (2 * n))⟩
  | .qdsub _ rn rd rm => some ⟨rn, rd, rm, fun m n => clamp32 (m - clamp32 (2 * n)), fun m n =>
      2 * n != clamp32 (2 * n) || m - clamp32 (2 * n) != clamp32 (m - clamp32 (2 * n))⟩
  | _ => none

/-- What exists on the ARM9 core only, and what the ARM7 core panics on (30_encoding.md R141, R153). -/
def arm9Only : Instr → Bool
  | .smlaXY .. | .smlaWY .. | .smulWY .. | .smlalXY .. | .smulXY .. => true
  | .ldrdReg .. | .ldrdImm .. | .strdReg .. | .strdImm .. => true
  | .clz .. | .qadd .. | .qsub .. | .qdadd .. | .qdsub .. => true
  | .blxReg .. | .mcr .. | .mrc .. | .tBlxReg .. | .tBlxSecond .. => true
  | _ => false

/-- The undefined encodings whose condition decides (R140). -/
def undefinedArm : Instr → Bool
  | .undMultiply _ | .undSwapLoad _ | .undSwapWide _ | .undSwapOdd _ | .undMiscBranch _ | .undMiscClz _
  | .undMiscTwo _ | .undMiscFourSix _ | .undMiscSeven _ | .undCompareImm _ | .undMedia _
  | .undCoprocTransfer _ | .undCoprocOp _ => true
  | _ => false

/-- The words of the NV space (R124): BLX and the unimplemented ones. -/
def nvSpace : Instr → Bool
  | .blxImm _ _ | .undNvLow | .undNvCoproc | .undNvBlock => true
  | _ => false

/-- The unimplemented words of the NV space (R124). -/
def undefinedNv : Instr → Bool
  | .undNvLow | .undNvCoproc | .undNvBlock => true
  | _ => false

/-- The undefined Thumb encodings (R153). -/
def undefinedThumbCode : Instr → Bool
  | .tUndB1 | .tUndB2 | .tUndB6 | .tUndB8 | .tUndBE | .tUndDE => true
  | _ => false

/-- The forms that may put a whole word, or its top byte, into CPSR: MSR to CPSR, and the returns from an
exception (10_state.md R32). -/
def rewritesStatus (i : Instr) : Bool :=
  match i with
  | .msrReg _ R _ _ => !R
  | .msrImm _ R _ _ _ => !R
  | .ldm _ _ _ S _ _ list => S && list.getLsbD 15
  | _ =>
    match dataShape? i with
    | some x => x.S && x.rd == 15
    | none => false

/-- SWI in either instruction set (46_branch_misc.md R390, 48_thumb_b.md R482). -/
def isSwi : Instr → Bool
  | .swi _ _ | .tSwi _ => true
  | _ => false

/-- MSR: whether it writes the SPSR, its lane mask and its source value (42_status_transfer.md R254, R255). -/
def msrShape? : Instr → Option (Bool × BitVec 4 × (Cpu → Word))
  | .msrReg _ R mask rm => some (R, mask, fun k => k.reg rm)
  | .msrImm _ R mask rot4 imm8 => some (R, mask, fun _ => (imm8.setWidth 32).rotateRight (2 * rot4.toNat))
  | _ => none

/-- The bits of the byte lanes of a mask (R251). -/
def lanesOf (mask : BitVec 4) : Word :=
  (mask.extractLsb' 3 1).signExtend 8 ++ (mask.extractLsb' 2 1).signExtend 8 ++
    (mask.extractLsb' 1 1).signExtend 8 ++ (mask.extractLsb' 0 1).signExtend 8

/-- The lanes an MSR to CPSR writes: in User mode the flag byte only (R251, R260). -/
def statusLanes (psr : Word) (mask : BitVec 4) : Word :=
  if modeOf psr = modeUser then lanesOf mask &&& 0xFF000000 else lanesOf mask

/-- Push words in order from core `c`. -/
def pushAll (c : CoreId) : List Word → State → Result
  | [], s => .next s
  | v :: rest, s => thenDo (regWrite c .fifoSend v 0xF s) (pushAll c rest)

/-- `n` pops by core `c`, the words in order. -/
def popAll (c : CoreId) : Nat → State → ValueResult (List Word)
  | 0, s => .next ([], s)
  | n + 1, s =>
    mapVal (regRead c .fifoRecv s) fun v s1 =>
      mapVal (popAll c n s1) fun vs s2 => .next (v :: vs, s2)

end Sys2Proof.Machine
end

