-- ==== Sys2Proof/Certificates/Slice0/Obligations.lean ====
section
/-! DEFINITION. The statements for the provers, from the spec's numbered rules. -/
section
open Sys2Proof Sys2Proof.Machine

/-! Decoding. -/

/-- Decoding an encoded instruction gives it back, from the encoding and from its bytes (30_encoding.md
R120 to R153). -/
def Obligations.DecodeOfEncodeIsTheInstruction : Prop :=
  ∀ i : Instr, i.wellFormed = true →
    (encode i).decode = some i ∧ decodeBytes (encode i).isThumb (encode i).bytes = .ok (i, [])

/-- Every ARM word and every Thumb halfword is one row of the opcode map and no two, and decodes to a
well-formed instruction (R122, R125, R140, R150, R153). -/
def Obligations.EveryWordDecodesByExactlyOneRow : Prop :=
  (∀ w : Word, w.extractLsb' 28 4 ≠ 15 →
    (armRows.filter fun r => r.selects (w.extractLsb' 20 8) (w.extractLsb' 4 4)).length = 1) ∧
  (∀ w : Word, (nvRows.filter fun r => r.selects (w.extractLsb' 20 8)).length = 1) ∧
  (∀ h : Half, (thumbRows.filter fun r => r.selects (h.extractLsb' 6 10)).length = 1) ∧
  (∀ w : Word, ∃ i, decodeArm w = some i ∧ i.wellFormed = true) ∧
  (∀ h : Half, ∃ i, decodeThumb h = some i ∧ i.wellFormed = true)

/-- The words the spec prints beside its examples are the instructions it says (41_data_processing.md R224,
R233, 43_multiply.md R276, 44_single_transfer.md R305, 45_block_transfer.md R351, 46_branch_misc.md R376,
R390, R395, 42_status_transfer.md R254, 48_thumb_b.md R474, R480, 47_thumb_a.md R412). -/
def Obligations.PrintedWordsDecodeAsPrinted : Prop :=
  decodeArm 0xE0802001 = some (.addShiftImm .al false 0 2 0 .lsl 1) ∧
  decodeArm 0xE3A01002 = some (.movImm .al false 1 0 2) ∧
  decodeArm 0xE0C10392 = some (.smull .al false 1 0 3 2) ∧
  decodeArm 0xE4901004 = some (.ldrImm .al false true false 0 1 4) ∧
  decodeArm 0xE92D4010 = some (.stm .al true false false true 13 0x4010) ∧
  decodeArm 0xE12FFF10 = some (.bx .al 0) ∧
  decodeArm 0xEF000000 = some (.swi .al 0) ∧
  decodeArm 0xEE010F10 = some (.mcr .al 0 1 0 15 0 0) ∧
  decodeArm 0xE121F000 = some (.msrReg .al false 1 0) ∧
  decodeThumb 0xB510 = some (.tPush true 0x10) ∧
  decodeThumb 0xD1FE = some (.tBne 0xFE) ∧
  decodeThumb 0x0088 = some (.tLslImm 2 1 0)

/-! The step. -/

/-- Where the facade runs a core that has cycles left, does not wait in vain and takes no interrupt, the
step takes the opcode of slot 0, shifts the slots, prefetches at `R15` and is `exec` of the decoded
instruction there, with one cycle counted (40_execution_and_shifter.md R170 to R174). The second clause says
the same of what follows an interrupt entry in one step. -/
def Obligations.StepRunsTheDecodedInstruction : Prop :=
  (∀ (s : State) (second : Bool) (budget : Cycles), s.phase = .run second budget → budget ≠ 0 →
    s.cur.cyc < s.sched.target → (s.cur.waiting = true → irqLine s s.current = true) →
    (irqLine s s.current = true → psrI s.cur.cpsr = true) →
    step s = executeNext { (s.upd fun k => { k with waiting := false }) with
      phase := .run second (budget - 1) }) ∧
  (∀ (s : State) (i : Instr),
    plainAt s s.current (alignTo s.cur.fetchWidth s.cur.r15) .fetch = true →
    (if s.cur.thumb then decodeThumb (s.cur.pipe0.setWidth 16) else decodeArm s.cur.pipe0) = some i →
    let v := peekFrom s.cur.lastFetch s s.current (alignTo s.cur.fetchWidth s.cur.r15) s.cur.fetchWidth .fetch
    executeNext s =
      match exec i (s.upd fun k => { k with pipe0 := k.pipe1, pipe1 := v, lastFetch := v }) with
      | .next t => .next (t.upd fun k => { k with cyc := k.cyc + 1 })
      | .fault f => .fault f
      | .refused r => .refused r)

/-- A step of a core whose interrupt line is asserted and whose `I` is clear enters IRQ mode first: the
entry of R504 with mode IRQ, offset 0x18 and the address of the next instruction + 4, then the handler's
first instruction (60_exceptions.md R506, 40_execution_and_shifter.md R172). -/
def Obligations.StepTakesTheInterrupt : Prop :=
  ∀ (s : State) (second : Bool) (budget : Cycles), s.phase = .run second budget → budget ≠ 0 →
    s.cur.cyc < s.sched.target → irqLine s s.current = true → psrI s.cur.cpsr = false →
    codeAt s false (exceptionBase s s.current + 0x18) = true →
    let s1 : State := { (s.upd fun k => { k with waiting := false }) with phase := .run second (budget - 1) }
    ∃ t, Entered modeIrq 0x18 (if s.cur.thumb then s.cur.r15 else s.cur.r15 - 4) s1 t ∧
      step s = executeNext t

/-- A waiting core whose line is not asserted consumes its budget and executes nothing (R170, R171). What
comes next, the other core's turn or the firing of events up to the target, is the loop of `Step(N)`
(60_exceptions.md R575) as the model unrolls it into phases: the phase is the model's choice (log 8). -/
def Obligations.WaitingCoreConsumesItsBudget : Prop :=
  ∀ (s : State) (second : Bool) (budget : Cycles), s.phase = .run second budget → budget ≠ 0 →
    s.cur.cyc < s.sched.target → s.cur.waiting = true → irqLine s s.current = false →
    step s = .next { (s.upd fun k => { k with cyc := k.cyc + budget }) with
      phase := if second then .fire s.sched.target else .slice true }

/-! Whole-machine rules. -/

/-- The machine after reset is in order (10_state.md R46, R47). -/
def Obligations.ResetIsInOrder : Prop := Inv State.reset

/-- Every step keeps the machine in order: a legal mode, an aligned `R15`, halfwords in the slots in Thumb
state, queues of at most 16 words, events sorted, numbered and not of the past, memory canonical and inside
its arrays (R23, R28, R29, R47, 60_exceptions.md R567, R569). -/
def Obligations.EveryStepKeepsTheMachineInOrder : Prop :=
  ∀ s t : State, Inv s → step s = .next t → Inv t

/-- A User-mode instruction leaves User mode only by SWI, to Supervisor, and changes neither `I` nor `F`
otherwise (60_exceptions.md R580, R581, 42_status_transfer.md R260). -/
def Obligations.UserModeIsLeftOnlyBySwi : Prop :=
  ∀ (i : Instr) (s t : State), modeOf s.cur.cpsr = modeUser → exec i s = .next t →
    (isSwi i = true ∧ modeOf t.cur.cpsr = modeSupervisor) ∨
    (modeOf t.cur.cpsr = modeUser ∧ psrI t.cur.cpsr = psrI s.cur.cpsr ∧ psrF t.cur.cpsr = psrF s.cur.cpsr)

/-- An instruction changes nothing of the other core's own state, nor which core runs, nor the host's state
(10_state.md R20, 60_exceptions.md R584). -/
def Obligations.TheOtherCoreIsUntouched : Prop :=
  ∀ (i : Instr) (s t : State), exec i s = .next t →
    t.cpu.get s.current.peer = s.cpu.get s.current.peer ∧ t.current = s.current ∧ t.phase = s.phase ∧
    t.rom = s.rom ∧ t.bootromInert = s.bootromInert ∧ t.hostCalls = s.hostCalls ∧
    t.sched.now = s.sched.now ∧ t.cur.cyc = s.cur.cyc

/-- Q is sticky: only an MSR to CPSR or a return from an exception can clear it (10_state.md R32). -/
def Obligations.QIsSticky : Prop :=
  ∀ (i : Instr) (s t : State), exec i s = .next t → psrQ s.cur.cpsr = true → rewritesStatus i = false →
    psrQ t.cur.cpsr = true

/-- No step writes a boot ROM but the host's loading calls (20_memory.md R73, R84, 70_reset_and_hazards.md
R601, R602). -/
def Obligations.BootRomsAreReadOnly : Prop :=
  ∀ s t : State, step s = .next t →
    (s.phase = .idle → ∀ image rest, s.hostCalls ≠ .loadBootRom9 image :: rest ∧
      s.hostCalls ≠ .loadBootRom7 image :: rest) →
    ∀ off, t.mem.readByte .bootRom9 off = s.mem.readByte .bootRom9 off ∧
      t.mem.readByte .bootRom7 off = s.mem.readByte .bootRom7 off

/-- The device clock never goes back but by `Reset()` (60_exceptions.md R564). -/
def Obligations.TheClockNeverGoesBack : Prop :=
  ∀ s t : State, step s = .next t →
    (s.phase = .idle → ∀ rest, s.hostCalls ≠ .reset :: rest) → s.sched.now ≤ t.sched.now

/-- Inside `Sched.Run(limit)` a step fires the least event by `(time, seq)` where one is due: it leaves the
list, the clock stands at its time, and its action is whatever acts the external agents perform there
(60_exceptions.md R566, R567, R570, R577); that those are the next entry of the tape, and nothing where the
tape is empty, is the model's choice (logs 6 and 17). Where none is due the run ends with the clock at the
limit and nothing else changed but the phase: `Step(N)` goes on while the clock is below the horizon (R575, its
loop unrolled into phases by the model's choice, log 8). -/
def Obligations.TheEarliestDueEventFires : Prop :=
  ∀ (s : State) (limit : Cycles), s.sched.Inv → s.phase = .fire limit →
    (∀ e ∈ s.sched.events, e.time ≤ limit → ∃ f ∈ s.sched.events,
      (∀ g ∈ s.sched.events, g = f ∨ f.time < g.time ∨ (f.time = g.time ∧ f.seq < g.seq)) ∧
      step s = agentActs (s.agentTape.headD []) { s with
        agentTape := s.agentTape.tail
        sched := { s.sched with events := s.sched.events.erase f, now := f.time } }) ∧
    ((∀ e ∈ s.sched.events, ¬ e.time ≤ limit) →
      let now := if s.sched.now ≤ limit then limit else s.sched.now
      step s = .next { s with
        sched := { s.sched with now := now }
        phase := if now < s.sched.horizon then .slice false else .idle })

/-! Conditions, the shifter, the adder. -/

/-- The truth value of `CondPass` for each condition, in the flags its row names
(40_execution_and_shifter.md R178); the NV space passes on ARM9, and never on ARM7 by the spec's own decision
D5. What dispatch does with the value is `FailedConditionSkips`. -/
def Obligations.ConditionsTestTheirFlags : Prop :=
  (∀ psr : Word, ∀ n z c v : Bool,
    psr.getLsbD 31 = n → psr.getLsbD 30 = z → psr.getLsbD 29 = c → psr.getLsbD 28 = v →
    condPass .eq psr = z ∧ condPass .ne psr = !z ∧ condPass .cs psr = c ∧ condPass .cc psr = !c ∧
    condPass .mi psr = n ∧ condPass .pl psr = !n ∧ condPass .vs psr = v ∧ condPass .vc psr = !v ∧
    condPass .hi psr = (c && !z) ∧ condPass .ls psr = (!c || z) ∧
    condPass .ge psr = decide (n = v) ∧ condPass .lt psr = decide (n ≠ v) ∧
    condPass .gt psr = (!z && decide (n = v)) ∧ condPass .le psr = (z || decide (n ≠ v)) ∧
    condPass .al psr = true) ∧
  nvPass .arm9 = true ∧ nvPass .arm7 = false

/-- The shifter over numbers: a left shift multiplies, a logical right shift divides the unsigned value, an
arithmetic one the signed value, a rotation moves the low bits to the top; the carry is the last bit moved
out; amount 0 keeps value and carry, but encodes 32 in an immediate LSR or ASR and RRX in an immediate ROR. An immediate operand is the byte rotated right by twice
its field, the carry its top bit where it is rotated (R181, R182, R184). -/
def Obligations.ShiftsComputeOverNumbers : Prop :=
  (∀ (v : Word) (n : BitVec 5) (c : Bool), n ≠ 0 →
    (shiftImm .lsl v n c).value.toNat = v.toNat * 2 ^ n.toNat % 2 ^ 32 ∧
    (shiftImm .lsl v n c).carry = v.getLsbD (32 - n.toNat) ∧
    (shiftImm .lsr v n c).value.toNat = v.toNat / 2 ^ n.toNat ∧
    (shiftImm .lsr v n c).carry = v.getLsbD (n.toNat - 1) ∧
    (shiftImm .asr v n c).value.toInt = v.toInt / 2 ^ n.toNat ∧
    (shiftImm .asr v n c).carry = v.getLsbD (n.toNat - 1) ∧
    (shiftImm .ror v n c).value.toNat =
      v.toNat / 2 ^ n.toNat + v.toNat % 2 ^ n.toNat * 2 ^ (32 - n.toNat) ∧
    (shiftImm .ror v n c).carry = v.getLsbD (n.toNat - 1)) ∧
  (∀ (v : Word) (c : Bool),
    shiftImm .lsl v 0 c = ⟨v, c⟩ ∧ shiftImm .lsr v 0 c = ⟨0, v.getLsbD 31⟩ ∧
    shiftImm .asr v 0 c = ⟨if v.getLsbD 31 then 0xFFFFFFFF else 0, v.getLsbD 31⟩ ∧
    (shiftImm .ror v 0 c).value.toNat = v.toNat / 2 + c.toNat * 2 ^ 31 ∧
    (shiftImm .ror v 0 c).carry = v.getLsbD 0) ∧
  (∀ (ty : ShiftType) (v : Word) (c : Bool), shiftReg ty v 0 c = ⟨v, c⟩) ∧
  (∀ (ty : ShiftType) (v : Word) (n : Byte) (c : Bool), n ≠ 0 → n.toNat < 32 →
    shiftReg ty v n c = shiftImm ty v (n.setWidth 5) c) ∧
  (∀ (v : Word) (c : Bool),
    shiftReg .lsl v 32 c = ⟨0, v.getLsbD 0⟩ ∧ shiftReg .lsr v 32 c = ⟨0, v.getLsbD 31⟩) ∧
  (∀ (v : Word) (n : Byte) (c : Bool), 32 < n.toNat →
    shiftReg .lsl v n c = ⟨0, false⟩ ∧ shiftReg .lsr v n c = ⟨0, false⟩) ∧
  (∀ (v : Word) (n : Byte) (c : Bool), 32 ≤ n.toNat →
    shiftReg .asr v n c = ⟨if v.getLsbD 31 then 0xFFFFFFFF else 0, v.getLsbD 31⟩ ∧
    (n.toNat % 32 = 0 → shiftReg .ror v n c = ⟨v, v.getLsbD 31⟩) ∧
    (n.toNat % 32 ≠ 0 → shiftReg .ror v n c = shiftImm .ror v (n.setWidth 5) c)) ∧
  (∀ (rot4 : BitVec 4) (imm8 : BitVec 8) (c : Bool),
    (expandImm rot4 imm8 c).value.toNat =
      imm8.toNat / 2 ^ (2 * rot4.toNat) + imm8.toNat % 2 ^ (2 * rot4.toNat) * 2 ^ (32 - 2 * rot4.toNat) % 2 ^ 32 ∧
    (expandImm rot4 imm8 c).carry = if rot4 = 0 then c else (expandImm rot4 imm8 c).value.getLsbD 31)

/-- The adder: the sum modulo `2 ^ 32`, C the carry out, V where the signed sum does not fit;
saturation clamps to the signed range and says whether it did (40_execution_and_shifter.md R185, R188). -/
def Obligations.AdderOverflowsAndSaturationClamps : Prop :=
  (∀ (a b : Word) (cin : Bool),
    (addWithCarry a b cin).value.toNat = (a.toNat + b.toNat + cin.toNat) % 2 ^ 32 ∧
    (addWithCarry a b cin).carry = decide (2 ^ 32 ≤ a.toNat + b.toNat + cin.toNat) ∧
    (addWithCarry a b cin).overflow =
      some (decide (a.toInt + b.toInt + cin.toNat < -2 ^ 31 ∨ 2 ^ 31 ≤ a.toInt + b.toInt + cin.toNat))) ∧
  (∀ i : Int,
    (2 ^ 31 - 1 < i → satS32 i = ⟨0x7FFFFFFF, true⟩) ∧
    (i < -2 ^ 31 → satS32 i = ⟨0x80000000, true⟩) ∧
    (-2 ^ 31 ≤ i → i ≤ 2 ^ 31 - 1 → (satS32 i).value.toInt = i ∧ (satS32 i).sat = false))

/-! ARM instructions. -/

/-- An ARM instruction whose condition fails is skipped, and so is the NV space on ARM7: `R15` advances by 4
and nothing else changes (R173, R176, R178). -/
def Obligations.FailedConditionSkips : Prop :=
  ∀ (i : Instr) (s : State),
    i.passes s.cur.cpsr = false ∨ (nvSpace i = true ∧ s.current = .arm7) →
    exec i s = .next (s.upd fun k => { k with r15 := k.r15 + 4 })

/-- Data processing, every operation and operand form: the result in `Rd`, the flags with S, and nothing
else (41_data_processing.md R210 to R212, R220 to R227, R232 to R235). -/
def Obligations.DataProcessingWritesItsResult : Prop :=
  ∀ (i : Instr) (x : DataShape) (s : State), dataShape? i = some x → i.passes s.cur.cpsr = true →
    x.rd ≠ 15 → x.form.amountInPc = false →
    let a := x.form.read s.cur x.rn
    let o := x.form.shifted s.cur
    ∃ t, exec i s = .next t ∧ t.cur.reg x.rd = x.op.value a o.value (psrC s.cur.cpsr) ∧
      (x.S = true → FlagsOf x.op a o.value o.carry s.cur.cpsr t.cur.cpsr) ∧
      RegisterFrame [s.slotOf x.rd] (if x.S then x.op.bits else 0) 4 s t

/-- TST, TEQ, CMP, CMN write the flags of AND, EOR, SUB, ADD and no register (R214, R228 to R231). -/
def Obligations.ComparisonsWriteFlagsOnly : Prop :=
  ∀ (i : Instr) (x : DataShape) (s : State), compareShape? i = some x → i.passes s.cur.cpsr = true →
    x.rd ≠ 15 → x.form.amountInPc = false →
    ∃ t, exec i s = .next t ∧
      FlagsOf x.op (x.form.read s.cur x.rn) (x.form.shifted s.cur).value (x.form.shifted s.cur).carry
        s.cur.cpsr t.cur.cpsr ∧
      RegisterFrame [] x.op.bits 4 s t

/-- Data processing to `r15`: without S a branch in the same state; with S the return from an exception,
the whole SPSR in CPSR and the reload in the state it names; refused where there is no SPSR, a panic where
it names no mode (R213, 60_exceptions.md R512). -/
def Obligations.DataProcessingToPcBranchesOrReturns : Prop :=
  ∀ (i : Instr) (x : DataShape) (s : State), dataShape? i = some x → i.passes s.cur.cpsr = true →
    x.rd = 15 → x.form.amountInPc = false →
    let r := x.op.value (x.form.read s.cur x.rn) (x.form.shifted s.cur).value (psrC s.cur.cpsr)
    (x.S = false → codeAt s s.cur.thumb r = true →
      ∃ t, exec i s = .next t ∧ BranchFrame [] s.cur.cpsr r s t) ∧
    (x.S = true → ∀ spsr, s.cur.spsrAt s.cur.bank = some spsr →
      (validMode (modeOf spsr) = true → codeAt s (psrT spsr) r = true →
        ∃ t, exec i s = .next t ∧ BranchFrame [] spsr r s t) ∧
      (validMode (modeOf spsr) = false → exec i s = .fault .invalidMode)) ∧
    (x.S = true → s.cur.spsrAt s.cur.bank = none → exec i s = .refused .spsrInUserMode)

/-- MRS copies CPSR or the SPSR of the bank to `Rd`; where there is no SPSR the value is a free one, of
which nothing is known (42_status_transfer.md R252). -/
def Obligations.MrsCopiesTheStatusWord : Prop :=
  ∀ (cond : Cond) (rd : Reg) (s : State), condPass cond s.cur.cpsr = true → rd ≠ 15 →
    (∃ t, exec (.mrs cond false rd) s = .next t ∧ t.cur.reg rd = s.cur.cpsr ∧
      RegisterFrame [s.slotOf rd] 0 4 s t) ∧
    (∀ v, s.cur.spsrAt s.cur.bank = some v →
      ∃ t, exec (.mrs cond true rd) s = .next t ∧ t.cur.reg rd = v ∧ RegisterFrame [s.slotOf rd] 0 4 s t) ∧
    (s.cur.spsrAt s.cur.bank = none →
      ∃ t, exec (.mrs cond true rd) s = .next t ∧ t.cur.reg rd = Config.freeWord s.draws ∧
        RegisterFrame [s.slotOf rd] 0 4 { s with draws := s.draws + 1 } t)

/-- MSR to CPSR writes the lanes of its mask, in User mode the flag byte only; a control lane that names no
mode panics, one that changes `T` is refused. MSR to SPSR writes the lanes of the bank's SPSR, and nothing
where there is none (R251, R254, R255, R260). -/
def Obligations.MsrWritesTheLanesOfItsMask : Prop :=
  ∀ (i : Instr) (R : Bool) (mask : BitVec 4) (val : Cpu → Word) (s : State),
    msrShape? i = some (R, mask, val) → i.passes s.cur.cpsr = true →
    let v := val s.cur
    let lanes := statusLanes s.cur.cpsr mask
    (R = false → (lanes &&& 0xFF ≠ 0 → validMode (modeOf v) = true ∧ psrT v = psrT s.cur.cpsr) →
      ∃ t, exec i s = .next t ∧ t.cur.cpsr = (s.cur.cpsr &&& ~~~lanes) ||| (v &&& lanes) ∧
        RegisterFrame [] lanes 4 s t) ∧
    (R = false → lanes &&& 0xFF ≠ 0 → validMode (modeOf v) = false → exec i s = .fault .invalidMode) ∧
    (R = false → lanes &&& 0xFF ≠ 0 → validMode (modeOf v) = true → psrT v ≠ psrT s.cur.cpsr →
      exec i s = .refused .msrChangesT) ∧
    (R = true → ∀ old, s.cur.spsrAt s.cur.bank = some old →
      ∃ t, exec i s = .next t ∧
        t.cur.spsrAt s.cur.bank = some ((old &&& ~~~lanesOf mask) ||| (v &&& lanesOf mask)) ∧
        (∀ j, some j ≠ spsrSlot s.cur.bank → t.cur.spsr[j] = s.cur.spsr[j]) ∧
        t = s.upd (fun k => { k with r15 := k.r15 + 4, spsr := t.cur.spsr }) ∧ SameBytes s t) ∧
    (R = true → s.cur.spsrAt s.cur.bank = none →
      exec i s = .next (s.upd fun k => { k with r15 := k.r15 + 4 }))

/-- MRS after MSR reads the source in the lanes written and the old value in the others; in User mode the
lanes are cut down to the flag byte (42_status_transfer.md R259). -/
def Obligations.MrsAfterMsrReadsBackTheLanes : Prop :=
  ∀ (i : Instr) (mask : BitVec 4) (val : Cpu → Word) (rd : Reg) (s : State),
    msrShape? i = some (false, mask, val) → i.passes s.cur.cpsr = true → rd ≠ 15 →
    (modeOf s.cur.cpsr ≠ modeUser → lanesOf mask &&& 0xFF ≠ 0 →
      validMode (modeOf (val s.cur)) = true ∧ psrT (val s.cur) = psrT s.cur.cpsr) →
    let lanes := if modeOf s.cur.cpsr = modeUser then lanesOf mask &&& 0xFF000000 else lanesOf mask
    ∃ t u, exec i s = .next t ∧ exec (.mrs .al false rd) t = .next u ∧
      u.cur.reg rd = (s.cur.cpsr &&& ~~~lanes) ||| (val s.cur &&& lanes)

/-- NOP changes `R15` only, WFI sets the wait flag besides, any other hint panics (30_encoding.md R142,
42_status_transfer.md R257, R258). -/
def Obligations.HintsDoNothingOrWait : Prop :=
  ∀ (cond : Cond) (s : State), condPass cond s.cur.cpsr = true →
    exec (.nop cond) s = .next (s.upd fun k => { k with r15 := k.r15 + 4 }) ∧
    exec (.wfi cond) s = .next (s.upd fun k => { k with r15 := k.r15 + 4, waiting := true }) ∧
    ∀ imm8, exec (.hintOther cond imm8) s = .fault .unimplementedHint

/-- MUL, MLA and the Thumb MUL write the product modulo `2 ^ 32`; with S they set N and Z and leave C and V
(43_multiply.md R270 to R273, 47_thumb_a.md R439). -/
def Obligations.MultipliesWriteTheProduct : Prop :=
  ∀ (i : Instr) (x : MulShape) (s : State), mulShape? i = some x → i.passes s.cur.cpsr = true →
    (∀ r ∈ x.regs, r ≠ 15) →
    ∃ t, exec i s = .next t ∧ t.cur.reg x.rd = x.value s.cur ∧
      (x.S = true → psrN t.cur.cpsr = (x.value s.cur).msb ∧ psrZ t.cur.cpsr = decide (x.value s.cur = 0)) ∧
      RegisterFrame [s.slotOf x.rd] (if x.S then bitsNZ else 0) x.width s t

/-- The long multiplies write the 64-bit product, accumulated modulo `2 ^ 64`, to `RdLo` and `RdHi`; with S
they set N and Z from all 64 bits (R271, R274 to R277, R283). -/
def Obligations.LongMultipliesWriteBothHalves : Prop :=
  ∀ (i : Instr) (x : LongShape) (s : State), longShape? i = some x → i.passes s.cur.cpsr = true →
    (x.arm9 = true → s.current = .arm9) → (∀ r ∈ x.regs, r ≠ 15) → x.hi ≠ x.lo →
    let p := x.value s.cur
    ∃ t, exec i s = .next t ∧ t.cur.reg x.lo = p.extractLsb' 0 32 ∧ t.cur.reg x.hi = p.extractLsb' 32 32 ∧
      (x.S = true → psrN t.cur.cpsr = p.msb ∧ psrZ t.cur.cpsr = decide (p = 0)) ∧
      RegisterFrame [s.slotOf x.hi, s.slotOf x.lo] (if x.S then bitsNZ else 0) 4 s t

/-- The halfword multiplies write the product, or its wrapped sum with `Rn`; the accumulating ones set Q,
and never clear it, where the signed sum does not fit (R279 to R282, R284). -/
def Obligations.HalfwordMultipliesAccumulateWithQ : Prop :=
  ∀ (i : Instr) (x : HalfMulShape) (s : State), halfMulShape? i = some x → i.passes s.cur.cpsr = true →
    s.current = .arm9 → (∀ r ∈ x.regs, r ≠ 15) →
    let p := x.product s.cur
    (x.acc = none → ∃ t, exec i s = .next t ∧ t.cur.reg x.rd = p ∧ RegisterFrame [s.slotOf x.rd] 0 4 s t) ∧
    (∀ rn, x.acc = some rn → ∃ t, exec i s = .next t ∧ t.cur.reg x.rd = p + s.cur.reg rn ∧
      psrQ t.cur.cpsr = (psrQ s.cur.cpsr ||
        decide (p.toInt + (s.cur.reg rn).toInt < -2 ^ 31 ∨ 2 ^ 31 ≤ p.toInt + (s.cur.reg rn).toInt)) ∧
      RegisterFrame [s.slotOf x.rd] bitQ 4 s t)

/-- What a core cannot execute panics: what exists on the ARM9 core only, on ARM7 (30_encoding.md R141, R153);
an undefined ARM encoding whose condition passes, an NV word other than BLX on ARM9, an undefined Thumb
encoding always (R124, R140, R153). -/
def Obligations.EncodingsTheCoreLacksPanic : Prop :=
  ∀ (i : Instr) (s : State),
    (arm9Only i = true → i.passes s.cur.cpsr = true → s.current = .arm7 →
      exec i s = .fault .undefinedInstruction) ∧
    (undefinedArm i = true → i.passes s.cur.cpsr = true → exec i s = .fault .undefinedInstruction) ∧
    (undefinedNv i = true → s.current = .arm9 → exec i s = .fault .unimplementedNv) ∧
    (undefinedThumbCode i = true → exec i s = .fault .undefinedInstruction)

/-- The register forms of arithmetic, status and branch instructions that the spec refuses stop under their
names (41_data_processing.md R213 to R215, 42_status_transfer.md R252, 43_multiply.md R271, 46_branch_misc.md
R377, R380, R381, R396, 47_thumb_a.md R444, R447). Where two grounds hold of one instruction (a comparison
with both `Rd` and the shift amount in `r15`, a long multiply of `r15` with equal halves) the spec gives no
order, and the one named here is the model's choice (log 19). -/
def Obligations.RefusedRegisterFormsStop : Prop :=
  (∀ i x s, dataShape? i = some x ∨ compareShape? i = some x → i.passes s.cur.cpsr = true →
    x.form.amountInPc = true → exec i s = .refused .shiftAmountR15) ∧
  (∀ i x s, compareShape? i = some x → i.passes s.cur.cpsr = true → x.form.amountInPc = false → x.rd = 15 →
    exec i s = .refused .compareR15) ∧
  (∀ rs s, exec (.tCmpHi rs 15) s = .refused .compareR15) ∧
  (∀ cond R s, condPass cond s.cur.cpsr = true → exec (.mrs cond R 15) s = .refused .mrsR15) ∧
  (∀ i x s, mulShape? i = some x → i.passes s.cur.cpsr = true → (15 : Reg) ∈ x.regs →
    exec i s = .refused .multiplyR15) ∧
  (∀ i x s, longShape? i = some x → i.passes s.cur.cpsr = true → (x.arm9 = true → s.current = .arm9) →
    ((15 : Reg) ∈ x.regs → exec i s = .refused .multiplyR15) ∧
    ((15 : Reg) ∉ x.regs → x.hi = x.lo → exec i s = .refused .multiplySameHiLo)) ∧
  (∀ i x s, halfMulShape? i = some x → i.passes s.cur.cpsr = true → s.current = .arm9 → (15 : Reg) ∈ x.regs →
    exec i s = .refused .multiplyR15) ∧
  (∀ cond rd rm s, condPass cond s.cur.cpsr = true → s.current = .arm9 → rd = 15 ∨ rm = 15 →
    exec (.clz cond rd rm) s = .refused .clzR15) ∧
  (∀ i x s, satShape? i = some x → i.passes s.cur.cpsr = true → s.current = .arm9 →
    x.rn = 15 ∨ x.rd = 15 ∨ x.rm = 15 → exec i s = .refused .saturatingR15) ∧
  (∀ cond s, condPass cond s.cur.cpsr = true → s.current = .arm9 →
    exec (.blxReg cond 15) s = .refused .blxR15) ∧
  (∀ s, s.current = .arm9 → exec (.tBlxReg 15) s = .refused .blxR15)

/-- A load of one register from memory or from an unmapped address: the value in `Rd`, the moved base in
`Rn` where it is written back and is not `Rd`, and nothing else (44_single_transfer.md R300 to R302, R305,
R307, R310, R315, R317, R318, 20_memory.md R72 to R78, R87). -/
def Obligations.LoadsWriteTheLoadedValue : Prop :=
  ∀ (i : Instr) (kind : LoadKind) (x : Transfer) (s : State), loadShape? i = some (kind, x) →
    i.passes s.cur.cpsr = true → x.rd ≠ 15 → x.legal = true → loadable s kind (x.addr s.cur) = true →
    ∃ t, exec i s = .next t ∧ t.cur.reg x.rd = loaded s kind (x.addr s.cur) ∧
      (x.writes = true → x.rn ≠ x.rd → t.cur.reg x.rn = x.moved s.cur) ∧
      RegisterFrame (s.slotOf x.rd :: x.baseSlots s) 0 4 s t

/-- LDR to `r15` branches: on ARM9 a word with bit 0 set selects Thumb state; otherwise the state stays and
the target is a multiple of 4 (44_single_transfer.md R304, R305). -/
def Obligations.LdrToPcInterworksOnArm9 : Prop :=
  ∀ (i : Instr) (x : Transfer) (s : State), loadShape? i = some (.word, x) → i.passes s.cur.cpsr = true →
    x.rd = 15 → x.legal = true → loadable s .word (x.addr s.cur) = true →
    let v := loaded s .word (x.addr s.cur)
    (s.current = .arm9 → v.getLsbD 0 = true → codeAt s true (v &&& ~~~1#32) = true →
      ∃ t, exec i s = .next t ∧ (x.writes = true → t.cur.reg x.rn = x.moved s.cur) ∧
        BranchFrame (x.baseSlots s) (withT s.cur.cpsr true) (v &&& ~~~1#32) s t) ∧
    (s.current = .arm7 ∨ v.getLsbD 0 = false → codeAt s s.cur.thumb (v &&& ~~~3#32) = true →
      ∃ t, exec i s = .next t ∧ (x.writes = true → t.cur.reg x.rn = x.moved s.cur) ∧
        BranchFrame (x.baseSlots s) s.cur.cpsr (v &&& ~~~3#32) s t)

/-- A store of one register to memory, a ROM or an unmapped address writes the bytes of its width at the
address, forced down to the width, from the value before writeback, `A + 12` for `r15`; a ROM and an
unmapped address take nothing (R301 to R303, R306, R308, R310, R316, 20_memory.md R73, R79). -/
def Obligations.StoresWriteTheirBytes : Prop :=
  ∀ (i : Instr) (w : Width) (x : Transfer) (s : State), storeShape? i = some (w, x) →
    s.mem.wf = true → i.passes s.cur.cpsr = true → x.legal = true → dataAt s (x.addr s.cur) w = true →
    ∃ t, exec i s = .next t ∧ (x.writes = true → t.cur.reg x.rn = x.moved s.cur) ∧
      StoreFrame (poked s (x.addr s.cur) w (if x.rd = 15 then s.cur.r15 + 4 else s.cur.reg x.rd)
        s.mem.readByte) (x.baseSlots s) 4 s t

/-- LDRD loads two words without rotation, the writeback between the two loads (R319, R320). -/
def Obligations.LdrdWritesBackBetweenItsLoads : Prop :=
  ∀ (i : Instr) (x : Transfer) (s : State), doubleShape? i = some (true, x) → i.passes s.cur.cpsr = true →
    s.current = .arm9 → x.rd.getLsbD 0 = false → x.rd ≠ 14 → x.legal = true →
    dataAt s (x.addr s.cur) .word = true → dataAt s (alignTo .word (x.addr s.cur) + 4) .word = true →
    ∃ t, exec i s = .next t ∧
      t.cur.reg x.rd = (if x.writes = true ∧ x.rn = x.rd then x.moved s.cur else peek s (x.addr s.cur) .word) ∧
      t.cur.reg (x.rd + 1) = peek s (alignTo .word (x.addr s.cur) + 4) .word ∧
      (x.writes = true → x.rn ≠ x.rd + 1 → t.cur.reg x.rn = x.moved s.cur) ∧
      RegisterFrame ([s.slotOf x.rd, s.slotOf (x.rd + 1)] ++ x.baseSlots s) 0 4 s t

/-- STRD stores two words, the lower address first, both from before the writeback (R319, R321). -/
def Obligations.StrdStoresTwoWords : Prop :=
  ∀ (i : Instr) (x : Transfer) (s : State), doubleShape? i = some (false, x) → i.passes s.cur.cpsr = true →
    s.mem.wf = true → s.current = .arm9 → x.rd.getLsbD 0 = false → x.rd ≠ 14 → x.legal = true →
    dataAt s (x.addr s.cur) .word = true → dataAt s (alignTo .word (x.addr s.cur) + 4) .word = true →
    ∃ t, exec i s = .next t ∧ (x.writes = true → t.cur.reg x.rn = x.moved s.cur) ∧
      StoreFrame (pokedAll s [(x.addr s.cur, s.cur.reg x.rd),
        (alignTo .word (x.addr s.cur) + 4, s.cur.reg (x.rd + 1))] s.mem.readByte) (x.baseSlots s) 4 s t

/-- SWP and SWPB read, write and then load `Rd`: a word rotated as for LDR, a byte zero-extended
(R329 to R331). -/
def Obligations.SwapsExchangeWithMemory : Prop :=
  ∀ (cond : Cond) (rn rd rm : Reg) (s : State), condPass cond s.cur.cpsr = true →
    s.mem.wf = true → rn ≠ 15 → rd ≠ 15 → rm ≠ 15 →
    (dataAt s (s.cur.reg rn) .word = true →
      ∃ t, exec (.swp cond rn rd rm) s = .next t ∧ t.cur.reg rd = loaded s .word (s.cur.reg rn) ∧
        StoreFrame (poked s (s.cur.reg rn) .word (s.cur.reg rm) s.mem.readByte) [s.slotOf rd] 4 s t) ∧
    (dataAt s (s.cur.reg rn) .byte = true →
      ∃ t, exec (.swpb cond rn rd rm) s = .next t ∧ t.cur.reg rd = loaded s .byte (s.cur.reg rn) ∧
        StoreFrame (poked s (s.cur.reg rn) .byte (s.cur.reg rm) s.mem.readByte) [s.slotOf rd] 4 s t)

/-- The transfers the spec refuses or panics on stop under their names (R302, R304, R310, R319, R329,
45_block_transfer.md R340, R343, R346). Where several grounds hold of one instruction (writeback to `r15` with
`r15` the offset, an odd or `r14` double with one of these, an empty list with base `r15` on ARM9 or with the
S bit) the spec gives no order, and the one named here is the model's choice (log 19). -/
def Obligations.RefusedTransfersStop : Prop :=
  (∀ i kind x s, loadShape? i = some (kind, x) → i.passes s.cur.cpsr = true →
    (x.writes = true → x.rn = 15 → exec i s = .refused .writebackR15) ∧
    (¬ (x.writes = true ∧ x.rn = 15) → x.off.inPc = true → exec i s = .refused .offsetR15) ∧
    (x.legal = true → x.rd = 15 → kind ≠ .word → exec i s = .refused .narrowLoadR15)) ∧
  (∀ i w x s, storeShape? i = some (w, x) → i.passes s.cur.cpsr = true →
    (x.writes = true → x.rn = 15 → exec i s = .refused .writebackR15) ∧
    (¬ (x.writes = true ∧ x.rn = 15) → x.off.inPc = true → exec i s = .refused .offsetR15)) ∧
  (∀ i l x s, doubleShape? i = some (l, x) → i.passes s.cur.cpsr = true → s.current = .arm9 →
    (x.rd.getLsbD 0 = true → exec i s = .fault .undefinedInstruction) ∧
    (x.rd = 14 → exec i s = .refused .doubleR14) ∧
    (x.rd.getLsbD 0 = false → x.rd ≠ 14 → x.writes = true → x.rn = 15 →
      exec i s = .refused .writebackR15) ∧
    (x.rd.getLsbD 0 = false → x.rd ≠ 14 → ¬ (x.writes = true ∧ x.rn = 15) → x.off.inPc = true →
      exec i s = .refused .offsetR15)) ∧
  (∀ cond rn rd rm s, condPass cond s.cur.cpsr = true → rn = 15 ∨ rd = 15 ∨ rm = 15 →
    exec (.swp cond rn rd rm) s = .refused .swapR15 ∧ exec (.swpb cond rn rd rm) s = .refused .swapR15) ∧
  (∀ i b s, blockLoad? i = some b ∨ blockStore? i = some b → i.passes s.cur.cpsr = true →
    (b.list = 0 → s.current = .arm9 → exec i s = .fault .emptyRegisterList) ∧
    (b.list = 0 → s.current = .arm7 → b.S = true → exec i s = .refused .blockEmptyUser) ∧
    (b.list = 0 → s.current = .arm7 → b.S = false → b.rn = 15 → exec i s = .refused .blockBaseR15) ∧
    (b.list ≠ 0 → b.rn = 15 → exec i s = .refused .blockBaseR15)) ∧
  (∀ i b s, blockLoad? i = some b → i.passes s.cur.cpsr = true → b.list ≠ 0 → b.rn ≠ 15 →
    b.user true = true → b.W = true → exec i s = .refused .blockUserWriteback) ∧
  (∀ i b s, blockStore? i = some b → i.passes s.cur.cpsr = true → b.list ≠ 0 → b.rn ≠ 15 →
    b.S = true → b.W = true → exec i s = .refused .blockUserWriteback)

/-- LDM, POP and LDMIA without `r15` load ascending registers from ascending words, unrotated, to the
current or the User bank, and write the base back by the rule of the core (R341, R342, R345, R346, R350,
48_thumb_b.md R475, R478). -/
def Obligations.BlockLoadsFillTheList : Prop :=
  ∀ (i : Instr) (b : Block) (s : State), blockLoad? i = some b → i.passes s.cur.cpsr = true →
    b.legal true = true → b.list.getLsbD 15 = false → b.reachable s = true →
    ∃ t, exec i s = .next t ∧ b.Loaded s t ∧
      RegisterFrame (b.loadSlots s) 0 (if b.thumb then 2 else 4) s t

/-- A block load with `r15`: the list and the base as above, then LDM branches as LDR to `r15` does, LDM
with the S bit returns from an exception, and POP takes bit 0 on ARM9 only (R345, R347, R348, R350,
48_thumb_b.md R475). -/
def Obligations.BlockLoadsOfPcBranchOrReturn : Prop :=
  ∀ (i : Instr) (b : Block) (s : State), blockLoad? i = some b → i.passes s.cur.cpsr = true →
    b.legal true = true → b.list.getLsbD 15 = true → b.reachable s = true →
    let v := peek s (b.addr s.cur (b.regs.length - 1)) .word
    (b.S = false → s.current = .arm9 → v.getLsbD 0 = true → codeAt s true (v &&& ~~~1#32) = true →
      ∃ t, exec i s = .next t ∧ b.Loaded s t ∧
        BranchFrame (b.loadSlots s) (withT s.cur.cpsr true) (v &&& ~~~1#32) s t) ∧
    (b.S = false → b.thumb = false → s.current = .arm7 ∨ v.getLsbD 0 = false →
      codeAt s s.cur.thumb (v &&& ~~~3#32) = true →
      ∃ t, exec i s = .next t ∧ b.Loaded s t ∧
        BranchFrame (b.loadSlots s) s.cur.cpsr (v &&& ~~~3#32) s t) ∧
    (b.thumb = true → s.current = .arm9 → v.getLsbD 0 = false → codeAt s false (v &&& ~~~1#32) = true →
      ∃ t, exec i s = .next t ∧ b.Loaded s t ∧
        BranchFrame (b.loadSlots s) (withT s.cur.cpsr false) (v &&& ~~~1#32) s t) ∧
    (b.thumb = true → s.current = .arm7 → codeAt s s.cur.thumb (v &&& ~~~1#32) = true →
      ∃ t, exec i s = .next t ∧ b.Loaded s t ∧
        BranchFrame (b.loadSlots s) s.cur.cpsr (v &&& ~~~1#32) s t) ∧
    (b.S = true → ∀ spsr, s.cur.spsrAt s.cur.bank = some spsr →
      (validMode (modeOf spsr) = true → codeAt s (psrT spsr) v = true →
        ∃ t, exec i s = .next t ∧ b.Loaded s t ∧ BranchFrame (b.loadSlots s) spsr v s t) ∧
      (validMode (modeOf spsr) = false → exec i s = .fault .invalidMode)) ∧
    (b.S = true → s.cur.spsrAt s.cur.bank = none → exec i s = .refused .spsrInUserMode)

/-- STM, PUSH and STMIA store ascending registers at ascending words, `r15` as its reading plus one width,
the base by the rule of the core, User-bank registers with the S bit, and write the base back
(R341, R342, R344, R346, R351, 48_thumb_b.md R474, R477). -/
def Obligations.BlockStoresWriteTheList : Prop :=
  ∀ (i : Instr) (b : Block) (s : State), blockStore? i = some b → i.passes s.cur.cpsr = true →
    s.mem.wf = true → b.legal false = true → b.reachable s = true → s.cur.thumb = b.thumb →
    ∃ t, exec i s = .next t ∧ (b.W = true → t.cur.reg b.rn = b.final s.cur) ∧
      StoreFrame (pokedAll s (b.writes s) s.mem.readByte) (if b.W then [s.slotOf b.rn] else [])
        (if b.thumb then 2 else 4) s t

/-- An empty list on ARM7 transfers `r15` alone and moves the base by 64 (R343, 48_thumb_b.md R479). -/
def Obligations.EmptyListMovesPcOnArm7 : Prop :=
  ∀ (i : Instr) (b : Block) (s : State), i.passes s.cur.cpsr = true → b.list = 0 → b.S = false → b.rn ≠ 15 →
    s.current = .arm7 → s.cur.thumb = b.thumb →
    let moved := if b.U then s.cur.reg b.rn + 64 else s.cur.reg b.rn - 64
    let addr := (if b.U then s.cur.reg b.rn else s.cur.reg b.rn - 64) + (if b.P == b.U then 4 else 0)
    let slots := if b.W then [s.slotOf b.rn] else []
    dataAt s addr .word = true →
    (blockLoad? i = some b →
      let target := peek s addr .word &&& (if b.thumb then ~~~1#32 else ~~~3#32)
      codeAt s b.thumb target = true →
      ∃ t, exec i s = .next t ∧ (b.W = true → t.cur.reg b.rn = moved) ∧
        BranchFrame slots s.cur.cpsr target s t) ∧
    (blockStore? i = some b → s.mem.wf = true →
      ∃ t, exec i s = .next t ∧ (b.W = true → t.cur.reg b.rn = moved) ∧
        StoreFrame (poked s addr .word (s.cur.r15 + (if b.thumb then 2 else 4)) s.mem.readByte) slots
          (if b.thumb then 2 else 4) s t)

/-- The ARM branches: B and BL to `A + 8` plus four times the signed field, BX and BLX to the register with
bit 0 selecting the state, BLX immediate to Thumb state with `H` as bit 1; the linking ones write `A + 4` to
`r14` (46_branch_misc.md R370, R372, R373, R376 to R378). -/
def Obligations.ArmBranchesReloadFromTheirTarget : Prop :=
  (∀ (cond : Cond) (imm24 : BitVec 24) (s : State), condPass cond s.cur.cpsr = true →
    let target := s.cur.r15 + imm24.signExtend 32 * 4
    codeAt s s.cur.thumb target = true →
    (∃ t, exec (.b cond imm24) s = .next t ∧ BranchFrame [] s.cur.cpsr target s t) ∧
    (∃ t, exec (.bl cond imm24) s = .next t ∧ t.cur.reg 14 = s.cur.r15 - 4 ∧
      BranchFrame [s.slotOf 14] s.cur.cpsr target s t)) ∧
  (∀ (cond : Cond) (rm : Reg) (s : State), condPass cond s.cur.cpsr = true →
    let v := s.cur.reg rm
    codeAt s (v.getLsbD 0) (v &&& ~~~1#32) = true →
    (∃ t, exec (.bx cond rm) s = .next t ∧
      BranchFrame [] (withT s.cur.cpsr (v.getLsbD 0)) (v &&& ~~~1#32) s t) ∧
    (s.current = .arm9 → rm ≠ 15 → ∃ t, exec (.blxReg cond rm) s = .next t ∧ t.cur.reg 14 = s.cur.r15 - 4 ∧
      BranchFrame [s.slotOf 14] (withT s.cur.cpsr (v.getLsbD 0)) (v &&& ~~~1#32) s t)) ∧
  (∀ (H : Bool) (imm24 : BitVec 24) (s : State), s.current = .arm9 →
    let target := s.cur.r15 + imm24.signExtend 32 * 4 + (if H then 2 else 0)
    codeAt s true target = true →
    ∃ t, exec (.blxImm H imm24) s = .next t ∧ t.cur.reg 14 = s.cur.r15 - 4 ∧
      BranchFrame [s.slotOf 14] (withT s.cur.cpsr true) target s t)

/-- CLZ counts the zero bits above the highest one; 32 of zero (R380). -/
def Obligations.ClzCountsLeadingZeros : Prop :=
  ∀ (cond : Cond) (rd rm : Reg) (s : State), condPass cond s.cur.cpsr = true → s.current = .arm9 →
    rd ≠ 15 → rm ≠ 15 →
    ∃ t, exec (.clz cond rd rm) s = .next t ∧ (t.cur.reg rd).toNat ≤ 32 ∧
      (s.cur.reg rm).toNat < 2 ^ (32 - (t.cur.reg rd).toNat) ∧
      ((t.cur.reg rd).toNat < 32 → 2 ^ (31 - (t.cur.reg rd).toNat) ≤ (s.cur.reg rm).toNat) ∧
      RegisterFrame [s.slotOf rd] 0 4 s t

/-- QADD, QSUB, QDADD, QDSUB write the clamped signed result and set Q, never clear it, where anything was
clamped, the doubling included (R381 to R385). -/
def Obligations.SaturatingArithmeticClampsAndSetsQ : Prop :=
  ∀ (i : Instr) (x : SatShape) (s : State), satShape? i = some x → i.passes s.cur.cpsr = true →
    s.current = .arm9 → x.rn ≠ 15 → x.rd ≠ 15 → x.rm ≠ 15 →
    let m := (s.cur.reg x.rm).toInt
    let n := (s.cur.reg x.rn).toInt
    ∃ t, exec i s = .next t ∧ (t.cur.reg x.rd).toInt = x.value m n ∧
      psrQ t.cur.cpsr = (psrQ s.cur.cpsr || x.clamped m n) ∧ RegisterFrame [s.slotOf x.rd] bitQ 4 s t

/-- Taking an exception into a mode that has an SPSR does what R504 says, from the base of R503, and nothing
else. -/
def Obligations.ExceptionEntrySavesAndBranches : Prop :=
  ∀ (mode : BitVec 5) (offset lr : Word) (s : State), bankOf mode ≠ .usr →
    codeAt s false (exceptionBase s s.current + offset) = true →
    ∃ t, enterException mode offset lr s = .next t ∧ Entered mode offset lr s t

/-- SWI, in ARM and in Thumb state, enters Supervisor mode at offset 0x08 with the address of the next
instruction in `r14` (60_exceptions.md R505, 46_branch_misc.md R390, 48_thumb_b.md R482). -/
def Obligations.SwiEntersSupervisor : Prop :=
  ∀ (i : Instr) (s : State), isSwi i = true → i.passes s.cur.cpsr = true →
    codeAt s false (exceptionBase s s.current + 0x08) = true →
    ∃ t, exec i s = .next t ∧
      Entered modeSupervisor 0x08 (if s.cur.thumb then s.cur.r15 - 2 else s.cur.r15 - 4) s t

/-- MCR and MRC with coprocessor 15 on ARM9 reach the port: the control register and the two TCM registers
are written whole and read back, every other register ignores writes and reads as a free value; any other
coprocessor panics; MRC to `r15` is refused (46_branch_misc.md R394 to R397, 60_exceptions.md R590 with the
default mapping, log 11). -/
def Obligations.CoprocessorTransfersReachCp15 : Prop :=
  ∀ (cond : Cond) (opc1 opc2 : BitVec 3) (crn crm : BitVec 4) (rd : Reg) (s : State),
    condPass cond s.cur.cpsr = true → s.current = .arm9 →
    (let s1 := s.upd fun k => { k with r15 := k.r15 + 4 }
     exec (.mcr cond 0 1 rd 15 0 0) s = .next { s1 with cp15 := { s.cp15 with control := s.cur.reg rd } } ∧
     exec (.mcr cond 0 9 rd 15 0 1) s = .next { s1 with cp15 := { s.cp15 with dtcm := s.cur.reg rd } } ∧
     exec (.mcr cond 0 9 rd 15 1 1) s = .next { s1 with cp15 := { s.cp15 with itcm := s.cur.reg rd } } ∧
     (¬ (opc1 = 0 ∧ ((crn = 1 ∧ crm = 0 ∧ opc2 = 0) ∨ (crn = 9 ∧ crm = 1 ∧ (opc2 = 0 ∨ opc2 = 1)))) →
       exec (.mcr cond opc1 crn rd 15 opc2 crm) s = .next s1)) ∧
    (rd ≠ 15 →
      (∃ t, exec (.mrc cond 0 1 rd 15 0 0) s = .next t ∧ t.cur.reg rd = s.cp15.control ∧
        RegisterFrame [s.slotOf rd] 0 4 s t) ∧
      (∃ t, exec (.mrc cond 0 9 rd 15 0 1) s = .next t ∧ t.cur.reg rd = s.cp15.dtcm ∧
        RegisterFrame [s.slotOf rd] 0 4 s t) ∧
      (∃ t, exec (.mrc cond 0 9 rd 15 1 1) s = .next t ∧ t.cur.reg rd = s.cp15.itcm ∧
        RegisterFrame [s.slotOf rd] 0 4 s t) ∧
      (¬ (opc1 = 0 ∧ ((crn = 1 ∧ crm = 0 ∧ opc2 = 0) ∨ (crn = 9 ∧ crm = 1 ∧ (opc2 = 0 ∨ opc2 = 1)))) →
        ∃ t, exec (.mrc cond opc1 crn rd 15 opc2 crm) s = .next t ∧ t.cur.reg rd = Config.freeWord s.draws ∧
          RegisterFrame [s.slotOf rd] 0 4 { s with draws := s.draws + 1 } t)) ∧
    exec (.mrc cond opc1 crn 15 15 opc2 crm) s = .refused .mrcR15 ∧
    (∀ cp, cp ≠ 15 → exec (.mcr cond opc1 crn rd cp opc2 crm) s = .fault .unknownCoprocessor ∧
      exec (.mrc cond opc1 crn rd cp opc2 crm) s = .fault .unknownCoprocessor)

/-! Thumb instructions. -/

/-- Thumb formats 1 to 4: the result, the flags the operation writes, and nothing else
(47_thumb_a.md R410 to R441). -/
def Obligations.ThumbOperationsWriteResultAndFlags : Prop :=
  ∀ (i : Instr) (x : ThumbShape) (s : State), thumbShape? i = some x →
    let a := x.first s.cur
    let o := x.second s.cur
    ∃ t, exec i s = .next t ∧ FlagsOf x.op a o.value o.carry s.cur.cpsr t.cur.cpsr ∧
      (∀ rd, x.rd = some rd → t.cur.reg (low rd) = x.op.value a o.value (psrC s.cur.cpsr)) ∧
      RegisterFrame (match x.rd with
        | some rd => [s.slotOf (low rd)]
        | none => []) x.op.bits 2 s t

/-- Format 5 and the address forms: ADD and MOV on high registers write no flag and branch in Thumb state
where `Rd` is `r15`, CMP writes flags only; ADD from PC and SP, the stack adjust and the first half of BL
write one register (47_thumb_a.md R442 to R445, 48_thumb_b.md R470 to R472, R492). -/
def Obligations.ThumbHighAndAddressFormsWriteOneRegister : Prop :=
  ∀ s : State,
    (∀ rs rd : Reg, rd ≠ 15 →
      (∃ t, exec (.tAddHi rs rd) s = .next t ∧ t.cur.reg rd = s.cur.reg rd + s.cur.reg rs ∧
        RegisterFrame [s.slotOf rd] 0 2 s t) ∧
      (∃ t, exec (.tMovHi rs rd) s = .next t ∧ t.cur.reg rd = s.cur.reg rs ∧
        RegisterFrame [s.slotOf rd] 0 2 s t) ∧
      (∃ t, exec (.tCmpHi rs rd) s = .next t ∧
        FlagsOf .sub (s.cur.reg rd) (s.cur.reg rs) false s.cur.cpsr t.cur.cpsr ∧
        RegisterFrame [] bitsNZCV 2 s t)) ∧
    (∀ rs : Reg,
      (codeAt s s.cur.thumb ((s.cur.r15 + s.cur.reg rs) &&& ~~~1#32) = true →
        ∃ t, exec (.tAddHi rs 15) s = .next t ∧
          BranchFrame [] s.cur.cpsr ((s.cur.r15 + s.cur.reg rs) &&& ~~~1#32) s t) ∧
      (codeAt s s.cur.thumb (s.cur.reg rs &&& ~~~1#32) = true →
        ∃ t, exec (.tMovHi rs 15) s = .next t ∧
          BranchFrame [] s.cur.cpsr (s.cur.reg rs &&& ~~~1#32) s t)) ∧
    (∀ (rd : LowReg) (imm8 : BitVec 8),
      (∃ t, exec (.tAddPc rd imm8) s = .next t ∧
        t.cur.reg (low rd) = (s.cur.r15 &&& ~~~2#32) + imm8.setWidth 32 * 4 ∧
        RegisterFrame [s.slotOf (low rd)] 0 2 s t) ∧
      (∃ t, exec (.tAddSp rd imm8) s = .next t ∧
        t.cur.reg (low rd) = s.cur.reg 13 + imm8.setWidth 32 * 4 ∧
        RegisterFrame [s.slotOf (low rd)] 0 2 s t)) ∧
    (∀ (sub : Bool) (imm7 : BitVec 7),
      ∃ t, exec (.tAdjustSp sub imm7) s = .next t ∧
        t.cur.reg 13 = (if sub then s.cur.reg 13 - imm7.setWidth 32 * 4 else s.cur.reg 13 + imm7.setWidth 32 * 4) ∧
        RegisterFrame [s.slotOf 13] 0 2 s t) ∧
    (∀ imm11 : BitVec 11,
      ∃ t, exec (.tBlFirst imm11) s = .next t ∧ t.cur.reg 14 = s.cur.r15 + imm11.signExtend 32 * 4096 ∧
        RegisterFrame [s.slotOf 14] 0 2 s t)

/-- The Thumb loads and stores of one register at a plain address (47_thumb_a.md R449 to R458, 48_thumb_b.md
R460 to R468). -/
def Obligations.ThumbLoadsAndStoresTransferOneRegister : Prop :=
  (∀ (i : Instr) (kind : LoadKind) (addr : Cpu → Word) (rd : LowReg) (s : State),
    thumbLoadShape? i = some (kind, addr, rd) → loadable s kind (addr s.cur) = true →
    ∃ t, exec i s = .next t ∧ t.cur.reg (low rd) = loaded s kind (addr s.cur) ∧
      RegisterFrame [s.slotOf (low rd)] 0 2 s t) ∧
  (∀ (i : Instr) (w : Width) (addr : Cpu → Word) (rd : LowReg) (s : State),
    thumbStoreShape? i = some (w, addr, rd) → s.mem.wf = true → dataAt s (addr s.cur) w = true →
    ∃ t, exec i s = .next t ∧
      StoreFrame (poked s (addr s.cur) w (s.cur.reg (low rd)) s.mem.readByte) [] 2 s t)

/-- The Thumb branches: Bcc where its condition passes, B, the second halves of BL and BLX, BX and BLX
through a register; the linking ones write the next address with bit 0 set to `r14` (47_thumb_a.md R446,
R447, 48_thumb_b.md R480, R484, R493, R494). -/
def Obligations.ThumbBranchesReloadFromTheirTarget : Prop :=
  (∀ (i : Instr) (cond : Cond) (imm8 : BitVec 8) (s : State), thumbBranch? i = some (cond, imm8) →
    (condPass cond s.cur.cpsr = true → codeAt s s.cur.thumb (s.cur.r15 + imm8.signExtend 32 * 2) = true →
      ∃ t, exec i s = .next t ∧ BranchFrame [] s.cur.cpsr (s.cur.r15 + imm8.signExtend 32 * 2) s t) ∧
    (condPass cond s.cur.cpsr = false →
      exec i s = .next (s.upd fun k => { k with r15 := k.r15 + 2 }))) ∧
  (∀ (imm11 : BitVec 11) (s : State),
    let target := s.cur.r15 + imm11.signExtend 32 * 2
    codeAt s s.cur.thumb target = true →
    ∃ t, exec (.tB imm11) s = .next t ∧ BranchFrame [] s.cur.cpsr target s t) ∧
  (∀ (imm11 : BitVec 11) (s : State),
    let target := s.cur.reg 14 + imm11.setWidth 32 * 2
    (codeAt s s.cur.thumb (target &&& ~~~1#32) = true →
      ∃ t, exec (.tBlSecond imm11) s = .next t ∧ t.cur.reg 14 = (s.cur.r15 - 2) ||| 1 ∧
        BranchFrame [s.slotOf 14] s.cur.cpsr (target &&& ~~~1#32) s t) ∧
    (s.current = .arm9 → codeAt s false (target &&& ~~~3#32) = true →
      ∃ t, exec (.tBlxSecond imm11) s = .next t ∧ t.cur.reg 14 = (s.cur.r15 - 2) ||| 1 ∧
        BranchFrame [s.slotOf 14] (withT s.cur.cpsr false) (target &&& ~~~3#32) s t)) ∧
  (∀ (rs : Reg) (s : State),
    let v := s.cur.reg rs
    codeAt s (v.getLsbD 0) (v &&& ~~~1#32) = true →
    (∃ t, exec (.tBx rs) s = .next t ∧
      BranchFrame [] (withT s.cur.cpsr (v.getLsbD 0)) (v &&& ~~~1#32) s t) ∧
    (s.current = .arm9 → rs ≠ 15 →
      ∃ t, exec (.tBlxReg rs) s = .next t ∧ t.cur.reg 14 = (s.cur.r15 - 2) ||| 1 ∧
        BranchFrame [s.slotOf 14] (withT s.cur.cpsr (v.getLsbD 0)) (v &&& ~~~1#32) s t))

/-! Devices and the bus. -/

/-- A load or a store of one register, at any address: it makes one data access of its width, at a plain
address, at a register of the I/O window (one `RegRead` or `RegWrite` whatever the width, through the lanes of
the access) or at an external device (a free value of the width, and the acts of the agents); the rest is as
at a plain address, LDR to `r15` and the Thumb forms included (20_memory.md R72, R73, R76 to R78, R85, R88, R89,
R91, 44_single_transfer.md R302, R304). That the agents act as the tape says is the model's choice (log 6). -/
def Obligations.DeviceAccessesReachTheirRegister : Prop :=
  (∀ (i : Instr) (kind : LoadKind) (x : Transfer) (s s1 : State) (v : Word), loadShape? i = some (kind, x) →
    i.passes s.cur.cpsr = true → x.legal = true →
    ReadsAs s (x.addr s.cur) (kind.width s.current (x.addr s.cur)) v s1 →
    let r := kind.value s.current (x.addr s.cur) v
    (x.rd ≠ 15 → ∃ t, exec i s = .next t ∧ t.cur.reg x.rd = r ∧
      (x.writes = true → x.rn ≠ x.rd → t.cur.reg x.rn = x.moved s.cur) ∧
      RegisterFrame (s.slotOf x.rd :: x.baseSlots s) 0 4 s1 t) ∧
    (x.rd = 15 → kind = .word →
      (s.current = .arm9 → r.getLsbD 0 = true → codeAt s1 true (r &&& ~~~1#32) = true →
        ∃ t, exec i s = .next t ∧ (x.writes = true → t.cur.reg x.rn = x.moved s.cur) ∧
          BranchFrame (x.baseSlots s) (withT s.cur.cpsr true) (r &&& ~~~1#32) s1 t) ∧
      (s.current = .arm7 ∨ r.getLsbD 0 = false → codeAt s1 s.cur.thumb (r &&& ~~~3#32) = true →
        ∃ t, exec i s = .next t ∧ (x.writes = true → t.cur.reg x.rn = x.moved s.cur) ∧
          BranchFrame (x.baseSlots s) s.cur.cpsr (r &&& ~~~3#32) s1 t))) ∧
  (∀ (i : Instr) (w : Width) (x : Transfer) (s s1 : State), storeShape? i = some (w, x) →
    i.passes s.cur.cpsr = true → x.legal = true →
    WritesAs s (x.addr s.cur) w (if x.rd = 15 then s.cur.r15 + 4 else s.cur.reg x.rd) s1 →
    ∃ t, exec i s = .next t ∧ (x.writes = true → t.cur.reg x.rn = x.moved s.cur) ∧
      RegisterFrame (x.baseSlots s) 0 4 s1 t) ∧
  (∀ (i : Instr) (kind : LoadKind) (addr : Cpu → Word) (rd : LowReg) (s s1 : State) (v : Word),
    thumbLoadShape? i = some (kind, addr, rd) →
    ReadsAs s (addr s.cur) (kind.width s.current (addr s.cur)) v s1 →
    ∃ t, exec i s = .next t ∧ t.cur.reg (low rd) = kind.value s.current (addr s.cur) v ∧
      RegisterFrame [s.slotOf (low rd)] 0 2 s1 t) ∧
  (∀ (i : Instr) (w : Width) (addr : Cpu → Word) (rd : LowReg) (s s1 : State),
    thumbStoreShape? i = some (w, addr, rd) → WritesAs s (addr s.cur) w (s.cur.reg (low rd)) s1 →
    ∃ t, exec i s = .next t ∧ RegisterFrame [] 0 2 s1 t)

/-- A transfer of several accesses makes them one after the other, at any addresses, each as a plain address, a
register or an external device answers it: LDRD and STRD two words, SWP and SWPB a read and a write, LDM, STM,
PUSH, POP, LDMIA and STMIA a word for each register, an empty list on ARM7 the one of `r15`; registers, base
and branch are as at plain addresses (20_memory.md R79, R85, R88, R91, 44_single_transfer.md R320, R321, R329 to
R331, 45_block_transfer.md R343, R347, R350, R351). That the agents act as the tape says is the model's choice
(log 6). -/
def Obligations.MultipleAccessesReachTheirDevices : Prop :=
  (∀ (i : Instr) (x : Transfer) (s : State) (load : Bool), doubleShape? i = some (load, x) →
    i.passes s.cur.cpsr = true → s.current = .arm9 → x.rd.getLsbD 0 = false → x.rd ≠ 14 → x.legal = true →
    (load = true → ∀ s1 s2 v0 v1, ReadsAs s (x.addr s.cur) .word v0 s1 →
      ReadsAs s1 (alignTo .word (x.addr s.cur) + 4) .word v1 s2 →
      ∃ t, exec i s = .next t ∧
        t.cur.reg x.rd = (if x.writes = true ∧ x.rn = x.rd then x.moved s.cur else v0) ∧
        t.cur.reg (x.rd + 1) = v1 ∧
        (x.writes = true → x.rn ≠ x.rd + 1 → t.cur.reg x.rn = x.moved s.cur) ∧
        RegisterFrame ([s.slotOf x.rd, s.slotOf (x.rd + 1)] ++ x.baseSlots s) 0 4 s2 t) ∧
    (load = false → ∀ s1, WritesAll s [(x.addr s.cur, s.cur.reg x.rd),
        (alignTo .word (x.addr s.cur) + 4, s.cur.reg (x.rd + 1))] s1 →
      ∃ t, exec i s = .next t ∧ (x.writes = true → t.cur.reg x.rn = x.moved s.cur) ∧
        RegisterFrame (x.baseSlots s) 0 4 s1 t)) ∧
  (∀ (cond : Cond) (rn rd rm : Reg) (s s1 s2 : State) (v : Word), condPass cond s.cur.cpsr = true →
    rn ≠ 15 → rd ≠ 15 → rm ≠ 15 →
    (ReadsAs s (s.cur.reg rn) .word v s1 → WritesAs s1 (s.cur.reg rn) .word (s.cur.reg rm) s2 →
      ∃ t, exec (.swp cond rn rd rm) s = .next t ∧
        t.cur.reg rd = LoadKind.word.value s.current (s.cur.reg rn) v ∧
        RegisterFrame [s.slotOf rd] 0 4 s2 t) ∧
    (ReadsAs s (s.cur.reg rn) .byte v s1 → WritesAs s1 (s.cur.reg rn) .byte (s.cur.reg rm) s2 →
      ∃ t, exec (.swpb cond rn rd rm) s = .next t ∧ t.cur.reg rd = v ∧
        RegisterFrame [s.slotOf rd] 0 4 s2 t)) ∧
  (∀ (i : Instr) (b : Block) (s s1 : State) (vs : List Word), blockLoad? i = some b →
    i.passes s.cur.cpsr = true → b.legal true = true → ReadsAll s (b.addrs s) vs s1 →
    (b.list.getLsbD 15 = false → ∃ t, exec i s = .next t ∧ b.LoadedWith vs s t ∧
      RegisterFrame (b.loadSlots s) 0 (if b.thumb then 2 else 4) s1 t) ∧
    (b.list.getLsbD 15 = true → ∀ v, vs.getLast? = some v →
      (∀ psr target, b.landing s v = some (psr, target) → codeAt s1 (psrT psr) target = true →
        ∃ t, exec i s = .next t ∧ b.LoadedWith vs s t ∧ BranchFrame (b.loadSlots s) psr target s1 t) ∧
      (b.S = true → s.cur.spsrAt s.cur.bank = none → exec i s = .refused .spsrInUserMode) ∧
      (b.S = true → ∀ psr, s.cur.spsrAt s.cur.bank = some psr → validMode (modeOf psr) = false →
        exec i s = .fault .invalidMode))) ∧
  (∀ (i : Instr) (b : Block) (s s1 : State), blockStore? i = some b → i.passes s.cur.cpsr = true →
    b.legal false = true → s.cur.thumb = b.thumb → WritesAll s (b.writes s) s1 →
    ∃ t, exec i s = .next t ∧ (b.W = true → t.cur.reg b.rn = b.final s.cur) ∧
      RegisterFrame (if b.W then [s.slotOf b.rn] else []) 0 (if b.thumb then 2 else 4) s1 t) ∧
  (∀ (i : Instr) (b : Block) (s s1 : State), i.passes s.cur.cpsr = true → b.list = 0 → b.S = false →
    b.rn ≠ 15 → s.current = .arm7 → s.cur.thumb = b.thumb →
    let moved := if b.U then s.cur.reg b.rn + 64 else s.cur.reg b.rn - 64
    let addr := (if b.U then s.cur.reg b.rn else s.cur.reg b.rn - 64) + (if b.P == b.U then 4 else 0)
    let slots := if b.W then [s.slotOf b.rn] else []
    (blockLoad? i = some b → ∀ v, ReadsAs s addr .word v s1 →
      let target := v &&& (if b.thumb then ~~~1#32 else ~~~3#32)
      codeAt s1 b.thumb target = true →
      ∃ t, exec i s = .next t ∧ (b.W = true → t.cur.reg b.rn = moved) ∧
        BranchFrame slots s.cur.cpsr target s1 t) ∧
    (blockStore? i = some b → WritesAs s addr .word (s.cur.r15 + (if b.thumb then 2 else 4)) s1 →
      ∃ t, exec i s = .next t ∧ (b.W = true → t.cur.reg b.rn = moved) ∧
        RegisterFrame slots 0 (if b.thumb then 2 else 4) s1 t))

/-- The IPC queue is first-in first-out: words pushed by a core onto its empty queue, at most 16 of them,
are popped by the peer in order, and leave the queue empty and no error; a push onto a full queue or a pop of
an empty one sets the error bit of the core that did it and changes nothing else; a core whose FIFO is not
enabled is refused; IPCFIFOSEND reads 0 and IPCFIFORECV ignores writes. IPCFIFOCNT shows both queues as empty or
full, the two interrupt enables, the error and the enable bit, and no other bit; a write sets the enables of its
driven lanes, discards the core's own queue by bit 3 and acknowledges the error by bit 14, and changes nothing
else but interrupt requests (60_exceptions.md R540 to R550). -/
def Obligations.IpcQueuesAreFirstInFirstOut : Prop :=
  ∀ (c : CoreId) (s : State),
    (∀ ws : List Word, (s.ipc.get c).en = true → (s.ipc.get c.peer).en = true → (s.ipc.get c).q = [] →
      ws.length ≤ 16 →
      ∃ t u, pushAll c ws s = .next t ∧ (t.ipc.get c).q = ws ∧ popAll c.peer ws.length t = .next (ws, u) ∧
        (u.ipc.get c).q = [] ∧ (u.ipc.get c).err = (s.ipc.get c).err ∧
        (u.ipc.get c.peer).err = (s.ipc.get c.peer).err ∧
        u.cpu = s.cpu ∧ u.mem = s.mem) ∧
    (∀ v lanes, (s.ipc.get c).en = true → (s.ipc.get c).q.length = 16 →
      regWrite c .fifoSend v lanes s = .next { s with ipc := s.ipc.set c { s.ipc.get c with err := true } }) ∧
    ((s.ipc.get c).en = true → (s.ipc.get c.peer).q = [] →
      regRead c .fifoRecv s = .next ((s.ipc.get c).recvLatch,
        { s with ipc := s.ipc.set c { s.ipc.get c with err := true } })) ∧
    ((s.ipc.get c).en = false → regRead c .fifoRecv s = .refused .fifoDisabled ∧
      ∀ v lanes, regWrite c .fifoSend v lanes s = .refused .fifoDisabled) ∧
    regRead c .fifoSend s = .next (0, s) ∧ (∀ v lanes, regWrite c .fifoRecv v lanes s = .next s) ∧
    ((s.ipc.get c).q.length ≤ 16 → (s.ipc.get c.peer).q.length ≤ 16 →
      ∃ v, regRead c .fifoCnt s = .next (v, s) ∧ ∀ k, k < 32 → v.getLsbD k =
        if k = 0 then decide ((s.ipc.get c).q = [])
        else if k = 1 then decide ((s.ipc.get c).q.length = 16)
        else if k = 2 then (s.ipc.get c).ieSendEmpty
        else if k = 8 then decide ((s.ipc.get c.peer).q = [])
        else if k = 9 then decide ((s.ipc.get c.peer).q.length = 16)
        else if k = 10 then (s.ipc.get c).ieRecvNonempty
        else if k = 14 then (s.ipc.get c).err
        else if k = 15 then (s.ipc.get c).en
        else false) ∧
    (∀ (v : Word) (lanes : BitVec 4), ∃ t, regWrite c .fifoCnt v lanes s = .next t ∧
      t.ipc.get c = { s.ipc.get c with
        q := if lanes.getLsbD 0 = true ∧ v.getLsbD 3 = true then [] else (s.ipc.get c).q
        ieSendEmpty := if lanes.getLsbD 0 then v.getLsbD 2 else (s.ipc.get c).ieSendEmpty
        ieRecvNonempty := if lanes.getLsbD 1 then v.getLsbD 10 else (s.ipc.get c).ieRecvNonempty
        err := (s.ipc.get c).err && !(lanes.getLsbD 1 && v.getLsbD 14)
        en := if lanes.getLsbD 1 then v.getLsbD 15 else (s.ipc.get c).en } ∧
      t.ipc.get c.peer = s.ipc.get c.peer ∧ t = { s with ipc := t.ipc, irq := t.irq })

/-- The IPC interrupts: a push onto the empty queue raises source 18 on a receiver that enables it and not
otherwise; a pop that empties the queue raises source 17 on the core that `POP_IRQ_TARGET` names (a field of the
model, log 5), where that core enables it, and not otherwise; a write of IPCFIFOCNT that turns an enable on
raises 17 where the core's own queue is then empty, 18 where the peer's is not; a SYNC request raises source 16
on a peer that accepts it and not otherwise; the nibble a core writes is the one its peer reads
(60_exceptions.md R526, R537, R538, R542, R543, R547, R550). -/
def Obligations.IpcInterruptsAreRaised : Prop :=
  ∀ (c : CoreId) (v : Word) (s : State),
    ((s.ipc.get c).en = true → (s.ipc.get c).q.length < 16 → ∃ t, regWrite c .fifoSend v 0xF s = .next t ∧
      (t.ipc.get c).q = (s.ipc.get c).q ++ [v] ∧ t.irq.get c = s.irq.get c ∧
      (t.irq.get c.peer).iff = (s.irq.get c.peer).iff |||
        (if (s.ipc.get c).q = [] ∧ (s.ipc.get c.peer).ieRecvNonempty = true then 0x00040000 else 0)) ∧
    ((s.ipc.get c).en = true → ∀ rest, (s.ipc.get c.peer).q = v :: rest →
      let target := if s.popIrqTarget = .reader then c else c.peer
      ∃ t, regRead c .fifoRecv s = .next (v, t) ∧ (t.ipc.get c.peer).q = rest ∧
        (t.ipc.get c).recvLatch = v ∧ t.irq.get target.peer = s.irq.get target.peer ∧
        t.irq.get target = { s.irq.get target with
          iff := (s.irq.get target).iff |||
            (if rest = [] ∧ (s.ipc.get target).ieSendEmpty = true then 0x00020000 else 0) }) ∧
    (∀ lanes : BitVec 4, ∃ t, regWrite c .fifoCnt v lanes s = .next t ∧
      t.irq.get c.peer = s.irq.get c.peer ∧
      t.irq.get c = { s.irq.get c with
        iff := (s.irq.get c).iff |||
          (if lanes.getLsbD 0 = true ∧ (s.ipc.get c).ieSendEmpty = false ∧ v.getLsbD 2 = true ∧
            ((s.ipc.get c).q = [] ∨ v.getLsbD 3 = true) then 0x00020000 else 0) |||
          (if lanes.getLsbD 1 = true ∧ (s.ipc.get c).ieRecvNonempty = false ∧ v.getLsbD 10 = true ∧
            (s.ipc.get c.peer).q ≠ [] then 0x00040000 else 0) }) ∧
    (∃ t, regWrite c .ipcSync v 0xF s = .next t ∧
      (∃ r u, regRead c.peer .ipcSync t = .next (r, u) ∧ u = t ∧
        r.extractLsb' 0 4 = v.extractLsb' 8 4) ∧
      t.irq.get c = s.irq.get c ∧
      (t.irq.get c.peer).iff = (s.irq.get c.peer).iff |||
        (if v.getLsbD 13 = true ∧ (s.ipc.get c.peer).syncIe = true then 0x00010000 else 0))

/-- The interrupt registers: a raise sets its bit of IF and no other; a write of IF clears the bits written
as 1 in the driven lanes and sets none; a write of IE replaces the driven lanes; a write of IME takes bit 0
of lane 0; the three read as they stand; the line is the enabled pending bits under IME (60_exceptions.md R520
to R524). -/
def Obligations.InterruptRegistersLatchAndAcknowledge : Prop :=
  ∀ (c : CoreId) (s : State),
    (irqLine s c = (decide ((s.irq.get c).ie &&& (s.irq.get c).iff ≠ 0) && (s.irq.get c).ime)) ∧
    (regRead c .ie s = .next ((s.irq.get c).ie, s) ∧ regRead c .iff s = .next ((s.irq.get c).iff, s) ∧
      regRead c .ime s = .next ((if (s.irq.get c).ime then 1 else 0), s)) ∧
    (∀ (source : BitVec 5) (k : Nat), k < 32 →
      ((raise c source s).irq.get c).iff.getLsbD k =
        ((s.irq.get c).iff.getLsbD k || decide (k = source.toNat))) ∧
    (∀ (v : Word) (lanes : BitVec 4),
      (∃ t, regWrite c .iff v lanes s = .next t ∧ t.ipc = s.ipc ∧ t.cpu = s.cpu ∧ t.mem = s.mem ∧
        (t.irq.get c).ie = (s.irq.get c).ie ∧ (t.irq.get c).ime = (s.irq.get c).ime ∧
        ∀ k, k < 32 → (t.irq.get c).iff.getLsbD k =
          ((s.irq.get c).iff.getLsbD k && !(v.getLsbD k && lanes.getLsbD (k / 8)))) ∧
      (∃ t, regWrite c .ie v lanes s = .next t ∧ t.ipc = s.ipc ∧ t.cpu = s.cpu ∧ t.mem = s.mem ∧
        (t.irq.get c).iff = (s.irq.get c).iff ∧ (t.irq.get c).ime = (s.irq.get c).ime ∧
        ∀ k, k < 32 → (t.irq.get c).ie.getLsbD k =
          if lanes.getLsbD (k / 8) then v.getLsbD k else (s.irq.get c).ie.getLsbD k) ∧
      (∃ t, regWrite c .ime v lanes s = .next t ∧ t.ipc = s.ipc ∧ t.cpu = s.cpu ∧ t.mem = s.mem ∧
        (t.irq.get c).ie = (s.irq.get c).ie ∧ (t.irq.get c).iff = (s.irq.get c).iff ∧
        (t.irq.get c).ime = if lanes.getLsbD 0 then v.getLsbD 0 else (s.irq.get c).ime))

/-- `Sched.Add` schedules one event at `now + delta` under the next number and a token of its own, and keeps the
others; a negative delta is rejected; a time that does not fit in 64 bits is refused. `Sched.Cancel` removes the
event of the token and no other: an event just added is gone again, and a token of before a reset or never given
out is ignored. The target is the earliest event's time or the horizon, whichever is smaller (60_exceptions.md
R562, R563, R565). The form of a token is the model's (log 25). -/
def Obligations.SchedulerAddsCancelsAndTargets : Prop :=
  (∀ (delta : Int) (action : Nat) (s : State),
    (delta < 0 → schedAdd delta action s = .next s) ∧
    (0 ≤ delta → 2 ^ 64 ≤ s.sched.now.toNat + delta → schedAdd delta action s = .refused .timestampOverflow) ∧
    (0 ≤ delta → s.sched.now.toNat + delta < 2 ^ 64 →
      ∃ t e, schedAdd delta action s = .next t ∧ (e.time.toNat : Int) = s.sched.now.toNat + delta ∧
        e.seq = s.sched.nextSeq ∧ e.action = action ∧ t.sched.nextSeq = s.sched.nextSeq + 1 ∧
        t.sched.now = s.sched.now ∧ (∀ f, f ∈ t.sched.events ↔ f = e ∨ f ∈ s.sched.events) ∧
        t = { s with sched := t.sched } ∧
        (s.sched.Inv → (∀ f ∈ s.sched.events, f.token ≠ e.token) ∧
          (schedCancel e.token t).sched.events = s.sched.events))) ∧
  (∀ (token : Token) (s : State),
    (∀ e, e ∈ (schedCancel token s).sched.events ↔ e ∈ s.sched.events ∧ e.token ≠ token) ∧
    schedCancel token s =
      { s with sched := { s.sched with events := (schedCancel token s).sched.events } } ∧
    (s.sched.Inv → token.epoch ≠ s.sched.epoch ∨ s.sched.nextSeq ≤ token.seq → schedCancel token s = s)) ∧
  (∀ d : Sched, d.Inv → d.TargetIs d.target)

/-- The loop of `Step(N)`: the call sets the horizon `N` cycles ahead of the clock; then the first core, then the
other, is given its slice where its counter is behind the target, with the cycles up to the target as its
budget, and is passed over where it is not; a core runs until its budget is used up or its counter reaches the
target, and after the second the due events fire up to the target (60_exceptions.md R565, R575,
40_execution_and_shifter.md R170). The phases the loop stands in between steps, and that a host without a call to
make calls `Step(quantum)`, are the model's choice (log 8), and so is the refusal of a horizon that does not fit in
64 bits (log 14). -/
def Obligations.StepNGivesTheCoresTheirSlices : Prop :=
  (∀ (s : State) (n : Cycles), s.phase = .idle → n ≠ 0 →
    s.hostCalls.head? = some (.step n) ∨ (s.hostCalls = [] ∧ s.quantum = n) →
    (s.sched.now.toNat + n.toNat < 2 ^ 64 → step s = .next { s with
      hostCalls := s.hostCalls.tail
      sched := { s.sched with horizon := s.sched.now + n }
      phase := .slice false }) ∧
    (2 ^ 64 ≤ s.sched.now.toNat + n.toNat → step s = .refused .horizonOverflow)) ∧
  (∀ (s : State) (second : Bool) (t : Cycles), s.sched.Inv → s.sched.TargetIs t →
    let c := if second then s.firstCore.peer else s.firstCore
    let after : Phase := if second then .fire t else .slice true
    (s.phase = .slice second →
      ((s.cpu.get c).cyc < t → step s = .next { s with
        current := c
        phase := .run second (t - (s.cpu.get c).cyc) }) ∧
      (¬ (s.cpu.get c).cyc < t → step s = .next { s with phase := after })) ∧
    (∀ budget, s.phase = .run second budget → budget = 0 ∨ ¬ s.cur.cyc < t →
      step s = .next { s with phase := after }))

/-- RAM keeps what is written: after a store a read of the same width at the same address gives the value
stored, cut to the width, with no effect; little-endian, the byte at offset `j` of the width is byte `j` of the
value; every byte elsewhere is as before. An unmapped address reads as the lanes of the last fetched opcode and
drops writes; a ROM drops writes. On ARM9 the ITCM window covers the addresses below its size and the DTCM window
those from its base to its base plus size, for data only, the arrays repeating inside them; size and end are
modulo `2 ^ 32` (20_memory.md R72 to R74, R81 to R84, R87, 60_exceptions.md R590 with the default mapping, log 11,
00_scope.md R8, log 12). -/
def Obligations.MemoryAnswersByItsRegion : Prop :=
  (∀ (addr v : Word) (w : Width) (s : State) (arr : MemArray) (off : Nat),
    s.mem.wf = true → region s s.current (alignTo w addr) .data = .ram arr off →
    ∃ t, memWrite addr w v s = .next t ∧ t = { s with mem := t.mem } ∧
      memRead addr w .data t = .next (truncWidth w v, t) ∧
      (∀ j, j < w.bytes → t.mem.readByte arr (off + j) = v.extractLsb' (8 * j) 8) ∧
      (∀ arr1 off1, arr1 ≠ arr ∨ off1 < off ∨ off + w.bytes ≤ off1 →
        t.mem.readByte arr1 off1 = s.mem.readByte arr1 off1)) ∧
  (∀ (addr v : Word) (w : Width) (s : State),
    (region s s.current (alignTo w addr) .data = .unmapped →
      (∃ r, memRead addr w .data s = .next (r, s) ∧
        r.toNat = s.cur.lastFetch.toNat / 2 ^ (8 * ((alignTo w addr).toNat % 4)) % 2 ^ (8 * w.bytes)) ∧
      memWrite addr w v s = .next s) ∧
    (∀ arr off, region s s.current (alignTo w addr) .data = .rom arr off → memWrite addr w v s = .next s)) ∧
  (∀ (s : State) (a : Word) (kind : AccessKind),
    let size (r : Word) : Nat := 512 * 2 ^ (r.toNat / 2 % 32) % 2 ^ 32
    let base := s.cp15.dtcm.toNat / 4096 * 4096
    let inItcm := s.cp15.control.getLsbD 18 = true ∧ a.toNat < size s.cp15.itcm
    let inDtcm := s.cp15.control.getLsbD 16 = true ∧ kind = .data ∧ base ≤ a.toNat ∧
      a.toNat < (base + size s.cp15.dtcm) % 2 ^ 32
    (inItcm → region s .arm9 a kind = .ram .itcm (a.toNat % 32768)) ∧
    (¬ inItcm → inDtcm → region s .arm9 a kind = .ram .dtcm ((a.toNat - base) % 16384)) ∧
    (¬ inItcm → ¬ inDtcm → ∀ off, region s .arm9 a kind ≠ .ram .itcm off ∧ region s .arm9 a kind ≠ .ram .dtcm off))

/-- `Reset()` with plain vectors gives every register the spec gives a value: both cores in Supervisor mode,
interrupts masked, ARM state, at their reset vector; interrupt controllers, IPC and scheduler cleared, both
TCMs off; memory, boot images and the ROM kept (10_state.md R46, 60_exceptions.md R507, R561,
70_reset_and_hazards.md R600, R601). -/
def Obligations.ResetReinitialisesEverything : Prop :=
  ∀ s : State, s.phase = .idle → s.hostCalls.head? = some .reset →
    let s1 : State := { s with cp15 := s.cp15.reinit, bootromInert := false }
    (∀ c a, a = exceptionBase s1 c ∨ a = exceptionBase s1 c + 4 → plainAt s1 c a .fetch = true) →
    ∃ t, step s = .next t ∧
      (∀ c, (t.cpu.get c).cpsr = 0x000000D3 ∧ (t.cpu.get c).waiting = false ∧ (t.cpu.get c).cyc = 0 ∧
        (t.cpu.get c).r15 = exceptionBase t c + 8 ∧ (t.cpu.get c).lastFetch = (t.cpu.get c).pipe1 ∧
        (t.cpu.get c).pipe0 = peekFrom (s.cpu.get c).lastFetch s1 c (exceptionBase t c) .word .fetch ∧
        (t.cpu.get c).pipe1 = peekFrom (t.cpu.get c).pipe0 s1 c (exceptionBase t c + 4) .word .fetch ∧
        t.irq.get c = { ie := 0, iff := 0, ime := false } ∧
        t.ipc.get c = { q := [], err := false, en := false, ieSendEmpty := false, ieRecvNonempty := false,
                        recvLatch := 0, syncOut := 0, syncIe := false }) ∧
      t.sched.now = 0 ∧ t.sched.horizon = 0 ∧ t.sched.nextSeq = 0 ∧ t.sched.events = [] ∧
      t.cp15.dtcmOn = false ∧ t.cp15.itcmOn = false ∧ t.bootromInert = false ∧
      SameBytes s t ∧ t.rom = s.rom

end
end

