-- ==== Sys2Proof/Laws/Flags.lean ====
section
/-! SUPPORT. The laws of status words: one bit replaced, the flags an operation leaves, the lanes of a mask. -/
namespace Sys2Proof.Machine

/-- A replaced bit reads as written, every other bit as before. -/
theorem getLsbD_setBit (w : Word) (k : Nat) (b : Bool) (hk : k < 32) (i : Nat) :
    (setBit w k b).getLsbD i = if i = k then b else w.getLsbD i := by
  have one : (1#32 <<< k).getLsbD i = decide (i = k) := by
    rw [BitVec.getLsbD_shiftLeft]
    by_cases h : i = k
    · subst h; simp [hk]
    · by_cases h2 : i < k
      · simp [h, h2]
      · have : i - k ≠ 0 := by omega
        simp [BitVec.getLsbD_one, this, h]
  unfold setBit
  rw [BitVec.getLsbD_or, BitVec.getLsbD_and, BitVec.getLsbD_not, one]
  by_cases h : i = k
  · subst h
    cases b <;> simp [hk]
  · by_cases hi : i < 32
    · cases b <;> simp [h, hi]
      omega
    · rw [BitVec.getLsbD_of_ge w i (by omega)]
      cases b <;> simp [h]
      omega

/-- A replaced bit disturbs nothing outside a mask that covers it. -/
theorem setBit_and_not (w : Word) (k : Nat) (b : Bool) (m : Word) (hk : k < 32) (hm : m.getLsbD k = true) :
    setBit w k b &&& ~~~m = w &&& ~~~m := by
  apply BitVec.eq_of_getLsbD_eq
  intro i hi
  simp only [BitVec.getLsbD_and, BitVec.getLsbD_not, getLsbD_setBit w k b hk]
  by_cases h : i = k
  · subst h; simp [hm]
  · simp [h]

/-- The mode field of a word with a bit above it replaced. -/
theorem modeOf_setBit (w : Word) (k : Nat) (b : Bool) (hk : k < 32) (h : 5 ≤ k) :
    modeOf (setBit w k b) = modeOf w := by
  apply BitVec.eq_of_getLsbD_eq
  intro i hi
  simp only [modeOf, BitVec.getLsbD_extractLsb', Nat.zero_add, getLsbD_setBit w k b hk]
  rw [if_neg (by omega)]

/-! What `setFlags` leaves in each field. -/

@[simp] theorem psrN_setFlags (psr : Word) (a : AluResult) : psrN (setFlags psr a) = a.value.msb := by
  unfold psrN setFlags setNZ
  cases a.overflow <;> simp (disch := omega) only [getLsbD_setBit] <;> rfl

@[simp] theorem psrZ_setFlags (psr : Word) (a : AluResult) : psrZ (setFlags psr a) = decide (a.value = 0) := by
  unfold psrZ setFlags setNZ
  cases a.overflow <;> simp (disch := omega) only [getLsbD_setBit] <;> rfl

@[simp] theorem psrC_setFlags (psr : Word) (a : AluResult) : psrC (setFlags psr a) = a.carry := by
  unfold psrC setFlags setNZ
  cases a.overflow <;> simp (disch := omega) only [getLsbD_setBit] <;> rfl

theorem psrV_setFlags (psr : Word) (a : AluResult) :
    psrV (setFlags psr a) = a.overflow.getD (psrV psr) := by
  unfold psrV setFlags setNZ
  cases a.overflow <;> simp (disch := omega) only [getLsbD_setBit] <;> rfl

/-- Without a V of its own, an operation leaves bits 28:0. -/
theorem setFlags_keeps_nzc (psr : Word) (a : AluResult) (h : a.overflow = none) :
    setFlags psr a &&& ~~~bitsNZC = psr &&& ~~~bitsNZC := by
  unfold setFlags setNZ
  simp only [h]
  rw [setBit_and_not _ _ _ _ (by omega) (by decide), setBit_and_not _ _ _ _ (by omega) (by decide),
    setBit_and_not _ _ _ _ (by omega) (by decide)]

/-- Every operation leaves bits 27:0. -/
theorem setFlags_keeps_nzcv (psr : Word) (a : AluResult) :
    setFlags psr a &&& ~~~bitsNZCV = psr &&& ~~~bitsNZCV := by
  unfold setFlags setNZ
  cases a.overflow <;>
    simp only [setBit_and_not _ _ _ bitsNZCV (show 28 < 32 by omega) (by decide),
      setBit_and_not _ _ _ bitsNZCV (show 29 < 32 by omega) (by decide),
      setBit_and_not _ _ _ bitsNZCV (show 30 < 32 by omega) (by decide),
      setBit_and_not _ _ _ bitsNZCV (show 31 < 32 by omega) (by decide)]

theorem setNZ_keeps (psr r : Word) : setNZ psr r &&& ~~~bitsNZ = psr &&& ~~~bitsNZ := by
  unfold setNZ
  rw [setBit_and_not _ _ _ _ (by omega) (by decide), setBit_and_not _ _ _ _ (by omega) (by decide)]

theorem setNZ64_keeps (psr : Word) (r : BitVec 64) : setNZ64 psr r &&& ~~~bitsNZ = psr &&& ~~~bitsNZ := by
  unfold setNZ64
  rw [setBit_and_not _ _ _ _ (by omega) (by decide), setBit_and_not _ _ _ _ (by omega) (by decide)]

@[simp] theorem psrN_setNZ (psr r : Word) : psrN (setNZ psr r) = r.msb := by
  unfold psrN setNZ; simp (disch := omega) only [getLsbD_setBit]; rfl
@[simp] theorem psrZ_setNZ (psr r : Word) : psrZ (setNZ psr r) = decide (r = 0) := by
  unfold psrZ setNZ; simp (disch := omega) only [getLsbD_setBit]; rfl
@[simp] theorem psrN_setNZ64 (psr : Word) (r : BitVec 64) : psrN (setNZ64 psr r) = r.msb := by
  unfold psrN setNZ64; simp (disch := omega) only [getLsbD_setBit]; rfl
@[simp] theorem psrZ_setNZ64 (psr : Word) (r : BitVec 64) : psrZ (setNZ64 psr r) = decide (r = 0) := by
  unfold psrZ setNZ64; simp (disch := omega) only [getLsbD_setBit]; rfl

/-- Q after `stickyQ`: set, or as it was. -/
@[simp] theorem psrQ_stickyQ (psr : Word) (q : Bool) : psrQ (stickyQ psr q) = (psrQ psr || q) := by
  unfold psrQ stickyQ
  cases q
  · simp
  · simp (disch := omega) only [if_true, getLsbD_setBit, Bool.or_true]

theorem stickyQ_keeps (psr : Word) (q : Bool) : stickyQ psr q &&& ~~~bitQ = psr &&& ~~~bitQ := by
  unfold stickyQ
  split
  · rw [setBit_and_not _ _ _ _ (by omega) (by decide)]
  · rfl

/-- `setT` is the spec's replacement of bit 5. -/
theorem setT_eq (psr : Word) (t : Bool) : setT psr t = withT psr t := by
  apply BitVec.eq_of_getLsbD_eq
  intro i hi
  rw [setT, getLsbD_setBit psr 5 t (by omega)]
  have m : ∀ i, i < 32 → (0x20#32).getLsbD i = decide (i = 5) := by decide
  have m' : (0x20 : Word).getLsbD i = decide (i = 5) := m i hi
  unfold withT
  cases t
  · simp only [Bool.false_eq_true, if_false, BitVec.getLsbD_and, BitVec.getLsbD_not, m i hi, hi]
    by_cases h : i = 5 <;> simp [h]
  · simp only [if_true, BitVec.getLsbD_or, m']
    by_cases h : i = 5 <;> simp [h]

@[simp] theorem psrT_setT (psr : Word) (t : Bool) : psrT (setT psr t) = t := by
  unfold psrT setT; simp (disch := omega) only [getLsbD_setBit]; rfl

@[simp] theorem modeOf_setT (psr : Word) (t : Bool) : modeOf (setT psr t) = modeOf psr :=
  modeOf_setBit psr 5 t (by omega) (by omega)

/-- The lanes of a mask, both ways of writing them. -/
theorem laneBits_eq (mask : BitVec 4) : laneBits mask = lanesOf mask := by
  revert mask; decide

end Sys2Proof.Machine
end

