-- ==== Sys2Proof/Laws/Memory.lean ====
section
/-! SUPPORT. The laws of memory: read after write, and that every operation keeps the canonical form. -/
namespace Sys2Proof.Machine

theorem cellsWfFrom_cons {lo k : Nat} {v : Byte} {l : List Host.Cell} :
    cellsWfFrom lo ((k, v) :: l) = true ↔ lo ≤ k ∧ v ≠ Config.freshByte ∧ cellsWfFrom (k + 1) l = true := by
  simp [cellsWfFrom, and_assoc]

theorem cellsWfFrom_mono {l : List Host.Cell} {lo hi : Nat} (h : lo ≤ hi) (w : cellsWfFrom hi l = true) :
    cellsWfFrom lo l = true := by
  cases l with
  | nil => rfl
  | cons p l =>
    obtain ⟨k, v⟩ := p
    rw [cellsWfFrom_cons] at w ⊢
    exact ⟨Nat.le_trans h w.1, w.2⟩

/-- Below what a canonical list lists, it reads as memory nothing has written. -/
theorem cellRead_below {l : List Host.Cell} {lo a : Nat} (w : cellsWfFrom lo l = true) (h : a < lo) :
    cellRead l a = Config.freshByte := by
  induction l generalizing lo with
  | nil => rfl
  | cons p l ih =>
    obtain ⟨k, v⟩ := p
    rw [cellsWfFrom_cons] at w
    rw [cellRead, if_neg (by omega)]
    exact ih w.2.2 (by omega)

/-- Read after write, the same place. -/
theorem cellRead_cellWrite_same {l : List Host.Cell} {lo : Nat} (a : Nat) (v : Byte)
    (w : cellsWfFrom lo l = true) : cellRead (cellWrite l a v) a = v := by
  induction l generalizing lo with
  | nil =>
    unfold cellWrite
    split
    · next h => simp [cellRead, h]
    · simp [cellRead]
  | cons p l ih =>
    obtain ⟨k, x⟩ := p
    rw [cellsWfFrom_cons] at w
    unfold cellWrite
    split
    · rw [cellRead, if_neg (by omega)]; exact ih w.2.2
    · split
      · split
        · next hv => rw [hv]; exact cellRead_below w.2.2 (by omega)
        · simp [cellRead]
      · split
        · next hv => rw [hv, cellRead, if_neg (by omega)]; exact cellRead_below w.2.2 (by omega)
        · simp [cellRead]

/-- A write leaves every other place alone. -/
theorem cellRead_cellWrite_ne (l : List Host.Cell) {a b : Nat} (v : Byte) (h : b ≠ a) :
    cellRead (cellWrite l a v) b = cellRead l b := by
  induction l with
  | nil =>
    unfold cellWrite
    split
    · rfl
    · simp [cellRead, Ne.symm h]
  | cons p l ih =>
    obtain ⟨k, x⟩ := p
    unfold cellWrite
    split
    · simp only [cellRead, ih]
    · split
      · next hk =>
        split
        · rw [cellRead, if_neg (by omega)]
        · rw [cellRead, cellRead, if_neg (by omega), if_neg (by omega)]
      · split
        · rfl
        · rw [cellRead, if_neg (by omega)]

/-- A write keeps the canonical form. -/
theorem cellsWfFrom_cellWrite {l : List Host.Cell} {lo a : Nat} (v : Byte) (w : cellsWfFrom lo l = true)
    (h : lo ≤ a) : cellsWfFrom lo (cellWrite l a v) = true := by
  induction l generalizing lo with
  | nil =>
    unfold cellWrite
    split
    · rfl
    · next hv => simp [cellsWfFrom, h, hv]
  | cons p l ih =>
    obtain ⟨k, x⟩ := p
    rw [cellsWfFrom_cons] at w
    unfold cellWrite
    split
    · rw [cellsWfFrom_cons]; exact ⟨w.1, w.2.1, ih w.2.2 (by omega)⟩
    · split
      · split
        · exact cellsWfFrom_mono (by omega) w.2.2
        · next hk hv => rw [cellsWfFrom_cons]; exact ⟨h, hv, by rw [← hk]; exact w.2.2⟩
      · split
        · rw [cellsWfFrom_cons]; exact w
        · next hv =>
          rw [cellsWfFrom_cons, cellsWfFrom_cons]
          exact ⟨h, hv, by omega, w.2.1, w.2.2⟩

/-- The cells of an image are canonical. -/
theorem cellsWfFrom_cellsOfBytes (l : List Byte) (off : Nat) : cellsWfFrom off (cellsOfBytes off l) = true := by
  induction l generalizing off with
  | nil => rfl
  | cons b l ih =>
    unfold cellsOfBytes
    split
    · exact cellsWfFrom_mono (Nat.le_succ off) (ih (off + 1))
    · next hb => rw [cellsWfFrom_cons]; exact ⟨Nat.le_refl _, hb, ih (off + 1)⟩

/-- The offsets a write lists are old ones or the one written. -/
theorem mem_cellWrite {l : List Host.Cell} {a : Nat} {v : Byte} {p : Host.Cell} (h : p ∈ cellWrite l a v) :
    p ∈ l ∨ p.1 = a := by
  induction l with
  | nil =>
    unfold cellWrite at h
    split at h
    · exact absurd h (by simp)
    · simp at h; exact .inr (by rw [h])
  | cons q l ih =>
    obtain ⟨k, x⟩ := q
    unfold cellWrite at h
    split at h
    · rcases List.mem_cons.1 h with h | h
      · exact .inl (by rw [h]; simp)
      · rcases ih h with h | h
        · exact .inl (List.mem_cons_of_mem _ h)
        · exact .inr h
    · split at h
      · split at h
        · exact .inl (List.mem_cons_of_mem _ h)
        · rcases List.mem_cons.1 h with h | h
          · exact .inr (by rw [h])
          · exact .inl (List.mem_cons_of_mem _ h)
      · split at h
        · exact .inl h
        · rcases List.mem_cons.1 h with h | h
          · exact .inr (by rw [h])
          · exact .inl h

theorem mem_cellsOfBytes {l : List Byte} {off : Nat} {p : Host.Cell} (h : p ∈ cellsOfBytes off l) :
    p.1 < off + l.length := by
  induction l generalizing off with
  | nil => exact absurd h (by simp [cellsOfBytes])
  | cons b l ih =>
    unfold cellsOfBytes at h
    split at h
    · have := ih h; simp only [List.length_cons]; omega
    · rcases List.mem_cons.1 h with h | h
      · rw [h]; simp
      · have := ih h; simp only [List.length_cons]; omega

/-! Whole memories. -/

@[simp] theorem Memory.cells_setCells_same (m : Memory) (arr : MemArray) (cs : List Host.Cell) :
    (m.setCells arr cs).cells arr = cs := by cases arr <;> rfl

theorem Memory.cells_setCells_ne (m : Memory) {arr brr : MemArray} (cs : List Host.Cell) (h : brr ≠ arr) :
    (m.setCells arr cs).cells brr = m.cells brr := by
  cases arr <;> cases brr <;> first | rfl | exact absurd rfl h

theorem Memory.wf_iff (m : Memory) : m.wf = true ↔ ∀ arr, cellsWfFrom 0 (m.cells arr) = true := by
  simp only [Memory.wf, Bool.and_eq_true]
  constructor
  · rintro ⟨⟨⟨⟨⟨⟨h1, h2⟩, h3⟩, h4⟩, h5⟩, h6⟩, h7⟩ arr
    cases arr <;> assumption
  · intro h
    exact ⟨⟨⟨⟨⟨⟨h .mainRam, h .swram⟩, h .wram7⟩, h .itcm⟩, h .dtcm⟩, h .bootRom9⟩, h .bootRom7⟩

theorem Memory.wf_setCells {m : Memory} (arr : MemArray) {cs : List Host.Cell} (w : m.wf = true)
    (h : cellsWfFrom 0 cs = true) : (m.setCells arr cs).wf = true := by
  rw [Memory.wf_iff] at w ⊢
  intro brr
  by_cases e : brr = arr
  · subst e; simpa using h
  · rw [Memory.cells_setCells_ne m cs e]; exact w brr

/-- A byte write keeps the canonical form. -/
theorem Memory.wf_writeByte {m : Memory} (arr : MemArray) (off : Nat) (v : Byte) (w : m.wf = true) :
    (m.writeByte arr off v).wf = true :=
  Memory.wf_setCells arr w (cellsWfFrom_cellWrite v ((Memory.wf_iff m).1 w arr) (Nat.zero_le off))

/-- A write of any width keeps the canonical form. -/
theorem Memory.wf_write {m : Memory} (arr : MemArray) (off : Nat) (w : Width) (v : Word) (h : m.wf = true) :
    (m.write arr off w v).wf = true := by
  cases w <;> simp only [Memory.write] <;> repeat' apply Memory.wf_writeByte
  all_goals exact h

/-- What a byte write leaves, everywhere. -/
theorem Memory.readByte_writeByte {m : Memory} (arr : MemArray) (off : Nat) (v : Byte) (w : m.wf = true)
    (brr : MemArray) (b : Nat) :
    (m.writeByte arr off v).readByte brr b = if brr = arr ∧ b = off then v else m.readByte brr b := by
  unfold Memory.readByte Memory.writeByte
  by_cases e : brr = arr
  · subst e
    rw [Memory.cells_setCells_same]
    by_cases h : b = off
    · subst h; simpa using cellRead_cellWrite_same b v ((Memory.wf_iff m).1 w brr)
    · rw [cellRead_cellWrite_ne _ v h, if_neg (fun x => h x.2)]
  · rw [Memory.cells_setCells_ne m _ e, if_neg (fun x => e x.1)]

/-- What a write leaves, everywhere: its bytes at the offsets of its width, the old ones elsewhere. -/
theorem Memory.readByte_write {m : Memory} (arr : MemArray) (off : Nat) (w : Width) (v : Word)
    (h : m.wf = true) (brr : MemArray) (b : Nat) :
    (m.write arr off w v).readByte brr b =
      if brr = arr ∧ off ≤ b ∧ b < off + w.bytes then laneOf v (b - off) else m.readByte brr b := by
  cases w with
  | byte =>
    simp only [Memory.write, Width.bytes, Memory.readByte_writeByte _ _ _ h]
    by_cases e : brr = arr
    · subst e
      by_cases e0 : b = off
      · subst e0; simp
      · simp only [e0, and_false, if_false]
        rw [if_neg (by omega)]
    · simp [e]
  | half =>
    have h1 := Memory.wf_writeByte arr off (laneOf v 0) h
    simp only [Memory.write, Width.bytes, Memory.readByte_writeByte _ _ _ h1, Memory.readByte_writeByte _ _ _ h]
    by_cases e : brr = arr
    · subst e
      by_cases e1 : b = off + 1
      · subst e1; simp
      · by_cases e0 : b = off
        · subst e0; simp
        · simp only [e1, e0, and_false, if_false]
          rw [if_neg (by omega)]
    · simp [e]
  | word =>
    have h1 := Memory.wf_writeByte arr off (laneOf v 0) h
    have h2 := Memory.wf_writeByte arr (off + 1) (laneOf v 1) h1
    have h3 := Memory.wf_writeByte arr (off + 2) (laneOf v 2) h2
    simp only [Memory.write, Width.bytes, Memory.readByte_writeByte _ _ _ h3, Memory.readByte_writeByte _ _ _ h2,
      Memory.readByte_writeByte _ _ _ h1, Memory.readByte_writeByte _ _ _ h]
    by_cases e : brr = arr
    · subst e
      by_cases e3 : b = off + 3
      · subst e3; simp
      · by_cases e2 : b = off + 2
        · subst e2; simp
        · by_cases e1 : b = off + 1
          · subst e1; simp
          · by_cases e0 : b = off
            · subst e0; simp
            · simp only [e3, e2, e1, e0, and_false, if_false]
              rw [if_neg (by omega)]
    · simp [e]

/-- Memory in which nothing has been written is canonical. -/
theorem Memory.wf_fresh : Memory.fresh.wf = true := rfl

theorem State.reset_mem_wf : State.reset.mem.wf = true := rfl

end Sys2Proof.Machine
end

