-- ==== Sys2Proof/Laws/State.lean ====
section
/-! SUPPORT. One lemma per field per update of the state. -/
namespace Sys2Proof.Machine

/-! Pairs of cores. -/

@[simp] theorem PerCore.get_set_same {α : Type} (p : PerCore α) (c : CoreId) (v : α) :
    (p.set c v).get c = v := by cases c <;> rfl

theorem PerCore.get_set_ne {α : Type} (p : PerCore α) {c d : CoreId} (v : α) (h : d ≠ c) :
    (p.set c v).get d = p.get d := by cases c <;> cases d <;> first | rfl | exact absurd rfl h

@[simp] theorem PerCore.set_get {α : Type} (p : PerCore α) (c : CoreId) : p.set c (p.get c) = p := by
  cases c <;> rfl

@[simp] theorem PerCore.set_set {α : Type} (p : PerCore α) (c : CoreId) (v w : α) :
    (p.set c v).set c w = p.set c w := by cases c <;> rfl

@[simp] theorem PerCore.get_set_peer {α : Type} (p : PerCore α) (c : CoreId) (v : α) :
    (p.set c.peer v).get c = p.get c := by cases c <;> rfl

@[simp] theorem PerCore.get_peer_set {α : Type} (p : PerCore α) (c : CoreId) (v : α) :
    (p.set c v).get c.peer = p.get c.peer := by cases c <;> rfl

@[simp] theorem CoreId.peer_peer (c : CoreId) : c.peer.peer = c := by cases c <;> rfl

/-! The core that runs. -/

@[simp] theorem State.upd_cur (s : State) (f : Cpu → Cpu) : (s.upd f).cur = f s.cur := by
  simp [State.upd, State.cur]

@[simp] theorem State.upd_current (s : State) (f : Cpu → Cpu) : (s.upd f).current = s.current := rfl
@[simp] theorem State.upd_mem (s : State) (f : Cpu → Cpu) : (s.upd f).mem = s.mem := rfl
@[simp] theorem State.upd_irq (s : State) (f : Cpu → Cpu) : (s.upd f).irq = s.irq := rfl
@[simp] theorem State.upd_ipc (s : State) (f : Cpu → Cpu) : (s.upd f).ipc = s.ipc := rfl
@[simp] theorem State.upd_sched (s : State) (f : Cpu → Cpu) : (s.upd f).sched = s.sched := rfl
@[simp] theorem State.upd_cp15 (s : State) (f : Cpu → Cpu) : (s.upd f).cp15 = s.cp15 := rfl
@[simp] theorem State.upd_inert (s : State) (f : Cpu → Cpu) : (s.upd f).bootromInert = s.bootromInert := rfl
@[simp] theorem State.upd_phase (s : State) (f : Cpu → Cpu) : (s.upd f).phase = s.phase := rfl
@[simp] theorem State.upd_draws (s : State) (f : Cpu → Cpu) : (s.upd f).draws = s.draws := rfl
@[simp] theorem State.upd_tape (s : State) (f : Cpu → Cpu) : (s.upd f).agentTape = s.agentTape := rfl
@[simp] theorem State.upd_rom (s : State) (f : Cpu → Cpu) : (s.upd f).rom = s.rom := rfl
@[simp] theorem State.upd_calls (s : State) (f : Cpu → Cpu) : (s.upd f).hostCalls = s.hostCalls := rfl

@[simp] theorem State.upd_upd (s : State) (f g : Cpu → Cpu) : (s.upd f).upd g = s.upd fun k => g (f k) := by
  simp [State.upd, State.cur]

/-- Only the value of an update at the core that runs counts. -/
theorem State.upd_congr {s : State} {f g : Cpu → Cpu} (h : f s.cur = g s.cur) : s.upd f = s.upd g := by
  simp only [State.upd, h]

theorem State.upd_get_peer (s : State) (f : Cpu → Cpu) :
    (s.upd f).cpu.get s.current.peer = s.cpu.get s.current.peer := by simp [State.upd]

/-- An update of the core that runs is what `OnlyCore` says. -/
theorem State.upd_eq (s : State) (f : Cpu → Cpu) :
    s.upd f = { s with cpu := s.cpu.set s.current (s.upd f).cur } := by
  simp [State.upd, State.cur]

@[simp] theorem State.mem_cur (s : State) (m : Memory) : ({ s with mem := m } : State).cur = s.cur := rfl
@[simp] theorem State.irq_cur (s : State) (p : PerCore IrqCtl) : ({ s with irq := p } : State).cur = s.cur := rfl
@[simp] theorem State.ipc_cur (s : State) (p : PerCore IpcSide) : ({ s with ipc := p } : State).cur = s.cur := rfl
@[simp] theorem State.sched_cur (s : State) (d : Sched) : ({ s with sched := d } : State).cur = s.cur := rfl
@[simp] theorem State.draws_cur (s : State) (n : Nat) : ({ s with draws := n } : State).cur = s.cur := rfl
@[simp] theorem State.phase_cur (s : State) (p : Phase) : ({ s with phase := p } : State).cur = s.cur := rfl
@[simp] theorem State.cp15_cur (s : State) (p : Cp15) : ({ s with cp15 := p } : State).cur = s.cur := rfl

/-! Registers of one core. -/

@[simp] theorem Cpu.setRegAt_r15 (k : Cpu) (b : Bank) (i : Reg) (v : Word) : (k.setRegAt b i v).r15 = k.r15 := by
  unfold Cpu.setRegAt; split <;> rfl
@[simp] theorem Cpu.setRegAt_cpsr (k : Cpu) (b : Bank) (i : Reg) (v : Word) : (k.setRegAt b i v).cpsr = k.cpsr := by
  unfold Cpu.setRegAt; split <;> rfl
@[simp] theorem Cpu.setRegAt_spsr (k : Cpu) (b : Bank) (i : Reg) (v : Word) : (k.setRegAt b i v).spsr = k.spsr := by
  unfold Cpu.setRegAt; split <;> rfl
@[simp] theorem Cpu.setRegAt_pipe0 (k : Cpu) (b : Bank) (i : Reg) (v : Word) : (k.setRegAt b i v).pipe0 = k.pipe0 := by
  unfold Cpu.setRegAt; split <;> rfl
@[simp] theorem Cpu.setRegAt_pipe1 (k : Cpu) (b : Bank) (i : Reg) (v : Word) : (k.setRegAt b i v).pipe1 = k.pipe1 := by
  unfold Cpu.setRegAt; split <;> rfl
@[simp] theorem Cpu.setRegAt_waiting (k : Cpu) (b : Bank) (i : Reg) (v : Word) : (k.setRegAt b i v).waiting = k.waiting := by
  unfold Cpu.setRegAt; split <;> rfl
@[simp] theorem Cpu.setRegAt_cyc (k : Cpu) (b : Bank) (i : Reg) (v : Word) : (k.setRegAt b i v).cyc = k.cyc := by
  unfold Cpu.setRegAt; split <;> rfl
@[simp] theorem Cpu.setRegAt_lastFetch (k : Cpu) (b : Bank) (i : Reg) (v : Word) :
    (k.setRegAt b i v).lastFetch = k.lastFetch := by
  unfold Cpu.setRegAt; split <;> rfl

@[simp] theorem Cpu.setRegAt_bank (k : Cpu) (b : Bank) (i : Reg) (v : Word) : (k.setRegAt b i v).bank = k.bank := by
  simp [Cpu.bank]

/-- A write of a register touches its slot only. -/
theorem Cpu.setRegAt_regs (k : Cpu) (b : Bank) (i : Reg) (v : Word) (h : i ≠ 15) :
    (k.setRegAt b i v).regs = k.regs.set (slot b i) v := by
  rw [Cpu.setRegAt, if_neg h]

theorem Cpu.setRegAt_other (k : Cpu) (b : Bank) (i : Reg) (v : Word) (j : Fin 30) (h : j ≠ slot b i) :
    (k.setRegAt b i v).regs[j] = k.regs[j] := by
  unfold Cpu.setRegAt
  split
  · rfl
  · have : (slot b i).val ≠ j.val := fun e => h (Fin.ext e.symm)
    simp [this]

theorem Cpu.setRegAt_slot (k : Cpu) (b : Bank) (i : Reg) (v : Word) (h : i ≠ 15) :
    (k.setRegAt b i v).regs[slot b i] = v := by
  rw [Cpu.setRegAt, if_neg h]
  simp

@[simp] theorem Cpu.setReg_r15 (k : Cpu) (i : Reg) (v : Word) : (k.setReg i v).r15 = k.r15 := by simp [Cpu.setReg]
@[simp] theorem Cpu.setReg_cpsr (k : Cpu) (i : Reg) (v : Word) : (k.setReg i v).cpsr = k.cpsr := by simp [Cpu.setReg]
@[simp] theorem Cpu.setReg_spsr (k : Cpu) (i : Reg) (v : Word) : (k.setReg i v).spsr = k.spsr := by simp [Cpu.setReg]
@[simp] theorem Cpu.setReg_pipe0 (k : Cpu) (i : Reg) (v : Word) : (k.setReg i v).pipe0 = k.pipe0 := by
  simp [Cpu.setReg]
@[simp] theorem Cpu.setReg_pipe1 (k : Cpu) (i : Reg) (v : Word) : (k.setReg i v).pipe1 = k.pipe1 := by
  simp [Cpu.setReg]
@[simp] theorem Cpu.setReg_waiting (k : Cpu) (i : Reg) (v : Word) : (k.setReg i v).waiting = k.waiting := by
  simp [Cpu.setReg]
@[simp] theorem Cpu.setReg_cyc (k : Cpu) (i : Reg) (v : Word) : (k.setReg i v).cyc = k.cyc := by simp [Cpu.setReg]
@[simp] theorem Cpu.setReg_lastFetch (k : Cpu) (i : Reg) (v : Word) : (k.setReg i v).lastFetch = k.lastFetch := by
  simp [Cpu.setReg]
@[simp] theorem Cpu.setReg_bank (k : Cpu) (i : Reg) (v : Word) : (k.setReg i v).bank = k.bank := by simp [Cpu.bank]
@[simp] theorem Cpu.setReg_thumb (k : Cpu) (i : Reg) (v : Word) : (k.setReg i v).thumb = k.thumb := by
  simp [Cpu.thumb]

theorem Cpu.setReg_other (k : Cpu) (i : Reg) (v : Word) (j : Fin 30) (h : j ≠ slot k.bank i) :
    (k.setReg i v).regs[j] = k.regs[j] := Cpu.setRegAt_other k k.bank i v j h

theorem Cpu.setReg_slot (k : Cpu) (i : Reg) (v : Word) (h : i ≠ 15) :
    (k.setReg i v).regs[slot k.bank i] = v := Cpu.setRegAt_slot k k.bank i v h

theorem Cpu.reg_setReg_same (k : Cpu) (i : Reg) (v : Word) (h : i ≠ 15) : (k.setReg i v).reg i = v := by
  simp only [Cpu.reg, Cpu.regAt, h, if_false, Cpu.setReg_bank]
  exact Cpu.setReg_slot k i v h

/-- A register reads the same where the slots and the mode are the same. -/
theorem Cpu.reg_congr {k l : Cpu} {i : Reg} (h : i ≠ 15) (hr : l.regs = k.regs)
    (hm : modeOf l.cpsr = modeOf k.cpsr) : l.reg i = k.reg i := by
  simp only [Cpu.reg, Cpu.regAt, Cpu.bank, if_neg h, hr, hm]

/-- Moving `r15` moves no other register. -/
theorem Cpu.reg_withPc (k : Cpu) (w : Word) {i : Reg} (h : i ≠ 15) : ({ k with r15 := w } : Cpu).reg i = k.reg i :=
  Cpu.reg_congr h rfl rfl

/-- Nor does a status word of the same mode. -/
theorem Cpu.reg_withPsr (k : Cpu) (p w : Word) {i : Reg} (h : i ≠ 15) (hm : modeOf p = modeOf k.cpsr) :
    ({ k with cpsr := p, r15 := w } : Cpu).reg i = k.reg i := Cpu.reg_congr h rfl hm

/-- The same through the slot of the bank. -/
theorem Cpu.reg_eq_slot (k : Cpu) {i : Reg} (h : i ≠ 15) : k.reg i = k.regs[slot k.bank i] := by
  rw [Cpu.reg, Cpu.regAt, if_neg h]

/-- Two registers of one bank have different slots. -/
theorem slot_ne {b : Bank} {i j : Reg} (hi : i ≠ 15) (hj : j ≠ 15) (h : i ≠ j) : slot b i ≠ slot b j := by
  revert i j; cases b <;> decide

theorem Cpu.reg_setReg_ne (k : Cpu) {i j : Reg} (v : Word) (h : j ≠ i) : (k.setReg i v).reg j = k.reg j := by
  by_cases hj : j = 15
  · subst hj; simp [Cpu.reg, Cpu.regAt]
  · by_cases hi : i = 15
    · subst hi; simp [Cpu.setReg, Cpu.setRegAt]
    · simp only [Cpu.reg, Cpu.regAt, hj, if_false, Cpu.setReg_bank]
      exact Cpu.setReg_other k i v _ (slot_ne hj hi h)

end Sys2Proof.Machine
end

