-- ==== Sys2Proof/Laws/Ops.lean ====
section
/-! SUPPORT. What each shared operation can do, once: chaining, the bus, branching, the frames. -/
namespace Sys2Proof.Machine

/-! Chaining. -/

@[simp] theorem thenDo_next (s : State) (k : State → Result) : thenDo (.next s) k = k s := rfl
@[simp] theorem thenDo_fault (f : Fault) (k : State → Result) : thenDo (.fault f) k = .fault f := rfl
@[simp] theorem thenDo_refused (f : Refusal) (k : State → Result) : thenDo (.refused f) k = .refused f := rfl
@[simp] theorem bindVal_next {α : Type} (v : α) (s : State) (k : α → State → Result) :
    bindVal (.next (v, s)) k = k v s := rfl
@[simp] theorem bindVal_fault {α : Type} (f : Fault) (k : α → State → Result) :
    bindVal (.fault f) k = .fault f := rfl
@[simp] theorem bindVal_refused {α : Type} (f : Refusal) (k : α → State → Result) :
    bindVal (.refused f) k = .refused f := rfl
@[simp] theorem mapVal_next {α β : Type} (v : α) (s : State) (k : α → State → ValueResult β) :
    mapVal (.next (v, s)) k = k v s := rfl
@[simp] theorem mapVal_fault {α β : Type} (f : Fault) (k : α → State → ValueResult β) :
    mapVal (.fault f) k = .fault f := rfl
@[simp] theorem mapVal_refused {α β : Type} (f : Refusal) (k : α → State → ValueResult β) :
    mapVal (.refused f) k = .refused f := rfl
@[simp] theorem thenVal_next {α : Type} (s : State) (k : State → ValueResult α) :
    thenVal (.next s) k = k s := rfl

/-- A chain that goes on went on at its first operation. -/
theorem thenDo_eq_next {r : Result} {k : State → Result} {t : State} (h : thenDo r k = .next t) :
    ∃ s, r = .next s ∧ k s = .next t := by
  cases r with
  | next s => exact ⟨s, rfl, h⟩
  | fault f => exact absurd h (by simp)
  | refused f => exact absurd h (by simp)

theorem bindVal_eq_next {α : Type} {r : ValueResult α} {k : α → State → Result} {t : State}
    (h : bindVal r k = .next t) : ∃ v s, r = .next (v, s) ∧ k v s = .next t := by
  cases r with
  | next p => exact ⟨p.1, p.2, rfl, h⟩
  | fault f => exact absurd h (by simp)
  | refused f => exact absurd h (by simp)

theorem mapVal_eq_next {α β : Type} {r : ValueResult α} {k : α → State → ValueResult β} {t : β × State}
    (h : mapVal r k = .next t) : ∃ v s, r = .next (v, s) ∧ k v s = .next t := by
  cases r with
  | next p => exact ⟨p.1, p.2, rfl, h⟩
  | fault f => exact absurd h (by simp)
  | refused f => exact absurd h (by simp)

theorem thenVal_eq_next {α : Type} {r : Result} {k : State → ValueResult α} {t : α × State}
    (h : thenVal r k = .next t) : ∃ s, r = .next s ∧ k s = .next t := by
  cases r with
  | next s => exact ⟨s, rfl, h⟩
  | fault f => exact absurd h (by simp [thenVal])
  | refused f => exact absurd h (by simp [thenVal])

theorem ifCond_pass {cond : Cond} {s : State} (k : State → Result) (h : condPass cond s.cur.cpsr = true) :
    ifCond cond s k = k s := by simp [ifCond, h]

theorem ifCond_fail {cond : Cond} {s : State} (k : State → Result) (h : condPass cond s.cur.cpsr = false) :
    ifCond cond s k = .next (advanceArm s) := by simp [ifCond, h]

theorem onArm9_arm9 {s : State} (k : State → Result) (h : s.current = .arm9) : onArm9 s k = k s := by
  simp [onArm9, h]

theorem onArm9_arm7 {s : State} (k : State → Result) (h : s.current = .arm7) :
    onArm9 s k = .fault .undefinedInstruction := by simp [onArm9, h]

@[simp] theorem refuseIf_true (r : Refusal) (k : Result) : refuseIf true r k = .refused r := rfl
@[simp] theorem refuseIf_false (r : Refusal) (k : Result) : refuseIf false r k = k := rfl

theorem refuseIf_eq_next {p : Bool} {r : Refusal} {k : Result} {t : State} (h : refuseIf p r k = .next t) :
    p = false ∧ k = .next t := by
  cases p with
  | false => exact ⟨rfl, h⟩
  | true => exact absurd h (by simp)

theorem isPc_eq_false {r : Reg} (h : r ≠ 15) : isPc r = false := by rw [isPc]; exact beq_false_of_ne h

@[simp] theorem isPc_15 : isPc 15 = true := rfl

/-! The bus. The decoder sees the CP15 port and the boot mapping, nothing else. -/

theorem region_congr {s t : State} (c : CoreId) (a : Word) (kind : AccessKind) (h : t.cp15 = s.cp15)
    (hi : t.bootromInert = s.bootromInert) : region t c a kind = region s c a kind := by
  cases c <;> simp [region, h, hi]

theorem plainAt_congr {s t : State} (c : CoreId) (a : Word) (kind : AccessKind) (h : t.cp15 = s.cp15)
    (hi : t.bootromInert = s.bootromInert) : plainAt t c a kind = plainAt s c a kind := by
  simp only [plainAt, region_congr c a kind h hi]

theorem peekFrom_congr {s t : State} (l : Word) (c : CoreId) (a : Word) (w : Width) (kind : AccessKind)
    (h : t.cp15 = s.cp15) (hi : t.bootromInert = s.bootromInert) (hm : t.mem = s.mem) :
    peekFrom l t c a w kind = peekFrom l s c a w kind := by
  simp only [peekFrom, region_congr c a kind h hi, hm]

/-- A read of a plain address gives what `peekFrom` says and has no effect (R72, R87). -/
theorem memRead_plain {s : State} {addr : Word} {w : Width} {kind : AccessKind}
    (h : plainAt s s.current (alignTo w addr) kind = true) :
    memRead addr w kind s = .next (peekFrom s.cur.lastFetch s s.current (alignTo w addr) w kind, s) := by
  unfold plainAt at h
  unfold memRead readAligned reachesAgent peekFrom
  simp only [State.cur]
  split at h <;> simp_all

/-- A write of a plain address changes the bytes `poked` says and nothing else (R73, R79). -/
theorem memWrite_plain {s : State} {addr : Word} {w : Width} (v : Word) (hw : s.mem.wf = true)
    (h : dataAt s addr w = true) :
    ∃ m : Memory, memWrite addr w v s = .next { s with mem := m } ∧ m.wf = true ∧
      ∀ arr off, m.readByte arr off = poked s addr w v s.mem.readByte arr off := by
  unfold dataAt plainAt at h
  unfold memWrite writeAligned reachesAgent poked
  split at h
  · next arr off e =>
    exact ⟨s.mem.write arr off w v, by simp [e], Memory.wf_write arr off w v hw, fun brr b => by
      simp only [e]; exact Memory.readByte_write arr off w v hw brr b⟩
  · next arr off e => exact ⟨s.mem, by simp [e], hw, fun _ _ => by simp [e]⟩
  · next e => exact ⟨s.mem, by simp [e], hw, fun _ _ => by simp [e]⟩
  · exact absurd h (by simp)
  · exact absurd h (by simp)

/-- A fetch of a plain address gives the opcode and sets the open-bus latch. -/
theorem fetch_plain {s : State} {addr : Word} {w : Width}
    (h : plainAt s s.current (alignTo w addr) .fetch = true) :
    fetch addr w s =
      .next (peekFrom s.cur.lastFetch s s.current (alignTo w addr) w .fetch,
        s.upd fun k =>
          { k with lastFetch := peekFrom s.cur.lastFetch s s.current (alignTo w addr) w .fetch }) := by
  rw [fetch, memRead_plain h]
  rfl

theorem alignTo_idem (w : Width) (a : Word) : alignTo w (alignTo w a) = alignTo w a := by
  cases w <;> simp [alignTo, BitVec.and_assoc]

/-! The masks of the low address bits, as the model and as the claims write them. -/

theorem not_one : ~~~1#32 = (0xFFFFFFFE : Word) := by decide
theorem not_two : ~~~2#32 = (0xFFFFFFFD : Word) := by decide
theorem not_three : ~~~3#32 = (0xFFFFFFFC : Word) := by decide

theorem clearLow_two (x : Word) : x &&& (0xFFFFFFFC : Word) = x >>> 2 <<< 2 := by
  have m : ∀ i, i < 32 → (0xFFFFFFFC : Word).getLsbD i = !decide (i < 2) := by decide
  ext i hi
  rw [← BitVec.getLsbD_eq_getElem, ← BitVec.getLsbD_eq_getElem, BitVec.getLsbD_and, m i hi]
  simp only [BitVec.getLsbD_shiftLeft, BitVec.getLsbD_ushiftRight, hi, decide_true, Bool.true_and]
  by_cases h : i < 2
  · simp [h]
  · simp [h, show 2 + (i - 2) = i by omega]

theorem clearLow_one (x : Word) : x &&& (0xFFFFFFFE : Word) = x >>> 1 <<< 1 := by
  have m : ∀ i, i < 32 → (0xFFFFFFFE : Word).getLsbD i = !decide (i < 1) := by decide
  ext i hi
  rw [← BitVec.getLsbD_eq_getElem, ← BitVec.getLsbD_eq_getElem, BitVec.getLsbD_and, m i hi]
  simp only [BitVec.getLsbD_shiftLeft, BitVec.getLsbD_ushiftRight, hi, decide_true, Bool.true_and]
  by_cases h : i < 1
  · simp [h]
  · simp [h, show 1 + (i - 1) = i by omega]

/-- The next word or halfword after an aligned address is aligned. -/
theorem alignTo_word_add (a : Word) : alignTo .word (alignTo .word a + 4) = alignTo .word a + 4 := by
  simp only [alignTo, clearLow_two]
  apply BitVec.eq_of_toNat_eq
  simp [BitVec.toNat_shiftLeft, BitVec.toNat_ushiftRight, Nat.shiftLeft_eq, Nat.shiftRight_eq_div_pow]
  omega

theorem alignTo_half_add (a : Word) : alignTo .half (alignTo .half a + 2) = alignTo .half a + 2 := by
  simp only [alignTo, clearLow_one]
  apply BitVec.eq_of_toNat_eq
  simp [BitVec.toNat_shiftLeft, BitVec.toNat_ushiftRight, Nat.shiftLeft_eq, Nat.shiftRight_eq_div_pow]
  omega

theorem alignTo_add_stride (k : Cpu) (a : Word) :
    alignTo k.fetchWidth (alignTo k.fetchWidth a + k.stride) = alignTo k.fetchWidth a + k.stride := by
  unfold Cpu.fetchWidth Cpu.stride
  cases k.thumb
  · exact alignTo_word_add a
  · exact alignTo_half_add a

/-! Branching. -/

/-- `pc <- target` over plain code: what it does to the core that runs, and nothing else (R175). -/
theorem branchTo_plain {s : State} {target : Word} (h : codeAt s s.cur.thumb target = true) :
    let a := alignTo s.cur.fetchWidth target
    let p0 := peekFrom s.cur.lastFetch s s.current a s.cur.fetchWidth .fetch
    let p1 := peekFrom p0 s s.current (a + s.cur.stride) s.cur.fetchWidth .fetch
    branchTo target s = .next (s.upd fun k =>
      { k with r15 := a + s.cur.stride + s.cur.stride, pipe0 := p0, pipe1 := p1, lastFetch := p1 }) := by
  intro a p0 p1
  have h0 : plainAt s s.current a .fetch = true := by
    simp only [codeAt, Bool.and_eq_true] at h; exact h.1
  have h1 : plainAt s s.current (a + s.cur.stride) .fetch = true := by
    simp only [codeAt, Bool.and_eq_true] at h; exact h.2
  have e0 : alignTo s.cur.fetchWidth a = a := alignTo_idem _ _
  have e1 : alignTo s.cur.fetchWidth (a + s.cur.stride) = a + s.cur.stride := alignTo_add_stride s.cur target
  change bindVal (fetch a s.cur.fetchWidth s) (fun p0 s1 =>
    bindVal (fetch (a + s.cur.stride) s.cur.fetchWidth s1) fun p1 s2 =>
      .next (s2.upd fun k =>
        { k with r15 := a + s.cur.stride + s.cur.stride, pipe0 := p0, pipe1 := p1 })) = _
  rw [fetch_plain (by rw [e0]; exact h0), bindVal_next, e0]
  rw [fetch_plain (by rw [e1]; exact (plainAt_congr _ _ _ rfl rfl).trans h1), bindVal_next, e1]
  simp only [State.upd_upd, State.upd_cur, State.upd_current]
  rfl

/-- A branch after an update `f` of the core that runs, as a frame over the state before both. -/
theorem branchTo_frame {s : State} {f : Cpu → Cpu} {ws : List (Fin 30)} {target : Word}
    (regs : ∀ j, j ∉ ws → (f s.cur).regs[j] = s.cur.regs[j]) (spsr : (f s.cur).spsr = s.cur.spsr)
    (waiting : (f s.cur).waiting = s.cur.waiting) (cyc : (f s.cur).cyc = s.cur.cyc)
    (latch : (f s.cur).lastFetch = s.cur.lastFetch) (h : codeAt s (f s.cur).thumb target = true) :
    ∃ t, branchTo target (s.upd f) = .next t ∧ t.cur.regs = (f s.cur).regs ∧ t.cur.cpsr = (f s.cur).cpsr ∧
      BranchFrame ws (f s.cur).cpsr target s t := by
  have hc : codeAt (s.upd f) (s.upd f).cur.thumb target = true := by
    rw [State.upd_cur]
    simp only [codeAt, State.upd_current, plainAt_congr (s := s) (t := s.upd f) _ _ _ rfl rfl] at h ⊢
    exact h
  refine ⟨_, branchTo_plain hc, ?_, ?_, ?_⟩
  · simp
  · simp
  · constructor
    · simp [OnlyCore, State.upd, State.cur]
    · intro arr off; rfl
    · constructor <;> simp_all
    · simp
    · constructor <;>
        simp [Cpu.fetchWidth, Cpu.stride, Cpu.thumb, latch,
          peekFrom_congr (s := s) (t := s.upd f) _ _ _ _ _ rfl rfl rfl]

/-! Frames of the operations that advance. -/

/-- Advancing after an update `f` of the core that runs: the frame of an instruction that writes the slots
`ws` and the CPSR bits `bits`. -/
theorem finish_frame {s : State} {f : Cpu → Cpu} {ws : List (Fin 30)} {bits width : Word}
    (r15 : (f s.cur).r15 = s.cur.r15 + width)
    (regs : ∀ j, j ∉ ws → (f s.cur).regs[j] = s.cur.regs[j]) (spsr : (f s.cur).spsr = s.cur.spsr)
    (waiting : (f s.cur).waiting = s.cur.waiting) (cyc : (f s.cur).cyc = s.cur.cyc)
    (latch : (f s.cur).lastFetch = s.cur.lastFetch) (p0 : (f s.cur).pipe0 = s.cur.pipe0)
    (p1 : (f s.cur).pipe1 = s.cur.pipe1) (psr : (f s.cur).cpsr &&& ~~~bits = s.cur.cpsr &&& ~~~bits) :
    RegisterFrame ws bits width s (s.upd f) := by
  constructor
  · simp [OnlyCore, State.upd, State.cur]
  · intro arr off; rfl
  · constructor <;> simp_all
  · simpa [KeepsStatus] using psr
  · constructor <;> simp_all

/-- Writing a register and the status word, and advancing: the register holds the value, and the frame. -/
theorem setReg_spec {s : State} {rd : Reg} {v p bits width : Word} (h : rd ≠ 15)
    (hm : modeOf p = modeOf s.cur.cpsr) (hb : p &&& ~~~bits = s.cur.cpsr &&& ~~~bits) :
    let t := s.upd fun k => { k.setReg rd v with cpsr := p, r15 := k.r15 + width }
    t.cur.reg rd = v ∧ t.cur.cpsr = p ∧ RegisterFrame [s.slotOf rd] bits width s t := by
  refine ⟨?_, ?_, ?_⟩
  · rw [State.upd_cur]
    exact (Cpu.reg_withPsr _ _ _ h (by simpa using hm)).trans (Cpu.reg_setReg_same _ _ _ h)
  · rw [State.upd_cur]
  · apply finish_frame
    case regs => exact fun j hj => Cpu.setReg_other _ _ _ _ (by simpa [State.slotOf] using hj)
    case psr => exact hb
    all_goals simp

/-- Writing two registers of one bank, the second over the first, the status word, and advancing. -/
theorem setReg2_spec {s : State} {ra rb : Reg} {va vb p bits width : Word} (ha : ra ≠ 15) (hb : rb ≠ 15)
    (ne : ra ≠ rb) (hm : modeOf p = modeOf s.cur.cpsr) (hp : p &&& ~~~bits = s.cur.cpsr &&& ~~~bits) :
    let t := s.upd fun k => { (k.setReg ra va).setReg rb vb with cpsr := p, r15 := k.r15 + width }
    t.cur.reg ra = va ∧ t.cur.reg rb = vb ∧ t.cur.cpsr = p ∧
      RegisterFrame [s.slotOf rb, s.slotOf ra] bits width s t := by
  refine ⟨?_, ?_, ?_, ?_⟩
  · rw [State.upd_cur]
    exact (Cpu.reg_withPsr _ _ _ ha (by simpa using hm)).trans
      ((Cpu.reg_setReg_ne _ _ ne).trans (Cpu.reg_setReg_same _ _ _ ha))
  · rw [State.upd_cur]
    exact (Cpu.reg_withPsr _ _ _ hb (by simpa using hm)).trans
      (Cpu.reg_setReg_same _ _ _ hb)
  · rw [State.upd_cur]
  · apply finish_frame
    case regs =>
      intro j hj
      simp only [List.mem_cons, not_or, List.not_mem_nil, not_false_eq_true, and_true] at hj
      exact (Cpu.setReg_other _ _ _ _ (by simpa [State.slotOf] using hj.1)).trans (Cpu.setReg_other _ _ _ _ hj.2)
    case psr => exact hp
    all_goals simp

/-- The same of a store: memory is `m`. -/
theorem store_frame {s : State} {f : Cpu → Cpu} {m : Memory} {after : MemArray → Nat → Byte}
    {ws : List (Fin 30)} {width : Word} (bytes : ∀ arr off, m.readByte arr off = after arr off)
    (r15 : (f s.cur).r15 = s.cur.r15 + width)
    (regs : ∀ j, j ∉ ws → (f s.cur).regs[j] = s.cur.regs[j]) (spsr : (f s.cur).spsr = s.cur.spsr)
    (waiting : (f s.cur).waiting = s.cur.waiting) (cyc : (f s.cur).cyc = s.cur.cyc)
    (latch : (f s.cur).lastFetch = s.cur.lastFetch) (p0 : (f s.cur).pipe0 = s.cur.pipe0)
    (p1 : (f s.cur).pipe1 = s.cur.pipe1) (psr : (f s.cur).cpsr = s.cur.cpsr) :
    StoreFrame after ws width s (({ s with mem := m } : State).upd f) := by
  constructor
  · simp [OnlyCoreAndBytes, State.upd, State.cur]
  · intro arr off; simpa using bytes arr off
  · constructor <;> simp_all
  · simpa using psr
  · constructor <;> simp_all

end Sys2Proof.Machine
end

