-- ==== Sys2Proof/Laws/Transfer.lean ====
section
/-! SUPPORT. What the loads, the stores and the swaps of one register can do over plain memory. -/
namespace Sys2Proof.Machine

/-- The operation of the machine behind a kind of load. -/
def LoadKind.op : LoadKind → Word → State → ValueResult Word
  | .word => loadWord
  | .literal => loadAligned
  | .byte => loadByte
  | .half => loadHalf
  | .signedByte => loadSignedByte
  | .signedHalf => loadSignedHalf

/-- A load at a plain address gives the value of its kind and has no effect. -/
theorem load_plain {s : State} (kind : LoadKind) {addr : Word} (h : loadable s kind addr = true) :
    kind.op addr s = .next (loaded s kind addr, s) := by
  unfold loadable dataAt at h
  cases kind
  case signedHalf =>
    simp only [LoadKind.op, loadSignedHalf, loaded, LoadKind.width, LoadKind.value, peek] at h ⊢
    split
    · next c => rw [if_pos c] at h; rw [memRead_plain h]; rfl
    · next c => rw [if_neg c] at h; rw [memRead_plain h]; rfl
  all_goals
    simp only [LoadKind.op, loadWord, loadAligned, loadByte, loadHalf, loadSignedByte, loaded, LoadKind.width,
      LoadKind.value, peek] at h ⊢
    first | exact memRead_plain h | (rw [memRead_plain h]; rfl)

/-- The writeback as an update of the core that runs. -/
def Cpu.wroteBack (ad : Address) (rn : Reg) (k : Cpu) : Cpu := if ad.writeback then k.setReg rn ad.moved else k

theorem writeBack_eq (ad : Address) (rn : Reg) (s : State) : writeBack ad rn s = s.upd (Cpu.wroteBack ad rn) := by
  unfold writeBack Cpu.wroteBack
  cases ad.writeback <;> simp [State.upd, State.cur]

@[simp] theorem Cpu.wroteBack_r15 (ad : Address) (rn : Reg) (k : Cpu) : (k.wroteBack ad rn).r15 = k.r15 := by
  unfold Cpu.wroteBack; split <;> simp
@[simp] theorem Cpu.wroteBack_cpsr (ad : Address) (rn : Reg) (k : Cpu) : (k.wroteBack ad rn).cpsr = k.cpsr := by
  unfold Cpu.wroteBack; split <;> simp
@[simp] theorem Cpu.wroteBack_spsr (ad : Address) (rn : Reg) (k : Cpu) : (k.wroteBack ad rn).spsr = k.spsr := by
  unfold Cpu.wroteBack; split <;> simp
@[simp] theorem Cpu.wroteBack_waiting (ad : Address) (rn : Reg) (k : Cpu) :
    (k.wroteBack ad rn).waiting = k.waiting := by unfold Cpu.wroteBack; split <;> simp
@[simp] theorem Cpu.wroteBack_cyc (ad : Address) (rn : Reg) (k : Cpu) : (k.wroteBack ad rn).cyc = k.cyc := by
  unfold Cpu.wroteBack; split <;> simp
@[simp] theorem Cpu.wroteBack_lastFetch (ad : Address) (rn : Reg) (k : Cpu) :
    (k.wroteBack ad rn).lastFetch = k.lastFetch := by unfold Cpu.wroteBack; split <;> simp
@[simp] theorem Cpu.wroteBack_pipe0 (ad : Address) (rn : Reg) (k : Cpu) : (k.wroteBack ad rn).pipe0 = k.pipe0 := by
  unfold Cpu.wroteBack; split <;> simp
@[simp] theorem Cpu.wroteBack_pipe1 (ad : Address) (rn : Reg) (k : Cpu) : (k.wroteBack ad rn).pipe1 = k.pipe1 := by
  unfold Cpu.wroteBack; split <;> simp
@[simp] theorem Cpu.wroteBack_bank (ad : Address) (rn : Reg) (k : Cpu) : (k.wroteBack ad rn).bank = k.bank := by
  simp [Cpu.bank]
@[simp] theorem Cpu.wroteBack_thumb (ad : Address) (rn : Reg) (k : Cpu) : (k.wroteBack ad rn).thumb = k.thumb := by
  simp [Cpu.thumb]

/-- The slots the writeback can write. -/
def Address.slots (ad : Address) (rn : Reg) (s : State) : List (Fin 30) :=
  if ad.writeback then [s.slotOf rn] else []

theorem Cpu.wroteBack_other {ad : Address} {rn : Reg} {s : State} {j : Fin 30} (h : j ∉ ad.slots rn s) :
    (s.cur.wroteBack ad rn).regs[j] = s.cur.regs[j] := by
  unfold Address.slots at h
  unfold Cpu.wroteBack
  split
  · next hw => rw [if_pos hw] at h; exact Cpu.setReg_other _ _ _ _ (by simpa [State.slotOf] using h)
  · rfl

theorem Cpu.wroteBack_base {ad : Address} {rn : Reg} (k : Cpu) (hw : ad.writeback = true) (h : rn ≠ 15) :
    (k.wroteBack ad rn).reg rn = ad.moved := by
  rw [Cpu.wroteBack, if_pos hw, Cpu.reg_setReg_same _ _ _ h]

/-- A load of a register other than `r15`: the value, the writeback below it, and nothing else (R302). -/
theorem loadTo_spec {s : State} (kind : LoadKind) {ad : Address} {rn rd : Reg} (hd : rd ≠ 15)
    (hn : ad.writeback = true → rn ≠ 15) (h : loadable s kind ad.addr = true) :
    ∃ t, loadTo kind.op ad rn rd s = .next t ∧ t.cur.reg rd = loaded s kind ad.addr ∧
      (ad.writeback = true → rn ≠ rd → t.cur.reg rn = ad.moved) ∧
      RegisterFrame (s.slotOf rd :: ad.slots rn s) 0 4 s t := by
  refine ⟨s.upd fun k =>
    { (k.wroteBack ad rn).setReg rd (loaded s kind ad.addr) with r15 := k.r15 + 4 }, ?_, ?_, ?_, ?_⟩
  · simp only [loadTo, load_plain kind h, bindVal_next, isPc_eq_false hd, Bool.false_eq_true, if_false, finishArm,
      advanceArm, writeBack_eq, State.upd_upd, Cpu.setReg_r15, Cpu.wroteBack_r15]
  · rw [State.upd_cur]
    exact (Cpu.reg_withPc _ _ hd).trans (Cpu.reg_setReg_same _ _ _ hd)
  · intro hw e
    rw [State.upd_cur]
    exact (Cpu.reg_withPc _ _ (hn hw)).trans ((Cpu.reg_setReg_ne _ _ e).trans (Cpu.wroteBack_base _ hw (hn hw)))
  · apply finish_frame
    case regs =>
      intro j hj
      rw [List.mem_cons, not_or] at hj
      exact (Cpu.setReg_other _ _ _ _ (by simpa [State.slotOf] using hj.1)).trans (Cpu.wroteBack_other hj.2)
    all_goals simp

/-- LDR to `r15`: the writeback, then a branch whose state bit 0 selects on ARM9 (R304). -/
theorem loadTo_pc {s : State} {ad : Address} {rn : Reg} (hn : ad.writeback = true → rn ≠ 15)
    (h : loadable s .word ad.addr = true) :
    let v := loaded s .word ad.addr
    (s.current = .arm9 → v.getLsbD 0 = true → codeAt s true (v &&& 0xFFFFFFFE) = true →
      ∃ t, loadTo loadWord ad rn 15 s = .next t ∧ (ad.writeback = true → t.cur.reg rn = ad.moved) ∧
        BranchFrame (ad.slots rn s) (withT s.cur.cpsr true) (v &&& 0xFFFFFFFE) s t) ∧
    (s.current = .arm7 ∨ v.getLsbD 0 = false → codeAt s s.cur.thumb (v &&& 0xFFFFFFFC) = true →
      ∃ t, loadTo loadWord ad rn 15 s = .next t ∧ (ad.writeback = true → t.cur.reg rn = ad.moved) ∧
        BranchFrame (ad.slots rn s) s.cur.cpsr (v &&& 0xFFFFFFFC) s t) := by
  intro v
  have e : loadTo loadWord ad rn 15 s = loadPc v (s.upd (Cpu.wroteBack ad rn)) := by
    rw [loadTo, show loadWord ad.addr s = .next (v, s) from load_plain .word h, bindVal_next, writeBack_eq, isPc_15]
    rfl
  have base : ∀ t : State, ad.writeback = true → t.cur.regs = (s.cur.wroteBack ad rn).regs →
      modeOf t.cur.cpsr = modeOf s.cur.cpsr → t.cur.reg rn = ad.moved := fun t hw h1 h2 => by
    rw [Cpu.reg_congr (k := s.cur.wroteBack ad rn) (hn hw) h1 (by simpa using h2), Cpu.wroteBack_base _ hw (hn hw)]
  refine ⟨fun h9 hb hc => ?_, fun hb hc => ?_⟩
  · obtain ⟨t, h1, h2, h3, h4⟩ := branchTo_frame (s := s)
      (f := fun k => { k.wroteBack ad rn with cpsr := setT k.cpsr true }) (ws := ad.slots rn s)
      (target := v &&& 0xFFFFFFFE) (fun j hj => Cpu.wroteBack_other hj) (by simp) (by simp) (by simp) (by simp)
      (by simpa [Cpu.thumb] using hc)
    refine ⟨t, ?_, fun hw => base t hw h2 (by rw [h3]; simp), by simpa only [setT_eq] using h4⟩
    rw [e, ← h1, loadPc, if_pos (by simpa [h9] using hb), State.upd_upd]
    simp only [Cpu.wroteBack_cpsr]
  · obtain ⟨t, h1, h2, h3, h4⟩ := branchTo_frame (s := s) (f := Cpu.wroteBack ad rn) (ws := ad.slots rn s)
      (target := v &&& 0xFFFFFFFC) (fun j hj => Cpu.wroteBack_other hj) (by simp) (by simp) (by simp) (by simp)
      (by simpa using hc)
    refine ⟨t, ?_, fun hw => base t hw h2 (by rw [h3]; simp), by simpa using h4⟩
    rw [e, ← h1, loadPc, if_neg]
    rintro ⟨h9, hb'⟩
    rcases hb with hb | hb
    · rw [State.upd_current] at h9; rw [hb] at h9; exact absurd h9 (by decide)
    · rw [hb] at hb'; exact absurd hb' (by decide)

/-- A store of one register (R302, R303). -/
theorem storeFrom_spec {s : State} {w : Width} {ad : Address} {rn rd : Reg} (wf : s.mem.wf = true)
    (hn : ad.writeback = true → rn ≠ 15) (h : dataAt s ad.addr w = true) :
    ∃ t, storeFrom w ad rn rd s = .next t ∧ (ad.writeback = true → t.cur.reg rn = ad.moved) ∧
      StoreFrame (poked s ad.addr w (s.cur.regStored rd) s.mem.readByte) (ad.slots rn s) 4 s t := by
  obtain ⟨m, e, -, hm⟩ := memWrite_plain (s.cur.regStored rd) wf h
  refine ⟨({ s with mem := m } : State).upd fun k => { k.wroteBack ad rn with r15 := k.r15 + 4 }, ?_, ?_, ?_⟩
  · simp only [storeFrom, e, thenDo_next, advanceArm, writeBack_eq, State.upd_upd, Cpu.wroteBack_r15]
  · intro hw
    rw [State.upd_cur, State.mem_cur]
    exact (Cpu.reg_withPc _ _ (hn hw)).trans (Cpu.wroteBack_base _ hw (hn hw))
  · apply store_frame hm
    case regs => exact fun j hj => Cpu.wroteBack_other hj
    all_goals simp

/-- Plain addresses do not depend on memory or registers. -/
theorem dataAt_congr {s t : State} (a : Word) (w : Width) (h : t.cp15 = s.cp15)
    (hi : t.bootromInert = s.bootromInert) (hc : t.current = s.current) : dataAt t a w = dataAt s a w := by
  simp only [dataAt, hc, plainAt_congr _ _ _ h hi]

theorem poked_congr {s t : State} (a : Word) (w : Width) (v : Word) (old : MemArray → Nat → Byte)
    (h : t.cp15 = s.cp15) (hi : t.bootromInert = s.bootromInert) (hc : t.current = s.current) :
    poked t a w v old = poked s a w v old := by
  funext arr off
  simp only [poked, hc, region_congr _ _ _ h hi]

theorem peek_congr {s t : State} (a : Word) (w : Width) (h : t.cp15 = s.cp15)
    (hi : t.bootromInert = s.bootromInert) (hc : t.current = s.current) (hm : t.mem = s.mem)
    (hl : t.cur.lastFetch = s.cur.lastFetch) : peek t a w = peek s a w := by
  simp only [peek, hc, hl, peekFrom_congr _ _ _ _ _ h hi hm]

/-- A word of a transfer at a plain address. -/
theorem loadAligned_plain {s : State} {addr : Word} (h : dataAt s addr .word = true) :
    loadAligned addr s = .next (peek s addr .word, s) := load_plain .literal h

/-- LDRD: the writeback stands between the two loads (R320). -/
theorem loadDouble_spec {s : State} {ad : Address} {rn rd : Reg} (hd : rd ≠ 15) (hd1 : rd + 1 ≠ 15)
    (hn : ad.writeback = true → rn ≠ 15) (h0 : dataAt s ad.addr .word = true)
    (h1 : dataAt s (alignTo .word ad.addr + 4) .word = true) :
    ∃ t, loadDouble rn rd ad s = .next t ∧
      t.cur.reg rd = (if ad.writeback = true ∧ rn = rd then ad.moved else peek s ad.addr .word) ∧
      t.cur.reg (rd + 1) = peek s (alignTo .word ad.addr + 4) .word ∧
      (ad.writeback = true → rn ≠ rd + 1 → t.cur.reg rn = ad.moved) ∧
      RegisterFrame ([s.slotOf rd, s.slotOf (rd + 1)] ++ ad.slots rn s) 0 4 s t := by
  have ne : rd ≠ rd + 1 := by revert rd; decide
  let v0 := peek s ad.addr .word
  let v1 := peek s (alignTo .word ad.addr + 4) .word
  let g : Cpu → Cpu := fun k => ((k.setReg rd v0).wroteBack ad rn).setReg (rd + 1) v1
  refine ⟨s.upd fun k => { g k with r15 := k.r15 + 4 }, ?_, ?_, ?_, ?_, ?_⟩
  · unfold loadDouble
    rw [loadAligned_plain h0, bindVal_next, writeBack_eq, State.upd_upd,
      loadAligned_plain (by rw [dataAt_congr (s := s)]; exact h1; all_goals rfl), bindVal_next]
    rw [peek_congr (s := s) (t := s.upd _) _ _ rfl rfl rfl rfl (by simp)]
    simp only [finishArm, advanceArm, State.upd_upd, Cpu.setReg_r15, Cpu.wroteBack_r15]
    rfl
  · rw [State.upd_cur]
    refine (Cpu.reg_withPc _ _ hd).trans ((Cpu.reg_setReg_ne _ _ ne).trans ?_)
    split
    · next c => rw [c.2, ← c.2]; exact Cpu.wroteBack_base _ c.1 (hn c.1)
    · next c =>
      unfold Cpu.wroteBack
      split
      · next hw =>
        rw [Cpu.reg_setReg_ne _ _ (fun e => c ⟨hw, e.symm⟩), Cpu.reg_setReg_same _ _ _ hd]
      · rw [Cpu.reg_setReg_same _ _ _ hd]
  · rw [State.upd_cur]
    exact (Cpu.reg_withPc _ _ hd1).trans (Cpu.reg_setReg_same _ _ _ hd1)
  · intro hw e
    rw [State.upd_cur]
    exact (Cpu.reg_withPc _ _ (hn hw)).trans ((Cpu.reg_setReg_ne _ _ e).trans (Cpu.wroteBack_base _ hw (hn hw)))
  · apply finish_frame
    case regs =>
      intro j hj
      simp only [List.cons_append, List.nil_append, List.mem_cons, not_or] at hj
      refine (Cpu.setReg_other _ _ _ _ (by simpa [State.slotOf] using hj.2.1)).trans ?_
      have e : (s.cur.setReg rd v0).regs[j] = s.cur.regs[j] := Cpu.setReg_other _ _ _ _ hj.1
      have hb := hj.2.2
      unfold Address.slots at hb
      unfold Cpu.wroteBack
      split
      · next hw =>
        rw [if_pos hw] at hb
        exact (Cpu.setReg_other _ _ _ _ (by simpa [State.slotOf] using hb)).trans e
      · exact e
    all_goals simp [g]

/-- STRD: two words, both from before the writeback (R321). -/
theorem storeDouble_spec {s : State} {ad : Address} {rn rd : Reg} (wf : s.mem.wf = true)
    (hn : ad.writeback = true → rn ≠ 15) (h0 : dataAt s ad.addr .word = true)
    (h1 : dataAt s (alignTo .word ad.addr + 4) .word = true) :
    ∃ t, storeDouble rn rd ad s = .next t ∧ (ad.writeback = true → t.cur.reg rn = ad.moved) ∧
      StoreFrame (pokedAll s [(ad.addr, s.cur.reg rd), (alignTo .word ad.addr + 4, s.cur.reg (rd + 1))]
        s.mem.readByte) (ad.slots rn s) 4 s t := by
  obtain ⟨m, e, hm, hr⟩ := memWrite_plain (s.cur.reg rd) wf h0
  obtain ⟨m', e', -, hr'⟩ := memWrite_plain (s := { s with mem := m }) (addr := alignTo .word ad.addr + 4)
    (w := .word) (s.cur.reg (rd + 1)) hm (by rw [dataAt_congr (s := s)]; exact h1; all_goals rfl)
  refine ⟨({ s with mem := m' } : State).upd fun k => { k.wroteBack ad rn with r15 := k.r15 + 4 }, ?_, ?_, ?_⟩
  · simp only [storeDouble, e, thenDo_next, e', advanceArm, writeBack_eq, State.upd_upd,
      Cpu.wroteBack_r15]
  · intro hw
    rw [State.upd_cur, State.mem_cur]
    exact (Cpu.reg_withPc _ _ (hn hw)).trans (Cpu.wroteBack_base _ hw (hn hw))
  · apply store_frame
    case regs => exact fun j hj => Cpu.wroteBack_other hj
    case bytes =>
      intro arr off
      have e2 : m.readByte = poked s ad.addr .word (s.cur.reg rd) s.mem.readByte :=
        funext fun arr => funext fun off => hr arr off
      rw [pokedAll, pokedAll, pokedAll, ← e2]
      exact hr' arr off
    all_goals simp

/-- The swaps: read, write, then the register (R329 to R331). -/
theorem swapOp_spec {s : State} {rn rd rm : Reg} {cond : Cond} (kind : LoadKind) (w : Width)
    (hk : kind.width s.current (s.cur.reg rn) = w) (hc : condPass cond s.cur.cpsr = true) (wf : s.mem.wf = true)
    (hn : rn ≠ 15) (hd : rd ≠ 15) (hm : rm ≠ 15) (h : dataAt s (s.cur.reg rn) w = true) :
    ∃ t, swapOp kind.op w cond rn rd rm s = .next t ∧ t.cur.reg rd = loaded s kind (s.cur.reg rn) ∧
      StoreFrame (poked s (s.cur.reg rn) w (s.cur.reg rm) s.mem.readByte) [s.slotOf rd] 4 s t := by
  subst hk
  obtain ⟨m, e, -, hr⟩ := memWrite_plain (s.cur.reg rm) wf h
  refine ⟨({ s with mem := m } : State).upd fun k =>
    { k.setReg rd (loaded s kind (s.cur.reg rn)) with r15 := k.r15 + 4 }, ?_, ?_, ?_⟩
  · simp only [swapOp, ifCond_pass _ hc, isPc_eq_false hn, isPc_eq_false hd, isPc_eq_false hm, Bool.or_self,
      refuseIf_false, load_plain kind h, bindVal_next, e, thenDo_next, finishArm, advanceArm, State.upd_upd,
      Cpu.setReg_r15]
  · rw [State.upd_cur, State.mem_cur]
    exact (Cpu.reg_withPc _ _ hd).trans (Cpu.reg_setReg_same _ _ _ hd)
  · apply store_frame hr
    case regs => exact fun j hj => Cpu.setReg_other _ _ _ _ (by simpa [State.slotOf] using hj)
    all_goals simp

/-- A Thumb load. -/
theorem thumbLoad_spec {s : State} (kind : LoadKind) {addr : Word} (rd : LowReg)
    (h : loadable s kind addr = true) :
    ∃ t, thumbLoad kind.op addr rd s = .next t ∧ t.cur.reg (low rd) = loaded s kind addr ∧
      RegisterFrame [s.slotOf (low rd)] 0 2 s t := by
  have hl : low rd ≠ 15 := by revert rd; decide
  refine ⟨s.upd fun k => { k.setReg (low rd) (loaded s kind addr) with r15 := k.r15 + 2 }, ?_, ?_, ?_⟩
  · simp only [thumbLoad, load_plain kind h, bindVal_next, finishThumb, advanceThumb, State.upd_upd,
      Cpu.setReg_r15]
  · rw [State.upd_cur]
    exact (Cpu.reg_withPc _ _ hl).trans (Cpu.reg_setReg_same _ _ _ hl)
  · apply finish_frame
    case regs => exact fun j hj => Cpu.setReg_other _ _ _ _ (by simpa [State.slotOf] using hj)
    all_goals simp

/-- A Thumb store. -/
theorem thumbStore_spec {s : State} {w : Width} {addr : Word} (rd : LowReg) (wf : s.mem.wf = true)
    (h : dataAt s addr w = true) :
    ∃ t, thumbStore w addr rd s = .next t ∧
      StoreFrame (poked s addr w (s.cur.reg (low rd)) s.mem.readByte) [] 2 s t := by
  obtain ⟨m, e, -, hm⟩ := memWrite_plain (s.cur.reg (low rd)) wf h
  refine ⟨({ s with mem := m } : State).upd fun k => { k with r15 := k.r15 + 2 }, ?_, ?_⟩
  · simp only [thumbStore, e, thenDo_next, advanceThumb]
  · apply store_frame hm <;> simp

end Sys2Proof.Machine
end

