-- ==== Sys2Proof/Laws/Block.lean ====
section
/-! SUPPORT. What the loops of the block transfers can do over plain memory. -/
namespace Sys2Proof.Machine

/-- The addresses `addr`, `addr + 4`, … of `n` words are plain. -/
def wordsAt (s : State) (addr : Word) : Nat → Bool
  | 0 => true
  | n + 1 => dataAt s addr .word && wordsAt s (addr + 4) n

/-- The words of a list of registers in ascending addresses. -/
def wordsOf (s : State) : List Reg → Word → List (Reg × Word)
  | [], _ => []
  | r :: rest, addr => (r, peek s addr .word) :: wordsOf s rest (addr + 4)

/-- Put loaded words into registers of bank `bk`; that of `r15` is left to the branch. -/
def Cpu.loadInto (bk : Bank) : List (Reg × Word) → Cpu → Cpu
  | [], k => k
  | (r, v) :: rest, k => Cpu.loadInto bk rest (if r = 15 then k else k.setRegAt bk r v)

/-- The word loaded for `r15`, the last one of the list. -/
def pcWord : List (Reg × Word) → Option Word → Option Word
  | [], pc => pc
  | (r, v) :: rest, pc => pcWord rest (if r = 15 then some v else pc)

theorem wordsAt_congr {s t : State} (n : Nat) (addr : Word) (h : t.cp15 = s.cp15)
    (hi : t.bootromInert = s.bootromInert) (hc : t.current = s.current) : wordsAt t addr n = wordsAt s addr n := by
  induction n generalizing addr with
  | zero => rfl
  | succ n ih => rw [wordsAt, wordsAt, ih, dataAt_congr _ _ h hi hc]

theorem wordsOf_congr {s t : State} (l : List Reg) (addr : Word) (h : t.cp15 = s.cp15)
    (hi : t.bootromInert = s.bootromInert) (hc : t.current = s.current) (hm : t.mem = s.mem)
    (hl : t.cur.lastFetch = s.cur.lastFetch) : wordsOf t l addr = wordsOf s l addr := by
  induction l generalizing addr with
  | nil => rfl
  | cons r l ih => rw [wordsOf, wordsOf, ih, peek_congr _ _ h hi hc hm hl]

@[simp] theorem Cpu.loadInto_cpsr (bk : Bank) (l : List (Reg × Word)) (k : Cpu) : (k.loadInto bk l).cpsr = k.cpsr := by
  induction l generalizing k with
  | nil => rfl
  | cons p l ih => rw [Cpu.loadInto, ih]; split <;> simp
@[simp] theorem Cpu.loadInto_r15 (bk : Bank) (l : List (Reg × Word)) (k : Cpu) : (k.loadInto bk l).r15 = k.r15 := by
  induction l generalizing k with
  | nil => rfl
  | cons p l ih => rw [Cpu.loadInto, ih]; split <;> simp
@[simp] theorem Cpu.loadInto_spsr (bk : Bank) (l : List (Reg × Word)) (k : Cpu) : (k.loadInto bk l).spsr = k.spsr := by
  induction l generalizing k with
  | nil => rfl
  | cons p l ih => rw [Cpu.loadInto, ih]; split <;> simp
@[simp] theorem Cpu.loadInto_waiting (bk : Bank) (l : List (Reg × Word)) (k : Cpu) :
    (k.loadInto bk l).waiting = k.waiting := by
  induction l generalizing k with
  | nil => rfl
  | cons p l ih => rw [Cpu.loadInto, ih]; split <;> simp
@[simp] theorem Cpu.loadInto_cyc (bk : Bank) (l : List (Reg × Word)) (k : Cpu) : (k.loadInto bk l).cyc = k.cyc := by
  induction l generalizing k with
  | nil => rfl
  | cons p l ih => rw [Cpu.loadInto, ih]; split <;> simp
@[simp] theorem Cpu.loadInto_lastFetch (bk : Bank) (l : List (Reg × Word)) (k : Cpu) :
    (k.loadInto bk l).lastFetch = k.lastFetch := by
  induction l generalizing k with
  | nil => rfl
  | cons p l ih => rw [Cpu.loadInto, ih]; split <;> simp
@[simp] theorem Cpu.loadInto_pipe0 (bk : Bank) (l : List (Reg × Word)) (k : Cpu) :
    (k.loadInto bk l).pipe0 = k.pipe0 := by
  induction l generalizing k with
  | nil => rfl
  | cons p l ih => rw [Cpu.loadInto, ih]; split <;> simp
@[simp] theorem Cpu.loadInto_pipe1 (bk : Bank) (l : List (Reg × Word)) (k : Cpu) :
    (k.loadInto bk l).pipe1 = k.pipe1 := by
  induction l generalizing k with
  | nil => rfl
  | cons p l ih => rw [Cpu.loadInto, ih]; split <;> simp

/-- A slot that no register of the list names keeps its word. -/
theorem Cpu.loadInto_other (bk : Bank) (l : List (Reg × Word)) (k : Cpu) (j : Fin 30)
    (h : ∀ p ∈ l, p.1 ≠ 15 → j ≠ slot bk p.1) : (k.loadInto bk l).regs[j] = k.regs[j] := by
  induction l generalizing k with
  | nil => rfl
  | cons p l ih =>
    rw [Cpu.loadInto, ih _ fun q hq => h q (List.mem_cons_of_mem _ hq)]
    split
    · rfl
    · next e => exact Cpu.setRegAt_other _ _ _ _ _ (h p List.mem_cons_self e)

/-- Each register of a list without repeats holds its word. -/
theorem Cpu.loadInto_mem (bk : Bank) (l : List (Reg × Word)) (k : Cpu) (hd : (l.map Prod.fst).Nodup)
    {p : Reg × Word} (hp : p ∈ l) (h : p.1 ≠ 15) : (k.loadInto bk l).regs[slot bk p.1] = p.2 := by
  induction l generalizing k with
  | nil => exact absurd hp (by simp)
  | cons q l ih =>
    rw [List.map_cons, List.nodup_cons] at hd
    rw [Cpu.loadInto]
    rcases List.mem_cons.1 hp with e | hp
    · subst e
      rw [if_neg h, Cpu.loadInto_other _ _ _ _ fun q hq hq15 e =>
        slot_ne h hq15 (fun c => hd.1 (by rw [c]; exact List.mem_map_of_mem hq)) e]
      exact Cpu.setRegAt_slot _ _ _ _ h
    · exact ih _ hd.2 hp

/-- The loads of a block transfer (R341, R350). -/
theorem loadRegs_spec (user : Bool) (l : List Reg) (addr : Word) (pc : Option Word) (s : State)
    (h : wordsAt s addr l.length = true) :
    loadRegs user l addr pc s =
      .next (pcWord (wordsOf s l addr) pc,
        s.upd (Cpu.loadInto (if user then .usr else s.cur.bank) (wordsOf s l addr))) := by
  induction l generalizing addr pc s with
  | nil => simp [loadRegs, wordsOf, pcWord, Cpu.loadInto, State.upd, State.cur]
  | cons r l ih =>
    rw [List.length_cons, wordsAt, Bool.and_eq_true] at h
    rw [loadRegs, loadAligned_plain h.1, mapVal_next, wordsOf, pcWord]
    by_cases e : r = 15
    · subst e
      rw [isPc_15, if_pos rfl, if_pos rfl, ih _ _ _ h.2]
      simp [Cpu.loadInto]
    · rw [isPc_eq_false e, if_neg (by decide), if_neg e, ih _ _ _ (by
        rw [wordsAt_congr (s := s)]; exact h.2; all_goals rfl)]
      rw [wordsOf_congr (s := s) (t := s.upd _) _ _ rfl rfl rfl rfl (by simp; split <;> simp [Cpu.setRegUsr])]
      rw [State.upd_upd]
      simp only [Cpu.loadInto, if_neg e, State.upd_cur]
      cases user
      · simp only [Bool.false_eq_true, if_false, Cpu.setReg, Cpu.setRegAt_bank]
        exact congrArg Host.Outcome.next (congrArg (Prod.mk _) (State.upd_congr (by rfl)))
      · simp only [if_true, Cpu.setRegUsr]

/-- The pairs of address and value of a block store, in order. -/
def pairsOf : List Word → Word → List (Word × Word)
  | [], _ => []
  | v :: rest, addr => (addr, v) :: pairsOf rest (addr + 4)

/-- The stores of a block transfer (R341, R351). -/
theorem storeWords_spec (l : List Word) (addr : Word) (s : State) (wf : s.mem.wf = true)
    (h : wordsAt s addr l.length = true) :
    ∃ m : Memory, storeWords l addr s = .next { s with mem := m } ∧ m.wf = true ∧
      m.readByte = pokedAll s (pairsOf l addr) s.mem.readByte := by
  induction l generalizing addr s with
  | nil => exact ⟨s.mem, rfl, wf, rfl⟩
  | cons v l ih =>
    rw [List.length_cons, wordsAt, Bool.and_eq_true] at h
    obtain ⟨m, e, hm, hr⟩ := memWrite_plain v wf h.1
    obtain ⟨m', e', hm', hr'⟩ := ih (addr + 4) { s with mem := m } hm (by
      rw [wordsAt_congr (s := s)]; exact h.2; all_goals rfl)
    refine ⟨m', ?_, hm', ?_⟩
    · rw [storeWords, e, thenDo_next, e']
    · have e2 : m.readByte = poked s addr .word v s.mem.readByte := funext fun a => funext fun o => hr a o
      have cong : ∀ (ps : List (Word × Word)) old,
          pokedAll ({ s with mem := m } : State) ps old = pokedAll s ps old := fun ps => by
        induction ps with
        | nil => intro old; rfl
        | cons p ps ih => intro old; rw [pokedAll, pokedAll, ih]; rfl
      rw [hr', cong, pairsOf, pokedAll, ← e2]

/-- The registers of a list ascend, so there are no repeats. -/
theorem listRegs_nodup (list : BitVec 16) : (listRegs list).Nodup := by
  unfold listRegs List.Nodup
  rw [List.pairwise_filterMap]
  refine List.Pairwise.imp_of_mem ?_ (List.pairwise_lt_range (n := 16))
  intro a b ha hb lt x hx y hy e
  rw [List.mem_range] at ha hb
  split at hx <;> simp only [Option.some.injEq, reduceCtorEq] at hx
  split at hy <;> simp only [Option.some.injEq, reduceCtorEq] at hy
  have := congrArg BitVec.toNat (hx.trans (e.trans hy.symm))
  simp only [BitVec.toNat_ofNat] at this
  omega

/-- What `listRegs` lists. -/
theorem mem_listRegs (list : BitVec 16) (r : Reg) : r ∈ listRegs list ↔ list.getLsbD r.toNat = true := by
  unfold listRegs
  rw [List.mem_filterMap]
  constructor
  · rintro ⟨a, ha, h⟩
    rw [List.mem_range] at ha
    split at h <;> simp only [Option.some.injEq, reduceCtorEq] at h
    next c =>
      rw [← h, BitVec.toNat_ofNat, Nat.mod_eq_of_lt (by omega)]
      exact c
  · intro h
    refine ⟨r.toNat, List.mem_range.2 (by have := r.isLt; omega), ?_⟩
    rw [if_pos h, BitVec.ofNat_toNat, BitVec.setWidth_eq]

end Sys2Proof.Machine
end

