-- ==== Sys2Proof/Laws/DataProc.lean ====
section
/-! SUPPORT. What the arithmetic operations compute, over numbers, and what the shared operations of data
processing can do. -/
namespace Sys2Proof.Machine

/-- The operation of the machine that an operation of 41_data_processing.md is. -/
def DataOp.alu : DataOp → AluOp
  | .and => aluAnd | .eor => aluEor | .sub => aluSub | .rsb => aluRsb | .add => aluAdd | .adc => aluAdc
  | .sbc => aluSbc | .rsc => aluRsc | .orr => aluOrr | .mov => aluMov | .bic => aluBic | .mvn => aluMvn

/-- A word and its complement as signed numbers. -/
theorem toInt_not (a : Word) : (~~~a).toInt = -a.toInt - 1 := by
  have ha := a.isLt
  simp only [BitVec.toInt_eq_toNat_cond, BitVec.toNat_not]
  split <;> split <;> omega

/-- The signs of two words and of their sum say whether the exact signed sum fits. -/
theorem addWithCarry_overflow (a b : Word) (c : Bool) : (addWithCarry a b c).overflow =
    some (decide (a.toInt + b.toInt + c.toNat < -2147483648 ∨ 2147483648 ≤ a.toInt + b.toInt + c.toNat)) := by
  have ha := a.isLt
  have hb := b.isLt
  have hc : c.toNat ≤ 1 := by cases c <;> decide
  simp only [addWithCarry, Option.some.injEq]
  rw [Bool.eq_iff_iff]
  simp only [Bool.and_eq_true, beq_iff_eq, bne_iff_ne, ne_eq, decide_eq_true_eq, BitVec.msb_eq_decide,
    BitVec.toInt_eq_toNat_cond, BitVec.toNat_ofNat, decide_eq_decide]
  generalize a.toNat = x at *
  generalize b.toNat = y at *
  generalize c.toNat = z at *
  have e : (x + y + z) % 2 ^ 32 = if x + y + z < 4294967296 then x + y + z else x + y + z - 4294967296 := by
    split <;> omega
  rw [e]
  split <;> split <;> split <;> omega

/-- The result is the arithmetic one modulo `2 ^ 32`. -/
theorem DataOp.alu_value (o : DataOp) (a : Word) (b : Shifted) (c : Bool) :
    (o.alu a b c).value = o.value a b.value c := by
  cases o <;> simp only [DataOp.alu, aluAnd, aluEor, aluSub, aluRsb, aluAdd, aluAdc, aluSbc, aluRsc, aluOrr, aluMov,
    aluBic, aluMvn, logical, DataOp.value, addWithCarry]
  all_goals apply BitVec.eq_of_toNat_eq
  all_goals have ha := a.isLt
  all_goals have hb := b.value.isLt
  all_goals cases c <;> simp [BitVec.toNat_add, BitVec.toNat_sub, BitVec.toNat_not] <;> omega

/-- C is the shifter's carry, the carry out, or "no borrow". -/
theorem DataOp.alu_carry (o : DataOp) (a : Word) (b : Shifted) (c : Bool) :
    (o.alu a b c).carry = o.carry a b.value c b.carry := by
  cases o <;> simp only [DataOp.alu, aluAnd, aluEor, aluSub, aluRsb, aluAdd, aluAdc, aluSbc, aluRsc, aluOrr, aluMov,
    aluBic, aluMvn, logical, DataOp.carry, addWithCarry]
  all_goals have ha := a.isLt
  all_goals have hb := b.value.isLt
  all_goals simp only [BitVec.toNat_not, decide_eq_decide]
  all_goals cases c <;> simp <;> omega

/-- V is the signed overflow of the exact result; a logical operation keeps it. -/
theorem DataOp.alu_overflow (o : DataOp) (a : Word) (b : Shifted) (c v : Bool) :
    (o.alu a b c).overflow.getD v = o.overflow a b.value c v := by
  cases o <;> simp only [DataOp.alu, aluAnd, aluEor, aluSub, aluRsb, aluAdd, aluAdc, aluSbc, aluRsc, aluOrr, aluMov,
    aluBic, aluMvn, logical, DataOp.overflow, DataOp.exact, addWithCarry_overflow, Option.getD, toInt_not]
  all_goals simp only [decide_eq_decide]
  all_goals cases c <;> simp <;> omega

/-- The flags an operation sets are those the spec gives it. -/
theorem DataOp.alu_flags (o : DataOp) (a : Word) (b : Shifted) (psr : Word) :
    FlagsOf o a b.value b.carry psr (setFlags psr (o.alu a b (psrC psr))) where
  n := by rw [psrN_setFlags, DataOp.alu_value]
  z := by rw [psrZ_setFlags, DataOp.alu_value]
  c := by rw [psrC_setFlags, DataOp.alu_carry]
  v := by rw [psrV_setFlags, DataOp.alu_overflow]

/-- An operation writes no bit of CPSR but its flags. -/
theorem DataOp.alu_bits (o : DataOp) (a : Word) (b : Shifted) (c : Bool) (psr : Word) :
    setFlags psr (o.alu a b c) &&& ~~~o.bits = psr &&& ~~~o.bits := by
  cases o <;> first | exact setFlags_keeps_nzc _ _ rfl | exact setFlags_keeps_nzcv _ _

/-- Setting flags leaves the mode. -/
@[simp] theorem modeOf_setFlags (psr : Word) (a : AluResult) : modeOf (setFlags psr a) = modeOf psr := by
  unfold setFlags setNZ
  cases a.overflow <;>
    simp only [modeOf_setBit _ _ _ (show 28 < 32 by omega) (by omega),
      modeOf_setBit _ _ _ (show 29 < 32 by omega) (by omega),
      modeOf_setBit _ _ _ (show 30 < 32 by omega) (by omega),
      modeOf_setBit _ _ _ (show 31 < 32 by omega) (by omega)]

/-! Writing a result. -/

@[simp] theorem Cpu.writeResult_r15 (k : Cpu) (S : Bool) (rd : Reg) (a : AluResult) :
    (k.writeResult S rd a).r15 = k.r15 := by unfold Cpu.writeResult; split <;> simp
@[simp] theorem Cpu.writeResult_spsr (k : Cpu) (S : Bool) (rd : Reg) (a : AluResult) :
    (k.writeResult S rd a).spsr = k.spsr := by unfold Cpu.writeResult; split <;> simp
@[simp] theorem Cpu.writeResult_waiting (k : Cpu) (S : Bool) (rd : Reg) (a : AluResult) :
    (k.writeResult S rd a).waiting = k.waiting := by unfold Cpu.writeResult; split <;> simp
@[simp] theorem Cpu.writeResult_cyc (k : Cpu) (S : Bool) (rd : Reg) (a : AluResult) :
    (k.writeResult S rd a).cyc = k.cyc := by unfold Cpu.writeResult; split <;> simp
@[simp] theorem Cpu.writeResult_lastFetch (k : Cpu) (S : Bool) (rd : Reg) (a : AluResult) :
    (k.writeResult S rd a).lastFetch = k.lastFetch := by unfold Cpu.writeResult; split <;> simp
@[simp] theorem Cpu.writeResult_pipe0 (k : Cpu) (S : Bool) (rd : Reg) (a : AluResult) :
    (k.writeResult S rd a).pipe0 = k.pipe0 := by unfold Cpu.writeResult; split <;> simp
@[simp] theorem Cpu.writeResult_pipe1 (k : Cpu) (S : Bool) (rd : Reg) (a : AluResult) :
    (k.writeResult S rd a).pipe1 = k.pipe1 := by unfold Cpu.writeResult; split <;> simp
@[simp] theorem Cpu.writeResult_regs (k : Cpu) (S : Bool) (rd : Reg) (a : AluResult) :
    (k.writeResult S rd a).regs = (k.setReg rd a.value).regs := by unfold Cpu.writeResult; split <;> rfl
theorem Cpu.writeResult_cpsr (k : Cpu) (S : Bool) (rd : Reg) (a : AluResult) :
    (k.writeResult S rd a).cpsr = if S then setFlags k.cpsr a else k.cpsr := by
  unfold Cpu.writeResult; split <;> simp
theorem Cpu.writeResult_mode (k : Cpu) (S : Bool) (rd : Reg) (a : AluResult) :
    modeOf (k.writeResult S rd a).cpsr = modeOf k.cpsr := by
  rw [Cpu.writeResult_cpsr]; split <;> simp

/-- Writing a result and advancing by `width`: everything it can do. -/
theorem writeResult_spec {s : State} {rd : Reg} (S : Bool) (o : DataOp) (a : Word) (b : Shifted) (width : Word)
    (h : rd ≠ 15) :
    let t := s.upd fun k =>
      { k.writeResult S rd (o.alu a b (psrC s.cur.cpsr)) with r15 := k.r15 + width }
    t.cur.reg rd = o.value a b.value (psrC s.cur.cpsr) ∧
      (S = true → FlagsOf o a b.value b.carry s.cur.cpsr t.cur.cpsr) ∧
      RegisterFrame [s.slotOf rd] (if S then o.bits else 0) width s t := by
  refine ⟨?_, fun hS => ?_, ?_⟩
  · rw [State.upd_cur, Cpu.reg_congr (k := s.cur.setReg rd (o.alu a b (psrC s.cur.cpsr)).value) h
      (by simp) (by simp [Cpu.writeResult_mode]), Cpu.reg_setReg_same _ _ _ h, DataOp.alu_value]
  · subst hS
    rw [State.upd_cur]
    simp only [Cpu.writeResult_cpsr, if_true]
    exact DataOp.alu_flags o a b s.cur.cpsr
  · apply finish_frame
    case regs =>
      intro j hj
      simp only [Cpu.writeResult_regs]
      exact Cpu.setReg_other _ _ _ _ (by simpa [State.slotOf] using hj)
    case psr =>
      simp only [Cpu.writeResult_cpsr]
      split
      · exact DataOp.alu_bits o a b _ _
      · simp
    all_goals simp

/-- Writing flags alone and advancing by `width`. -/
theorem writeFlags_spec (s : State) (o : DataOp) (a : Word) (b : Shifted) (width : Word) :
    let t := s.upd fun k =>
      { k with cpsr := setFlags k.cpsr (o.alu a b (psrC s.cur.cpsr)), r15 := k.r15 + width }
    FlagsOf o a b.value b.carry s.cur.cpsr t.cur.cpsr ∧ RegisterFrame [] o.bits width s t := by
  refine ⟨?_, ?_⟩
  · rw [State.upd_cur]; exact DataOp.alu_flags o a b s.cur.cpsr
  · apply finish_frame
    case psr => exact DataOp.alu_bits o a b _ _
    all_goals simp

/-- The end of a data-processing instruction that writes a register other than `r15`. -/
theorem dpFinish_spec {s : State} {rd : Reg} (S : Bool) (o : DataOp) (a : Word) (b : Shifted) (h : rd ≠ 15) :
    ∃ t, dpFinish S rd (o.alu a b (psrC s.cur.cpsr)) s = .next t ∧
      t.cur.reg rd = o.value a b.value (psrC s.cur.cpsr) ∧
      (S = true → FlagsOf o a b.value b.carry s.cur.cpsr t.cur.cpsr) ∧
      RegisterFrame [s.slotOf rd] (if S then o.bits else 0) 4 s t := by
  refine ⟨_, ?_, writeResult_spec S o a b 4 h⟩
  simp only [dpFinish, isPc_eq_false h, Bool.false_eq_true, if_false, finishArm, advanceArm, State.upd_upd,
    Cpu.writeResult_r15]

/-- The end of a comparison. -/
theorem dpCompare_spec {s : State} {rd : Reg} (o : DataOp) (a : Word) (b : Shifted) (h : rd ≠ 15) :
    ∃ t, dpCompare rd (o.alu a b (psrC s.cur.cpsr)) s = .next t ∧
      FlagsOf o a b.value b.carry s.cur.cpsr t.cur.cpsr ∧ RegisterFrame [] o.bits 4 s t := by
  refine ⟨_, ?_, writeFlags_spec s o a b 4⟩
  simp only [dpCompare, isPc_eq_false h, refuseIf_false, finishArm, advanceArm, State.upd_upd]

/-- The end of a Thumb operation that writes a register. -/
theorem thumbAlu_spec (s : State) (rd : LowReg) (o : DataOp) (a : Word) (b : Shifted) (f : Cpu → AluResult)
    (hf : f s.cur = o.alu a b (psrC s.cur.cpsr)) :
    ∃ t, thumbAlu rd f s = .next t ∧ FlagsOf o a b.value b.carry s.cur.cpsr t.cur.cpsr ∧
      t.cur.reg (low rd) = o.value a b.value (psrC s.cur.cpsr) ∧
      RegisterFrame [s.slotOf (low rd)] o.bits 2 s t := by
  have hl : low rd ≠ 15 := by revert rd; decide
  have h := writeResult_spec (s := s) true o a b 2 hl
  refine ⟨_, ?_, h.2.1 rfl, h.1, h.2.2⟩
  simp only [thumbAlu, finishThumb, advanceThumb, State.upd_upd, Cpu.writeResult_r15]
  exact congrArg _ (State.upd_congr (by simp only [hf]))

/-- The end of a Thumb operation that writes flags only. -/
theorem thumbCompare_spec (s : State) (o : DataOp) (a : Word) (b : Shifted) (f : Cpu → AluResult)
    (hf : f s.cur = o.alu a b (psrC s.cur.cpsr)) :
    ∃ t, thumbCompare f s = .next t ∧ FlagsOf o a b.value b.carry s.cur.cpsr t.cur.cpsr ∧
      RegisterFrame [] o.bits 2 s t := by
  refine ⟨_, ?_, writeFlags_spec s o a b 2⟩
  simp only [thumbCompare, finishThumb, advanceThumb, State.upd_upd]
  exact congrArg _ (State.upd_congr (by simp only [hf]))

/-- A data-processing result in `r15` without S: a branch in the same state. -/
theorem dpFinish_branch {s : State} (a : AluResult) (h : codeAt s s.cur.thumb a.value = true) :
    ∃ t, dpFinish false 15 a s = .next t ∧ BranchFrame [] s.cur.cpsr a.value s t := by
  obtain ⟨t, h1, -, -, h2⟩ := branchTo_frame (s := s) (f := id) (ws := []) (target := a.value)
    (fun _ _ => rfl) rfl rfl rfl rfl h
  refine ⟨t, ?_, h2⟩
  rw [← h1, dpFinish, isPc_15, show s.upd id = s by simp [State.upd, State.cur]]
  rfl

/-- The return from an exception (R213, 60_exceptions.md R512). -/
theorem returnTo_spec {s : State} {v target : Word} (hs : s.cur.spsrAt s.cur.bank = some v)
    (hv : validMode (modeOf v) = true) (h : codeAt s (psrT v) target = true) :
    ∃ t, returnTo target s = .next t ∧ t.cur.regs = s.cur.regs ∧ BranchFrame [] v target s t := by
  obtain ⟨t, h1, h2, -, h3⟩ := branchTo_frame (s := s) (f := fun k => { k with cpsr := v }) (ws := [])
    (target := target) (fun _ _ => rfl) rfl rfl rfl rfl h
  refine ⟨t, ?_, h2, h3⟩
  rw [← h1]
  simp [returnTo, copySpsr, hs, hv]

theorem returnTo_invalid {s : State} {v : Word} (target : Word) (hs : s.cur.spsrAt s.cur.bank = some v)
    (hv : validMode (modeOf v) = false) : returnTo target s = .fault .invalidMode := by
  simp [returnTo, copySpsr, hs, hv]

theorem returnTo_none {s : State} (target : Word) (hs : s.cur.spsrAt s.cur.bank = none) :
    returnTo target s = .refused .spsrInUserMode := by
  simp [returnTo, copySpsr, hs]

end Sys2Proof.Machine
end

