-- ==== Sys2Proof/Laws/Decode.lean ====
section
/-! SUPPORT. The small lemmas of the encodings: cutting and joining words, the fields of conditions and
shift types, bytes and words, and when a row that selects an index is the row the search finds. -/
namespace Sys2Proof

@[simp] theorem Cond.ofBits_bits (c : Cond) : Cond.ofBits c.bits = some c := by cases c <;> rfl

@[simp] theorem Cond.ofBits_nv : Cond.ofBits 0b1111#4 = none := rfl

@[simp] theorem ShiftType.ofBits_bits (t : ShiftType) : ShiftType.ofBits t.bits = t := by cases t <;> rfl

/-- A condition field is a condition or the NV space. -/
theorem Cond.bits_ofBits {b : BitVec 4} {c : Cond} (h : Cond.ofBits b = some c) : c.bits = b := by
  revert h; revert c; revert b; decide

/-- The upper part of an append. -/
theorem extract_append_high {n m : Nat} (x : BitVec n) (y : BitVec m) (k l : Nat) (h : m ≤ k) :
    (x ++ y).extractLsb' k l = x.extractLsb' (k - m) l := by
  apply BitVec.eq_of_getLsbD_eq
  intro i hi
  simp only [BitVec.getLsbD_extractLsb', BitVec.getLsbD_append, hi, decide_true, Bool.true_and]
  rw [if_neg (by omega), show k - m + i = k + i - m by omega]

/-- The lower part of an append. -/
theorem extract_append_low {n m : Nat} (x : BitVec n) (y : BitVec m) (k l : Nat) (h : k + l ≤ m) :
    (x ++ y).extractLsb' k l = y.extractLsb' k l := by
  apply BitVec.eq_of_getLsbD_eq
  intro i hi
  simp only [BitVec.getLsbD_extractLsb', BitVec.getLsbD_append, hi, decide_true, Bool.true_and]
  rw [if_pos (by omega)]

/-- A whole value is its own extract. -/
theorem extract_self {n : Nat} (x : BitVec n) : x.extractLsb' 0 n = x := by
  apply BitVec.eq_of_getLsbD_eq
  intro i hi
  simp [hi]

/-- Two adjacent extracts join. -/
theorem extract_join {w : Nat} (x : BitVec w) (k l m : Nat) :
    x.extractLsb' (k + l) m ++ x.extractLsb' k l = x.extractLsb' k (m + l) := by
  apply BitVec.eq_of_getLsbD_eq
  intro i hi
  simp only [BitVec.getLsbD_extractLsb', BitVec.getLsbD_append]
  by_cases h : i < l
  · simp [h]
    omega
  · rw [if_neg h, show k + l + (i - l) = k + i by omega]
    simp [hi, show i - l < m by omega]

/-- Cutting a joined word gives the fields back. -/
theorem ArmFields.ofWord_toWord (f : ArmFields) : ArmFields.ofWord f.toWord = f := by
  obtain ⟨cond, hi, f19, f15, f11, lo, f3⟩ := f
  unfold ArmFields.ofWord ArmFields.toWord
  simp only [ArmFields.mk.injEq]
  refine ⟨?_, ?_, ?_, ?_, ?_, ?_, ?_⟩ <;>
    (repeat rw [extract_append_high _ _ _ _ (by decide)]) <;>
    (try rw [extract_append_low _ _ _ _ (by decide)]) <;> exact extract_self _

/-- Joining a cut word gives the word back. -/
theorem ArmFields.toWord_ofWord (w : Word) : (ArmFields.ofWord w).toWord = w := by
  have h1 : w.extractLsb' 28 4 ++ w.extractLsb' 20 8 = w.extractLsb' 20 12 := extract_join w 20 8 4
  have h2 : w.extractLsb' 20 12 ++ w.extractLsb' 16 4 = w.extractLsb' 16 16 := extract_join w 16 4 12
  have h3 : w.extractLsb' 16 16 ++ w.extractLsb' 12 4 = w.extractLsb' 12 20 := extract_join w 12 4 16
  have h4 : w.extractLsb' 12 20 ++ w.extractLsb' 8 4 = w.extractLsb' 8 24 := extract_join w 8 4 20
  have h5 : w.extractLsb' 8 24 ++ w.extractLsb' 4 4 = w.extractLsb' 4 28 := extract_join w 4 4 24
  have h6 : w.extractLsb' 4 28 ++ w.extractLsb' 0 4 = w.extractLsb' 0 32 := extract_join w 0 4 28
  unfold ArmFields.ofWord ArmFields.toWord
  simp only [h1, h2, h3, h4, h5, h6]
  exact extract_self w

theorem ThumbFields.ofHalf_toHalf (f : ThumbFields) : ThumbFields.ofHalf f.toHalf = f := by
  obtain ⟨top, f5, f2⟩ := f
  unfold ThumbFields.ofHalf ThumbFields.toHalf
  simp only [ThumbFields.mk.injEq]
  refine ⟨?_, ?_, ?_⟩ <;>
    (repeat rw [extract_append_high _ _ _ _ (by decide)]) <;>
    (try rw [extract_append_low _ _ _ _ (by decide)]) <;> exact extract_self _

theorem ThumbFields.toHalf_ofHalf (h : Half) : (ThumbFields.ofHalf h).toHalf = h := by
  have h1 : h.extractLsb' 6 10 ++ h.extractLsb' 3 3 = h.extractLsb' 3 13 := extract_join h 3 3 10
  have h2 : h.extractLsb' 3 13 ++ h.extractLsb' 0 3 = h.extractLsb' 0 16 := extract_join h 0 3 13
  unfold ThumbFields.ofHalf ThumbFields.toHalf
  simp only [h1, h2]
  exact extract_self h

/-- Decoding a joined ARM word is decoding its fields. -/
theorem decodeArm_toWord (f : ArmFields) : decodeArm f.toWord = decodeArmFields f := by
  rw [decodeArm, ArmFields.ofWord_toWord]

/-- Decoding a joined Thumb halfword is decoding its fields. -/
theorem decodeThumb_toHalf (f : ThumbFields) : decodeThumb f.toHalf = decodeThumbFields f := by
  rw [decodeThumb, ThumbFields.ofHalf_toHalf]

/-- Where only one element passes a test, an element that passes it is the one the search finds. -/
theorem find_of_filter_one {α : Type} (p : α → Bool) (l : List α) (a : α) (ha : a ∈ l) (hp : p a = true)
    (h1 : (l.filter p).length = 1) : l.find? p = some a := by
  obtain ⟨b, hb⟩ := List.length_eq_one_iff.mp h1
  have hab : a = b := by
    have : a ∈ l.filter p := List.mem_filter.mpr ⟨ha, hp⟩
    rw [hb] at this
    simpa using this
  rw [← List.head?_filter, hb, hab]
  rfl

/-- The condition field of a joined word. -/
@[simp] theorem ArmFields.toWord_cond (f : ArmFields) : f.toWord.extractLsb' 28 4 = f.cond :=
  congrArg ArmFields.cond (ArmFields.ofWord_toWord f)

/-- A byte of a word. -/
theorem byte_of_toNat {n : Nat} (w : BitVec n) (k d : Nat) (h : d = 2 ^ k) :
    BitVec.ofNat 8 (w.toNat / d) = w.extractLsb' k 8 := by
  rw [h, ← Nat.shiftRight_eq_div_pow]
  rfl

/-- The bytes of an ARM encoding decode as its word does. -/
theorem decodeBytes_arm (w : Word) : decodeBytes false (Encoding.bytes (.arm w)) = orNoRow (decodeArm w) [] := by
  have h1 : w.extractLsb' 24 8 ++ w.extractLsb' 16 8 = w.extractLsb' 16 16 := extract_join w 16 8 8
  have h2 : w.extractLsb' 16 16 ++ w.extractLsb' 8 8 = w.extractLsb' 8 24 := extract_join w 8 8 16
  have h3 : w.extractLsb' 8 24 ++ w.extractLsb' 0 8 = w.extractLsb' 0 32 := extract_join w 0 8 24
  have b0 : BitVec.ofNat 8 w.toNat = w.extractLsb' 0 8 := rfl
  simp only [decodeBytes, Encoding.bytes, bytesOfNat, Bool.false_eq_true, if_false, Nat.div_div_eq_div_mul]
  rw [byte_of_toNat w 24 (256 * 256 * 256) rfl, byte_of_toNat w 16 (256 * 256) rfl, byte_of_toNat w 8 256 rfl, b0,
    h1, h2, h3, extract_self]

/-- The bytes of a Thumb encoding decode as its halfword does. -/
theorem decodeBytes_thumb (w : Half) :
    decodeBytes true (Encoding.bytes (.thumb w)) = orNoRow (decodeThumb w) [] := by
  have h1 : w.extractLsb' 8 8 ++ w.extractLsb' 0 8 = w.extractLsb' 0 16 := extract_join w 0 8 8
  have b0 : BitVec.ofNat 8 w.toNat = w.extractLsb' 0 8 := rfl
  simp only [decodeBytes, Encoding.bytes, bytesOfNat, if_true]
  rw [byte_of_toNat w 8 256 rfl, b0, h1, extract_self]

end Sys2Proof
end

