-- ==== Sys2Proof/Laws/Devices.lean ====
section
/-! SUPPORT. What data accesses can do at any address: the bus operations read nothing of the cores but the
open-bus latch and write nothing of them, and `ReadsAs` and `WritesAs` say what the loads and stores get. -/
namespace Sys2Proof.Machine

/-- The cores replaced. -/
def State.withCpus (s : State) (k : PerCore Cpu) : State := { s with cpu := k }

@[simp] theorem State.withCpus_cpu (s : State) (k : PerCore Cpu) : (s.withCpus k).cpu = k := rfl
@[simp] theorem State.withCpus_current (s : State) (k : PerCore Cpu) : (s.withCpus k).current = s.current := rfl
@[simp] theorem State.withCpus_mem (s : State) (k : PerCore Cpu) : (s.withCpus k).mem = s.mem := rfl
@[simp] theorem State.withCpus_ipc (s : State) (k : PerCore Cpu) : (s.withCpus k).ipc = s.ipc := rfl
@[simp] theorem State.withCpus_irq (s : State) (k : PerCore Cpu) : (s.withCpus k).irq = s.irq := rfl
@[simp] theorem State.withCpus_draws (s : State) (k : PerCore Cpu) : (s.withCpus k).draws = s.draws := rfl
@[simp] theorem State.withCpus_agentTape (s : State) (k : PerCore Cpu) :
    (s.withCpus k).agentTape = s.agentTape := rfl
@[simp] theorem State.withCpus_self (s : State) : s.withCpus s.cpu = s := rfl
@[simp] theorem State.withCpus_withCpus (s : State) (k k' : PerCore Cpu) :
    (s.withCpus k).withCpus k' = s.withCpus k' := rfl

/-- The open-bus latches are those of the cores `k` too. -/
def SameLatch (s : State) (k : PerCore Cpu) : Prop := ∀ c, (k.get c).lastFetch = (s.cpu.get c).lastFetch

/-- An outcome with the cores replaced. -/
def resultWithCpus (r : Result) (k : PerCore Cpu) : Result := thenDo r fun t => .next (t.withCpus k)

/-- An outcome with a value, the cores replaced. -/
def valueWithCpus {α : Type} (r : ValueResult α) (k : PerCore Cpu) : ValueResult α :=
  mapVal r fun v t => .next (v, t.withCpus k)

@[simp] theorem resultWithCpus_next (s : State) (k : PerCore Cpu) :
    resultWithCpus (.next s) k = .next (s.withCpus k) := rfl
@[simp] theorem resultWithCpus_fault (f : Fault) (k : PerCore Cpu) : resultWithCpus (.fault f) k = .fault f := rfl
@[simp] theorem resultWithCpus_refused (f : Refusal) (k : PerCore Cpu) :
    resultWithCpus (.refused f) k = .refused f := rfl
@[simp] theorem valueWithCpus_next {α : Type} (v : α) (s : State) (k : PerCore Cpu) :
    valueWithCpus (.next (v, s)) k = .next (v, s.withCpus k) := rfl
@[simp] theorem valueWithCpus_fault {α : Type} (f : Fault) (k : PerCore Cpu) :
    valueWithCpus (.fault f : ValueResult α) k = .fault f := rfl
@[simp] theorem valueWithCpus_refused {α : Type} (f : Refusal) (k : PerCore Cpu) :
    valueWithCpus (.refused f : ValueResult α) k = .refused f := rfl

/-! The devices know nothing of the cores. -/

@[simp] theorem raiseIf_withCpus (p : Bool) (c : CoreId) (source : BitVec 5) (s : State) (k : PerCore Cpu) :
    raiseIf p c source (s.withCpus k) = (raiseIf p c source s).withCpus k := by
  cases p <;> rfl
@[simp] theorem updIpc_withCpus (c : CoreId) (f : IpcSide → IpcSide) (s : State) (k : PerCore Cpu) :
    updIpc c f (s.withCpus k) = (updIpc c f s).withCpus k := rfl
@[simp] theorem popTarget_withCpus (s : State) (c : CoreId) (k : PerCore Cpu) :
    popTarget (s.withCpus k) c = popTarget s c := rfl

theorem regRead_withCpus (c : CoreId) (r : IoReg) (s : State) (k : PerCore Cpu) :
    regRead c r (s.withCpus k) = valueWithCpus (regRead c r s) k := by
  cases r
  case fifoRecv =>
    cases h : (s.ipc.get c).en <;> cases h' : (s.ipc.get c.peer).q <;> simp [regRead, fifoPop, h, h']
  all_goals rfl

theorem regWrite_withCpus (c : CoreId) (r : IoReg) (v : Word) (lanes : BitVec 4) (s : State)
    (k : PerCore Cpu) : regWrite c r v lanes (s.withCpus k) = resultWithCpus (regWrite c r v lanes s) k := by
  cases r
  case ipcSync =>
    cases h : lanes.getLsbD 1 <;>
      simp only [regWrite, ipcSyncWrite, h, State.withCpus_ipc, updIpc_withCpus,
        raiseIf_withCpus, resultWithCpus_next, Bool.false_eq_true, if_true, if_false]
  case fifoCnt =>
    cases h : lanes.getLsbD 0 <;> cases h' : lanes.getLsbD 1 <;>
      simp only [regWrite, fifoCntWrite, fifoCntWriteLow, fifoCntWriteHigh, h, h', State.withCpus_ipc, updIpc_withCpus,
        raiseIf_withCpus, resultWithCpus_next, Bool.false_eq_true, if_true, if_false]
  case fifoSend =>
    cases h : (s.ipc.get c).en <;> cases h' : fifoFull (s.ipc.get c).q <;> simp [regWrite, fifoPush, h, h']
  case ime => cases h : lanes.getLsbD 0 <;> simp only [regWrite, h] <;> rfl
  all_goals rfl

theorem readAligned_withCpus (c : CoreId) (a : Word) (w : Width) (kind : AccessKind) {s : State}
    {k : PerCore Cpu} (h : SameLatch s k) :
    readAligned c a w kind (s.withCpus k) = valueWithCpus (readAligned c a w kind s) k := by
  have e : region (s.withCpus k) c a kind = region s c a kind := rfl
  simp only [readAligned, e]
  cases region s c a kind with
  | io =>
    simp only [ioRead]
    cases ioReg (a &&& 0xFFFFFFFC) with
    | none => rfl
    | some r =>
      simp only [regRead_withCpus]
      cases regRead c r s <;> rfl
  | unmapped => simp [valueWithCpus, h c]
  | _ => rfl

theorem writeAligned_withCpus (c : CoreId) (a : Word) (w : Width) (v : Word) (s : State) (k : PerCore Cpu) :
    writeAligned c a w v (s.withCpus k) = resultWithCpus (writeAligned c a w v s) k := by
  have e : region (s.withCpus k) c a .data = region s c a .data := rfl
  simp only [writeAligned, e]
  cases region s c a .data with
  | io =>
    simp only [ioWrite]
    cases ioReg (a &&& 0xFFFFFFFC) with
    | none => rfl
    | some r => exact regWrite_withCpus ..
  | _ => rfl

theorem agentAct_withCpus (act : AgentAct) {s : State} {k : PerCore Cpu} (h : SameLatch s k) :
    agentAct act (s.withCpus k) = resultWithCpus (agentAct act s) k := by
  cases act with
  | busRead c addr w =>
    simp only [agentAct, busRead, readAligned_withCpus _ _ _ _ h]
    cases readAligned c (alignTo w addr) w .data s <;> rfl
  | busWrite c addr w v => exact writeAligned_withCpus ..
  | add delta action =>
    have e (p : Prop) [Decidable p] (x y : Result) :
        resultWithCpus (if p then x else y) k = if p then resultWithCpus x k else resultWithCpus y k :=
      apply_ite (resultWithCpus · k) p x y
    simp only [agentAct, schedAdd, e]
    rfl
  | _ => rfl

/-- What keeps its meaning when the cores are replaced leaves the cores alone. -/
theorem cpu_of_withCpus {r : Result} {s t : State} (h : r = resultWithCpus r s.cpu) (e : r = .next t) :
    t.cpu = s.cpu := by
  rw [e] at h
  simp only [resultWithCpus, thenDo_next, Host.Outcome.next.injEq] at h
  rw [h]; rfl

theorem agentActs_withCpus (acts : List AgentAct) {s : State} {k : PerCore Cpu} (h : SameLatch s k) :
    agentActs acts (s.withCpus k) = resultWithCpus (agentActs acts s) k := by
  induction acts generalizing s with
  | nil => rfl
  | cons act rest ih =>
    simp only [agentActs, agentAct_withCpus act h]
    cases e : agentAct act s with
    | next t =>
      have hc := cpu_of_withCpus (s := s) (agentAct_withCpus act fun _ => rfl) e
      simp only [resultWithCpus, thenDo_next]
      exact ih fun c => by rw [hc]; exact h c
    | fault f => rfl
    | refused f => rfl

theorem agentPoint_eq (s : State) :
    agentPoint s = agentActs (s.agentTape.headD []) { s with agentTape := s.agentTape.tail } := by
  unfold agentPoint
  cases h : s.agentTape with
  | nil => simp only [List.headD, List.tail, agentActs]; rw [← h]
  | cons acts rest => rfl

theorem agentPoint_withCpus {s : State} {k : PerCore Cpu} (h : SameLatch s k) :
    agentPoint (s.withCpus k) = resultWithCpus (agentPoint s) k := by
  rw [agentPoint_eq, agentPoint_eq]
  exact agentActs_withCpus _ (s := { s with agentTape := s.agentTape.tail }) h

/-- A read of the core that runs reads nothing of the cores but the latch, and writes nothing of them. -/
theorem memRead_withCpus (addr : Word) (w : Width) (kind : AccessKind) {s : State} {k : PerCore Cpu}
    (h : SameLatch s k) : memRead addr w kind (s.withCpus k) = valueWithCpus (memRead addr w kind s) k := by
  simp only [memRead, State.withCpus_current, readAligned_withCpus _ _ _ _ h]
  cases e : readAligned s.current (alignTo w addr) w kind s with
  | next p =>
    have hc : p.2.cpu = s.cpu := by
      have := readAligned_withCpus s.current (alignTo w addr) w kind (s := s) (k := s.cpu) fun _ => rfl
      rw [State.withCpus_self, e] at this
      simp only [valueWithCpus, mapVal, Host.Outcome.next.injEq, Prod.ext_iff] at this
      rw [this.2]; rfl
    have hr : reachesAgent (s.withCpus k) s.current (alignTo w addr) kind =
        reachesAgent s s.current (alignTo w addr) kind := rfl
    simp only [valueWithCpus, mapVal, hr]
    split
    · rw [agentPoint_withCpus fun c => by rw [hc]; exact h c]
      cases agentPoint p.2 <;> rfl
    · rfl
  | fault f => rfl
  | refused f => rfl

/-- A write of the core that runs reads and writes nothing of the cores. -/
theorem memWrite_withCpus (addr : Word) (w : Width) (v : Word) {s : State} {k : PerCore Cpu}
    (h : SameLatch s k) : memWrite addr w v (s.withCpus k) = resultWithCpus (memWrite addr w v s) k := by
  simp only [memWrite, State.withCpus_current, writeAligned_withCpus]
  cases e : writeAligned s.current (alignTo w addr) w v s with
  | next t =>
    have hc : t.cpu = s.cpu := cpu_of_withCpus (writeAligned_withCpus _ _ _ _ s s.cpu) e
    have hr : reachesAgent (s.withCpus k) s.current (alignTo w addr) .data =
        reachesAgent s s.current (alignTo w addr) .data := rfl
    simp only [resultWithCpus, thenDo_next, hr]
    split
    · rw [agentPoint_withCpus fun c => by rw [hc]; exact h c]; rfl
    · rfl
  | fault f => rfl
  | refused f => rfl

/-! Which core runs is not the bus's to change. -/

@[simp] theorem raiseIf_current (p : Bool) (c : CoreId) (source : BitVec 5) (s : State) :
    (raiseIf p c source s).current = s.current := by cases p <;> rfl

theorem regRead_current {c : CoreId} {r : IoReg} {s t : State} {v : Word} (h : regRead c r s = .next (v, t)) :
    t.current = s.current := by
  cases r
  case fifoRecv =>
    simp only [regRead, fifoPop] at h
    repeat' split at h
    all_goals cases h
    all_goals simp [updIpc]
  all_goals cases h; rfl

theorem regWrite_current {c : CoreId} {r : IoReg} {v : Word} {lanes : BitVec 4} {s t : State}
    (h : regWrite c r v lanes s = .next t) : t.current = s.current := by
  cases r
  case ipcSync =>
    cases h
    simp only [ipcSyncWrite]
    split <;> simp [updIpc]
  case fifoCnt =>
    cases h
    have low : ∀ u : State, (fifoCntWriteLow c v u).current = u.current := fun u => by
      simp [fifoCntWriteLow, updIpc]
    have high : ∀ u : State, (fifoCntWriteHigh c v u).current = u.current := fun u => by
      simp [fifoCntWriteHigh, updIpc]
    simp only [fifoCntWrite]
    repeat' split
    all_goals simp only [low, high]
  case fifoSend =>
    simp only [regWrite, fifoPush] at h
    repeat' split at h
    all_goals cases h
    all_goals simp [updIpc]
  case ime =>
    cases h
    split <;> rfl
  all_goals cases h; rfl

theorem readAligned_current {c : CoreId} {a : Word} {w : Width} {kind : AccessKind} {s t : State} {v : Word}
    (h : readAligned c a w kind s = .next (v, t)) : t.current = s.current := by
  simp only [readAligned] at h
  split at h
  case h_3 =>
    simp only [ioRead] at h
    split at h
    · obtain ⟨v', s', e, e'⟩ := mapVal_eq_next h
      cases e'
      exact regRead_current e
    · cases h; rfl
  all_goals cases h; rfl

theorem writeAligned_current {c : CoreId} {a : Word} {w : Width} {v : Word} {s t : State}
    (h : writeAligned c a w v s = .next t) : t.current = s.current := by
  simp only [writeAligned] at h
  split at h
  case h_3 =>
    simp only [ioWrite] at h
    split at h
    · exact regWrite_current h
    · cases h; rfl
  all_goals cases h; rfl

theorem agentAct_current {act : AgentAct} {s t : State} (h : agentAct act s = .next t) :
    t.current = s.current := by
  cases act with
  | busRead c addr w =>
    obtain ⟨v, s', e, e'⟩ := bindVal_eq_next h
    cases e'
    exact readAligned_current e
  | busWrite c addr w v => exact writeAligned_current h
  | add delta action =>
    simp only [agentAct, schedAdd] at h
    repeat' split at h
    all_goals cases h
    all_goals rfl
  | _ => cases h; rfl

theorem agentActs_current {acts : List AgentAct} {s t : State} (h : agentActs acts s = .next t) :
    t.current = s.current := by
  induction acts generalizing s with
  | nil => cases h; rfl
  | cons act rest ih =>
    obtain ⟨u, e, e'⟩ := thenDo_eq_next h
    exact (ih e').trans (agentAct_current e)

/-! What a data access gets, and that it leaves the cores alone. -/

theorem reachesAgent_eq (s : State) (a : Word) : reachesAgent s s.current a .data = externalAt s a := by
  unfold reachesAgent externalAt
  cases region s s.current a .data <;> rfl

/-- `ReadsAs` is what `MemRead` of the core that runs does (R72). -/
theorem memRead_of_readsAs {s t : State} {addr : Word} {w : Width} {v : Word} (h : ReadsAs s addr w v t) :
    memRead addr w .data s = .next (v, t) := by
  have e3 : (0xFFFFFFFC : Word) = ~~~3#32 := by decide
  cases h with
  | plain h => exact memRead_plain h
  | register r v' _ hr hi h =>
    simp only [memRead, readAligned, hr, ioRead, e3, hi, h, mapVal_next, reachesAgent_eq, externalAt]
    rfl
  | device _ hx h =>
    rw [← reachesAgent_eq] at hx
    have e : readAligned s.current (alignTo w addr) w .data s =
        .next (truncWidth w (Config.freeWord s.draws), { s with draws := s.draws + 1 }) := by
      rw [reachesAgent_eq, externalAt] at hx
      simp only [readAligned]
      split at hx
      · next hr => rw [hr]; rfl
      · next hr =>
        rw [hr]
        simp only [ioRead, e3, Option.isNone_iff_eq_none.1 hx]
        rfl
      · cases hx
    simp only [memRead, e, mapVal_next]
    have hx' : reachesAgent { s with draws := s.draws + 1 } s.current (alignTo w addr) .data = true := hx
    rw [if_pos (by exact hx), agentPoint_eq]
    simp only [h, thenVal_next]

/-- `WritesAs` is what `MemWrite` of the core that runs does (R73). -/
theorem memWrite_of_writesAs {s t : State} {addr : Word} {w : Width} {v : Word} (h : WritesAs s addr w v t) :
    memWrite addr w v s = .next t := by
  have e3 : (0xFFFFFFFC : Word) = ~~~3#32 := by decide
  cases h with
  | ram arr off hr => simp only [memWrite, writeAligned, hr, thenDo_next, reachesAgent]; rfl
  | rom arr off hr => simp only [memWrite, writeAligned, hr, thenDo_next, reachesAgent]; rfl
  | unmapped hr => simp only [memWrite, writeAligned, hr, thenDo_next, reachesAgent]; rfl
  | register r _ hr hi h =>
    simp only [memWrite, writeAligned, hr, ioWrite, e3, hi, drivenLanes, h, thenDo_next, reachesAgent_eq,
      externalAt]
    rfl
  | device _ hx h =>
    have e : writeAligned s.current (alignTo w addr) w v s = .next s := by
      rw [externalAt] at hx
      simp only [writeAligned]
      split at hx
      · next hr => rw [hr]
      · next hr =>
        rw [hr]
        simp only [ioWrite, e3, Option.isNone_iff_eq_none.1 hx]
      · cases hx
    simp only [memWrite, e, thenDo_next, reachesAgent_eq, hx, if_true, agentPoint_eq, h]

theorem ReadsAs.cpu {s t : State} {addr : Word} {w : Width} {v : Word} (h : ReadsAs s addr w v t) :
    t.cpu = s.cpu := by
  have e := memRead_withCpus addr w .data (s := s) (k := s.cpu) fun _ => rfl
  rw [State.withCpus_self, memRead_of_readsAs h] at e
  simp only [valueWithCpus_next, Host.Outcome.next.injEq, Prod.mk.injEq, true_and] at e
  rw [e]; rfl

theorem ReadsAs.current {s t : State} {addr : Word} {w : Width} {v : Word} (h : ReadsAs s addr w v t) :
    t.current = s.current := by
  cases h with
  | plain _ => rfl
  | register _ _ _ _ _ h => exact regRead_current h
  | device _ _ h =>
    have e := agentActs_current h
    exact e

theorem WritesAs.cpu {s t : State} {addr : Word} {w : Width} {v : Word} (h : WritesAs s addr w v t) :
    t.cpu = s.cpu :=
  cpu_of_withCpus (r := memWrite addr w v s) (memWrite_withCpus addr w v (s := s) (k := s.cpu) fun _ => rfl)
    (memWrite_of_writesAs h)

theorem WritesAs.current {s t : State} {addr : Word} {w : Width} {v : Word} (h : WritesAs s addr w v t) :
    t.current = s.current := by
  cases h with
  | register _ _ _ _ h => exact regWrite_current h
  | device _ _ h =>
    have e := agentActs_current h
    exact e
  | _ => rfl

/-- After a data access the core that runs is the same, and as before. -/
theorem ReadsAs.cur {s t : State} {addr : Word} {w : Width} {v : Word} (h : ReadsAs s addr w v t) :
    t.cur = s.cur := by simp only [State.cur, h.cpu, h.current]

theorem WritesAs.cur {s t : State} {addr : Word} {w : Width} {v : Word} (h : WritesAs s addr w v t) :
    t.cur = s.cur := by simp only [State.cur, h.cpu, h.current]

/-- A load of any kind at any address: the value of its kind, and the effect of the one bus read (R76 to R78). -/
theorem load_of_readsAs {s t : State} (kind : LoadKind) {addr v : Word}
    (h : ReadsAs s addr (kind.width s.current addr) v t) :
    kind.op addr s = .next (kind.value s.current addr v, t) := by
  have e := memRead_of_readsAs h
  have hc := h.current
  cases kind
  case signedHalf =>
    simp only [LoadKind.op, loadSignedHalf, LoadKind.width, LoadKind.value] at e ⊢
    split
    · next c => rw [if_pos c] at e; rw [e]; rfl
    · next c => rw [if_neg c] at e; rw [e]; rfl
  case half =>
    simp only [LoadKind.op, loadHalf, LoadKind.width, LoadKind.value] at e ⊢
    rw [e]; rfl
  all_goals
    simp only [LoadKind.op, loadWord, loadAligned, loadByte, loadSignedByte, LoadKind.width,
      LoadKind.value] at e ⊢
    first | exact e | (rw [e]; rfl)

/-- A data read commutes with a change of the core that runs that keeps its latch. -/
theorem memRead_upd {s t : State} {addr : Word} {w : Width} {v : Word} (h : ReadsAs s addr w v t) {f : Cpu → Cpu}
    (hf : (f s.cur).lastFetch = s.cur.lastFetch) : memRead addr w .data (s.upd f) = .next (v, t.upd f) := by
  have e : s.upd f = s.withCpus (s.cpu.set s.current (f s.cur)) := rfl
  have e' : t.upd f = t.withCpus (s.cpu.set s.current (f s.cur)) := by
    simp only [State.upd, State.withCpus, h.cpu, h.current, State.cur]
  rw [e, memRead_withCpus, memRead_of_readsAs h, valueWithCpus_next, e']
  intro c
  by_cases hc : c = s.current
  · subst hc; simpa [State.cur] using hf
  · cases c <;> cases hs : s.current <;> simp_all [PerCore.get, PerCore.set]

end Sys2Proof.Machine
end

