-- ==== Sys2Proof/Laws/Exception.lean ====
section
/-! SUPPORT. The register part of taking an exception, field by field (60_exceptions.md R504). -/
namespace Sys2Proof.Machine

/-- The mode field reads as written, every bit above it as before. -/
theorem getLsbD_setMode (psr : Word) (m : BitVec 5) (i : Nat) :
    (setMode psr m).getLsbD i = if i < 5 then m.getLsbD i else psr.getLsbD i := by
  have k : ∀ i, i < 32 → (0xFFFFFFE0 : Word).getLsbD i = !decide (i < 5) := by decide
  unfold setMode
  rw [BitVec.getLsbD_or, BitVec.getLsbD_and, BitVec.getLsbD_setWidth]
  by_cases hi : i < 32
  · rw [k i hi]
    by_cases h : i < 5
    · simp [h, hi]
    · simp [h, BitVec.getLsbD_of_ge m i (by omega)]
  · rw [BitVec.getLsbD_of_ge psr i (by omega)]
    simp [hi, show ¬ i < 5 by omega]

@[simp] theorem modeOf_setMode (psr : Word) (m : BitVec 5) : modeOf (setMode psr m) = m := by
  apply BitVec.eq_of_getLsbD_eq
  intro i hi
  rw [modeOf, BitVec.getLsbD_extractLsb', Nat.zero_add, getLsbD_setMode]
  simp [hi]

@[simp] theorem modeOf_setI (psr : Word) (b : Bool) : modeOf (setI psr b) = modeOf psr :=
  modeOf_setBit psr 7 b (by omega) (by omega)

@[simp] theorem psrI_setI (psr : Word) (b : Bool) : psrI (setI psr b) = b := by
  unfold psrI setI; simp (disch := omega) only [getLsbD_setBit]; rfl

@[simp] theorem psrI_setT (psr : Word) (b : Bool) : psrI (setT psr b) = psrI psr := by
  unfold psrI setT; simp (disch := omega) only [getLsbD_setBit]; rfl

/-- The status word of an exception entry keeps every bit but M, I and T. -/
theorem entered_keeps (psr : Word) (m : BitVec 5) :
    setT (setI (setMode psr m) true) false &&& ~~~0x000000BF#32 = psr &&& ~~~0x000000BF#32 := by
  unfold setT setI
  rw [setBit_and_not _ _ _ _ (by omega) (by decide), setBit_and_not _ _ _ _ (by omega) (by decide)]
  have k : ∀ i, i < 5 → (0x000000BF#32).getLsbD i = true := by decide
  apply BitVec.eq_of_getLsbD_eq
  intro i hi
  rw [BitVec.getLsbD_and, BitVec.getLsbD_and, BitVec.getLsbD_not, getLsbD_setMode]
  by_cases h : i < 5
  · simp [k i h]
  · simp [h]

@[simp] theorem Cpu.setSpsrAt_regs (k : Cpu) (b : Bank) (v : Word) : (k.setSpsrAt b v).regs = k.regs := by
  unfold Cpu.setSpsrAt; split <;> rfl
@[simp] theorem Cpu.setSpsrAt_cpsr (k : Cpu) (b : Bank) (v : Word) : (k.setSpsrAt b v).cpsr = k.cpsr := by
  unfold Cpu.setSpsrAt; split <;> rfl
@[simp] theorem Cpu.setSpsrAt_r15 (k : Cpu) (b : Bank) (v : Word) : (k.setSpsrAt b v).r15 = k.r15 := by
  unfold Cpu.setSpsrAt; split <;> rfl
@[simp] theorem Cpu.setSpsrAt_waiting (k : Cpu) (b : Bank) (v : Word) : (k.setSpsrAt b v).waiting = k.waiting := by
  unfold Cpu.setSpsrAt; split <;> rfl
@[simp] theorem Cpu.setSpsrAt_cyc (k : Cpu) (b : Bank) (v : Word) : (k.setSpsrAt b v).cyc = k.cyc := by
  unfold Cpu.setSpsrAt; split <;> rfl
@[simp] theorem Cpu.setSpsrAt_lastFetch (k : Cpu) (b : Bank) (v : Word) :
    (k.setSpsrAt b v).lastFetch = k.lastFetch := by unfold Cpu.setSpsrAt; split <;> rfl

/-- A bank that is not User's has an SPSR, which reads as written. -/
theorem Cpu.spsrAt_setSpsrAt (k : Cpu) {b : Bank} (v : Word) (h : b ≠ .usr) :
    (k.setSpsrAt b v).spsrAt b = some v := by
  cases b <;> simp [Cpu.setSpsrAt, Cpu.spsrAt, spsrSlot] at h ⊢

theorem Cpu.setSpsrAt_other (k : Cpu) (b : Bank) (v : Word) (j : Fin 5) (h : some j ≠ spsrSlot b) :
    (k.setSpsrAt b v).spsr[j] = k.spsr[j] := by
  unfold Cpu.setSpsrAt
  split
  · next i e =>
    have : i.val ≠ j.val := fun c => h (by rw [e, Fin.ext c])
    simp [this]
  · rfl

@[simp] theorem Cpu.enterMode_cpsr (mode : BitVec 5) (lr : Word) (k : Cpu) :
    (k.enterMode mode lr).cpsr = setT (setI (setMode k.cpsr mode) true) false := by simp [Cpu.enterMode]
@[simp] theorem Cpu.enterMode_waiting (mode : BitVec 5) (lr : Word) (k : Cpu) :
    (k.enterMode mode lr).waiting = k.waiting := by simp [Cpu.enterMode]
@[simp] theorem Cpu.enterMode_cyc (mode : BitVec 5) (lr : Word) (k : Cpu) :
    (k.enterMode mode lr).cyc = k.cyc := by simp [Cpu.enterMode]
@[simp] theorem Cpu.enterMode_lastFetch (mode : BitVec 5) (lr : Word) (k : Cpu) :
    (k.enterMode mode lr).lastFetch = k.lastFetch := by simp [Cpu.enterMode]

theorem Cpu.enterMode_link (mode : BitVec 5) (lr : Word) (k : Cpu) :
    (k.enterMode mode lr).regAt (bankOf mode) 14 = lr := by
  rw [Cpu.regAt, if_neg (by decide)]
  exact Cpu.setRegAt_slot _ _ _ _ (by decide)

theorem Cpu.enterMode_regs (mode : BitVec 5) (lr : Word) (k : Cpu) (j : Fin 30) (h : j ≠ slot (bankOf mode) 14) :
    (k.enterMode mode lr).regs[j] = k.regs[j] :=
  (Cpu.setRegAt_other _ _ _ _ _ h).trans (by simp)

theorem Cpu.enterMode_saved (mode : BitVec 5) (lr : Word) (k : Cpu) (h : bankOf mode ≠ .usr) :
    (k.enterMode mode lr).spsrAt (bankOf mode) = some k.cpsr := by
  rw [← Cpu.spsrAt_setSpsrAt k k.cpsr h]
  cases hb : bankOf mode <;> simp [Cpu.enterMode, Cpu.spsrAt, Cpu.setSpsrAt, spsrSlot, hb]

theorem Cpu.enterMode_spsr (mode : BitVec 5) (lr : Word) (k : Cpu) (j : Fin 5)
    (h : some j ≠ spsrSlot (bankOf mode)) : (k.enterMode mode lr).spsr[j] = k.spsr[j] := by
  have e := Cpu.setSpsrAt_other { k with cpsr := setT (setI (setMode k.cpsr mode) true) false } (bankOf mode)
    k.cpsr j h
  simpa [Cpu.enterMode] using e

end Sys2Proof.Machine
end

