-- ==== Sys2Proof/Laws/Multiply.lean ====
section
/-! SUPPORT. What the shared operations of the multiplies, of saturating arithmetic and of status transfer
can do. -/
namespace Sys2Proof.Machine

@[simp] theorem modeOf_setNZ (psr r : Word) : modeOf (setNZ psr r) = modeOf psr := by
  unfold setNZ
  rw [modeOf_setBit _ _ _ (by omega) (by omega), modeOf_setBit _ _ _ (by omega) (by omega)]

@[simp] theorem modeOf_setNZ64 (psr : Word) (r : BitVec 64) : modeOf (setNZ64 psr r) = modeOf psr := by
  unfold setNZ64
  rw [modeOf_setBit _ _ _ (by omega) (by omega), modeOf_setBit _ _ _ (by omega) (by omega)]

@[simp] theorem modeOf_stickyQ (psr : Word) (q : Bool) : modeOf (stickyQ psr q) = modeOf psr := by
  unfold stickyQ
  split
  · rw [modeOf_setBit _ _ _ (by omega) (by omega)]
  · rfl

/-- Writing a 32-bit product and advancing. -/
theorem writeProduct_spec {s : State} {rd : Reg} (S : Bool) (v width : Word) (h : rd ≠ 15) :
    let t := s.upd fun k => { k.writeProduct S rd v with r15 := k.r15 + width }
    t.cur.reg rd = v ∧ (S = true → psrN t.cur.cpsr = v.msb ∧ psrZ t.cur.cpsr = decide (v = 0)) ∧
      RegisterFrame [s.slotOf rd] (if S then bitsNZ else 0) width s t := by
  intro t
  cases S with
  | false =>
    have e : t = s.upd fun k => { k.setReg rd v with cpsr := s.cur.cpsr, r15 := k.r15 + width } :=
      State.upd_congr (by simp [Cpu.writeProduct])
    obtain ⟨h1, -, h3⟩ := setReg_spec (s := s) (v := v) (p := s.cur.cpsr) (bits := 0) (width := width) h rfl rfl
    rw [e]
    exact ⟨h1, fun c => absurd c (by decide), h3⟩
  | true =>
    have e : t = s.upd fun k => { k.setReg rd v with cpsr := setNZ s.cur.cpsr v, r15 := k.r15 + width } :=
      State.upd_congr (by simp [Cpu.writeProduct])
    obtain ⟨h1, h2, h3⟩ := setReg_spec (s := s) (v := v) (p := setNZ s.cur.cpsr v) (bits := bitsNZ)
      (width := width) h (by simp) (setNZ_keeps _ _)
    rw [e]
    exact ⟨h1, fun _ => by rw [h2]; exact ⟨psrN_setNZ _ _, psrZ_setNZ _ _⟩, h3⟩

/-- Writing a 64-bit product and advancing. -/
theorem writeLong_spec {s : State} {hi lo : Reg} (S : Bool) (p : BitVec 64) (hh : hi ≠ 15) (hl : lo ≠ 15)
    (ne : hi ≠ lo) :
    let t := s.upd fun k => { k.writeLong S hi lo p with r15 := k.r15 + 4 }
    t.cur.reg lo = p.extractLsb' 0 32 ∧ t.cur.reg hi = p.extractLsb' 32 32 ∧
      (S = true → psrN t.cur.cpsr = p.msb ∧ psrZ t.cur.cpsr = decide (p = 0)) ∧
      RegisterFrame [s.slotOf hi, s.slotOf lo] (if S then bitsNZ else 0) 4 s t := by
  intro t
  cases S with
  | false =>
    have e : t = s.upd fun k =>
        { (k.setReg lo (p.extractLsb' 0 32)).setReg hi (p.extractLsb' 32 32) with
          cpsr := s.cur.cpsr, r15 := k.r15 + 4 } := State.upd_congr (by simp [Cpu.writeLong])
    obtain ⟨h1, h2, -, h4⟩ := setReg2_spec (s := s) (va := p.extractLsb' 0 32) (vb := p.extractLsb' 32 32)
      (p := s.cur.cpsr) (bits := 0) (width := 4) hl hh ne.symm rfl rfl
    rw [e]
    exact ⟨h1, h2, fun c => absurd c (by decide), h4⟩
  | true =>
    have e : t = s.upd fun k =>
        { (k.setReg lo (p.extractLsb' 0 32)).setReg hi (p.extractLsb' 32 32) with
          cpsr := setNZ64 s.cur.cpsr p, r15 := k.r15 + 4 } := State.upd_congr (by simp [Cpu.writeLong])
    obtain ⟨h1, h2, h3, h4⟩ := setReg2_spec (s := s) (va := p.extractLsb' 0 32) (vb := p.extractLsb' 32 32)
      (p := setNZ64 s.cur.cpsr p) (bits := bitsNZ) (width := 4) hl hh ne.symm (by simp) (setNZ64_keeps _ _)
    rw [e]
    exact ⟨h1, h2, fun _ => by rw [h3]; exact ⟨psrN_setNZ64 _ _, psrZ_setNZ64 _ _⟩, h4⟩

/-- Writing a value with a sticky Q and advancing. -/
theorem stickyWrite_spec {s : State} {rd : Reg} (v : Word) (q : Bool) (h : rd ≠ 15) :
    let t := s.upd fun k => { k.setReg rd v with cpsr := stickyQ k.cpsr q, r15 := k.r15 + 4 }
    t.cur.reg rd = v ∧ psrQ t.cur.cpsr = (psrQ s.cur.cpsr || q) ∧ RegisterFrame [s.slotOf rd] bitQ 4 s t := by
  intro t
  have e : t = s.upd fun k => { k.setReg rd v with cpsr := stickyQ s.cur.cpsr q, r15 := k.r15 + 4 } :=
    State.upd_congr rfl
  obtain ⟨h1, h2, h3⟩ := setReg_spec (s := s) (v := v) (p := stickyQ s.cur.cpsr q) (bits := bitQ) (width := 4) h
    (by simp) (stickyQ_keeps _ _)
  rw [e]
  exact ⟨h1, by rw [h2, psrQ_stickyQ], h3⟩

/-- Writing a register and advancing, the status word as it was. -/
theorem plainWrite_spec {s : State} {rd : Reg} (v width : Word) (h : rd ≠ 15) :
    let t := s.upd fun k => { k.setReg rd v with r15 := k.r15 + width }
    t.cur.reg rd = v ∧ RegisterFrame [s.slotOf rd] 0 width s t := by
  intro t
  have e : t = s.upd fun k => { k.setReg rd v with cpsr := s.cur.cpsr, r15 := k.r15 + width } :=
    State.upd_congr (by simp)
  obtain ⟨h1, -, h3⟩ := setReg_spec (s := s) (v := v) (p := s.cur.cpsr) (bits := 0) (width := width) h rfl rfl
  rw [e]
  exact ⟨h1, h3⟩

end Sys2Proof.Machine
end

