-- ==== Sys2Proof/Laws/PerInstr.lean ====
section
/-! SUPPORT. One lemma for every instruction, about the instruction as syntax. -/
namespace Sys2Proof.Laws.EncodeCondition

/-- The condition field of the encoding: an ARM word holds the instruction's condition in bits 31:28, or
`0b1111` where it is of the NV space; a Thumb word holds none (30_encoding.md R123). -/
def Statement (i : Instr) : Prop :=
  match encode i with
  | .arm w => w.extractLsb' 28 4 = (match i.cond? with
    | some c => c.bits
    | none => 0b1111#4)
  | .thumb _ => i.cond? = none

theorem andShiftImm (cond : Cond) (S : Bool) (rn : Reg) (rd : Reg) (imm5 : BitVec 5) (ty : ShiftType) (rm : Reg) : Statement (.andShiftImm cond S rn rd imm5 ty rm) :=
  ArmFields.toWord_cond _

theorem andShiftReg (cond : Cond) (S : Bool) (rn : Reg) (rd : Reg) (rs : Reg) (ty : ShiftType) (rm : Reg) : Statement (.andShiftReg cond S rn rd rs ty rm) :=
  ArmFields.toWord_cond _

theorem andImm (cond : Cond) (S : Bool) (rn : Reg) (rd : Reg) (rot4 : BitVec 4) (imm8 : BitVec 8) : Statement (.andImm cond S rn rd rot4 imm8) :=
  ArmFields.toWord_cond _

theorem eorShiftImm (cond : Cond) (S : Bool) (rn : Reg) (rd : Reg) (imm5 : BitVec 5) (ty : ShiftType) (rm : Reg) : Statement (.eorShiftImm cond S rn rd imm5 ty rm) :=
  ArmFields.toWord_cond _

theorem eorShiftReg (cond : Cond) (S : Bool) (rn : Reg) (rd : Reg) (rs : Reg) (ty : ShiftType) (rm : Reg) : Statement (.eorShiftReg cond S rn rd rs ty rm) :=
  ArmFields.toWord_cond _

theorem eorImm (cond : Cond) (S : Bool) (rn : Reg) (rd : Reg) (rot4 : BitVec 4) (imm8 : BitVec 8) : Statement (.eorImm cond S rn rd rot4 imm8) :=
  ArmFields.toWord_cond _

theorem subShiftImm (cond : Cond) (S : Bool) (rn : Reg) (rd : Reg) (imm5 : BitVec 5) (ty : ShiftType) (rm : Reg) : Statement (.subShiftImm cond S rn rd imm5 ty rm) :=
  ArmFields.toWord_cond _

theorem subShiftReg (cond : Cond) (S : Bool) (rn : Reg) (rd : Reg) (rs : Reg) (ty : ShiftType) (rm : Reg) : Statement (.subShiftReg cond S rn rd rs ty rm) :=
  ArmFields.toWord_cond _

theorem subImm (cond : Cond) (S : Bool) (rn : Reg) (rd : Reg) (rot4 : BitVec 4) (imm8 : BitVec 8) : Statement (.subImm cond S rn rd rot4 imm8) :=
  ArmFields.toWord_cond _

theorem rsbShiftImm (cond : Cond) (S : Bool) (rn : Reg) (rd : Reg) (imm5 : BitVec 5) (ty : ShiftType) (rm : Reg) : Statement (.rsbShiftImm cond S rn rd imm5 ty rm) :=
  ArmFields.toWord_cond _

theorem rsbShiftReg (cond : Cond) (S : Bool) (rn : Reg) (rd : Reg) (rs : Reg) (ty : ShiftType) (rm : Reg) : Statement (.rsbShiftReg cond S rn rd rs ty rm) :=
  ArmFields.toWord_cond _

theorem rsbImm (cond : Cond) (S : Bool) (rn : Reg) (rd : Reg) (rot4 : BitVec 4) (imm8 : BitVec 8) : Statement (.rsbImm cond S rn rd rot4 imm8) :=
  ArmFields.toWord_cond _

theorem addShiftImm (cond : Cond) (S : Bool) (rn : Reg) (rd : Reg) (imm5 : BitVec 5) (ty : ShiftType) (rm : Reg) : Statement (.addShiftImm cond S rn rd imm5 ty rm) :=
  ArmFields.toWord_cond _

theorem addShiftReg (cond : Cond) (S : Bool) (rn : Reg) (rd : Reg) (rs : Reg) (ty : ShiftType) (rm : Reg) : Statement (.addShiftReg cond S rn rd rs ty rm) :=
  ArmFields.toWord_cond _

theorem addImm (cond : Cond) (S : Bool) (rn : Reg) (rd : Reg) (rot4 : BitVec 4) (imm8 : BitVec 8) : Statement (.addImm cond S rn rd rot4 imm8) :=
  ArmFields.toWord_cond _

theorem adcShiftImm (cond : Cond) (S : Bool) (rn : Reg) (rd : Reg) (imm5 : BitVec 5) (ty : ShiftType) (rm : Reg) : Statement (.adcShiftImm cond S rn rd imm5 ty rm) :=
  ArmFields.toWord_cond _

theorem adcShiftReg (cond : Cond) (S : Bool) (rn : Reg) (rd : Reg) (rs : Reg) (ty : ShiftType) (rm : Reg) : Statement (.adcShiftReg cond S rn rd rs ty rm) :=
  ArmFields.toWord_cond _

theorem adcImm (cond : Cond) (S : Bool) (rn : Reg) (rd : Reg) (rot4 : BitVec 4) (imm8 : BitVec 8) : Statement (.adcImm cond S rn rd rot4 imm8) :=
  ArmFields.toWord_cond _

theorem sbcShiftImm (cond : Cond) (S : Bool) (rn : Reg) (rd : Reg) (imm5 : BitVec 5) (ty : ShiftType) (rm : Reg) : Statement (.sbcShiftImm cond S rn rd imm5 ty rm) :=
  ArmFields.toWord_cond _

theorem sbcShiftReg (cond : Cond) (S : Bool) (rn : Reg) (rd : Reg) (rs : Reg) (ty : ShiftType) (rm : Reg) : Statement (.sbcShiftReg cond S rn rd rs ty rm) :=
  ArmFields.toWord_cond _

theorem sbcImm (cond : Cond) (S : Bool) (rn : Reg) (rd : Reg) (rot4 : BitVec 4) (imm8 : BitVec 8) : Statement (.sbcImm cond S rn rd rot4 imm8) :=
  ArmFields.toWord_cond _

theorem rscShiftImm (cond : Cond) (S : Bool) (rn : Reg) (rd : Reg) (imm5 : BitVec 5) (ty : ShiftType) (rm : Reg) : Statement (.rscShiftImm cond S rn rd imm5 ty rm) :=
  ArmFields.toWord_cond _

theorem rscShiftReg (cond : Cond) (S : Bool) (rn : Reg) (rd : Reg) (rs : Reg) (ty : ShiftType) (rm : Reg) : Statement (.rscShiftReg cond S rn rd rs ty rm) :=
  ArmFields.toWord_cond _

theorem rscImm (cond : Cond) (S : Bool) (rn : Reg) (rd : Reg) (rot4 : BitVec 4) (imm8 : BitVec 8) : Statement (.rscImm cond S rn rd rot4 imm8) :=
  ArmFields.toWord_cond _

theorem tstShiftImm (cond : Cond) (rn : Reg) (rd : Reg) (imm5 : BitVec 5) (ty : ShiftType) (rm : Reg) : Statement (.tstShiftImm cond rn rd imm5 ty rm) :=
  ArmFields.toWord_cond _

theorem tstShiftReg (cond : Cond) (rn : Reg) (rd : Reg) (rs : Reg) (ty : ShiftType) (rm : Reg) : Statement (.tstShiftReg cond rn rd rs ty rm) :=
  ArmFields.toWord_cond _

theorem tstImm (cond : Cond) (rn : Reg) (rd : Reg) (rot4 : BitVec 4) (imm8 : BitVec 8) : Statement (.tstImm cond rn rd rot4 imm8) :=
  ArmFields.toWord_cond _

theorem teqShiftImm (cond : Cond) (rn : Reg) (rd : Reg) (imm5 : BitVec 5) (ty : ShiftType) (rm : Reg) : Statement (.teqShiftImm cond rn rd imm5 ty rm) :=
  ArmFields.toWord_cond _

theorem teqShiftReg (cond : Cond) (rn : Reg) (rd : Reg) (rs : Reg) (ty : ShiftType) (rm : Reg) : Statement (.teqShiftReg cond rn rd rs ty rm) :=
  ArmFields.toWord_cond _

theorem teqImm (cond : Cond) (rn : Reg) (rd : Reg) (rot4 : BitVec 4) (imm8 : BitVec 8) : Statement (.teqImm cond rn rd rot4 imm8) :=
  ArmFields.toWord_cond _

theorem cmpShiftImm (cond : Cond) (rn : Reg) (rd : Reg) (imm5 : BitVec 5) (ty : ShiftType) (rm : Reg) : Statement (.cmpShiftImm cond rn rd imm5 ty rm) :=
  ArmFields.toWord_cond _

theorem cmpShiftReg (cond : Cond) (rn : Reg) (rd : Reg) (rs : Reg) (ty : ShiftType) (rm : Reg) : Statement (.cmpShiftReg cond rn rd rs ty rm) :=
  ArmFields.toWord_cond _

theorem cmpImm (cond : Cond) (rn : Reg) (rd : Reg) (rot4 : BitVec 4) (imm8 : BitVec 8) : Statement (.cmpImm cond rn rd rot4 imm8) :=
  ArmFields.toWord_cond _

theorem cmnShiftImm (cond : Cond) (rn : Reg) (rd : Reg) (imm5 : BitVec 5) (ty : ShiftType) (rm : Reg) : Statement (.cmnShiftImm cond rn rd imm5 ty rm) :=
  ArmFields.toWord_cond _

theorem cmnShiftReg (cond : Cond) (rn : Reg) (rd : Reg) (rs : Reg) (ty : ShiftType) (rm : Reg) : Statement (.cmnShiftReg cond rn rd rs ty rm) :=
  ArmFields.toWord_cond _

theorem cmnImm (cond : Cond) (rn : Reg) (rd : Reg) (rot4 : BitVec 4) (imm8 : BitVec 8) : Statement (.cmnImm cond rn rd rot4 imm8) :=
  ArmFields.toWord_cond _

theorem orrShiftImm (cond : Cond) (S : Bool) (rn : Reg) (rd : Reg) (imm5 : BitVec 5) (ty : ShiftType) (rm : Reg) : Statement (.orrShiftImm cond S rn rd imm5 ty rm) :=
  ArmFields.toWord_cond _

theorem orrShiftReg (cond : Cond) (S : Bool) (rn : Reg) (rd : Reg) (rs : Reg) (ty : ShiftType) (rm : Reg) : Statement (.orrShiftReg cond S rn rd rs ty rm) :=
  ArmFields.toWord_cond _

theorem orrImm (cond : Cond) (S : Bool) (rn : Reg) (rd : Reg) (rot4 : BitVec 4) (imm8 : BitVec 8) : Statement (.orrImm cond S rn rd rot4 imm8) :=
  ArmFields.toWord_cond _

theorem movShiftImm (cond : Cond) (S : Bool) (rd : Reg) (imm5 : BitVec 5) (ty : ShiftType) (rm : Reg) : Statement (.movShiftImm cond S rd imm5 ty rm) :=
  ArmFields.toWord_cond _

theorem movShiftReg (cond : Cond) (S : Bool) (rd : Reg) (rs : Reg) (ty : ShiftType) (rm : Reg) : Statement (.movShiftReg cond S rd rs ty rm) :=
  ArmFields.toWord_cond _

theorem movImm (cond : Cond) (S : Bool) (rd : Reg) (rot4 : BitVec 4) (imm8 : BitVec 8) : Statement (.movImm cond S rd rot4 imm8) :=
  ArmFields.toWord_cond _

theorem bicShiftImm (cond : Cond) (S : Bool) (rn : Reg) (rd : Reg) (imm5 : BitVec 5) (ty : ShiftType) (rm : Reg) : Statement (.bicShiftImm cond S rn rd imm5 ty rm) :=
  ArmFields.toWord_cond _

theorem bicShiftReg (cond : Cond) (S : Bool) (rn : Reg) (rd : Reg) (rs : Reg) (ty : ShiftType) (rm : Reg) : Statement (.bicShiftReg cond S rn rd rs ty rm) :=
  ArmFields.toWord_cond _

theorem bicImm (cond : Cond) (S : Bool) (rn : Reg) (rd : Reg) (rot4 : BitVec 4) (imm8 : BitVec 8) : Statement (.bicImm cond S rn rd rot4 imm8) :=
  ArmFields.toWord_cond _

theorem mvnShiftImm (cond : Cond) (S : Bool) (rd : Reg) (imm5 : BitVec 5) (ty : ShiftType) (rm : Reg) : Statement (.mvnShiftImm cond S rd imm5 ty rm) :=
  ArmFields.toWord_cond _

theorem mvnShiftReg (cond : Cond) (S : Bool) (rd : Reg) (rs : Reg) (ty : ShiftType) (rm : Reg) : Statement (.mvnShiftReg cond S rd rs ty rm) :=
  ArmFields.toWord_cond _

theorem mvnImm (cond : Cond) (S : Bool) (rd : Reg) (rot4 : BitVec 4) (imm8 : BitVec 8) : Statement (.mvnImm cond S rd rot4 imm8) :=
  ArmFields.toWord_cond _

theorem mrs (cond : Cond) (R : Bool) (rd : Reg) : Statement (.mrs cond R rd) :=
  ArmFields.toWord_cond _

theorem msrReg (cond : Cond) (R : Bool) (mask : BitVec 4) (rm : Reg) : Statement (.msrReg cond R mask rm) :=
  ArmFields.toWord_cond _

theorem msrImm (cond : Cond) (R : Bool) (mask : BitVec 4) (rot4 : BitVec 4) (imm8 : BitVec 8) : Statement (.msrImm cond R mask rot4 imm8) :=
  ArmFields.toWord_cond _

theorem nop (cond : Cond) : Statement (.nop cond) :=
  ArmFields.toWord_cond _

theorem wfi (cond : Cond) : Statement (.wfi cond) :=
  ArmFields.toWord_cond _

theorem mul (cond : Cond) (S : Bool) (rd : Reg) (rs : Reg) (rm : Reg) : Statement (.mul cond S rd rs rm) :=
  ArmFields.toWord_cond _

theorem mla (cond : Cond) (S : Bool) (rd : Reg) (rn : Reg) (rs : Reg) (rm : Reg) : Statement (.mla cond S rd rn rs rm) :=
  ArmFields.toWord_cond _

theorem umull (cond : Cond) (S : Bool) (rdHi : Reg) (rdLo : Reg) (rs : Reg) (rm : Reg) : Statement (.umull cond S rdHi rdLo rs rm) :=
  ArmFields.toWord_cond _

theorem umlal (cond : Cond) (S : Bool) (rdHi : Reg) (rdLo : Reg) (rs : Reg) (rm : Reg) : Statement (.umlal cond S rdHi rdLo rs rm) :=
  ArmFields.toWord_cond _

theorem smull (cond : Cond) (S : Bool) (rdHi : Reg) (rdLo : Reg) (rs : Reg) (rm : Reg) : Statement (.smull cond S rdHi rdLo rs rm) :=
  ArmFields.toWord_cond _

theorem smlal (cond : Cond) (S : Bool) (rdHi : Reg) (rdLo : Reg) (rs : Reg) (rm : Reg) : Statement (.smlal cond S rdHi rdLo rs rm) :=
  ArmFields.toWord_cond _

theorem smlaXY (cond : Cond) (rd : Reg) (rn : Reg) (rs : Reg) (y : Bool) (x : Bool) (rm : Reg) : Statement (.smlaXY cond rd rn rs y x rm) :=
  ArmFields.toWord_cond _

theorem smlaWY (cond : Cond) (rd : Reg) (rn : Reg) (rs : Reg) (y : Bool) (rm : Reg) : Statement (.smlaWY cond rd rn rs y rm) :=
  ArmFields.toWord_cond _

theorem smulWY (cond : Cond) (rd : Reg) (rs : Reg) (y : Bool) (rm : Reg) : Statement (.smulWY cond rd rs y rm) :=
  ArmFields.toWord_cond _

theorem smlalXY (cond : Cond) (rdHi : Reg) (rdLo : Reg) (rs : Reg) (y : Bool) (x : Bool) (rm : Reg) : Statement (.smlalXY cond rdHi rdLo rs y x rm) :=
  ArmFields.toWord_cond _

theorem smulXY (cond : Cond) (rd : Reg) (rs : Reg) (y : Bool) (x : Bool) (rm : Reg) : Statement (.smulXY cond rd rs y x rm) :=
  ArmFields.toWord_cond _

theorem ldrImm (cond : Cond) (P : Bool) (U : Bool) (W : Bool) (rn : Reg) (rd : Reg) (imm12 : BitVec 12) : Statement (.ldrImm cond P U W rn rd imm12) :=
  ArmFields.toWord_cond _

theorem ldrReg (cond : Cond) (P : Bool) (U : Bool) (W : Bool) (rn : Reg) (rd : Reg) (imm5 : BitVec 5) (ty : ShiftType) (rm : Reg) : Statement (.ldrReg cond P U W rn rd imm5 ty rm) :=
  ArmFields.toWord_cond _

theorem strImm (cond : Cond) (P : Bool) (U : Bool) (W : Bool) (rn : Reg) (rd : Reg) (imm12 : BitVec 12) : Statement (.strImm cond P U W rn rd imm12) :=
  ArmFields.toWord_cond _

theorem strReg (cond : Cond) (P : Bool) (U : Bool) (W : Bool) (rn : Reg) (rd : Reg) (imm5 : BitVec 5) (ty : ShiftType) (rm : Reg) : Statement (.strReg cond P U W rn rd imm5 ty rm) :=
  ArmFields.toWord_cond _

theorem ldrbImm (cond : Cond) (P : Bool) (U : Bool) (W : Bool) (rn : Reg) (rd : Reg) (imm12 : BitVec 12) : Statement (.ldrbImm cond P U W rn rd imm12) :=
  ArmFields.toWord_cond _

theorem ldrbReg (cond : Cond) (P : Bool) (U : Bool) (W : Bool) (rn : Reg) (rd : Reg) (imm5 : BitVec 5) (ty : ShiftType) (rm : Reg) : Statement (.ldrbReg cond P U W rn rd imm5 ty rm) :=
  ArmFields.toWord_cond _

theorem strbImm (cond : Cond) (P : Bool) (U : Bool) (W : Bool) (rn : Reg) (rd : Reg) (imm12 : BitVec 12) : Statement (.strbImm cond P U W rn rd imm12) :=
  ArmFields.toWord_cond _

theorem strbReg (cond : Cond) (P : Bool) (U : Bool) (W : Bool) (rn : Reg) (rd : Reg) (imm5 : BitVec 5) (ty : ShiftType) (rm : Reg) : Statement (.strbReg cond P U W rn rd imm5 ty rm) :=
  ArmFields.toWord_cond _

theorem strhReg (cond : Cond) (P : Bool) (U : Bool) (W : Bool) (rn : Reg) (rd : Reg) (rm : Reg) : Statement (.strhReg cond P U W rn rd rm) :=
  ArmFields.toWord_cond _

theorem strhImm (cond : Cond) (P : Bool) (U : Bool) (W : Bool) (rn : Reg) (rd : Reg) (imm8 : BitVec 8) : Statement (.strhImm cond P U W rn rd imm8) :=
  ArmFields.toWord_cond _

theorem ldrhReg (cond : Cond) (P : Bool) (U : Bool) (W : Bool) (rn : Reg) (rd : Reg) (rm : Reg) : Statement (.ldrhReg cond P U W rn rd rm) :=
  ArmFields.toWord_cond _

theorem ldrhImm (cond : Cond) (P : Bool) (U : Bool) (W : Bool) (rn : Reg) (rd : Reg) (imm8 : BitVec 8) : Statement (.ldrhImm cond P U W rn rd imm8) :=
  ArmFields.toWord_cond _

theorem ldrsbReg (cond : Cond) (P : Bool) (U : Bool) (W : Bool) (rn : Reg) (rd : Reg) (rm : Reg) : Statement (.ldrsbReg cond P U W rn rd rm) :=
  ArmFields.toWord_cond _

theorem ldrsbImm (cond : Cond) (P : Bool) (U : Bool) (W : Bool) (rn : Reg) (rd : Reg) (imm8 : BitVec 8) : Statement (.ldrsbImm cond P U W rn rd imm8) :=
  ArmFields.toWord_cond _

theorem ldrshReg (cond : Cond) (P : Bool) (U : Bool) (W : Bool) (rn : Reg) (rd : Reg) (rm : Reg) : Statement (.ldrshReg cond P U W rn rd rm) :=
  ArmFields.toWord_cond _

theorem ldrshImm (cond : Cond) (P : Bool) (U : Bool) (W : Bool) (rn : Reg) (rd : Reg) (imm8 : BitVec 8) : Statement (.ldrshImm cond P U W rn rd imm8) :=
  ArmFields.toWord_cond _

theorem ldrdReg (cond : Cond) (P : Bool) (U : Bool) (W : Bool) (rn : Reg) (rd : Reg) (rm : Reg) : Statement (.ldrdReg cond P U W rn rd rm) :=
  ArmFields.toWord_cond _

theorem ldrdImm (cond : Cond) (P : Bool) (U : Bool) (W : Bool) (rn : Reg) (rd : Reg) (imm8 : BitVec 8) : Statement (.ldrdImm cond P U W rn rd imm8) :=
  ArmFields.toWord_cond _

theorem strdReg (cond : Cond) (P : Bool) (U : Bool) (W : Bool) (rn : Reg) (rd : Reg) (rm : Reg) : Statement (.strdReg cond P U W rn rd rm) :=
  ArmFields.toWord_cond _

theorem strdImm (cond : Cond) (P : Bool) (U : Bool) (W : Bool) (rn : Reg) (rd : Reg) (imm8 : BitVec 8) : Statement (.strdImm cond P U W rn rd imm8) :=
  ArmFields.toWord_cond _

theorem swp (cond : Cond) (rn : Reg) (rd : Reg) (rm : Reg) : Statement (.swp cond rn rd rm) :=
  ArmFields.toWord_cond _

theorem swpb (cond : Cond) (rn : Reg) (rd : Reg) (rm : Reg) : Statement (.swpb cond rn rd rm) :=
  ArmFields.toWord_cond _

theorem ldm (cond : Cond) (P : Bool) (U : Bool) (S : Bool) (W : Bool) (rn : Reg) (list : BitVec 16) : Statement (.ldm cond P U S W rn list) :=
  ArmFields.toWord_cond _

theorem stm (cond : Cond) (P : Bool) (U : Bool) (S : Bool) (W : Bool) (rn : Reg) (list : BitVec 16) : Statement (.stm cond P U S W rn list) :=
  ArmFields.toWord_cond _

theorem b (cond : Cond) (imm24 : BitVec 24) : Statement (.b cond imm24) :=
  ArmFields.toWord_cond _

theorem bl (cond : Cond) (imm24 : BitVec 24) : Statement (.bl cond imm24) :=
  ArmFields.toWord_cond _

theorem bx (cond : Cond) (rm : Reg) : Statement (.bx cond rm) :=
  ArmFields.toWord_cond _

theorem blxReg (cond : Cond) (rm : Reg) : Statement (.blxReg cond rm) :=
  ArmFields.toWord_cond _

theorem blxImm (H : Bool) (imm24 : BitVec 24) : Statement (.blxImm H imm24) :=
  ArmFields.toWord_cond _

theorem clz (cond : Cond) (rd : Reg) (rm : Reg) : Statement (.clz cond rd rm) :=
  ArmFields.toWord_cond _

theorem qadd (cond : Cond) (rn : Reg) (rd : Reg) (rm : Reg) : Statement (.qadd cond rn rd rm) :=
  ArmFields.toWord_cond _

theorem qsub (cond : Cond) (rn : Reg) (rd : Reg) (rm : Reg) : Statement (.qsub cond rn rd rm) :=
  ArmFields.toWord_cond _

theorem qdadd (cond : Cond) (rn : Reg) (rd : Reg) (rm : Reg) : Statement (.qdadd cond rn rd rm) :=
  ArmFields.toWord_cond _

theorem qdsub (cond : Cond) (rn : Reg) (rd : Reg) (rm : Reg) : Statement (.qdsub cond rn rd rm) :=
  ArmFields.toWord_cond _

theorem swi (cond : Cond) (imm24 : BitVec 24) : Statement (.swi cond imm24) :=
  ArmFields.toWord_cond _

theorem mcr (cond : Cond) (opc1 : BitVec 3) (crn : BitVec 4) (rd : Reg) (cp : BitVec 4) (opc2 : BitVec 3) (crm : BitVec 4) : Statement (.mcr cond opc1 crn rd cp opc2 crm) :=
  ArmFields.toWord_cond _

theorem mrc (cond : Cond) (opc1 : BitVec 3) (crn : BitVec 4) (rd : Reg) (cp : BitVec 4) (opc2 : BitVec 3) (crm : BitVec 4) : Statement (.mrc cond opc1 crn rd cp opc2 crm) :=
  ArmFields.toWord_cond _

theorem hintOther (cond : Cond) (imm8 : BitVec 8) : Statement (.hintOther cond imm8) :=
  ArmFields.toWord_cond _

theorem undMultiply (cond : Cond) : Statement (.undMultiply cond) :=
  ArmFields.toWord_cond _

theorem undSwapLoad (cond : Cond) : Statement (.undSwapLoad cond) :=
  ArmFields.toWord_cond _

theorem undSwapWide (cond : Cond) : Statement (.undSwapWide cond) :=
  ArmFields.toWord_cond _

theorem undSwapOdd (cond : Cond) : Statement (.undSwapOdd cond) :=
  ArmFields.toWord_cond _

theorem undMiscBranch (cond : Cond) : Statement (.undMiscBranch cond) :=
  ArmFields.toWord_cond _

theorem undMiscClz (cond : Cond) : Statement (.undMiscClz cond) :=
  ArmFields.toWord_cond _

theorem undMiscTwo (cond : Cond) : Statement (.undMiscTwo cond) :=
  ArmFields.toWord_cond _

theorem undMiscFourSix (cond : Cond) : Statement (.undMiscFourSix cond) :=
  ArmFields.toWord_cond _

theorem undMiscSeven (cond : Cond) : Statement (.undMiscSeven cond) :=
  ArmFields.toWord_cond _

theorem undCompareImm (cond : Cond) : Statement (.undCompareImm cond) :=
  ArmFields.toWord_cond _

theorem undMedia (cond : Cond) : Statement (.undMedia cond) :=
  ArmFields.toWord_cond _

theorem undCoprocTransfer (cond : Cond) : Statement (.undCoprocTransfer cond) :=
  ArmFields.toWord_cond _

theorem undCoprocOp (cond : Cond) : Statement (.undCoprocOp cond) :=
  ArmFields.toWord_cond _

theorem undNvLow : Statement (.undNvLow) :=
  ArmFields.toWord_cond _

theorem undNvCoproc : Statement (.undNvCoproc) :=
  ArmFields.toWord_cond _

theorem undNvBlock : Statement (.undNvBlock) :=
  ArmFields.toWord_cond _

theorem tLslImm (imm5 : BitVec 5) (rs : LowReg) (rd : LowReg) : Statement (.tLslImm imm5 rs rd) :=
  rfl

theorem tLsrImm (imm5 : BitVec 5) (rs : LowReg) (rd : LowReg) : Statement (.tLsrImm imm5 rs rd) :=
  rfl

theorem tAsrImm (imm5 : BitVec 5) (rs : LowReg) (rd : LowReg) : Statement (.tAsrImm imm5 rs rd) :=
  rfl

theorem tAddReg (rn : LowReg) (rs : LowReg) (rd : LowReg) : Statement (.tAddReg rn rs rd) :=
  rfl

theorem tSubReg (rn : LowReg) (rs : LowReg) (rd : LowReg) : Statement (.tSubReg rn rs rd) :=
  rfl

theorem tAddImm3 (imm3 : BitVec 3) (rs : LowReg) (rd : LowReg) : Statement (.tAddImm3 imm3 rs rd) :=
  rfl

theorem tSubImm3 (imm3 : BitVec 3) (rs : LowReg) (rd : LowReg) : Statement (.tSubImm3 imm3 rs rd) :=
  rfl

theorem tMovImm (rd : LowReg) (imm8 : BitVec 8) : Statement (.tMovImm rd imm8) :=
  rfl

theorem tCmpImm (rd : LowReg) (imm8 : BitVec 8) : Statement (.tCmpImm rd imm8) :=
  rfl

theorem tAddImm8 (rd : LowReg) (imm8 : BitVec 8) : Statement (.tAddImm8 rd imm8) :=
  rfl

theorem tSubImm8 (rd : LowReg) (imm8 : BitVec 8) : Statement (.tSubImm8 rd imm8) :=
  rfl

theorem tAnd (rs : LowReg) (rd : LowReg) : Statement (.tAnd rs rd) :=
  rfl

theorem tEor (rs : LowReg) (rd : LowReg) : Statement (.tEor rs rd) :=
  rfl

theorem tLslReg (rs : LowReg) (rd : LowReg) : Statement (.tLslReg rs rd) :=
  rfl

theorem tLsrReg (rs : LowReg) (rd : LowReg) : Statement (.tLsrReg rs rd) :=
  rfl

theorem tAsrReg (rs : LowReg) (rd : LowReg) : Statement (.tAsrReg rs rd) :=
  rfl

theorem tAdc (rs : LowReg) (rd : LowReg) : Statement (.tAdc rs rd) :=
  rfl

theorem tSbc (rs : LowReg) (rd : LowReg) : Statement (.tSbc rs rd) :=
  rfl

theorem tRor (rs : LowReg) (rd : LowReg) : Statement (.tRor rs rd) :=
  rfl

theorem tTst (rs : LowReg) (rd : LowReg) : Statement (.tTst rs rd) :=
  rfl

theorem tNeg (rs : LowReg) (rd : LowReg) : Statement (.tNeg rs rd) :=
  rfl

theorem tCmpReg (rs : LowReg) (rd : LowReg) : Statement (.tCmpReg rs rd) :=
  rfl

theorem tCmn (rs : LowReg) (rd : LowReg) : Statement (.tCmn rs rd) :=
  rfl

theorem tOrr (rs : LowReg) (rd : LowReg) : Statement (.tOrr rs rd) :=
  rfl

theorem tMul (rs : LowReg) (rd : LowReg) : Statement (.tMul rs rd) :=
  rfl

theorem tBic (rs : LowReg) (rd : LowReg) : Statement (.tBic rs rd) :=
  rfl

theorem tMvn (rs : LowReg) (rd : LowReg) : Statement (.tMvn rs rd) :=
  rfl

theorem tAddHi (rs : Reg) (rd : Reg) : Statement (.tAddHi rs rd) :=
  rfl

theorem tCmpHi (rs : Reg) (rd : Reg) : Statement (.tCmpHi rs rd) :=
  rfl

theorem tMovHi (rs : Reg) (rd : Reg) : Statement (.tMovHi rs rd) :=
  rfl

theorem tBx (rs : Reg) : Statement (.tBx rs) :=
  rfl

theorem tBlxReg (rs : Reg) : Statement (.tBlxReg rs) :=
  rfl

theorem tLdrPc (rd : LowReg) (imm8 : BitVec 8) : Statement (.tLdrPc rd imm8) :=
  rfl

theorem tStrReg (ro : LowReg) (rb : LowReg) (rd : LowReg) : Statement (.tStrReg ro rb rd) :=
  rfl

theorem tStrbReg (ro : LowReg) (rb : LowReg) (rd : LowReg) : Statement (.tStrbReg ro rb rd) :=
  rfl

theorem tLdrReg (ro : LowReg) (rb : LowReg) (rd : LowReg) : Statement (.tLdrReg ro rb rd) :=
  rfl

theorem tLdrbReg (ro : LowReg) (rb : LowReg) (rd : LowReg) : Statement (.tLdrbReg ro rb rd) :=
  rfl

theorem tStrhReg (ro : LowReg) (rb : LowReg) (rd : LowReg) : Statement (.tStrhReg ro rb rd) :=
  rfl

theorem tLdsb (ro : LowReg) (rb : LowReg) (rd : LowReg) : Statement (.tLdsb ro rb rd) :=
  rfl

theorem tLdrhReg (ro : LowReg) (rb : LowReg) (rd : LowReg) : Statement (.tLdrhReg ro rb rd) :=
  rfl

theorem tLdsh (ro : LowReg) (rb : LowReg) (rd : LowReg) : Statement (.tLdsh ro rb rd) :=
  rfl

theorem tStrImm (imm5 : BitVec 5) (rb : LowReg) (rd : LowReg) : Statement (.tStrImm imm5 rb rd) :=
  rfl

theorem tLdrImm (imm5 : BitVec 5) (rb : LowReg) (rd : LowReg) : Statement (.tLdrImm imm5 rb rd) :=
  rfl

theorem tStrbImm (imm5 : BitVec 5) (rb : LowReg) (rd : LowReg) : Statement (.tStrbImm imm5 rb rd) :=
  rfl

theorem tLdrbImm (imm5 : BitVec 5) (rb : LowReg) (rd : LowReg) : Statement (.tLdrbImm imm5 rb rd) :=
  rfl

theorem tStrhImm (imm5 : BitVec 5) (rb : LowReg) (rd : LowReg) : Statement (.tStrhImm imm5 rb rd) :=
  rfl

theorem tLdrhImm (imm5 : BitVec 5) (rb : LowReg) (rd : LowReg) : Statement (.tLdrhImm imm5 rb rd) :=
  rfl

theorem tStrSp (rd : LowReg) (imm8 : BitVec 8) : Statement (.tStrSp rd imm8) :=
  rfl

theorem tLdrSp (rd : LowReg) (imm8 : BitVec 8) : Statement (.tLdrSp rd imm8) :=
  rfl

theorem tAddPc (rd : LowReg) (imm8 : BitVec 8) : Statement (.tAddPc rd imm8) :=
  rfl

theorem tAddSp (rd : LowReg) (imm8 : BitVec 8) : Statement (.tAddSp rd imm8) :=
  rfl

theorem tAdjustSp (sub : Bool) (imm7 : BitVec 7) : Statement (.tAdjustSp sub imm7) :=
  rfl

theorem tPush (r : Bool) (list : BitVec 8) : Statement (.tPush r list) :=
  rfl

theorem tPop (r : Bool) (list : BitVec 8) : Statement (.tPop r list) :=
  rfl

theorem tStmia (rb : LowReg) (list : BitVec 8) : Statement (.tStmia rb list) :=
  rfl

theorem tLdmia (rb : LowReg) (list : BitVec 8) : Statement (.tLdmia rb list) :=
  rfl

theorem tBeq (imm8 : BitVec 8) : Statement (.tBeq imm8) :=
  rfl

theorem tBne (imm8 : BitVec 8) : Statement (.tBne imm8) :=
  rfl

theorem tBcs (imm8 : BitVec 8) : Statement (.tBcs imm8) :=
  rfl

theorem tBcc (imm8 : BitVec 8) : Statement (.tBcc imm8) :=
  rfl

theorem tBmi (imm8 : BitVec 8) : Statement (.tBmi imm8) :=
  rfl

theorem tBpl (imm8 : BitVec 8) : Statement (.tBpl imm8) :=
  rfl

theorem tBvs (imm8 : BitVec 8) : Statement (.tBvs imm8) :=
  rfl

theorem tBvc (imm8 : BitVec 8) : Statement (.tBvc imm8) :=
  rfl

theorem tBhi (imm8 : BitVec 8) : Statement (.tBhi imm8) :=
  rfl

theorem tBls (imm8 : BitVec 8) : Statement (.tBls imm8) :=
  rfl

theorem tBge (imm8 : BitVec 8) : Statement (.tBge imm8) :=
  rfl

theorem tBlt (imm8 : BitVec 8) : Statement (.tBlt imm8) :=
  rfl

theorem tBgt (imm8 : BitVec 8) : Statement (.tBgt imm8) :=
  rfl

theorem tBle (imm8 : BitVec 8) : Statement (.tBle imm8) :=
  rfl

theorem tSwi (imm8 : BitVec 8) : Statement (.tSwi imm8) :=
  rfl

theorem tB (imm11 : BitVec 11) : Statement (.tB imm11) :=
  rfl

theorem tBlFirst (imm11 : BitVec 11) : Statement (.tBlFirst imm11) :=
  rfl

theorem tBlSecond (imm11 : BitVec 11) : Statement (.tBlSecond imm11) :=
  rfl

theorem tBlxSecond (imm11 : BitVec 11) : Statement (.tBlxSecond imm11) :=
  rfl

theorem tUndB1 : Statement (.tUndB1) :=
  rfl

theorem tUndB2 : Statement (.tUndB2) :=
  rfl

theorem tUndB6 : Statement (.tUndB6) :=
  rfl

theorem tUndB8 : Statement (.tUndB8) :=
  rfl

theorem tUndBE : Statement (.tUndBE) :=
  rfl

theorem tUndDE : Statement (.tUndDE) :=
  rfl

end Sys2Proof.Laws.EncodeCondition
end

