-- ==== Sys2Proof/Tests/Slice0.lean ====
section
/-! SUPPORT. Tests of the decoder and of single steps, and a witness for the hypotheses of every obligation. -/
namespace Sys2Proof.Tests
open Sys2Proof.Machine
set_option Elab.async false

/-- Put a word in memory as the core that runs sees it. -/
def put (s : State) (p : Word × Word) : State :=
  match region s s.current p.1 .data with
  | .ram arr off => { s with mem := s.mem.write arr off .word p.2 }
  | .rom arr off => { s with mem := s.mem.write arr off .word p.2 }
  | _ => s

/-- Core `c` about to run the instruction at `a` with the given status word, register slots, SPSRs and words
of memory, everything else as after reset. -/
def machine (c : CoreId) (cpsr a : Word) (regs : List (Fin 30 × Word)) (spsr : List (Fin 5 × Word))
    (mem : List (Word × Word)) : State :=
  let k := State.reset.cpu.get c
  let k1 : Cpu :=
    { k with
      cpsr := cpsr
      r15 := if psrT cpsr then a + 4 else a + 8
      regs := regs.foldl (fun v p => v.set p.1 p.2) k.regs
      spsr := spsr.foldl (fun v p => v.set p.1 p.2) k.spsr }
  mem.foldl put { State.reset with current := c, cpu := State.reset.cpu.set c k1 }

/-- The step runs the opcode and leaves this status word, this next address, these slots and these words. -/
def runs (s : State) (nbits w : Nat) (cpsr next : Word) (regs : List (Fin 30 × Word))
    (spsr : List (Fin 5 × Word)) (mem : List (Word × Word)) : Bool :=
  match step (s.withFetchWord nbits w) with
  | .next t =>
    t.cur.cpsr == cpsr && t.cur.r15 == next + t.cur.stride + t.cur.stride &&
      regs.all (fun p => t.cur.regs[p.1] == p.2) && spsr.all (fun p => t.cur.spsr[p.1] == p.2) &&
      mem.all fun p => peek t p.1 .word == p.2
  | _ => false

/-- The step stops with this outcome. -/
def stops (s : State) (nbits w : Nat) (r : Fault ⊕ Refusal) : Bool :=
  match step (s.withFetchWord nbits w), r with
  | .fault f, .inl g => f == g
  | .refused f, .inr g => f == g
  | _, _ => false

/-! Well-formedness: a term that breaks each check is refused. -/

theorem test_wellFormed_refuses_empty_msr : (Instr.msrImm .al false 0 0 5).wellFormed = false := by decide

theorem test_wellFormed_refuses_hint_0 : (Instr.hintOther .al 0).wellFormed = false := by decide

theorem test_wellFormed_refuses_hint_3 : (Instr.hintOther .al 3).wellFormed = false := by decide

/-! Decoding: one word for every constructor, the bits the row ignores set at will. Each word is written out
from the row's encoding in opcode_table.json. -/

theorem test_decode_arm_1 :
    [0xE01E65E5, 0x3019421C, 0xE2002112, 0x6020EA66, 0x703F0278, 0xD228A793,
      0x0043C34C, 0x2040661F, 0xC25D268A, 0xA069A063, 0x4063017F, 0x526E64D6].map decodeArm =
    [some (.andShiftImm .al true 14 6 11 .ror 5),
      some (.andShiftReg .cc true 9 4 2 .lsl 12),
      some (.andImm .al false 0 2 1 18),
      some (.eorShiftImm .vs false 0 14 20 .ror 6),
      some (.eorShiftReg .vc true 15 0 2 .ror 8),
      some (.eorImm .le false 8 10 7 147),
      some (.subShiftImm .eq false 3 12 6 .asr 12),
      some (.subShiftReg .cs false 0 6 6 .lsl 15),
      some (.subImm .gt true 13 2 6 138),
      some (.rsbShiftImm .ge false 9 10 0 .ror 3),
      some (.rsbShiftReg .mi false 3 0 1 .ror 15),
      some (.rsbImm .pl false 14 6 4 214)] := by decide +kernel

theorem test_decode_arm_2 :
    [0xC08CD688, 0x90865C11, 0x428E80A8, 0x90B222A7, 0x00BBE474, 0xC2A4977F,
      0x60C6CF0D, 0x10C3183C, 0x82DF9523, 0x40EF28A6, 0x00E8DE31, 0x12E9B42F].map decodeArm =
    [some (.addShiftImm .gt false 12 13 13 .lsl 8),
      some (.addShiftReg .ls false 6 5 12 .lsl 1),
      some (.addImm .mi false 14 8 0 168),
      some (.adcShiftImm .ls true 2 2 5 .lsr 7),
      some (.adcShiftReg .eq true 11 14 4 .ror 4),
      some (.adcImm .gt false 4 9 7 127),
      some (.sbcShiftImm .vs false 6 12 30 .lsl 13),
      some (.sbcShiftReg .ne false 3 1 8 .lsr 12),
      some (.sbcImm .hi true 15 9 5 35),
      some (.rscShiftImm .mi false 15 2 17 .lsr 6),
      some (.rscShiftReg .eq false 8 13 14 .lsr 1),
      some (.rscImm .ne false 9 11 4 47)] := by decide +kernel

theorem test_decode_arm_3 :
    [0xB114CE44, 0x9111F01F, 0xE31B4142, 0x213D20E0, 0x2132235D, 0xE33E720F,
      0x315F3FC0, 0xA15E3F3A, 0x6356EC70, 0x1172F8A3, 0xA17E9A11, 0xB379B045].map decodeArm =
    [some (.tstShiftImm .lt 4 12 28 .asr 4),
      some (.tstShiftReg .ls 1 15 0 .lsl 15),
      some (.tstImm .al 11 4 1 66),
      some (.teqShiftImm .cs 13 2 1 .ror 0),
      some (.teqShiftReg .cs 2 2 3 .asr 13),
      some (.teqImm .al 14 7 2 15),
      some (.cmpShiftImm .cc 15 3 31 .asr 0),
      some (.cmpShiftReg .ge 14 3 15 .lsr 10),
      some (.cmpImm .vs 6 14 12 112),
      some (.cmnShiftImm .ne 2 15 17 .lsr 3),
      some (.cmnShiftReg .ge 14 9 10 .lsl 1),
      some (.cmnImm .lt 9 11 0 69)] := by decide +kernel

theorem test_decode_arm_4 :
    [0x4183E342, 0x618F851F, 0x13878B51, 0xC1AB2D64, 0xA1B1A613, 0xA3BF0B2A,
      0x01C2D12A, 0x41D4EF17, 0xE3D589C3, 0x61FF48E6, 0x11F53F15, 0xC3F37FFC].map decodeArm =
    [some (.orrShiftImm .mi false 3 14 6 .asr 2),
      some (.orrShiftReg .vs false 15 8 5 .lsl 15),
      some (.orrImm .ne false 7 8 11 81),
      some (.movShiftImm .gt false 2 26 .ror 4),
      some (.movShiftReg .ge true 10 6 .lsl 3),
      some (.movImm .ge true 0 11 42),
      some (.bicShiftImm .eq false 2 13 2 .lsr 10),
      some (.bicShiftReg .mi true 4 14 15 .lsl 7),
      some (.bicImm .al true 5 8 9 195),
      some (.mvnShiftImm .vs true 4 17 .ror 6),
      some (.mvnShiftReg .ne true 3 15 .lsl 5),
      some (.mvnImm .gt true 7 15 252)] := by decide +kernel

theorem test_decode_arm_5 :
    [0xA10D6E07, 0x3166810D, 0x6327BB5C, 0x6320B600, 0x4320A903, 0xA0021F93,
      0x40253695, 0x5093149E, 0x20AACE9D, 0xB0D6B091, 0x60EDEB9B, 0xC10653A2].map decodeArm =
    [some (.mrs .ge false 6),
      some (.msrReg .cc true 6 13),
      some (.msrImm .vs false 7 11 92),
      some (.nop .vs),
      some (.wfi .mi),
      some (.mul .ge false 2 15 3),
      some (.mla .mi false 5 3 6 5),
      some (.umull .pl true 3 1 4 14),
      some (.umlal .cs false 10 12 14 13),
      some (.smull .lt true 6 11 0 1),
      some (.smlal .vs false 13 14 11 11),
      some (.smlaXY .gt 6 5 3 false true 2)] := by decide +kernel

theorem test_decode_arm_6 :
    [0xC126A8C3, 0x512C44EB, 0x214A9F8B, 0x116788E6, 0x64933795, 0x8796C008,
      0x85A3E270, 0x172F5F8D, 0xD5FB9F76, 0x87D0712D, 0xC4E1A25A, 0x77E71364].map decodeArm =
    [some (.smlaWY .gt 6 10 8 true 3),
      some (.smulWY .pl 12 4 true 11),
      some (.smlalXY .cs 10 9 15 false false 11),
      some (.smulXY .ne 7 8 true true 6),
      some (.ldrImm .vs false true false 3 3 1941),
      some (.ldrReg .hi true true false 6 12 0 .lsl 8),
      some (.strImm .hi true true true 3 14 624),
      some (.strReg .ne true false true 15 5 31 .lsl 13),
      some (.ldrbImm .le true true true 11 9 3958),
      some (.ldrbReg .hi true true false 0 7 2 .lsr 13),
      some (.strbImm .gt false true true 1 10 602),
      some (.strbReg .vc true true true 7 1 6 .ror 4)] := by decide +kernel

theorem test_decode_arm_7 :
    [0x702E3EB6, 0x41EDB4B9, 0x4099B1B8, 0x805611B0, 0x819136D7, 0x71FB6ADA,
      0x4036EEFD, 0xA17B3EFA, 0x20AE9BD0, 0x91E47BDA, 0xB0A8E3F9, 0x70E0BCFC].map decodeArm =
    [some (.strhReg .vc false false true 14 3 6),
      some (.strhImm .mi true true true 13 11 73),
      some (.ldrhReg .mi false true false 9 11 8),
      some (.ldrhImm .hi false false false 6 1 16),
      some (.ldrsbReg .hi true true false 1 3 7),
      some (.ldrsbImm .vc true true true 11 6 170),
      some (.ldrshReg .mi false false true 6 14 13),
      some (.ldrshImm .ge true false true 11 3 234),
      some (.ldrdReg .cs false true true 14 9 0),
      some (.ldrdImm .ls true true true 4 7 186),
      some (.strdReg .lt false true true 8 14 9),
      some (.strdImm .vc false true true 0 11 204)] := by decide +kernel

theorem test_decode_arm_8 :
    [0x610BC494, 0x91407091, 0xD8B28C1B, 0x3903D817, 0x7A70DECD, 0xABEB0B3C,
      0xC121091B, 0xC129C032, 0xFAA44A54, 0x6166CA1D, 0x110E0E5F, 0x6127F557].map decodeArm =
    [some (.swp .vs 11 12 4),
      some (.swpb .ls 0 7 1),
      some (.ldm .le false true false true 2 35867),
      some (.stm .cc true false false false 3 55319),
      some (.b .vc 7397069),
      some (.bl .ge 15403836),
      some (.bx .gt 11),
      some (.blxReg .gt 2),
      some (.blxImm false 10766932),
      some (.clz .vs 12 13),
      some (.qadd .ne 14 0 15),
      some (.qsub .vs 7 15 7)] := by decide +kernel

theorem test_decode_arm_9 :
    [0x914F845F, 0x216F795C, 0x8F1DA9FC, 0x7E0FBE7D, 0x5ED5A494, 0x8320C51B,
      0x30679C94, 0xC15B1D97, 0x01BF8190, 0xE12FCC9E, 0xD14CA11E, 0xE1614433].map decodeArm =
    [some (.qdadd .ls 15 8 15),
      some (.qdsub .cs 15 7 12),
      some (.swi .hi 1944060),
      some (.mcr .vc 0 15 11 14 3 13),
      some (.mrc .pl 6 5 10 4 4 4),
      some (.hintOther .hi 27),
      some (.undMultiply .cc),
      some (.undSwapLoad .gt),
      some (.undSwapWide .eq),
      some (.undSwapOdd .al),
      some (.undMiscBranch .le),
      some (.undMiscClz .al)] := by decide +kernel

theorem test_decode_arm_10 :
    [0x61455F22, 0x81066A69, 0x41257C79, 0x130B163C, 0xD6F9BA16, 0xBCD9F28A,
      0x9E442643, 0xF3899596, 0xFF42B52B, 0xF912603C].map decodeArm =
    [some (.undMiscTwo .vs),
      some (.undMiscFourSix .hi),
      some (.undMiscSeven .mi),
      some (.undCompareImm .ne),
      some (.undMedia .le),
      some (.undCoprocTransfer .lt),
      some (.undCoprocOp .ls),
      some .undNvLow,
      some .undNvCoproc,
      some .undNvBlock] := by decide +kernel

theorem test_decode_thumb_1 :
    [0x0307, 0x0AEA, 0x107E, 0x19E0, 0x1A4A, 0x1CD0,
      0x1F30, 0x2587, 0x2F2D, 0x32C1, 0x3C7F, 0x4017,
      0x4078, 0x40AE].map decodeThumb =
    [some (.tLslImm 12 0 7),
      some (.tLsrImm 11 5 2),
      some (.tAsrImm 1 7 6),
      some (.tAddReg 7 4 0),
      some (.tSubReg 1 1 2),
      some (.tAddImm3 3 2 0),
      some (.tSubImm3 4 6 0),
      some (.tMovImm 5 135),
      some (.tCmpImm 7 45),
      some (.tAddImm8 2 193),
      some (.tSubImm8 4 127),
      some (.tAnd 2 7),
      some (.tEor 7 0),
      some (.tLslReg 5 6)] := by decide +kernel

theorem test_decode_thumb_2 :
    [0x40FD, 0x4118, 0x4157, 0x4192, 0x41F8, 0x4203,
      0x4272, 0x428E, 0x42E7, 0x4331, 0x4343, 0x43A4,
      0x43CB, 0x44CB].map decodeThumb =
    [some (.tLsrReg 7 5),
      some (.tAsrReg 3 0),
      some (.tAdc 2 7),
      some (.tSbc 2 2),
      some (.tRor 7 0),
      some (.tTst 0 3),
      some (.tNeg 6 2),
      some (.tCmpReg 1 6),
      some (.tCmn 4 7),
      some (.tOrr 6 1),
      some (.tMul 0 3),
      some (.tBic 4 4),
      some (.tMvn 1 3),
      some (.tAddHi 9 11)] := by decide +kernel

theorem test_decode_thumb_3 :
    [0x45EB, 0x4630, 0x4753, 0x47F6, 0x4A53, 0x51DE,
      0x54FC, 0x59FF, 0x5CBB, 0x53B1, 0x5625, 0x5B02,
      0x5F33, 0x644D].map decodeThumb =
    [some (.tCmpHi 13 11),
      some (.tMovHi 6 0),
      some (.tBx 10),
      some (.tBlxReg 14),
      some (.tLdrPc 2 83),
      some (.tStrReg 7 3 6),
      some (.tStrbReg 3 7 4),
      some (.tLdrReg 7 7 7),
      some (.tLdrbReg 2 7 3),
      some (.tStrhReg 6 6 1),
      some (.tLdsb 0 4 5),
      some (.tLdrhReg 4 0 2),
      some (.tLdsh 4 6 3),
      some (.tStrImm 17 1 5)] := by decide +kernel

theorem test_decode_thumb_4 :
    [0x68D5, 0x7219, 0x786E, 0x870E, 0x8D20, 0x94C9,
      0x9BFA, 0xA060, 0xAA41, 0xB035, 0xB5D2, 0xBDF5,
      0xC285, 0xCDE7].map decodeThumb =
    [some (.tLdrImm 3 2 5),
      some (.tStrbImm 8 3 1),
      some (.tLdrbImm 1 5 6),
      some (.tStrhImm 28 1 6),
      some (.tLdrhImm 20 4 0),
      some (.tStrSp 4 201),
      some (.tLdrSp 3 250),
      some (.tAddPc 0 96),
      some (.tAddSp 2 65),
      some (.tAdjustSp false 53),
      some (.tPush true 210),
      some (.tPop true 245),
      some (.tStmia 2 133),
      some (.tLdmia 5 231)] := by decide +kernel

theorem test_decode_thumb_5 :
    [0xD0C1, 0xD14B, 0xD268, 0xD38F, 0xD4E6, 0xD5CF,
      0xD645, 0xD7C5, 0xD8B6, 0xD973, 0xDA34, 0xDB95,
      0xDCBD, 0xDDB0].map decodeThumb =
    [some (.tBeq 193),
      some (.tBne 75),
      some (.tBcs 104),
      some (.tBcc 143),
      some (.tBmi 230),
      some (.tBpl 207),
      some (.tBvs 69),
      some (.tBvc 197),
      some (.tBhi 182),
      some (.tBls 115),
      some (.tBge 52),
      some (.tBlt 149),
      some (.tBgt 189),
      some (.tBle 176)] := by decide +kernel

theorem test_decode_thumb_6 :
    [0xDF6E, 0xE23E, 0xF0A6, 0xF864, 0xEFB9, 0xB148,
      0xB3E8, 0xB6FF, 0xBA1F, 0xBFBF, 0xDEA7].map decodeThumb =
    [some (.tSwi 110),
      some (.tB 574),
      some (.tBlFirst 166),
      some (.tBlSecond 100),
      some (.tBlxSecond 1977),
      some .tUndB1,
      some .tUndB2,
      some .tUndB6,
      some .tUndB8,
      some .tUndBE,
      some .tUndDE] := by decide +kernel

/-! The step: one instruction each, from the vectors of 95_test_vectors.md (EX), 96_test_vectors_arm.md (SH, DP,
PS, MU, LS, LH, BT, BR) and 97_test_vectors_thumb.md (TA, TB), by their names there. -/

theorem test_ex11_return_to_thumb :
    runs (machine .arm9 0x92 0x2000000 [(26, 0x2000106)] [(1, 0x3F)] []) 32 0xE25EF004 0x3F 0x2000102 []
      [] [] = true := by decide +kernel

theorem test_sh6_asr32 :
    runs (machine .arm9 0x1F 0x2000000 [(1, 0x80000000)] [] []) 32 0xE1B00041 0xA000001F 0x2000004 [(0, 0xFFFFFFFF)]
      [] [] = true := by decide +kernel

theorem test_sh9_rrx :
    runs (machine .arm9 0x2000001F 0x2000000 [(1, 0x1)] [] []) 32 0xE1B00061 0xA000001F 0x2000004 [(0, 0x80000000)]
      [] [] = true := by decide +kernel

theorem test_sh14_lsl33 :
    runs (machine .arm9 0x2000001F 0x2000000 [(1, 0x1), (2, 0x21)] [] []) 32 0xE1B00211 0x4000001F 0x2000004 [(0, 0x0)]
      [] [] = true := by decide +kernel

theorem test_sh22_ror36 :
    runs (machine .arm9 0x1F 0x2000000 [(1, 0xF), (2, 0x24)] [] []) 32 0xE1B00271 0xA000001F 0x2000004 [(0, 0xF0000000)]
      [] [] = true := by decide +kernel

theorem test_dp1_adds_overflow :
    runs (machine .arm9 0x1F 0x2000000 [(1, 0x7FFFFFFF), (2, 0x1)] [] []) 32 0xE0910002 0x9000001F 0x2000004 [(0, 0x80000000)]
      [] [] = true := by decide +kernel

theorem test_dp6_subs_overflow :
    runs (machine .arm9 0x1F 0x2000000 [(1, 0x80000000), (2, 0x1)] [] []) 32 0xE0510002 0x3000001F 0x2000004 [(0, 0x7FFFFFFF)]
      [] [] = true := by decide +kernel

theorem test_dp8_rsbs :
    runs (machine .arm9 0x1F 0x2000000 [(1, 0x80000000)] [] []) 32 0xE2710000 0x9000001F 0x2000004 [(0, 0x80000000)]
      [] [] = true := by decide +kernel

theorem test_dp9_adcs_carry :
    runs (machine .arm9 0x2000001F 0x2000000 [(1, 0xFFFFFFFF), (2, 0x0)] [] []) 32 0xE0B10002 0x6000001F 0x2000004 [(0, 0x0)]
      [] [] = true := by decide +kernel

theorem test_dp11_sbcs_borrow :
    runs (machine .arm9 0x1F 0x2000000 [(1, 0x5), (2, 0x5)] [] []) 32 0xE0D10002 0x8000001F 0x2000004 [(0, 0xFFFFFFFF)]
      [] [] = true := by decide +kernel

theorem test_dp13_rscs :
    runs (machine .arm9 0x1F 0x2000000 [(1, 0x1), (2, 0x3)] [] []) 32 0xE0F10002 0x2000001F 0x2000004 [(0, 0x1)]
      [] [] = true := by decide +kernel

theorem test_dp14_ands_keeps_v :
    runs (machine .arm9 0x3000001F 0x2000000 [(1, 0xF0F0F0F0), (2, 0xF0F0F0F)] [] []) 32 0xE0110002 0x7000001F 0x2000004 [(0, 0x0)]
      [] [] = true := by decide +kernel

theorem test_dp15_eors :
    runs (machine .arm9 0x1F 0x2000000 [(1, 0xFFFFFFFF), (2, 0x7FFFFFFF)] [] []) 32 0xE0310002 0x8000001F 0x2000004 [(0, 0x80000000)]
      [] [] = true := by decide +kernel

theorem test_dp16_orrs_shifter_carry :
    runs (machine .arm9 0x1F 0x2000000 [(1, 0x0), (2, 0x3)] [] []) 32 0xE1910F82 0xA000001F 0x2000004 [(0, 0x80000000)]
      [] [] = true := by decide +kernel

theorem test_dp17_bics :
    runs (machine .arm9 0x1F 0x2000000 [(1, 0xAA)] [] []) 32 0xE3D100FF 0x4000001F 0x2000004 [(0, 0x0)]
      [] [] = true := by decide +kernel

theorem test_dp19_tst :
    runs (machine .arm9 0x1F 0x2000000 [(1, 0x80000000)] [] []) 32 0xE3110102 0xA000001F 0x2000004 []
      [] [] = true := by decide +kernel

theorem test_dp20_teq :
    runs (machine .arm9 0x2000001F 0x2000000 [(1, 0x12345678), (2, 0x12345678)] [] []) 32 0xE1310002 0x6000001F 0x2000004 []
      [] [] = true := by decide +kernel

theorem test_dp22_cmp :
    runs (machine .arm9 0x1F 0x2000000 [(1, 0x80000000), (2, 0x7FFFFFFF)] [] []) 32 0xE1510002 0x3000001F 0x2000004 []
      [] [] = true := by decide +kernel

theorem test_dp23_cmn :
    runs (machine .arm9 0x1F 0x2000000 [(1, 0xFFFFFFFF), (2, 0x1)] [] []) 32 0xE1710002 0x6000001F 0x2000004 []
      [] [] = true := by decide +kernel

theorem test_dp25_condition_fails :
    runs (machine .arm9 0x4000001F 0x2000000 [(0, 0x55)] [] []) 32 0x13A00001 0x4000001F 0x2000004 []
      [] [] = true := by decide +kernel

theorem test_dp30_nv_arm7 :
    runs (machine .arm7 0x1F 0x2000000 [(0, 0x55)] [] []) 32 0xF3A00001 0x1F 0x2000004 []
      [] [] = true := by decide +kernel

theorem test_dp33_pc_reads_a12 :
    runs (machine .arm9 0x1F 0x2000000 [(1, 0x1), (2, 0x4)] [] []) 32 0xE08F0211 0x1F 0x2000004 [(0, 0x200001C)]
      [] [] = true := by decide +kernel

theorem test_dp35_mov_pc :
    runs (machine .arm9 0x1F 0x2000000 [(24, 0x2000103)] [] []) 32 0xE1A0F00E 0x1F 0x2000100 []
      [] [] = true := by decide +kernel

theorem test_dp38_subs_pc :
    runs (machine .arm9 0xD2 0x2000000 [(26, 0x2000104)] [(1, 0x8000001F)] []) 32 0xE25EF004 0x8000001F 0x2000100 []
      [] [] = true := by decide +kernel

theorem test_dp39_movs_pc_system :
    stops (machine .arm9 0x1F 0x2000000 [(24, 0x2000100)] [] []) 32 0xE1B0F00E (.inr .spsrInUserMode) = true := by decide +kernel

theorem test_dp41_cmp_r15 :
    stops (machine .arm9 0x1F 0x2000000 [(1, 0x1), (2, 0x1)] [] []) 32 0xE151F002 (.inr .compareR15) = true := by decide +kernel

theorem test_dp42_shift_by_r15 :
    stops (machine .arm9 0x1F 0x2000000 [(1, 0x1)] [] []) 32 0xE1A00F11 (.inr .shiftAmountR15) = true := by decide +kernel

theorem test_ps1_mrs :
    runs (machine .arm9 0xA00000D3 0x2000000 [] [] []) 32 0xE10F0000 0xA00000D3 0x2000004 [(0, 0xA00000D3)]
      [] [] = true := by decide +kernel

theorem test_ps2_mrs_spsr :
    runs (machine .arm9 0xD3 0x2000000 [] [(2, 0x6000001F)] []) 32 0xE14F0000 0xD3 0x2000004 [(0, 0x6000001F)]
      [] [] = true := by decide +kernel

theorem test_ps4_msr_immediate :
    runs (machine .arm9 0xD3 0x2000000 [] [] []) 32 0xE328F20F 0xF00000D3 0x2000004 []
      [] [] = true := by decide +kernel

theorem test_ps7_msr_user_mode :
    runs (machine .arm9 0x10 0x2000000 [(1, 0xF00000DF)] [] []) 32 0xE129F001 0xF0000010 0x2000004 []
      [] [] = true := by decide +kernel

theorem test_ps9_msr_invalid_mode :
    stops (machine .arm9 0xD3 0x2000000 [(1, 0x0)] [] []) 32 0xE121F001 (.inl .invalidMode) = true := by decide +kernel

theorem test_ps10_msr_t :
    stops (machine .arm9 0xD3 0x2000000 [(1, 0x33)] [] []) 32 0xE121F001 (.inr .msrChangesT) = true := by decide +kernel

theorem test_ps11_msr_spsr :
    runs (machine .arm9 0xD3 0x2000000 [(1, 0x9000003F)] [] []) 32 0xE169F001 0xD3 0x2000004 []
      [(2, 0x9000003F)] [] = true := by decide +kernel

theorem test_ps15_wfi :
    runs (machine .arm9 0x1F 0x2000000 [] [] []) 32 0xE320F003 0x1F 0x2000004 []
      [] [] = true := by decide +kernel

theorem test_ps16_hint1 :
    stops (machine .arm9 0x1F 0x2000000 [] [] []) 32 0xE320F001 (.inl .unimplementedHint) = true := by decide +kernel

theorem test_mu2_muls :
    runs (machine .arm9 0x3000001F 0x2000000 [(1, 0xFFFFFFFF), (2, 0x2)] [] []) 32 0xE0100291 0xB000001F 0x2000004 [(0, 0xFFFFFFFE)]
      [] [] = true := by decide +kernel

theorem test_mu5_mla :
    runs (machine .arm9 0x1F 0x2000000 [(1, 0x3), (2, 0x5), (3, 0xFFFFFFFF)] [] []) 32 0xE0203291 0x1F 0x2000004 [(0, 0xE)]
      [] [] = true := by decide +kernel

theorem test_mu6_umull :
    runs (machine .arm9 0x1F 0x2000000 [(2, 0xFFFFFFFF), (3, 0xFFFFFFFF)] [] []) 32 0xE0810392 0x1F 0x2000004 [(0, 0x1), (1, 0xFFFFFFFE)]
      [] [] = true := by decide +kernel

theorem test_mu8_smulls :
    runs (machine .arm9 0x1F 0x2000000 [(2, 0x80000000), (3, 0x80000000)] [] []) 32 0xE0D10392 0x1F 0x2000004 [(0, 0x0), (1, 0x40000000)]
      [] [] = true := by decide +kernel

theorem test_mu10_umlal :
    runs (machine .arm9 0x1F 0x2000000 [(0, 0xFFFFFFFF), (1, 0x0), (2, 0x1), (3, 0x1)] [] []) 32 0xE0A10392 0x1F 0x2000004 [(0, 0x0), (1, 0x1)]
      [] [] = true := by decide +kernel

theorem test_mu15_smultb :
    runs (machine .arm9 0x1F 0x2000000 [(1, 0x80000000), (2, 0x8000)] [] []) 32 0xE16002A1 0x1F 0x2000004 [(0, 0x40000000)]
      [] [] = true := by decide +kernel

theorem test_mu19_smlabb :
    runs (machine .arm9 0x1F 0x2000000 [(1, 0x7FFF), (2, 0x7FFF), (3, 0x7FFFFFFF)] [] []) 32 0xE1003281 0x800001F 0x2000004 [(0, 0xBFFF0000)]
      [] [] = true := by decide +kernel

theorem test_mu23_smulwb :
    runs (machine .arm9 0x1F 0x2000000 [(1, 0x10000), (2, 0x4)] [] []) 32 0xE12002A1 0x1F 0x2000004 [(0, 0x4)]
      [] [] = true := by decide +kernel

theorem test_mu27_smlawb :
    runs (machine .arm9 0x1F 0x2000000 [(1, 0x7FFFFFFF), (2, 0x7FFF), (3, 0x7FFFFFFF)] [] []) 32 0xE1203281 0x800001F 0x2000004 [(0, 0xBFFF7FFE)]
      [] [] = true := by decide +kernel

theorem test_mu29_smlalbt :
    runs (machine .arm9 0x1F 0x2000000 [(0, 0xFFFFFFFF), (1, 0x0), (2, 0x1), (3, 0x10000)] [] []) 32 0xE14103C2 0x1F 0x2000004 [(0, 0x0), (1, 0x1)]
      [] [] = true := by decide +kernel

theorem test_ls2_ldr_rotates :
    runs (machine .arm9 0x1F 0x2000000 [(0, 0x2001001)] [] [(0x2001000, 0x44332211), (0x2001004, 0x88776655)]) 32 0xE5901000 0x1F 0x2000004 [(1, 0x11443322)]
      [] [] = true := by decide +kernel

theorem test_ls5_ldr_pre :
    runs (machine .arm9 0x1F 0x2000000 [(0, 0x2001000)] [] [(0x2001000, 0x44332211), (0x2001004, 0x88776655)]) 32 0xE5B01004 0x1F 0x2000004 [(0, 0x2001004), (1, 0x88776655)]
      [] [] = true := by decide +kernel

theorem test_ls9_ldr_lsr32 :
    runs (machine .arm9 0x1F 0x2000000 [(0, 0x2001000), (2, 0xFFFFFFFF)] [] [(0x2001000, 0x44332211), (0x2001004, 0x88776655)]) 32 0xE7101022 0x1F 0x2000004 [(1, 0x44332211)]
      [] [] = true := by decide +kernel

theorem test_ls11_ldr_rd_rn :
    runs (machine .arm9 0x1F 0x2000000 [(0, 0x2001000)] [] [(0x2001000, 0x44332211), (0x2001004, 0x88776655)]) 32 0xE4900004 0x1F 0x2000004 [(0, 0x44332211)]
      [] [] = true := by decide +kernel

theorem test_ls13_ldrb :
    runs (machine .arm9 0x1F 0x2000000 [(0, 0x2001000)] [] [(0x2001000, 0x44332211), (0x2001004, 0x88776655)]) 32 0xE5D01003 0x1F 0x2000004 [(1, 0x44)]
      [] [] = true := by decide +kernel

theorem test_ls15_strb :
    runs (machine .arm9 0x1F 0x2000000 [(0, 0x2001000), (1, 0xAABBCCDD)] [] [(0x2001000, 0x44332211), (0x2001004, 0x88776655)]) 32 0xE5C01001 0x1F 0x2000004 []
      [] [(0x2001000, 0x4433DD11)] = true := by decide +kernel

theorem test_ls17_str_pc :
    runs (machine .arm9 0x1F 0x2000000 [(0, 0x2001000)] [] []) 32 0xE580F000 0x1F 0x2000004 []
      [] [(0x2001000, 0x200000C)] = true := by decide +kernel

theorem test_ls18_ldr_pc_arm9 :
    runs (machine .arm9 0x1F 0x2000000 [(0, 0x2001000)] [] [(0x2001000, 0x2000101)]) 32 0xE590F000 0x3F 0x2000100 []
      [] [] = true := by decide +kernel

theorem test_ls19_ldr_pc_arm7 :
    runs (machine .arm7 0x1F 0x2000000 [(0, 0x2001000)] [] [(0x2001000, 0x2000101)]) 32 0xE590F000 0x1F 0x2000100 []
      [] [] = true := by decide +kernel

theorem test_ls22_writeback_r15 :
    stops (machine .arm9 0x1F 0x2000000 [] [] []) 32 0xE5BF1004 (.inr .writebackR15) = true := by decide +kernel

theorem test_lh3_ldrh_odd_arm7 :
    runs (machine .arm7 0x1F 0x2000000 [(0, 0x2001000)] [] [(0x2001000, 0x44332211), (0x2001004, 0x88776655)]) 32 0xE1D010B1 0x1F 0x2000004 [(1, 0x11000022)]
      [] [] = true := by decide +kernel

theorem test_lh6_ldrsh :
    runs (machine .arm9 0x1F 0x2000000 [(0, 0x2001000)] [] [(0x2001000, 0x8001)]) 32 0xE1D010F0 0x1F 0x2000004 [(1, 0xFFFF8001)]
      [] [] = true := by decide +kernel

theorem test_lh8_ldrsh_odd_arm7 :
    runs (machine .arm7 0x1F 0x2000000 [(0, 0x2001000)] [] [(0x2001000, 0x8001)]) 32 0xE1D010F1 0x1F 0x2000004 [(1, 0xFFFFFF80)]
      [] [] = true := by decide +kernel

theorem test_lh11_ldrsb :
    runs (machine .arm9 0x1F 0x2000000 [(0, 0x2001000)] [] [(0x2001000, 0x80)]) 32 0xE1D010D0 0x1F 0x2000004 [(1, 0xFFFFFF80)]
      [] [] = true := by decide +kernel

theorem test_lh14_strh_odd :
    runs (machine .arm9 0x1F 0x2000000 [(0, 0x2001000), (1, 0xAABBCCDD)] [] [(0x2001000, 0x44332211), (0x2001004, 0x88776655)]) 32 0xE1C010B1 0x1F 0x2000004 []
      [] [(0x2001000, 0x4433CCDD)] = true := by decide +kernel

theorem test_lh21_ldrd_writeback_between :
    runs (machine .arm9 0x1F 0x2000000 [(0, 0x2001000)] [] [(0x2001000, 0x44332211), (0x2001004, 0x88776655)]) 32 0xE0C000D8 0x1F 0x2000004 [(0, 0x2001008), (1, 0x88776655)]
      [] [] = true := by decide +kernel

theorem test_lh24_strd :
    runs (machine .arm9 0x1F 0x2000000 [(0, 0x2001000), (2, 0x11111111), (3, 0x22222222)] [] []) 32 0xE1E020F8 0x1F 0x2000004 [(0, 0x2001008)]
      [] [(0x2001008, 0x11111111), (0x200100C, 0x22222222)] = true := by decide +kernel

theorem test_lh26_swp :
    runs (machine .arm9 0x1F 0x2000000 [(0, 0x2001001), (2, 0xAABBCCDD)] [] [(0x2001000, 0x44332211), (0x2001004, 0x88776655)]) 32 0xE1001092 0x1F 0x2000004 [(1, 0x11443322)]
      [] [(0x2001000, 0xAABBCCDD)] = true := by decide +kernel

theorem test_lh28_swpb :
    runs (machine .arm9 0x1F 0x2000000 [(0, 0x2001001), (2, 0xAABBCCDD)] [] [(0x2001000, 0x44332211), (0x2001004, 0x88776655)]) 32 0xE1401092 0x1F 0x2000004 [(1, 0x22)]
      [] [(0x2001000, 0x4433DD11)] = true := by decide +kernel

theorem test_bt3_stmda :
    runs (machine .arm9 0x1F 0x2000000 [(1, 0x11111111), (2, 0x22222222), (3, 0x33333333), (0, 0x2001010)] [] []) 32 0xE820000E 0x1F 0x2000004 [(0, 0x2001004)]
      [] [(0x2001008, 0x11111111), (0x200100C, 0x22222222), (0x2001010, 0x33333333)] = true := by decide +kernel

theorem test_bt8_ldmdb :
    runs (machine .arm9 0x1F 0x2000000 [(0, 0x2001010)] [] [(0x2001004, 0xA1), (0x2001008, 0xA2), (0x200100C, 0xA3), (0x2001010, 0xA4), (0x2001014, 0xA5), (0x2001018, 0xA6), (0x200101C, 0xA7)]) 32 0xE930000E 0x1F 0x2000004 [(0, 0x2001004), (1, 0xA1), (2, 0xA2), (3, 0xA3)]
      [] [] = true := by decide +kernel

theorem test_bt12_stm_base_arm7 :
    runs (machine .arm7 0x1F 0x2000000 [(0, 0x55), (1, 0x2001000)] [] []) 32 0xE8A10003 0x1F 0x2000004 [(1, 0x2001008)]
      [] [(0x2001000, 0x55), (0x2001004, 0x2001008)] = true := by decide +kernel

theorem test_bt17_ldm_base_arm9 :
    runs (machine .arm9 0x1F 0x2000000 [(0, 0x2001000)] [] [(0x2001000, 0xCAFE0000), (0x2001004, 0xCAFE0001)]) 32 0xE8B00003 0x1F 0x2000004 [(0, 0x2001008), (1, 0xCAFE0001)]
      [] [] = true := by decide +kernel

theorem test_bt24_empty_arm7 :
    runs (machine .arm7 0x1F 0x2000000 [(0, 0x2001100)] [] []) 32 0xE8A00000 0x1F 0x2000004 [(0, 0x2001140)]
      [] [(0x2001100, 0x200000C)] = true := by decide +kernel

theorem test_bt33_stm_user :
    runs (machine .arm9 0xD2 0x2000000 [(0, 0x2001000), (18, 0xA0A0A0A), (24, 0xB0B0B0B), (20, 0x1C1C1C1C), (26, 0x1D1D1D1D)] [] []) 32 0xE8C06000 0xD2 0x2000004 []
      [] [(0x2001000, 0xA0A0A0A), (0x2001004, 0xB0B0B0B)] = true := by decide +kernel

theorem test_bt34_ldm_user :
    runs (machine .arm9 0xD2 0x2000000 [(0, 0x2001000)] [] [(0x2001000, 0xA0A0A0A), (0x2001004, 0xB0B0B0B)]) 32 0xE8D06000 0xD2 0x2000004 [(18, 0xA0A0A0A), (24, 0xB0B0B0B)]
      [] [] = true := by decide +kernel

theorem test_bt35_ldm_return :
    runs (machine .arm9 0xD2 0x2000000 [(20, 0x2001000)] [(1, 0x6000003F)] [(0x2001000, 0x77), (0x2001004, 0x2000201)]) 32 0xE8FD8001 0x6000003F 0x2000200 [(0, 0x77), (20, 0x2001008)]
      [] [] = true := by decide +kernel

theorem test_br2_b_itself :
    runs (machine .arm9 0x1F 0x2000000 [] [] []) 32 0xEAFFFFFE 0x1F 0x2000000 []
      [] [] = true := by decide +kernel

theorem test_br3_bl :
    runs (machine .arm9 0x1F 0x2000000 [] [] []) 32 0xEB00003E 0x1F 0x2000100 [(24, 0x2000004)]
      [] [] = true := by decide +kernel

theorem test_br7_bx :
    runs (machine .arm9 0x1F 0x2000000 [(0, 0x2000102)] [] []) 32 0xE12FFF10 0x1F 0x2000100 []
      [] [] = true := by decide +kernel

theorem test_br9_blx :
    runs (machine .arm9 0x1F 0x2000000 [(0, 0x2000101)] [] []) 32 0xE12FFF30 0x3F 0x2000100 [(24, 0x2000004)]
      [] [] = true := by decide +kernel

theorem test_br12_blx_immediate :
    runs (machine .arm9 0x1F 0x2000000 [] [] []) 32 0xFB00003E 0x3F 0x2000102 [(24, 0x2000004)]
      [] [] = true := by decide +kernel

theorem test_br18_clz :
    runs (machine .arm9 0x1F 0x2000000 [(1, 0x0)] [] []) 32 0xE16F0F11 0x1F 0x2000004 [(0, 0x20)]
      [] [] = true := by decide +kernel

theorem test_br25_qadd :
    runs (machine .arm9 0x1F 0x2000000 [(1, 0x80000000), (2, 0xFFFFFFFF)] [] []) 32 0xE1020051 0x800001F 0x2000004 [(0, 0x80000000)]
      [] [] = true := by decide +kernel

theorem test_br29_qdadd :
    runs (machine .arm9 0x1F 0x2000000 [(1, 0x1), (2, 0x40000000)] [] []) 32 0xE1420051 0x800001F 0x2000004 [(0, 0x7FFFFFFF)]
      [] [] = true := by decide +kernel

theorem test_br32_qdsub :
    runs (machine .arm9 0x1F 0x2000000 [(1, 0x0), (2, 0x80000000)] [] []) 32 0xE1620051 0x800001F 0x2000004 [(0, 0x7FFFFFFF)]
      [] [] = true := by decide +kernel

theorem test_br34_swi :
    runs (machine .arm7 0x80000010 0x2000000 [] [] []) 32 0xEF123456 0x80000093 0x8 [(27, 0x2000004)]
      [(2, 0x80000010)] [] = true := by decide +kernel

theorem test_br37_bkpt :
    stops (machine .arm9 0x1F 0x2000000 [] [] []) 32 0xE1200070 (.inl .undefinedInstruction) = true := by decide +kernel

theorem test_br39_no_coprocessor :
    stops (machine .arm9 0x1F 0x2000000 [] [] []) 32 0xEE000E10 (.inl .unknownCoprocessor) = true := by decide +kernel

theorem test_br41_mrc :
    runs (machine .arm9 0x1F 0x2000000 [] [] []) 32 0xEE110F10 0x1F 0x2000004 []
      [] [] = true := by decide +kernel

theorem test_ta3_lsr :
    runs (machine .arm9 0x3F 0x2000000 [(1, 0x80000000)] [] []) 16 0x808 0x6000003F 0x2000002 [(0, 0x0)]
      [] [] = true := by decide +kernel

theorem test_ta6_asr :
    runs (machine .arm9 0x2000003F 0x2000000 [(1, 0x40000000)] [] []) 16 0x17C8 0x6000003F 0x2000002 [(0, 0x0)]
      [] [] = true := by decide +kernel

theorem test_ta8_sub :
    runs (machine .arm9 0x3F 0x2000000 [(1, 0x2), (2, 0x3)] [] []) 16 0x1A88 0x8000003F 0x2000002 [(0, 0xFFFFFFFF)]
      [] [] = true := by decide +kernel

theorem test_ta14_mov :
    runs (machine .arm9 0x3F 0x2000000 [] [] []) 16 0x27FF 0x3F 0x2000002 [(7, 0xFF)]
      [] [] = true := by decide +kernel

theorem test_ta15_cmp :
    runs (machine .arm9 0x3F 0x2000000 [(0, 0x5)] [] []) 16 0x2805 0x6000003F 0x2000002 []
      [] [] = true := by decide +kernel

theorem test_ta19_sub8 :
    runs (machine .arm9 0x3F 0x2000000 [(0, 0x80000000)] [] []) 16 0x3801 0x3000003F 0x2000002 [(0, 0x7FFFFFFF)]
      [] [] = true := by decide +kernel

theorem test_ta21_and :
    runs (machine .arm9 0x3000003F 0x2000000 [(0, 0xF0), (1, 0x3C)] [] []) 16 0x4008 0x3000003F 0x2000002 [(0, 0x30)]
      [] [] = true := by decide +kernel

theorem test_ta24_lsl32 :
    runs (machine .arm9 0x3F 0x2000000 [(0, 0x1), (1, 0x20)] [] []) 16 0x4088 0x6000003F 0x2000002 [(0, 0x0)]
      [] [] = true := by decide +kernel

theorem test_ta27_lsr32 :
    runs (machine .arm9 0x3F 0x2000000 [(0, 0x80000000), (1, 0x20)] [] []) 16 0x40C8 0x6000003F 0x2000002 [(0, 0x0)]
      [] [] = true := by decide +kernel

theorem test_ta28_asr40 :
    runs (machine .arm9 0x3F 0x2000000 [(0, 0x80000000), (1, 0x28)] [] []) 16 0x4108 0xA000003F 0x2000002 [(0, 0xFFFFFFFF)]
      [] [] = true := by decide +kernel

theorem test_ta29_adc :
    runs (machine .arm9 0x2000003F 0x2000000 [(0, 0xFFFFFFFF), (1, 0x0)] [] []) 16 0x4148 0x6000003F 0x2000002 [(0, 0x0)]
      [] [] = true := by decide +kernel

theorem test_ta30_sbc :
    runs (machine .arm9 0x3F 0x2000000 [(0, 0x5), (1, 0x2)] [] []) 16 0x4188 0x2000003F 0x2000002 [(0, 0x2)]
      [] [] = true := by decide +kernel

theorem test_ta31_ror :
    runs (machine .arm9 0x3F 0x2000000 [(0, 0x1), (1, 0x1)] [] []) 16 0x41C8 0xA000003F 0x2000002 [(0, 0x80000000)]
      [] [] = true := by decide +kernel

theorem test_ta34_neg :
    runs (machine .arm9 0x3F 0x2000000 [(1, 0x1)] [] []) 16 0x4248 0x8000003F 0x2000002 [(0, 0xFFFFFFFF)]
      [] [] = true := by decide +kernel

theorem test_ta38_cmn :
    runs (machine .arm9 0x3F 0x2000000 [(0, 0x1), (1, 0xFFFFFFFF)] [] []) 16 0x42C8 0x6000003F 0x2000002 []
      [] [] = true := by decide +kernel

theorem test_ta41_mul :
    runs (machine .arm9 0x3F 0x2000000 [(0, 0x6), (1, 0x7)] [] []) 16 0x4348 0x3F 0x2000002 [(0, 0x2A)]
      [] [] = true := by decide +kernel

theorem test_ta43_mvn :
    runs (machine .arm9 0x3F 0x2000000 [(1, 0x0)] [] []) 16 0x43C8 0x8000003F 0x2000002 [(0, 0xFFFFFFFF)]
      [] [] = true := by decide +kernel

theorem test_ta45_add_high :
    runs (machine .arm9 0x3F 0x2000000 [(0, 0x1), (8, 0xFFFFFFFF)] [] []) 16 0x4480 0x3F 0x2000002 [(8, 0x0)]
      [] [] = true := by decide +kernel

theorem test_ta47_add_pc :
    runs (machine .arm9 0x3F 0x2000000 [(0, 0x11)] [] []) 16 0x4487 0x3F 0x2000014 []
      [] [] = true := by decide +kernel

theorem test_ta48_cmp_high :
    runs (machine .arm9 0x3F 0x2000000 [(0, 0x2), (8, 0x2)] [] []) 16 0x4540 0x6000003F 0x2000002 []
      [] [] = true := by decide +kernel

theorem test_ta50_mov_high :
    runs (machine .arm9 0x8000003F 0x2000000 [(8, 0xABCD)] [] []) 16 0x4640 0x8000003F 0x2000002 [(0, 0xABCD)]
      [] [] = true := by decide +kernel

theorem test_ta57_bx_pc :
    runs (machine .arm9 0x3F 0x2000002 [] [] []) 16 0x4778 0x1F 0x2000004 [(8, 0x0)]
      [] [] = true := by decide +kernel

theorem test_ta58_blx :
    runs (machine .arm9 0x3F 0x2000000 [(0, 0x2000200)] [] []) 16 0x4780 0x1F 0x2000200 [(24, 0x2000003)]
      [] [] = true := by decide +kernel

theorem test_ta61_ldr_pc :
    runs (machine .arm9 0x3F 0x2000000 [] [] [(0x2000008, 0x12345678)]) 16 0x4801 0x3F 0x2000002 [(0, 0x12345678)]
      [] [] = true := by decide +kernel

theorem test_ta63_str :
    runs (machine .arm9 0x3F 0x2000000 [(0, 0xAABBCCDD), (1, 0x2001000), (2, 0x6)] [] [(0x2001000, 0x44332211), (0x2001004, 0x88776655)]) 16 0x5088 0x3F 0x2000002 []
      [] [(0x2001004, 0xAABBCCDD)] = true := by decide +kernel

theorem test_ta66_ldsb :
    runs (machine .arm9 0x3F 0x2000000 [(1, 0x2001000), (2, 0x7)] [] [(0x2001000, 0x44332211), (0x2001004, 0x88776655)]) 16 0x5688 0x3F 0x2000002 [(0, 0xFFFFFF88)]
      [] [] = true := by decide +kernel

theorem test_ta69_ldrh_arm7 :
    runs (machine .arm7 0x3F 0x2000000 [(1, 0x2001000), (2, 0x1)] [] [(0x2001000, 0x44332211), (0x2001004, 0x88776655)]) 16 0x5A88 0x3F 0x2000002 [(0, 0x11000022)]
      [] [] = true := by decide +kernel

theorem test_ta73_ldsh_arm7 :
    runs (machine .arm7 0x3F 0x2000000 [(1, 0x2001000), (2, 0x7)] [] [(0x2001000, 0x44332211), (0x2001004, 0x88776655)]) 16 0x5E88 0x3F 0x2000002 [(0, 0xFFFFFF88)]
      [] [] = true := by decide +kernel

theorem test_tb3_ldr_imm :
    runs (machine .arm9 0x3F 0x2000000 [(1, 0x2000F89)] [] [(0x2001000, 0x44332211), (0x2001004, 0x88776655)]) 16 0x6FC8 0x3F 0x2000002 [(0, 0x55887766)]
      [] [] = true := by decide +kernel

theorem test_tb8_ldrh_imm :
    runs (machine .arm9 0x3F 0x2000000 [(1, 0x2000FC7)] [] [(0x2001000, 0x44332211), (0x2001004, 0x88776655)]) 16 0x8FC8 0x3F 0x2000002 [(0, 0x6655)]
      [] [] = true := by decide +kernel

theorem test_tb11_ldr_sp :
    runs (machine .arm9 0x3F 0x2000000 [(18, 0x2001000)] [] [(0x2001000, 0x44332211), (0x2001004, 0x88776655)]) 16 0x9801 0x3F 0x2000002 [(0, 0x88776655)]
      [] [] = true := by decide +kernel

theorem test_tb13_add_to_pc :
    runs (machine .arm9 0x3F 0x2000000 [] [] []) 16 0xA001 0x3F 0x2000002 [(0, 0x2000008)]
      [] [] = true := by decide +kernel

theorem test_tb15_add_to_sp :
    runs (machine .arm9 0x3F 0x2000000 [(18, 0x2001000)] [] []) 16 0xA801 0x3F 0x2000002 [(0, 0x2001004)]
      [] [] = true := by decide +kernel

theorem test_tb17_adjust_sp :
    runs (machine .arm9 0x3F 0x2000000 [(18, 0x2001000)] [] []) 16 0xB0FF 0x3F 0x2000002 [(18, 0x2000E04)]
      [] [] = true := by decide +kernel

theorem test_tb18_push :
    runs (machine .arm9 0x3F 0x2000000 [(4, 0x44), (24, 0x2000101), (18, 0x2001008)] [] []) 16 0xB510 0x3F 0x2000002 [(18, 0x2001000)]
      [] [(0x2001000, 0x44), (0x2001004, 0x2000101)] = true := by decide +kernel

theorem test_tb21_pop_pc_arm9 :
    runs (machine .arm9 0x3F 0x2000000 [(18, 0x2001000)] [] [(0x2001000, 0x44), (0x2001004, 0x2000100)]) 16 0xBD10 0x1F 0x2000100 [(4, 0x44), (18, 0x2001008)]
      [] [] = true := by decide +kernel

theorem test_tb27_pop_empty_arm7 :
    runs (machine .arm7 0x3F 0x2000000 [(18, 0x2001000)] [] [(0x2001000, 0x2000201)]) 16 0xBC00 0x3F 0x2000200 [(18, 0x2001040)]
      [] [] = true := by decide +kernel

theorem test_tb31_stmia_arm7 :
    runs (machine .arm7 0x3F 0x2000000 [(0, 0x55), (1, 0x2001000)] [] []) 16 0xC103 0x3F 0x2000002 [(1, 0x2001008)]
      [] [(0x2001000, 0x55), (0x2001004, 0x2001008)] = true := by decide +kernel

theorem test_tb35_ldmia :
    runs (machine .arm9 0x3F 0x2000000 [(1, 0x2001000)] [] [(0x2001000, 0x44332211), (0x2001004, 0x88776655)]) 16 0xC903 0x3F 0x2000002 [(0, 0x44332211), (1, 0x88776655)]
      [] [] = true := by decide +kernel

theorem test_tb43_beq :
    runs (machine .arm9 0x3F 0x2000000 [] [] []) 16 0xD000 0x3F 0x2000002 []
      [] [] = true := by decide +kernel

theorem test_tb44_bne :
    runs (machine .arm9 0x3F 0x2000000 [] [] []) 16 0xD1FE 0x3F 0x2000000 []
      [] [] = true := by decide +kernel

theorem test_tb47_ble :
    runs (machine .arm9 0x3F 0x2000000 [] [] []) 16 0xDD10 0x3F 0x2000002 []
      [] [] = true := by decide +kernel

theorem test_tb50_swi :
    runs (machine .arm7 0x20000030 0x2000000 [] [] []) 16 0xDF00 0x20000093 0x8 [(27, 0x2000002)]
      [(2, 0x20000030)] [] = true := by decide +kernel

theorem test_tb53_b :
    runs (machine .arm9 0x3F 0x2000000 [] [] []) 16 0xE400 0x3F 0x1FFF804 []
      [] [] = true := by decide +kernel

theorem test_tb56_bl_first :
    runs (machine .arm9 0x3F 0x2000000 [] [] []) 16 0xF7FF 0x3F 0x2000002 [(24, 0x1FFF004)]
      [] [] = true := by decide +kernel

theorem test_tb60_bl_second :
    runs (machine .arm9 0x3F 0x2000000 [(24, 0x2000201)] [] []) 16 0xF801 0x3F 0x2000202 [(24, 0x2000003)]
      [] [] = true := by decide +kernel

theorem test_tb64_undefined :
    stops (machine .arm9 0x3F 0x2000000 [] [] []) 16 0xB100 (.inl .undefinedInstruction) = true := by decide +kernel

theorem test_ex1_irq_entry :
    (match step { (machine .arm9 0x1F 0x02000000 [] [] [(0xFFFF0018, 0xE3A01002)]).withFetchWord 32 0xE3A00001 with
        irq := ⟨⟨0x10000, 0x10000, true⟩, IrqCtl.atReset⟩ } with
      | .next t => t.cur.regs[1] == 2 && t.cur.regs[26] == 0x02000004 && t.cur.spsr[1] == 0x1F &&
          t.cur.cpsr == 0x92 && t.cur.r15 == 0xFFFF0024
      | _ => false) = true := by decide +kernel

theorem test_me11_open_bus :
    (match memRead 0x10000002 .half .data ((machine .arm9 0x1F 0 [] [] []).upd fun k =>
        { k with lastFetch := 0xAABBCCDD }) with
      | .next (v, _) => v == 0xAABB
      | _ => false) = true := by decide +kernel

/-- R590 and R8: `512 << 23` is 0 modulo `2 ^ 32`, an empty window; `512 << 22` is 2 GiB. -/
theorem test_itcm_size_wraps :
    decodeArm9 ⟨0x40000, 0, 0x2E⟩ false 0 .data = .unmapped ∧
      decodeArm9 ⟨0x40000, 0, 0x2C⟩ false 0x7FFFFFFF .fetch = .ram .itcm 0x7FFF := by decide +kernel

/-- R81 and R8: base 0xFFFFC000 and 16 KiB end at 0, so no address is below the end. -/
theorem test_dtcm_end_wraps :
    decodeArm9 ⟨0x10000, 0xFFFFC00A, 0⟩ false 0xFFFFD000 .data = .unmapped ∧
      decodeArm9 ⟨0x10000, 0xFFFF800A, 0⟩ false 0xFFFFBFFF .data = .ram .dtcm 0x3FFF := by decide +kernel

theorem test_me18_io_lanes :
    (match memRead 0x04000216 .byte .data { machine .arm7 0x1F 0 [] [] [] with
        irq := ⟨IrqCtl.atReset, ⟨0, 0x00210040, false⟩⟩ } with
      | .next (v, _) => v == 0x21
      | _ => false) = true := by decide +kernel

/-! Witnesses: states and operands that meet the hypotheses of the obligations, each clause at a boundary. -/

/-- The registers of the witness machines: `r0` an odd address in main RAM, `r1`, `r13` aligned ones, small
numbers, `r14` an address with bit 0 set. -/
def someRegs : List (Fin 30 × Word) :=
  [(0, 0x02001001), (1, 0x02001000), (2, 5), (3, 0x7FFFFFFF), (4, 0x80000000), (5, 0x04000208),
    (6, 0x06000002), (7, 0x02000103), (18, 0x02001000), (24, 0x02000101)]

/-- A machine on core `c` in the mode and state of `cpsr`. -/
def sample (c : CoreId) (cpsr : Word) : State :=
  machine c cpsr 0x02000000 someRegs [(0, 0x1F), (1, 0x3F), (2, 0), (3, 0x10), (4, 0x12)]
    [(0x02001000, 0x44332211), (0x02001004, 0x02000101), (0x02001008, 0x02000200)]

/-- The sample machine inside its core's slice, an opcode in slot 0. -/
def running (c : CoreId) (cpsr : Word) (nbits w : Nat) : State := (sample c cpsr).withFetchWord nbits w

/-- The interrupt line of core `c` asserted. -/
def asserted (c : CoreId) (s : State) : State := { s with irq := s.irq.set c ⟨0x10000, 0x10000, true⟩ }

/-- An outcome is a next state. -/
def isNext (r : Result) : Bool :=
  match r with
  | .next _ => true
  | _ => false

theorem exists_next {r : Result} (h : isNext r = true) : ∃ t, r = .next t := by
  cases r with
  | next t => exact ⟨t, rfl⟩
  | fault f => cases h
  | refused f => cases h

/-- A value and a next state. -/
def isNextVal {α : Type} (r : ValueResult α) : Bool :=
  match r with
  | .next _ => true
  | _ => false

theorem exists_next_val {α : Type} {r : ValueResult α} (h : isNextVal r = true) : ∃ v t, r = .next (v, t) := by
  cases r with
  | next p => exact ⟨p.1, p.2, rfl⟩
  | fault f => cases h
  | refused f => cases h

theorem witness_DecodeOfEncodeIsTheInstruction :
    (Instr.msrImm .al false 1 0 0).wellFormed = true ∧ (Instr.hintOther .al 4).wellFormed = true := by decide

theorem witness_EveryWordDecodesByExactlyOneRow : (0xEFFFFFFF : Word).extractLsb' 28 4 ≠ 15 := by decide

theorem witness_StepRunsTheDecodedInstruction :
    (let s := running .arm9 0x1F 32 0xE0802001
     s.phase = .run false 1 ∧ s.cur.cyc < s.sched.target ∧ s.cur.waiting = false ∧ irqLine s .arm9 = false) ∧
    (let s := asserted .arm7 (running .arm7 0x9F 32 0xE0802001)
     let t := s.upd fun k => { k with waiting := true }
     t.phase = .run true 1 ∧ t.cur.cyc < t.sched.target ∧ irqLine t .arm7 = true ∧ psrI t.cur.cpsr = true) ∧
    (let s := running .arm9 0x1F 32 0xE0802001
     plainAt s .arm9 (alignTo s.cur.fetchWidth s.cur.r15) .fetch = true ∧
       (if s.cur.thumb then decodeThumb (s.cur.pipe0.setWidth 16) else decodeArm s.cur.pipe0) =
         some (.addShiftImm .al false 0 2 0 .lsl 1)) ∧
    (let s := running .arm7 0x3F 16 0x0088
     plainAt s .arm7 (alignTo s.cur.fetchWidth s.cur.r15) .fetch = true ∧
       (if s.cur.thumb then decodeThumb (s.cur.pipe0.setWidth 16) else decodeArm s.cur.pipe0) =
         some (.tLslImm 2 1 0)) := by decide +kernel

theorem witness_StepTakesTheInterrupt :
    let s := asserted .arm9 (running .arm9 0x1F 32 0xE0802001)
    s.phase = .run false 1 ∧ s.cur.cyc < s.sched.target ∧ irqLine s .arm9 = true ∧ psrI s.cur.cpsr = false ∧
      codeAt s false (exceptionBase s .arm9 + 0x18) = true := by decide +kernel

theorem witness_WaitingCoreConsumesItsBudget :
    (let s := (running .arm9 0x1F 32 0).upd fun k => { k with waiting := true }
     s.phase = .run false 1 ∧ s.cur.cyc < s.sched.target ∧ s.cur.waiting = true ∧ irqLine s .arm9 = false) ∧
    (let s := (running .arm7 0x1F 32 0).upd fun k => { k with waiting := true }
     s.phase = .run true 1 ∧ s.cur.cyc < s.sched.target ∧ s.cur.waiting = true ∧ irqLine s .arm7 = false) := by
  decide +kernel

/-- A scheduler with two events at one time. -/
def twoEvents : Sched :=
  { now := 5, horizon := 100, nextSeq := 2, epoch := 0
    events := [⟨9, 0, ⟨0, 0⟩, 7⟩, ⟨9, 1, ⟨0, 1⟩, 8⟩] }

theorem twoEvents_inv : twoEvents.Inv := by
  constructor <;> decide +kernel

theorem sample_inv : Inv (running .arm9 0x1F 32 0xE0802001) := by
  constructor
  · intro c
    cases c <;> constructor <;> decide +kernel
  · intro c
    cases c <;> decide +kernel
  · constructor <;> decide +kernel
  · constructor <;> decide +kernel

theorem witness_EveryStepKeepsTheMachineInOrder :
    ∃ s t, Inv s ∧ step s = .next t := by
  obtain ⟨t, h⟩ := exists_next (r := step (running .arm9 0x1F 32 0xE0802001)) (by decide +kernel)
  exact ⟨_, t, sample_inv, h⟩

theorem witness_UserModeIsLeftOnlyBySwi :
    modeOf (sample .arm9 0x10).cur.cpsr = modeUser ∧
      isNext (exec (.swi .al 0) (sample .arm9 0x10)) = true ∧
      isNext (exec (.msrReg .al false 15 0) (sample .arm9 0x10)) = true := by decide +kernel

theorem witness_TheOtherCoreIsUntouched :
    isNext (exec (.strImm .al true true false 1 0 0) (sample .arm7 0x1F)) = true := by decide +kernel

theorem witness_QIsSticky :
    isNext (exec (.qadd .al 2 0 2) (sample .arm9 0x0800001F)) = true ∧
      psrQ (sample .arm9 0x0800001F).cur.cpsr = true ∧ rewritesStatus (.qadd .al 2 0 2) = false := by
  decide +kernel

theorem witness_BootRomsAreReadOnly :
    isNext (step { sample .arm9 0x1F with hostCalls := [.step 3] }) = true ∧
      (sample .arm9 0x1F).phase = .idle ∧
      isNext (step (running .arm7 0x1F 32 0xE5810000)) = true := by decide +kernel

theorem witness_TheClockNeverGoesBack :
    isNext (step { sample .arm9 0x1F with phase := .fire 3 }) = true ∧
      isNext (step { sample .arm9 0x1F with hostCalls := [.loadRom [1]] }) = true := by decide +kernel

theorem witness_TheEarliestDueEventFires :
    (let s := { sample .arm9 0x1F with
       sched := twoEvents, phase := .fire 9, agentTape := [[.raise .arm9 21, .add 0 3], []] }
     s.sched.Inv ∧ ∃ e ∈ s.sched.events, e.time ≤ 9) ∧
    (let s := { sample .arm9 0x1F with sched := twoEvents, phase := .fire 8 }
     s.sched.Inv ∧ s.agentTape = [] ∧ ∀ e ∈ s.sched.events, ¬ e.time ≤ 8) :=
  ⟨⟨twoEvents_inv, by decide +kernel⟩, ⟨twoEvents_inv, by decide +kernel, by decide +kernel⟩⟩

theorem witness_ConditionsTestTheirFlags :
    (0xA000001F : Word).getLsbD 31 = true ∧ (0xA000001F : Word).getLsbD 30 = false ∧
      (0xA000001F : Word).getLsbD 29 = true ∧ (0xA000001F : Word).getLsbD 28 = false := by decide

theorem witness_ShiftsComputeOverNumbers :
    (1 : BitVec 5) ≠ 0 ∧ (31 : BitVec 5) ≠ 0 ∧ ((1 : Byte) ≠ 0 ∧ (1 : Byte).toNat < 32) ∧
      (31 : Byte).toNat < 32 ∧ 32 < (33 : Byte).toNat ∧ 32 < (255 : Byte).toNat ∧ 32 ≤ (32 : Byte).toNat ∧
      (32 : Byte).toNat % 32 = 0 ∧ (33 : Byte).toNat % 32 ≠ 0 ∧ (255 : Byte).toNat % 32 ≠ 0 := by decide

theorem witness_AdderOverflowsAndSaturationClamps :
    ((2 : Int) ^ 31 - 1 < 2 ^ 31) ∧ ((-2 : Int) ^ 31 - 1 < -2 ^ 31) ∧ (-2 ^ 31 ≤ (-2 ^ 31 : Int)) ∧
      (2 ^ 31 - 1 ≤ (2 ^ 31 - 1 : Int)) := by decide

theorem witness_FailedConditionSkips :
    (Instr.movImm .ne true 0 0 1).passes (sample .arm9 0x4000001F).cur.cpsr = false ∧
      nvSpace (.blxImm true 0) = true ∧ (sample .arm7 0x1F).current = .arm7 := by decide +kernel

theorem witness_DataProcessingWritesItsResult :
    (dataShape? (.adcShiftReg .al true 15 14 2 .ror 15) = some ⟨.adc, true, 15, 14, .shiftReg 2 .ror 15⟩ ∧
      (Instr.adcShiftReg .al true 15 14 2 .ror 15).passes (sample .arm9 0x1F).cur.cpsr = true ∧
      (Operand2.shiftReg 2 .ror 15).amountInPc = false) ∧
    (dataShape? (.mvnImm .eq false 0 15 255) = some ⟨.mvn, false, 0, 0, .imm 15 255⟩ ∧
      (Instr.mvnImm .eq false 0 15 255).passes (sample .arm7 0x4000001F).cur.cpsr = true) ∧
    dataShape? (.movShiftImm .al false 14 0 .lsr 15) = some ⟨.mov, false, 0, 14, .shiftImm 0 .lsr 15⟩ := by
  decide +kernel

theorem witness_ComparisonsWriteFlagsOnly :
    compareShape? (.cmnShiftReg .al 15 14 2 .asr 15) = some ⟨.add, true, 15, 14, .shiftReg 2 .asr 15⟩ ∧
      (Instr.cmnShiftReg .al 15 14 2 .asr 15).passes (sample .arm9 0x1F).cur.cpsr = true ∧
      (Operand2.shiftReg 2 .asr 15).amountInPc = false := by decide +kernel

theorem witness_DataProcessingToPcBranchesOrReturns :
    (let x : DataShape := ⟨.mov, false, 0, 15, .shiftImm 0 .lsl 7⟩
     dataShape? (.movShiftImm .al false 15 0 .lsl 7) = some x ∧ x.form.amountInPc = false ∧
       codeAt (sample .arm9 0x1F) false 0x02000103 = true) ∧
    (let x : DataShape := ⟨.sub, true, 7, 15, .imm 0 4⟩
     dataShape? (.subImm .al true 7 15 0 4) = some x ∧
       (sample .arm9 0x92).cur.spsrAt (sample .arm9 0x92).cur.bank = some 0x3F ∧
       validMode (modeOf 0x3F) = true ∧ codeAt (sample .arm9 0x92) (psrT 0x3F) 0x020000FF = true ∧
       (sample .arm9 0x93).cur.spsrAt (sample .arm9 0x93).cur.bank = some 0 ∧ validMode (modeOf 0) = false ∧
       (sample .arm9 0x9F).cur.spsrAt (sample .arm9 0x9F).cur.bank = none) := by decide +kernel

theorem witness_MrsCopiesTheStatusWord :
    condPass .al (sample .arm9 0x10).cur.cpsr = true ∧ (14 : Reg) ≠ 15 ∧
      (sample .arm9 0x91).cur.spsrAt (sample .arm9 0x91).cur.bank = some 0x1F ∧
      (sample .arm9 0x10).cur.spsrAt (sample .arm9 0x10).cur.bank = none := by decide +kernel

theorem witness_MsrWritesTheLanesOfItsMask :
    (∃ val, msrShape? (.msrImm .al false 15 0 0x11) = some (false, 15, val) ∧
      val (sample .arm9 0x1F).cur = 0x11 ∧ statusLanes (sample .arm9 0x1F).cur.cpsr 15 &&& 0xFF ≠ 0 ∧
      validMode (modeOf 0x11) = true ∧ psrT 0x11 = psrT (sample .arm9 0x1F).cur.cpsr) ∧
    (∃ val, msrShape? (.msrReg .al false 9 2) = some (false, 9, val) ∧ val (sample .arm9 0x1F).cur = 5 ∧
      validMode (modeOf 5) = false ∧ statusLanes (sample .arm9 0x10).cur.cpsr 9 &&& 0xFF = 0) ∧
    (∃ val, msrShape? (.msrImm .al false 1 0 0x3F) = some (false, 1, val) ∧
      val (sample .arm9 0x1F).cur = 0x3F ∧ validMode (modeOf 0x3F) = true ∧
      psrT 0x3F ≠ psrT (sample .arm9 0x1F).cur.cpsr) ∧
    (∃ val, msrShape? (.msrReg .al true 15 2) = some (true, 15, val) ∧
      (sample .arm9 0x97).cur.spsrAt (sample .arm9 0x97).cur.bank = some 0x10 ∧
      (sample .arm9 0x1F).cur.spsrAt (sample .arm9 0x1F).cur.bank = none) :=
  ⟨⟨_, rfl, by decide +kernel⟩, ⟨_, rfl, by decide +kernel⟩, ⟨_, rfl, by decide +kernel⟩,
    ⟨_, rfl, by decide +kernel⟩⟩

theorem witness_MrsAfterMsrReadsBackTheLanes :
    (∃ val, msrShape? (.msrImm .al false 9 0 0xD3) = some (false, 9, val) ∧
      modeOf (sample .arm9 0x1F).cur.cpsr ≠ modeUser ∧ lanesOf 9 &&& 0xFF ≠ 0 ∧
      validMode (modeOf (val (sample .arm9 0x1F).cur)) = true ∧
      psrT (val (sample .arm9 0x1F).cur) = psrT (sample .arm9 0x1F).cur.cpsr) ∧
    (∃ val, msrShape? (.msrReg .al false 15 4) = some (false, 15, val) ∧
      modeOf (sample .arm7 0x10).cur.cpsr = modeUser) :=
  ⟨⟨_, rfl, by decide +kernel⟩, ⟨_, rfl, by decide +kernel⟩⟩

theorem witness_HintsDoNothingOrWait : condPass .ls (sample .arm9 0x4000001F).cur.cpsr = true := by
  decide +kernel

theorem witness_MultipliesWriteTheProduct :
    (∃ x, mulShape? (.mla .al true 14 0 2 2) = some x ∧ ∀ r ∈ x.regs, r ≠ 15) ∧
      ∃ x, mulShape? (.tMul 7 0) = some x ∧ ∀ r ∈ x.regs, r ≠ 15 :=
  ⟨⟨_, rfl, by decide +kernel⟩, ⟨_, rfl, by decide +kernel⟩⟩

theorem witness_LongMultipliesWriteBothHalves :
    (∃ x, longShape? (.smlal .al true 14 0 3 4) = some x ∧ x.arm9 = false ∧ (∀ r ∈ x.regs, r ≠ 15) ∧
      x.hi ≠ x.lo) ∧
    ∃ x, longShape? (.smlalXY .al 14 0 3 true false 4) = some x ∧ (sample .arm9 0x1F).current = .arm9 ∧
      (∀ r ∈ x.regs, r ≠ 15) ∧ x.hi ≠ x.lo :=
  ⟨⟨_, rfl, by decide +kernel⟩, ⟨_, rfl, by decide +kernel⟩⟩

theorem witness_HalfwordMultipliesAccumulateWithQ :
    (∃ x, halfMulShape? (.smulWY .al 14 3 true 4) = some x ∧ (∀ r ∈ x.regs, r ≠ 15) ∧ x.acc = none) ∧
      ∃ x, halfMulShape? (.smlaXY .al 14 3 4 true true 4) = some x ∧ (∀ r ∈ x.regs, r ≠ 15) ∧ x.acc = some 3 :=
  ⟨⟨_, rfl, by decide +kernel⟩, ⟨_, rfl, by decide +kernel⟩⟩

theorem witness_EncodingsTheCoreLacksPanic :
    (arm9Only (.clz .al 0 1) = true ∧ (Instr.clz .al 0 1).passes (sample .arm7 0x1F).cur.cpsr = true ∧
      (sample .arm7 0x1F).current = .arm7 ∧ arm9Only (.tBlxSecond 0) = true) ∧
    undefinedArm (.undMiscSeven .al) = true ∧
    (Instr.undMiscSeven .al).passes (sample .arm7 0x1F).cur.cpsr = true ∧ undefinedNv .undNvBlock = true ∧
    undefinedThumbCode .tUndDE = true := by decide +kernel

theorem witness_RefusedRegisterFormsStop :
    (∃ x, dataShape? (.addShiftReg .al false 0 1 15 .lsl 2) = some x ∧ x.form.amountInPc = true) ∧
    (∃ x, compareShape? (.cmpImm .al 0 15 0 1) = some x ∧ x.form.amountInPc = false ∧ x.rd = 15) ∧
    (∃ x, mulShape? (.mul .al false 0 15 1) = some x ∧ (15 : Reg) ∈ x.regs) ∧
    (∃ x, longShape? (.umull .al false 15 0 1 2) = some x ∧ x.arm9 = false ∧ (15 : Reg) ∈ x.regs) ∧
    (∃ x, longShape? (.umull .al false 3 3 1 2) = some x ∧ (15 : Reg) ∉ x.regs ∧ x.hi = x.lo) ∧
    (∃ x, halfMulShape? (.smulXY .al 0 1 true true 15) = some x ∧ (15 : Reg) ∈ x.regs) ∧
    (∃ x, satShape? (.qadd .al 15 0 1) = some x ∧ x.rn = 15) ∧
    condPass .al (sample .arm9 0x1F).cur.cpsr = true ∧ (sample .arm9 0x1F).current = .arm9 :=
  ⟨⟨_, rfl, by decide +kernel⟩, ⟨_, rfl, by decide +kernel⟩, ⟨_, rfl, by decide +kernel⟩,
    ⟨_, rfl, by decide +kernel⟩, ⟨_, rfl, by decide +kernel⟩, ⟨_, rfl, by decide +kernel⟩,
    ⟨_, rfl, by decide +kernel⟩, by decide +kernel, by decide +kernel⟩

theorem witness_LoadsWriteTheLoadedValue :
    (let x : Transfer := ⟨false, true, true, 0, 14, .imm12 4095⟩
     loadShape? (.ldrImm .al false true true 0 14 4095) = some (.word, x) ∧ x.legal = true ∧
       x.writes = true ∧ x.rn ≠ x.rd ∧ loadable (sample .arm9 0x1F) .word (x.addr (sample .arm9 0x1F).cur) = true) ∧
    (let x : Transfer := ⟨true, false, false, 0, 0, .reg 2⟩
     loadShape? (.ldrshReg .al true false false 0 0 2) = some (.signedHalf, x) ∧ x.legal = true ∧
       loadable (sample .arm7 0x1F) .signedHalf (x.addr (sample .arm7 0x1F).cur) = true) := by decide +kernel

theorem witness_LdrToPcInterworksOnArm9 :
    (let x : Transfer := ⟨true, true, false, 1, 15, .imm12 4⟩
     let s := sample .arm9 0x1F
     loadShape? (.ldrImm .al true true false 1 15 4) = some (.word, x) ∧ x.legal = true ∧
       loadable s .word (x.addr s.cur) = true ∧ (loaded s .word (x.addr s.cur)).getLsbD 0 = true ∧
       codeAt s true (loaded s .word (x.addr s.cur) &&& ~~~1#32) = true) ∧
    (let x : Transfer := ⟨true, true, true, 1, 15, .imm12 8⟩
     let s := sample .arm9 0x1F
     loadShape? (.ldrImm .al true true true 1 15 8) = some (.word, x) ∧ x.legal = true ∧ x.writes = true ∧
       loadable s .word (x.addr s.cur) = true ∧ (loaded s .word (x.addr s.cur)).getLsbD 0 = false ∧
       codeAt s false (loaded s .word (x.addr s.cur) &&& ~~~3#32) = true) ∧
    (let x : Transfer := ⟨false, true, false, 1, 15, .imm12 4⟩
     let s := sample .arm7 0x1F
     loadShape? (.ldrImm .al false true false 1 15 4) = some (.word, x) ∧ x.legal = true ∧ x.writes = true ∧
       loadable s .word (x.addr s.cur) = true ∧
       codeAt s false (loaded s .word (x.addr s.cur) &&& ~~~3#32) = true) := by decide +kernel

theorem witness_StoresWriteTheirBytes :
    let x : Transfer := ⟨true, true, true, 0, 15, .imm8 1⟩
    let s := sample .arm9 0x1F
    storeShape? (.strhImm .al true true true 0 15 1) = some (.half, x) ∧ s.mem.wf = true ∧ x.legal = true ∧
      x.writes = true ∧ dataAt s (x.addr s.cur) .half = true ∧ dataAt s 0x10000000 .word = true := by
  decide +kernel

theorem witness_LdrdWritesBackBetweenItsLoads :
    let x : Transfer := ⟨false, true, false, 1, 0, .imm8 8⟩
    let s := sample .arm9 0x1F
    doubleShape? (.ldrdImm .al false true false 1 0 8) = some (true, x) ∧ x.rd.getLsbD 0 = false ∧ x.rd ≠ 14 ∧
      x.legal = true ∧ x.writes = true ∧ dataAt s (x.addr s.cur) .word = true ∧
      dataAt s (alignTo .word (x.addr s.cur) + 4) .word = true := by decide +kernel

theorem witness_StrdStoresTwoWords :
    let x : Transfer := ⟨true, true, true, 1, 12, .imm8 8⟩
    let s := sample .arm9 0x1F
    doubleShape? (.strdImm .al true true true 1 12 8) = some (false, x) ∧ s.mem.wf = true ∧
      x.rd.getLsbD 0 = false ∧ x.rd ≠ 14 ∧ x.legal = true ∧ dataAt s (x.addr s.cur) .word = true ∧
      dataAt s (alignTo .word (x.addr s.cur) + 4) .word = true := by decide +kernel

theorem witness_SwapsExchangeWithMemory :
    (sample .arm9 0x1F).mem.wf = true ∧ (14 : Reg) ≠ 15 ∧
      dataAt (sample .arm9 0x1F) ((sample .arm9 0x1F).cur.reg 0) .word = true ∧
      dataAt (sample .arm9 0x1F) ((sample .arm9 0x1F).cur.reg 0) .byte = true := by decide +kernel

theorem witness_RefusedTransfersStop :
    (∃ x, loadShape? (.ldrImm .al false true false 15 0 4) = some (.word, x) ∧ x.writes = true ∧ x.rn = 15) ∧
    (∃ x, loadShape? (.ldrhReg .al true true false 0 0 15) = some (.half, x) ∧
      ¬ (x.writes = true ∧ x.rn = 15) ∧ x.off.inPc = true) ∧
    (∃ x, loadShape? (.ldrbImm .al true true false 0 15 0) = some (.byte, x) ∧ x.legal = true ∧ x.rd = 15) ∧
    (∃ x, storeShape? (.strImm .al true true true 15 0 4) = some (.word, x) ∧ x.writes = true ∧ x.rn = 15) ∧
    (∃ x, storeShape? (.strReg .al true true false 0 0 0 .lsl 15) = some (.word, x) ∧
      ¬ (x.writes = true ∧ x.rn = 15) ∧ x.off.inPc = true) ∧
    (∃ x, doubleShape? (.ldrdImm .al true true false 0 3 0) = some (true, x) ∧ x.rd.getLsbD 0 = true) ∧
    (∃ x, doubleShape? (.strdImm .al true true false 0 14 0) = some (false, x) ∧ x.rd = 14) ∧
    (∃ x, doubleShape? (.strdImm .al true true true 15 0 0) = some (false, x) ∧ x.rd.getLsbD 0 = false ∧
      x.rd ≠ 14 ∧ x.writes = true ∧ x.rn = 15) ∧
    (∃ x, doubleShape? (.strdReg .al true true false 0 0 15) = some (false, x) ∧ x.rd ≠ 14 ∧
      ¬ (x.writes = true ∧ x.rn = 15) ∧ x.off.inPc = true) ∧
    (∃ b, blockLoad? (.ldm .al true true false true 0 0) = some b ∧ b.list = 0) ∧
    (∃ b, blockStore? (.stm .al true true true true 0 0) = some b ∧ b.list = 0 ∧ b.S = true) ∧
    (∃ b, blockLoad? (.ldm .al true true false true 15 0) = some b ∧ b.list = 0 ∧ b.S = false ∧ b.rn = 15) ∧
    (∃ b, blockStore? (.stm .al true true false true 15 1) = some b ∧ b.list ≠ 0 ∧ b.rn = 15) ∧
    (∃ b, blockLoad? (.ldm .al true true true true 0 1) = some b ∧ b.list ≠ 0 ∧ b.rn ≠ 15 ∧
      b.user true = true ∧ b.W = true) ∧
    ∃ b, blockStore? (.stm .al true true true true 0 0x8000) = some b ∧ b.list ≠ 0 ∧ b.rn ≠ 15 ∧
      b.S = true ∧ b.W = true :=
  ⟨⟨_, rfl, by decide +kernel⟩, ⟨_, rfl, by decide +kernel⟩, ⟨_, rfl, by decide +kernel⟩,
    ⟨_, rfl, by decide +kernel⟩, ⟨_, rfl, by decide +kernel⟩, ⟨_, rfl, by decide +kernel⟩,
    ⟨_, rfl, by decide +kernel⟩, ⟨_, rfl, by decide +kernel⟩, ⟨_, rfl, by decide +kernel⟩,
    ⟨_, rfl, by decide +kernel⟩, ⟨_, rfl, by decide +kernel⟩, ⟨_, rfl, by decide +kernel⟩,
    ⟨_, rfl, by decide +kernel⟩, ⟨_, rfl, by decide +kernel⟩, ⟨_, rfl, by decide +kernel⟩⟩

theorem witness_BlockLoadsFillTheList :
    (let b : Block := ⟨false, true, true, true, false, 1, 0x7FFF⟩
     blockLoad? (.ldm .al true true true false 1 0x7FFF) = some b ∧ b.legal true = true ∧
       b.list.getLsbD 15 = false ∧ b.reachable (sample .arm9 0x91) = true) ∧
    (let b : Block := ⟨true, false, true, false, true, 1, 0x0003⟩
     blockLoad? (.tLdmia 1 3) = some b ∧ b.legal true = true ∧ b.list.getLsbD 15 = false ∧
       b.reachable (sample .arm7 0x3F) = true) := by decide +kernel

theorem witness_BlockLoadsOfPcBranchOrReturn :
    (let b : Block := ⟨false, false, true, false, true, 1, 0x8001⟩
     let s := sample .arm9 0x1F
     blockLoad? (.ldm .al false true false true 1 0x8001) = some b ∧ b.legal true = true ∧
       b.list.getLsbD 15 = true ∧ b.reachable s = true ∧
       peek s (b.addr s.cur (b.regs.length - 1)) .word = 0x02000101 ∧
       codeAt s true (0x02000101 &&& ~~~1#32) = true) ∧
    (let b : Block := ⟨false, true, true, false, false, 1, 0x8001⟩
     let s := sample .arm9 0x1F
     blockLoad? (.ldm .al true true false false 1 0x8001) = some b ∧ b.reachable s = true ∧
       peek s (b.addr s.cur (b.regs.length - 1)) .word = 0x02000200 ∧
       codeAt s false (0x02000200 &&& ~~~3#32) = true) ∧
    (let b : Block := ⟨true, false, true, false, true, 13, 0x8003⟩
     let s := sample .arm9 0x3F
     blockLoad? (.tPop true 3) = some b ∧ b.legal true = true ∧ b.reachable s = true ∧
       peek s (b.addr s.cur (b.regs.length - 1)) .word = 0x02000200 ∧
       codeAt s false (0x02000200 &&& ~~~1#32) = true ∧
       codeAt (sample .arm7 0x3F) true (0x02000200 &&& ~~~1#32) = true) ∧
    (let b : Block := ⟨false, true, true, true, true, 1, 0x8001⟩
     blockLoad? (.ldm .al true true true true 1 0x8001) = some b ∧ b.legal true = true ∧
       b.reachable (sample .arm9 0x92) = true ∧ b.reachable (sample .arm9 0x9F) = true ∧
       (sample .arm9 0x92).cur.spsrAt (sample .arm9 0x92).cur.bank = some 0x3F ∧
       codeAt (sample .arm9 0x92) (psrT 0x3F) 0x02000200 = true ∧
       (sample .arm9 0x93).cur.spsrAt (sample .arm9 0x93).cur.bank = some 0 ∧
       validMode (modeOf 0) = false ∧
       (sample .arm9 0x9F).cur.spsrAt (sample .arm9 0x9F).cur.bank = none) := by decide +kernel

theorem witness_BlockStoresWriteTheList :
    (let b : Block := ⟨false, true, false, false, true, 1, 0xFFFF⟩
     let s := sample .arm7 0x1F
     blockStore? (.stm .al true false false true 1 0xFFFF) = some b ∧ s.mem.wf = true ∧
       b.legal false = true ∧ b.reachable s = true ∧ s.cur.thumb = b.thumb) ∧
    (let b : Block := ⟨true, true, false, false, true, 13, 0x4010⟩
     let s := sample .arm9 0x3F
     blockStore? (.tPush true 0x10) = some b ∧ b.legal false = true ∧ b.reachable s = true ∧
       s.cur.thumb = b.thumb) := by decide +kernel

theorem witness_EmptyListMovesPcOnArm7 :
    (let b : Block := ⟨false, true, false, false, true, 1, 0⟩
     let s := sample .arm7 0x1F
     blockStore? (.stm .al true false false true 1 0) = some b ∧ s.cur.thumb = b.thumb ∧
       dataAt s (s.cur.reg 1 - 64) .word = true) ∧
    (let b : Block := ⟨true, false, true, false, true, 13, 0⟩
     let s := sample .arm7 0x3F
     blockLoad? (.tPop false 0) = some b ∧ s.cur.thumb = b.thumb ∧ dataAt s (s.cur.reg 13) .word = true ∧
       codeAt s true (peek s (s.cur.reg 13) .word &&& ~~~1#32) = true) := by decide +kernel

theorem witness_ArmBranchesReloadFromTheirTarget :
    let s := sample .arm9 0x1F
    condPass .al s.cur.cpsr = true ∧ codeAt s false (s.cur.r15 + (0x800000#24).signExtend 32 * 4) = true ∧
      codeAt s false (s.cur.r15 + (0x0FFFFF#24).signExtend 32 * 4) = true ∧
      codeAt s ((s.cur.reg 14).getLsbD 0) (s.cur.reg 14 &&& ~~~1#32) = true ∧
      codeAt s ((s.cur.reg 1).getLsbD 0) (s.cur.reg 1 &&& ~~~1#32) = true ∧
      codeAt s true (s.cur.r15 + (0x800000#24).signExtend 32 * 4 + 2) = true := by decide +kernel

theorem witness_ClzCountsLeadingZeros :
    condPass .al (sample .arm9 0x1F).cur.cpsr = true ∧ (sample .arm9 0x1F).cur.reg 8 = 0 ∧
      (sample .arm9 0x1F).cur.reg 4 = 0x80000000 := by decide +kernel

theorem witness_SaturatingArithmeticClampsAndSetsQ :
    (∃ x, satShape? (.qdsub .al 4 14 3) = some x ∧ x.rn ≠ 15 ∧ x.rd ≠ 15 ∧ x.rm ≠ 15) ∧
      (Instr.qdsub .al 4 14 3).passes (sample .arm9 0x1F).cur.cpsr = true :=
  ⟨⟨_, rfl, by decide⟩, by decide +kernel⟩

theorem witness_ExceptionEntrySavesAndBranches :
    bankOf modeFiq ≠ .usr ∧ bankOf modeUndefined ≠ .usr ∧
      codeAt (sample .arm9 0x1F) false (exceptionBase (sample .arm9 0x1F) .arm9 + 0x18) = true ∧
      codeAt (sample .arm7 0x1F) false (exceptionBase (sample .arm7 0x1F) .arm7 + 0) = true := by decide +kernel

theorem witness_SwiEntersSupervisor :
    isSwi (.tSwi 255) = true ∧ (Instr.tSwi 255).passes (sample .arm7 0x30).cur.cpsr = true ∧
      codeAt (sample .arm7 0x30) false (exceptionBase (sample .arm7 0x30) .arm7 + 0x08) = true ∧
      isSwi (.swi .al 0) = true ∧
      codeAt (sample .arm9 0x10) false (exceptionBase (sample .arm9 0x10) .arm9 + 0x08) = true := by
  decide +kernel

theorem witness_CoprocessorTransfersReachCp15 :
    condPass .al (sample .arm9 0x13).cur.cpsr = true ∧ (sample .arm9 0x13).current = .arm9 ∧
      ¬ ((0 : BitVec 3) = 0 ∧ (((9 : BitVec 4) = 1 ∧ (1 : BitVec 4) = 0 ∧ (2 : BitVec 3) = 0) ∨
        ((9 : BitVec 4) = 9 ∧ (1 : BitVec 4) = 1 ∧ ((2 : BitVec 3) = 0 ∨ (2 : BitVec 3) = 1)))) ∧
      (14 : BitVec 4) ≠ 15 := by decide +kernel

theorem witness_ThumbOperationsWriteResultAndFlags :
    (∃ x, thumbShape? (.tRor 7 0) = some x ∧ x.rd = some 0) ∧ ∃ x, thumbShape? (.tCmpImm 7 255) = some x ∧ x.rd = none :=
  ⟨⟨_, rfl, rfl⟩, ⟨_, rfl, rfl⟩⟩

theorem witness_ThumbHighAndAddressFormsWriteOneRegister :
    let s := sample .arm9 0x3F
    (14 : Reg) ≠ 15 ∧ codeAt s true ((s.cur.r15 + s.cur.reg 2) &&& ~~~1#32) = true ∧
      codeAt s true (s.cur.reg 14 &&& ~~~1#32) = true := by decide +kernel

theorem witness_ThumbLoadsAndStoresTransferOneRegister :
    (∃ kind addr rd, thumbLoadShape? (.tLdsh 2 1 7) = some (kind, addr, rd) ∧
      loadable (sample .arm7 0x3F) kind (addr (sample .arm7 0x3F).cur) = true) ∧
    ∃ w addr rd, thumbStoreShape? (.tStrSp 7 255) = some (w, addr, rd) ∧ (sample .arm9 0x3F).mem.wf = true ∧
      dataAt (sample .arm9 0x3F) (addr (sample .arm9 0x3F).cur) w = true :=
  ⟨⟨_, _, _, rfl, by decide +kernel⟩, ⟨_, _, _, rfl, by decide +kernel⟩⟩

theorem witness_ThumbBranchesReloadFromTheirTarget :
    let s := sample .arm9 0x4000003F
    thumbBranch? (.tBeq 0x80) = some (.eq, 0x80) ∧ condPass .eq s.cur.cpsr = true ∧
      codeAt s true (s.cur.r15 + (0x80#8).signExtend 32 * 2) = true ∧
      thumbBranch? (.tBgt 0x7F) = some (.gt, 0x7F) ∧ condPass .gt s.cur.cpsr = false ∧
      codeAt s true (s.cur.r15 + (0x400#11).signExtend 32 * 2) = true ∧
      codeAt s true ((s.cur.reg 14 + (0x7FF#11).setWidth 32 * 2) &&& ~~~1#32) = true ∧
      codeAt s false ((s.cur.reg 14 + (0x7FF#11).setWidth 32 * 2) &&& ~~~3#32) = true ∧
      codeAt s ((s.cur.reg 14).getLsbD 0) (s.cur.reg 14 &&& ~~~1#32) = true := by decide +kernel

/-- The sample machine with `a` in `r5`, both FIFOs enabled and `q` in the queue of the peer of core `c`. -/
def atDevice (c : CoreId) (cpsr a : Word) (q : List Word) : State :=
  let s := (sample c cpsr).upd fun k => { k with regs := k.regs.set 5 a }
  { s with ipc := ({ arm9 := { IpcSide.atReset with en := true }, arm7 := { IpcSide.atReset with en := true } } :
      PerCore IpcSide).set c.peer { IpcSide.atReset with en := true, q := q } }

/-- An outcome gives `v` and a state that meets `p`. -/
def gives (r : ValueResult Word) (v : Word) (p : State → Bool) : Bool :=
  match r with
  | .next (x, t) => x == v && p t
  | _ => false

theorem exists_gives {r : ValueResult Word} {v : Word} {p : State → Bool} (h : gives r v p = true) :
    ∃ t, r = .next (v, t) ∧ p t = true := by
  cases r with
  | next q =>
    simp only [gives, Bool.and_eq_true, beq_iff_eq] at h
    exact ⟨q.2, by rw [← h.1], h.2⟩
  | fault f => cases h
  | refused f => cases h

/-- A pop through the receive register, as a data read of a word. -/
theorem readsAs_pop {s : State} {addr v : Word} {p : State → Bool}
    (hr : region s s.current (alignTo .word addr) .data = .io)
    (hi : ioReg (alignTo .word addr &&& ~~~3#32) = some .fifoRecv)
    (h : gives (regRead s.current .fifoRecv s) v p = true) :
    ∃ t, ReadsAs s addr .word (selectLanes (alignTo .word addr) .word v) t ∧ p t = true := by
  obtain ⟨t, e, hp⟩ := exists_gives h
  exact ⟨t, .register .fifoRecv v t hr hi e, hp⟩

/-- A read of the master enable through one byte, and a write. -/
theorem witness_DeviceAccessesReachTheirRegister :
    (let x : Transfer := ⟨true, true, false, 5, 0, .imm12 0⟩
     let s := sample .arm9 0x1F
     loadShape? (.ldrbImm .al true true false 5 0 0) = some (.byte, x) ∧ x.legal = true ∧
       ∃ v t, ReadsAs s (x.addr s.cur) (LoadKind.byte.width .arm9 (x.addr s.cur)) v t) ∧
    (let x : Transfer := ⟨true, true, true, 6, 0, .imm12 0⟩
     let s := { sample .arm7 0x1F with agentTape := [[.raise .arm7 3], []] }
     storeShape? (.strImm .al true true true 6 0 0) = some (.word, x) ∧ x.legal = true ∧
       ∃ t, WritesAs s (x.addr s.cur) .word (s.cur.reg 0) t) ∧
    (let s := sample .arm7 0x3F
     ∃ addr, thumbLoadShape? (.tLdrbImm 0 6 7) = some (.byte, addr, 7) ∧
       ∃ v t, ReadsAs s (addr s.cur) (LoadKind.byte.width .arm7 (addr s.cur)) v t) ∧
    (let s := sample .arm9 0x3F
     ∃ addr, thumbStoreShape? (.tStrbImm 0 5 2) = some (.byte, addr, 2) ∧
       ∃ t, WritesAs s (addr s.cur) .byte (s.cur.reg 2) t) := by
  refine ⟨⟨by decide, by decide, ?_⟩, ⟨by decide, by decide, ?_⟩, ⟨_, rfl, ?_⟩, ⟨_, rfl, ?_⟩⟩
  · exact ⟨_, _, .register .ime _ _ (by decide +kernel) (by decide +kernel) rfl⟩
  · exact ⟨_, .device _ (by decide +kernel) rfl⟩
  · exact ⟨_, _, .device _ (by decide +kernel) rfl⟩
  · exact ⟨_, .register .ime _ (by decide +kernel) (by decide +kernel) rfl⟩

/-- LDR to `r15` from the receive register: a popped word with bit 0 set, and one without. -/
theorem witness_DeviceAccessesReachTheirRegister_pc :
    let x : Transfer := ⟨false, true, false, 5, 15, .imm12 4⟩
    loadShape? (.ldrImm .al false true false 5 15 4) = some (.word, x) ∧ x.legal = true ∧
    (let s := atDevice .arm9 0x1F 0x04100000 [0x02000101]
     ∃ t, ReadsAs s (x.addr s.cur) .word 0x02000101 t ∧ codeAt t true (0x02000101 &&& ~~~1#32) = true) ∧
    (let s := atDevice .arm7 0x1F 0x04100000 [0x02000200]
     ∃ t, ReadsAs s (x.addr s.cur) .word 0x02000200 t ∧ codeAt t false (0x02000200 &&& ~~~3#32) = true) := by
  refine ⟨by decide, by decide, ?_, ?_⟩
  · exact readsAs_pop (v := 0x02000101) (p := fun t => codeAt t true (0x02000101 &&& ~~~1#32))
      (by decide +kernel) (by decide +kernel) (by decide +kernel)
  · exact readsAs_pop (v := 0x02000200) (p := fun t => codeAt t false (0x02000200 &&& ~~~3#32))
      (by decide +kernel) (by decide +kernel) (by decide +kernel)

/-- Doubles and swaps: the master enable and the place after it, and an external region. -/
theorem witness_MultipleAccessesReachTheirDevices :
    (let x : Transfer := ⟨true, true, false, 5, 0, .imm8 0⟩
     let s := sample .arm9 0x1F
     doubleShape? (.ldrdImm .al true true false 5 0 0) = some (true, x) ∧ x.legal = true ∧
       ∃ v0 v1 t u, ReadsAs s (x.addr s.cur) .word v0 t ∧
         ReadsAs t (alignTo .word (x.addr s.cur) + 4) .word v1 u) ∧
    (let x : Transfer := ⟨true, true, false, 6, 12, .imm8 0⟩
     let s := sample .arm9 0x1F
     doubleShape? (.strdImm .al true true false 6 12 0) = some (false, x) ∧ x.legal = true ∧
       ∃ t, WritesAll s [(x.addr s.cur, s.cur.reg 12), (alignTo .word (x.addr s.cur) + 4, s.cur.reg 13)] t) ∧
    (let s := sample .arm7 0x1F
     (∃ v t u, ReadsAs s (s.cur.reg 5) .word v t ∧ WritesAs t (s.cur.reg 5) .word (s.cur.reg 2) u) ∧
       ∃ v t u, ReadsAs s (s.cur.reg 6) .byte v t ∧ WritesAs t (s.cur.reg 6) .byte (s.cur.reg 2) u) := by
  refine ⟨⟨by decide, by decide, ?_⟩, ⟨by decide, by decide, ?_⟩, ?_, ?_⟩
  · exact ⟨_, _, _, _, .register .ime _ _ (by decide +kernel) (by decide +kernel) rfl,
      .device _ (by decide +kernel) rfl⟩
  · exact ⟨_, .more (.device _ (by decide +kernel) rfl) (.more (.device _ (by decide +kernel) rfl) (.done _))⟩
  · exact ⟨_, _, _, .register .ime _ _ (by decide +kernel) (by decide +kernel) rfl,
      .register .ime _ (by decide +kernel) (by decide +kernel) rfl⟩
  · exact ⟨_, _, _, .device _ (by decide +kernel) rfl, .device _ (by decide +kernel) rfl⟩

/-- Block transfers: a list without `r15`, and the last word of an LDMDA from the receive register in each of
the ways it goes. -/
theorem witness_MultipleAccessesReachTheirDevices_blocks :
    (let b : Block := ⟨false, false, true, false, true, 5, 0x0003⟩
     let s := sample .arm9 0x1F
     blockLoad? (.ldm .al false true false true 5 3) = some b ∧ b.legal true = true ∧
       b.list.getLsbD 15 = false ∧ ∃ vs t, ReadsAll s (b.addrs s) vs t) ∧
    (let b : Block := ⟨false, false, false, false, true, 5, 0x8001⟩
     let s := atDevice .arm9 0x1F 0x04100000 [0x02000101]
     blockLoad? (.ldm .al false false false true 5 0x8001) = some b ∧ b.legal true = true ∧
       b.list.getLsbD 15 = true ∧ b.landing s 0x02000101 = some (0x3F, 0x02000100) ∧
       ∃ v t, ReadsAll s (b.addrs s) [v, 0x02000101] t ∧ codeAt t (psrT 0x3F) 0x02000100 = true) ∧
    (let b : Block := ⟨false, false, false, true, false, 5, 0x8001⟩
     let s := atDevice .arm9 0x92 0x04100000 [0x02000200]
     blockLoad? (.ldm .al false false true false 5 0x8001) = some b ∧ b.legal true = true ∧
       b.landing s 0x02000200 = some (0x3F, 0x02000200) ∧
       (sample .arm9 0x93).cur.spsrAt (sample .arm9 0x93).cur.bank = some 0 ∧ validMode (modeOf 0) = false ∧
       (sample .arm9 0x9F).cur.spsrAt (sample .arm9 0x9F).cur.bank = none ∧
       ∃ v t, ReadsAll s (b.addrs s) [v, 0x02000200] t ∧ codeAt t (psrT 0x3F) 0x02000200 = true) ∧
    (let b : Block := ⟨true, false, true, false, true, 5, 0x0003⟩
     let s := sample .arm9 0x3F
     blockStore? (.tStmia 5 3) = some b ∧ b.legal false = true ∧ s.cur.thumb = b.thumb ∧
       ∃ t, WritesAll s (b.writes s) t) := by
  refine ⟨⟨by decide, by decide, by decide, ?_⟩, ⟨by decide, by decide, by decide, by decide +kernel, ?_⟩,
    ⟨by decide, by decide, by decide +kernel, by decide +kernel, by decide +kernel, by decide +kernel, ?_⟩,
    ⟨by decide, by decide, by decide +kernel, ?_⟩⟩
  · have h : Block.addrs ⟨false, false, true, false, true, 5, 0x0003⟩ (sample .arm9 0x1F) =
        [0x04000208, 0x0400020C] := by decide +kernel
    simp only [h]
    exact ⟨_, _, .more (.register .ime _ _ (by decide +kernel) (by decide +kernel) rfl)
      (.more (.device _ (by decide +kernel) rfl) (.done _))⟩
  · have h : Block.addrs ⟨false, false, false, false, true, 5, 0x8001⟩
        (atDevice .arm9 0x1F 0x04100000 [0x02000101]) = [0x040FFFFC, 0x04100000] := by decide +kernel
    simp only [h]
    let s1 : State := { atDevice .arm9 0x1F 0x04100000 [0x02000101] with draws := 1 }
    obtain ⟨t, h, hp⟩ := readsAs_pop (s := s1) (addr := 0x04100000) (v := 0x02000101)
      (p := fun t => codeAt t (psrT 0x3F) 0x02000100) (by decide +kernel) (by decide +kernel)
      (by decide +kernel)
    exact ⟨_, t, .more (.device s1 (by decide +kernel) rfl) (.more h (.done _)), hp⟩
  · have h : Block.addrs ⟨false, false, false, true, false, 5, 0x8001⟩
        (atDevice .arm9 0x92 0x04100000 [0x02000200]) = [0x040FFFFC, 0x04100000] := by decide +kernel
    simp only [h]
    let s1 : State := { atDevice .arm9 0x92 0x04100000 [0x02000200] with draws := 1 }
    obtain ⟨t, h, hp⟩ := readsAs_pop (s := s1) (addr := 0x04100000) (v := 0x02000200)
      (p := fun t => codeAt t (psrT 0x3F) 0x02000200) (by decide +kernel) (by decide +kernel)
      (by decide +kernel)
    exact ⟨_, t, .more (.device s1 (by decide +kernel) rfl) (.more h (.done _)), hp⟩
  · have h : Block.writes ⟨true, false, true, false, true, 5, 0x0003⟩ (sample .arm9 0x3F) =
        [(0x04000208, 0x02001001), (0x0400020C, 0x02001000)] := by decide +kernel
    simp only [h]
    exact ⟨_, .more (.register .ime _ (by decide +kernel) (by decide +kernel) rfl)
      (.more (.device _ (by decide +kernel) rfl) (.done _))⟩

/-- An empty list on ARM7: a POP of `r15` from the receive register, a store of it to an external region. -/
theorem witness_MultipleAccessesReachTheirDevices_empty :
    (let s := atDevice .arm7 0x3F 0x04100000 [0x02000200]
     blockLoad? (.tLdmia 5 0) = some ⟨true, false, true, false, true, 5, 0⟩ ∧ s.cur.thumb = true ∧
       ∃ t, ReadsAs s (s.cur.reg 5) .word 0x02000200 t ∧ codeAt t true (0x02000200 &&& ~~~1#32) = true) ∧
    (let s := sample .arm7 0x1F
     blockStore? (.stm .al false true false true 6 0) = some ⟨false, false, true, false, true, 6, 0⟩ ∧
       s.cur.thumb = false ∧ ∃ t, WritesAs s (s.cur.reg 6) .word (s.cur.r15 + 4) t) := by
  refine ⟨⟨by decide, by decide +kernel, ?_⟩, ⟨by decide, by decide +kernel, ?_⟩⟩
  · exact readsAs_pop (v := 0x02000200) (p := fun t => codeAt t true (0x02000200 &&& ~~~1#32))
      (by decide +kernel) (by decide +kernel) (by decide +kernel)
  · exact ⟨_, .device _ (by decide +kernel) rfl⟩

/-- The sample machine with both FIFOs enabled and `q` in the queue of the ARM9 core. -/
def fifos (q : List Word) : State :=
  let s := sample .arm9 0x1F
  { s with ipc := { arm9 := { IpcSide.atReset with en := true, q := q }, arm7 := { IpcSide.atReset with en := true } } }

theorem witness_IpcQueuesAreFirstInFirstOut :
    (((fifos []).ipc.get .arm9).en = true ∧ ((fifos []).ipc.get .arm7).en = true ∧
      ((fifos []).ipc.get .arm9).q = [] ∧ (List.replicate 16 (7 : Word)).length ≤ 16) ∧
    ((fifos (List.replicate 16 7)).ipc.get .arm9).q.length = 16 ∧
    ((sample .arm9 0x1F).ipc.get .arm9).en = false ∧
    (((fifos (List.replicate 16 7)).ipc.get .arm9).q.length ≤ 16 ∧
      ((fifos (List.replicate 16 7)).ipc.get .arm7).q.length ≤ 16) := by decide +kernel

theorem witness_IpcInterruptsAreRaised :
    (((fifos (List.replicate 15 7)).ipc.get .arm9).en = true ∧
      ((fifos (List.replicate 15 7)).ipc.get .arm9).q.length < 16) ∧
    ((fifos [7]).ipc.get .arm7).en = true ∧ ((fifos [7]).ipc.get CoreId.arm7.peer).q = 7 :: [] := by
  decide +kernel

theorem witness_InterruptRegistersLatchAndAcknowledge : 31 < 32 := by decide

theorem witness_SchedulerAddsCancelsAndTargets :
    ((-1 : Int) < 0 ∧ (0 : Int) ≤ 0 ∧ (2 : Int) ^ 64 ≤ (5 : Int) + (2 ^ 64 - 5) ∧
      (5 : Int) + (2 ^ 64 - 6) < 2 ^ 64) ∧
    twoEvents.Inv ∧ (2 : Nat) ≤ (⟨0, 2⟩ : Token).seq ∧ (⟨1, 0⟩ : Token).epoch ≠ twoEvents.epoch :=
  ⟨by decide, twoEvents_inv, by decide, by decide⟩

theorem witness_MemoryAnswersByItsRegion :
    ((sample .arm9 0x1F).mem.wf = true ∧
      region (sample .arm9 0x1F) .arm9 (alignTo .word 0x02FFFFFF) .data = .ram .mainRam 0x3FFFFC ∧
      region (sample .arm7 0x1F) .arm7 (alignTo .half 0x03800001) .data = .ram .wram7 0) ∧
    (region (sample .arm9 0x1F) .arm9 (alignTo .half 0x10000003) .data = .unmapped ∧
      region (sample .arm7 0x1F) .arm7 (alignTo .word 0x3FFF) .data = .rom .bootRom7 0x3FFC) ∧
    (let p := (Cp15.mk 0x50000 0x0300000A 0x00000020)
     p.control.getLsbD 18 = true ∧ (0x01FFFFFF : Word).toNat < 512 * 2 ^ (p.itcm.toNat / 2 % 32) % 2 ^ 32 ∧
       p.control.getLsbD 16 = true ∧ p.dtcm.toNat / 4096 * 4096 ≤ (0x03003FFF : Word).toNat ∧
       (0x03003FFF : Word).toNat <
         (p.dtcm.toNat / 4096 * 4096 + 512 * 2 ^ (p.dtcm.toNat / 2 % 32) % 2 ^ 32) % 2 ^ 32 ∧
       ¬ (0x03003FFF : Word).toNat < 512 * 2 ^ (p.itcm.toNat / 2 % 32) % 2 ^ 32) := by decide +kernel

/-- The target of a scheduler, and both sides of each clause. -/
theorem witness_StepNGivesTheCoresTheirSlices :
    (let s := { sample .arm9 0x1F with hostCalls := [.step 1], sched := twoEvents }
     s.phase = .idle ∧ s.hostCalls.head? = some (.step 1) ∧
       s.sched.now.toNat + (1 : Cycles).toNat < 2 ^ 64 ∧
       2 ^ 64 ≤ s.sched.now.toNat + (0xFFFFFFFFFFFFFFFB : Cycles).toNat) ∧
    (sample .arm9 0x1F).hostCalls = [] ∧ twoEvents.Inv ∧ twoEvents.TargetIs 9 ∧
    (0 : Cycles) < 9 ∧ ¬ (9 : Cycles) < 9 :=
  ⟨by decide +kernel, by decide +kernel, twoEvents_inv,
    ⟨.inr (by decide +kernel), by decide +kernel, by decide +kernel⟩, by decide, by decide⟩

theorem witness_ResetReinitialisesEverything :
    let s := { sample .arm9 0x1F with hostCalls := [.reset] }
    let s1 : State := { s with cp15 := s.cp15.reinit, bootromInert := false }
    s.phase = .idle ∧ s.hostCalls.head? = some .reset ∧
      plainAt s1 .arm9 (exceptionBase s1 .arm9) .fetch = true ∧
      plainAt s1 .arm9 (exceptionBase s1 .arm9 + 4) .fetch = true ∧
      plainAt s1 .arm7 (exceptionBase s1 .arm7) .fetch = true ∧
      plainAt s1 .arm7 (exceptionBase s1 .arm7 + 4) .fetch = true := by decide +kernel

end Sys2Proof.Tests
end

section
/-! PROOFS. Memory answers by its region (20_memory.md R72 to R87, 60_exceptions.md R590): what a store
leaves in RAM and a load reads there, the open bus, the writes a ROM drops, the TCM windows. -/
namespace Sys2Proof.Machine

/-! RAM: each byte of a write, and the whole of it. -/

/-- Inside a write, each byte is the lane of the value at its place (R74). -/
theorem Memory.readByte_write_inside {m : Memory} (arr : MemArray) (off : Nat) {w : Width} (v : Word)
    (h : m.wf = true) {j : Nat} (hj : j < w.bytes) :
    (m.write arr off w v).readByte arr (off + j) = laneOf v j := by
  rw [Memory.readByte_write arr off w v h, if_pos ⟨rfl, by omega, by omega⟩, Nat.add_sub_cancel_left]

/-- Outside a write, each byte is as before. -/
theorem Memory.readByte_write_outside {m : Memory} {arr brr : MemArray} {off b : Nat} {w : Width} (v : Word)
    (h : m.wf = true) (hb : brr ≠ arr ∨ b < off ∨ off + w.bytes ≤ b) :
    (m.write arr off w v).readByte brr b = m.readByte brr b := by
  rw [Memory.readByte_write arr off w v h, if_neg]
  rintro ⟨ha, hlo, hhi⟩
  exact hb.elim (· ha) (by omega)

/-- A value cut to a width, as a number. -/
theorem truncWidth_toNat (w : Width) (v : Word) : (truncWidth w v).toNat = v.toNat % 2 ^ (8 * w.bytes) := by
  cases w with
  | byte => exact (BitVec.toNat_and ..).trans (Nat.and_two_pow_sub_one_eq_mod v.toNat 8)
  | half => exact (BitVec.toNat_and ..).trans (Nat.and_two_pow_sub_one_eq_mod v.toNat 16)
  | word => exact (Nat.mod_eq_of_lt v.isLt).symm

/-- As many low bits as the width has, zero-extended, are the word cut to the width. -/
theorem lowBits_setWidth (w : Width) (v : Word) :
    (v.extractLsb' 0 (8 * w.bytes)).setWidth 32 = truncWidth w v := by
  apply BitVec.eq_of_toNat_eq
  rw [truncWidth_toNat, BitVec.toNat_setWidth, BitVec.extractLsb'_toNat, Nat.shiftRight_zero]
  exact Nat.mod_eq_of_lt (Nat.lt_of_le_of_lt (Nat.mod_le ..) v.isLt)

/-- Two adjacent lanes are the low halfword. -/
theorem laneOf_append_half (v : Word) : laneOf v 1 ++ laneOf v 0 = v.extractLsb' 0 16 :=
  BitVec.extractLsb'_append_extractLsb'_eq_extractLsb' rfl

/-- The four lanes are the word. -/
theorem laneOf_append_word (v : Word) : laneOf v 3 ++ laneOf v 2 ++ laneOf v 1 ++ laneOf v 0 = v := by
  simp (disch := decide) only [laneOf, BitVec.extractLsb'_append_extractLsb'_eq_extractLsb']
  exact BitVec.extractLsb'_eq_self

/-- A read of the width and at the place of a write gives the value, cut to the width (R74, R82). -/
theorem Memory.read_write {m : Memory} (arr : MemArray) (off : Nat) (w : Width) (v : Word)
    (h : m.wf = true) : (m.write arr off w v).read arr off w = truncWidth w v := by
  have lane : ∀ j, j < w.bytes → (m.write arr off w v).readByte arr (off + j) = laneOf v j :=
    fun j hj => Memory.readByte_write_inside arr off v h hj
  have lane0 : (m.write arr off w v).readByte arr off = laneOf v 0 := lane 0 (by cases w <;> decide)
  cases w with
  | byte =>
    rw [Memory.read, lane0]
    exact lowBits_setWidth .byte v
  | half =>
    simp only [Memory.read, lane 1 (by decide), lane0, laneOf_append_half]
    exact lowBits_setWidth .half v
  | word =>
    simp only [Memory.read, lane 3 (by decide), lane 2 (by decide), lane 1 (by decide), lane0]
    exact laneOf_append_word v

/-! The bus, one rule per region (R72, R73). -/

/-- A store to RAM writes the array and nothing else (R82). -/
theorem memWrite_ram {s : State} {addr : Word} {w : Width} {arr : MemArray} {off : Nat} (v : Word)
    (h : region s s.current (alignTo w addr) .data = .ram arr off) :
    memWrite addr w v s = .next { s with mem := s.mem.write arr off w v } := by
  simp [memWrite, writeAligned, reachesAgent, h]

/-- A ROM drops writes (R84). -/
theorem memWrite_rom {s : State} {addr : Word} {w : Width} {arr : MemArray} {off : Nat} (v : Word)
    (h : region s s.current (alignTo w addr) .data = .rom arr off) : memWrite addr w v s = .next s := by
  simp [memWrite, writeAligned, reachesAgent, h]

/-- An unmapped address drops writes (R87). -/
theorem memWrite_unmapped {s : State} {addr : Word} {w : Width} (v : Word)
    (h : region s s.current (alignTo w addr) .data = .unmapped) : memWrite addr w v s = .next s := by
  simp [memWrite, writeAligned, reachesAgent, h]

/-- A load from RAM reads the array and has no effect (R82). -/
theorem memRead_ram {s : State} {addr : Word} {w : Width} {kind : AccessKind} {arr : MemArray} {off : Nat}
    (h : region s s.current (alignTo w addr) kind = .ram arr off) :
    memRead addr w kind s = .next (s.mem.read arr off w, s) := by
  rw [memRead_plain (by simp [plainAt, h]), peekFrom, h]

/-- A load from an unmapped address sees the lanes of the last fetched opcode and has no effect (R87). -/
theorem memRead_unmapped {s : State} {addr : Word} {w : Width} {kind : AccessKind}
    (h : region s s.current (alignTo w addr) kind = .unmapped) :
    memRead addr w kind s = .next (selectLanes (alignTo w addr) w s.cur.lastFetch, s) := by
  rw [memRead_plain (by simp [plainAt, h]), peekFrom, h]

/-- The lanes an access sees, as a number: the value moved down to the byte of the address, cut to the
width (R85, R87). -/
theorem selectLanes_toNat (a : Word) (w : Width) (v : Word) :
    (selectLanes a w v).toNat = v.toNat / 2 ^ (8 * (a.toNat % 4)) % 2 ^ (8 * w.bytes) := by
  have place : (a &&& 3).toNat = a.toNat % 4 :=
    (BitVec.toNat_and ..).trans (Nat.and_two_pow_sub_one_eq_mod a.toNat 2)
  rw [selectLanes, truncWidth_toNat, BitVec.toNat_ushiftRight, Nat.shiftRight_eq_div_pow, place]

/-! The TCM windows (R83, R590, log 12). -/

/-- The size of a window as a number, modulo `2 ^ 32`. -/
theorem tcmSize_toNat (r : Word) : (tcmSize r).toNat = 512 * 2 ^ (r.toNat / 2 % 32) % 2 ^ 32 := by
  rw [tcmSize, BitVec.toNat_shiftLeft, Nat.shiftLeft_eq, BitVec.extractLsb'_toNat, Nat.shiftRight_eq_div_pow]
  rfl

/-- The base of the DTCM window as a number: the register with its low 12 bits cleared. -/
theorem Cp15.dtcmBase_toNat (p : Cp15) : p.dtcmBase.toNat = p.dtcm.toNat / 4096 * 4096 := by
  have mask : (0xFFFFF000 : Word) = BitVec.allOnes 32 <<< 12 := by decide
  have small : p.dtcm.toNat / 4096 * 4096 < 2 ^ 32 := by have := p.dtcm.isLt; omega
  rw [Cp15.dtcmBase, mask, ← BitVec.shiftLeft_ushiftRight, BitVec.toNat_shiftLeft, BitVec.toNat_ushiftRight,
    Nat.shiftRight_eq_div_pow, Nat.shiftLeft_eq, Nat.mod_eq_of_lt small]

/-- The decoder's test of the ITCM window, in numbers. -/
theorem inItcm_iff (p : Cp15) (a : Word) :
    (p.itcmOn = true ∧ a < tcmSize p.itcm) ↔
      p.control.getLsbD 18 = true ∧ a.toNat < 512 * 2 ^ (p.itcm.toNat / 2 % 32) % 2 ^ 32 := by
  rw [Cp15.itcmOn, BitVec.lt_def, tcmSize_toNat]

/-- The decoder's test of the DTCM window, in numbers. -/
theorem inDtcm_iff (p : Cp15) (a : Word) (kind : AccessKind) :
    (p.dtcmOn = true ∧ kind = .data ∧ p.dtcmBase ≤ a ∧ a < p.dtcmBase + tcmSize p.dtcm) ↔
      p.control.getLsbD 16 = true ∧ kind = .data ∧ p.dtcm.toNat / 4096 * 4096 ≤ a.toNat ∧
        a.toNat < (p.dtcm.toNat / 4096 * 4096 + 512 * 2 ^ (p.dtcm.toNat / 2 % 32) % 2 ^ 32) % 2 ^ 32 := by
  rw [Cp15.dtcmOn, BitVec.le_def, BitVec.lt_def, BitVec.toNat_add, p.dtcmBase_toNat, tcmSize_toNat]

/-- Inside the DTCM window an address lies at its distance from the base, the array repeating. -/
theorem decodeArm9_dtcm {p : Cp15} {inert : Bool} {a : Word} {kind : AccessKind}
    (hi : ¬ (p.itcmOn = true ∧ a < tcmSize p.itcm))
    (hd : p.dtcmOn = true ∧ kind = .data ∧ p.dtcmBase ≤ a ∧ a < p.dtcmBase + tcmSize p.dtcm) :
    decodeArm9 p inert a kind = .ram .dtcm ((a.toNat - p.dtcm.toNat / 4096 * 4096) % 0x4000) := by
  rw [decodeArm9, if_neg hi, if_pos hd, BitVec.toNat_sub_of_le hd.2.2.1, p.dtcmBase_toNat]

/-- Shared WRAM is no TCM array, wherever the mapping puts an address. -/
theorem decodeSwram_ne_tcm (c : CoreId) (a : Word) (off : Nat) :
    decodeSwram c a ≠ .ram .itcm off ∧ decodeSwram c a ≠ .ram .dtcm off := by
  unfold decodeSwram
  split <;> simp

/-- The rows of the ARM9 map below the windows name neither TCM array (R81). -/
theorem decodeArm9Main_ne_tcm (a : Word) (inert : Bool) (off : Nat) :
    decodeArm9Main a inert ≠ .ram .itcm off ∧ decodeArm9Main a inert ≠ .ram .dtcm off := by
  unfold decodeArm9Main
  repeat' split
  case isFalse.isTrue => exact decodeSwram_ne_tcm .arm9 a off
  all_goals exact ⟨nofun, nofun⟩

/-- Settles O58: read after write in RAM by the laws of memory, the other regions by one bus rule each, the
windows by the decoder's own tests read as numbers. -/
theorem memoryAnswersByItsRegion : Obligations.MemoryAnswersByItsRegion := by
  unfold Obligations.MemoryAnswersByItsRegion
  refine ⟨fun addr v w s arr off hwf hr => ?ram, fun addr v w s => ⟨fun hr => ?unmapped, ?rom⟩, ?tcm⟩
  case ram =>
    refine ⟨_, memWrite_ram v hr, rfl, ?_, fun j hj => Memory.readByte_write_inside arr off v hwf hj,
      fun arr1 off1 ho => Memory.readByte_write_outside v hwf ho⟩
    have read := memRead_ram (s := { s with mem := s.mem.write arr off w v })
      ((region_congr s.current (alignTo w addr) .data rfl rfl).trans hr)
    rwa [Memory.read_write arr off w v hwf] at read
  case unmapped =>
    exact ⟨⟨_, memRead_unmapped hr, selectLanes_toNat ..⟩, memWrite_unmapped v hr⟩
  case rom =>
    exact fun arr off hr => memWrite_rom v hr
  case tcm =>
    intro s a kind size base inItcm inDtcm
    have hi := inItcm_iff s.cp15 a
    have hd := inDtcm_iff s.cp15 a kind
    refine ⟨fun i => if_pos (hi.2 i), fun i d => decodeArm9_dtcm (mt hi.1 i) (hd.2 d), fun i d off => ?_⟩
    rw [region, decodeArm9, if_neg (mt hi.1 i), if_neg (mt hd.1 d)]
    exact decodeArm9Main_ne_tcm a s.bootromInert off

end Sys2Proof.Machine
end

section
/-! PROOFS. Decoding (30_encoding.md R120 to R153): every index is selected by exactly one row, every word
decodes, and decoding undoes encoding. -/
namespace Sys2Proof

/-! Masks over a value and over its two parts. -/

/-- A masked comparison is one of the upper part and one of the lower. -/
theorem masked_eq_parts {n m : Nat} (x mask bits : BitVec (n + m)) :
    (x &&& mask == bits) =
      (x.extractLsb' m n &&& mask.extractLsb' m n == bits.extractLsb' m n &&
        x.extractLsb' 0 m &&& mask.extractLsb' 0 m == bits.extractLsb' 0 m) := by
  rw [Bool.eq_iff_iff, Bool.and_eq_true, beq_iff_eq, beq_iff_eq, beq_iff_eq,
    ← BitVec.extractLsb'_and, ← BitVec.extractLsb'_and]
  refine ⟨fun h => by simp [h], fun ⟨high, low⟩ => ?_⟩
  rw [← BitVec.extractLsb'_append_extractLsb' (x := x &&& mask), high, low,
    BitVec.extractLsb'_append_extractLsb']

/-- A mask over an append is the mask's two parts over the two values. -/
theorem append_and {n m : Nat} (x : BitVec n) (y : BitVec m) (mask : BitVec (n + m)) :
    (x ++ y) &&& mask = (x &&& mask.extractLsb' m n) ++ (y &&& mask.extractLsb' 0 m) := by
  rw [← BitVec.and_append, BitVec.extractLsb'_append_extractLsb']

/-! Exactly one row selects each index (R125, R140, R151, R153). The index is taken part by part, so that
each part is compared with the few rows that the parts before it leave. -/

theorem armRows_one_by_nibbles : ∀ a b lo : BitVec 4,
    (((armRows.filter fun r => a &&& r.hiMask.extractLsb' 4 4 == r.hiMatch.extractLsb' 4 4).filter
      fun r => b &&& r.hiMask.extractLsb' 0 4 == r.hiMatch.extractLsb' 0 4).filter
      fun r => lo &&& r.loMask == r.loMatch).length = 1 := by decide +kernel

theorem thumbRows_one_by_halves : ∀ a b : BitVec 5,
    ((thumbRows.filter fun r => a &&& r.mask.extractLsb' 5 5 == r.bits.extractLsb' 5 5).filter
      fun r => b &&& r.mask.extractLsb' 0 5 == r.bits.extractLsb' 0 5).length = 1 := by decide +kernel

theorem armRows_select_one (hi : BitVec 8) (lo : BitVec 4) :
    (armRows.filter fun r => r.selects hi lo).length = 1 := by
  rw [← armRows_one_by_nibbles (hi.extractLsb' 4 4) (hi.extractLsb' 0 4) lo, List.filter_filter,
    List.filter_filter]
  congr 2
  funext r
  rw [ArmRow.selects, masked_eq_parts (n := 4) (m := 4) hi r.hiMask r.hiMatch]
  ac_rfl

theorem nvRows_select_one : ∀ hi : BitVec 8, (nvRows.filter fun r => r.selects hi).length = 1 := by
  decide +kernel

theorem thumbRows_select_one (top : BitVec 10) : (thumbRows.filter fun r => r.selects top).length = 1 := by
  rw [← thumbRows_one_by_halves (top.extractLsb' 5 5) (top.extractLsb' 0 5), List.filter_filter]
  congr 2
  funext r
  rw [ThumbRow.selects, masked_eq_parts (n := 5) (m := 5) top r.mask r.bits, Bool.and_comm]

/-! Every row builds a well-formed instruction. -/

/-- Where only one element passes a test, the search finds an element. -/
theorem exists_find_of_filter_one {α : Type} {p : α → Bool} {l : List α} (h : (l.filter p).length = 1) :
    ∃ a ∈ l, l.find? p = some a := by
  obtain ⟨a, ha⟩ := List.length_eq_one_iff.mp h
  obtain ⟨mem, pass⟩ := List.mem_filter.mp (ha ▸ List.mem_singleton_self a : a ∈ l.filter p)
  exact ⟨a, mem, find_of_filter_one p l a mem pass h⟩

theorem msrImmOk_iff {R : Bool} {mask : BitVec 4} : msrImmOk R mask = true ↔ ¬ (R = false ∧ mask = 0) := by
  cases R <;> simp [msrImmOk]

theorem hintOtherOk_iff {imm8 : BitVec 8} : hintOtherOk imm8 = true ↔ imm8 ≠ 0 ∧ imm8 ≠ 3 := by
  simp [hintOtherOk]

/-- The row of MSR immediate keeps the hints apart (R142). -/
theorem buildMsrImm_wellFormed (c : Cond) (f : ArmFields) : (buildMsrImm c f).wellFormed = true := by
  rw [buildMsrImm]
  split
  case isTrue hint =>
    split
    · rfl
    split
    · rfl
    next notNop notWfi => exact hintOtherOk_iff.mpr ⟨notNop, notWfi⟩
  case isFalse msr => exact msrImmOk_iff.mpr msr

/-- The rows before that of MSR immediate, that row, and the rows after it. -/
theorem armRows_build_wellFormed : ∀ r ∈ armRows, ∀ c f, (r.build c f).wellFormed = true := by
  repeat refine List.forall_mem_cons.mpr ⟨fun _ _ => rfl, ?_⟩
  refine List.forall_mem_cons.mpr ⟨buildMsrImm_wellFormed, ?_⟩
  repeat refine List.forall_mem_cons.mpr ⟨fun _ _ => rfl, ?_⟩
  exact List.forall_mem_nil _

theorem nvRows_build_wellFormed : ∀ r ∈ nvRows, ∀ f, (r.build f).wellFormed = true := by
  repeat refine List.forall_mem_cons.mpr ⟨fun _ => rfl, ?_⟩
  exact List.forall_mem_nil _

theorem thumbRows_build_wellFormed : ∀ r ∈ thumbRows, ∀ f, (r.build f).wellFormed = true := by
  repeat refine List.forall_mem_cons.mpr ⟨fun _ => rfl, ?_⟩
  exact List.forall_mem_nil _

theorem decodeArm_wellFormed (w : Word) : ∃ i, decodeArm w = some i ∧ i.wellFormed = true := by
  rw [decodeArm, decodeArmFields]
  split
  case h_1 c _ =>
    obtain ⟨r, mem, found⟩ := exists_find_of_filter_one (armRows_select_one _ _)
    exact ⟨_, by rw [found, Option.map_some], armRows_build_wellFormed r mem c _⟩
  case h_2 =>
    obtain ⟨r, mem, found⟩ := exists_find_of_filter_one (nvRows_select_one _)
    exact ⟨_, by rw [found, Option.map_some], nvRows_build_wellFormed r mem _⟩

theorem decodeThumb_wellFormed (h : Half) : ∃ i, decodeThumb h = some i ∧ i.wellFormed = true := by
  obtain ⟨r, mem, found⟩ := exists_find_of_filter_one (thumbRows_select_one (ThumbFields.ofHalf h).top)
  exact ⟨_, by rw [decodeThumb, decodeThumbFields, found, Option.map_some], thumbRows_build_wellFormed r mem _⟩

/-- Settles O2: the rows partition the indices, and each builds a well-formed instruction. -/
theorem everyWordDecodesByExactlyOneRow : Obligations.EveryWordDecodesByExactlyOneRow := by
  unfold Obligations.EveryWordDecodesByExactlyOneRow
  exact ⟨fun w _ => armRows_select_one _ _, fun w => nvRows_select_one _, fun h => thumbRows_select_one _,
    decodeArm_wellFormed, decodeThumb_wellFormed⟩

/-! A row that selects the fields of an encoding decodes it. -/

theorem decode_armEncoding_of_mem {c : Cond} {hi : BitVec 8} {f19 f15 f11 lo f3 : BitVec 4} {r : ArmRow}
    (mem : r ∈ armRows) (selects : r.selects hi lo = true) :
    (armEncoding c hi f19 f15 f11 lo f3).decode = some (r.build c ⟨c.bits, hi, f19, f15, f11, lo, f3⟩) := by
  rw [Encoding.decode, decodeArm_toWord, decodeArmFields, Cond.ofBits_bits]
  exact congrArg (Option.map _) (find_of_filter_one _ _ r mem selects (armRows_select_one hi lo))

/-- The row of an instruction is the one with the number of its constructor, as `Instr` lists the rows of
opcode_table.json in their order. -/
theorem decode_armEncoding {i : Instr} {c : Cond} {hi : BitVec 8} {f19 f15 f11 lo f3 : BitVec 4} {r : ArmRow}
    (row : (armRows.find? fun r => r.row == i.ctorIdx) = some r) (selects : r.selects hi lo = true)
    (build : r.build c ⟨c.bits, hi, f19, f15, f11, lo, f3⟩ = i) :
    (armEncoding c hi f19 f15 f11 lo f3).decode = some i := by
  rw [decode_armEncoding_of_mem (List.mem_of_find?_eq_some row) selects, build]

theorem decode_nvEncoding {i : Instr} {hi : BitVec 8} {f19 f15 f11 lo f3 : BitVec 4} {r : NvRow}
    (row : (nvRows.find? fun r => r.row == i.ctorIdx) = some r) (selects : r.selects hi = true)
    (build : r.build ⟨0b1111#4, hi, f19, f15, f11, lo, f3⟩ = i) :
    (nvEncoding hi f19 f15 f11 lo f3).decode = some i := by
  rw [Encoding.decode, decodeArm_toWord, decodeArmFields, Cond.ofBits_nv, ← build]
  exact congrArg (Option.map _)
    (find_of_filter_one _ _ r (List.mem_of_find?_eq_some row) selects (nvRows_select_one hi))

theorem decode_thumbEncoding {i : Instr} {top : BitVec 10} {f5 f2 : BitVec 3} {r : ThumbRow}
    (row : (thumbRows.find? fun r => r.row == i.ctorIdx) = some r) (selects : r.selects top = true)
    (build : r.build ⟨top, f5, f2⟩ = i) : (thumbEncoding top f5 f2).decode = some i := by
  rw [Encoding.decode, decodeThumb_toHalf, decodeThumbFields, ← build]
  exact congrArg (Option.map _)
    (find_of_filter_one _ _ r (List.mem_of_find?_eq_some row) selects (thumbRows_select_one top))

/-- The row that MSR immediate shares with the hints (R142). -/
theorem decode_msrImmRow {c : Cond} {hi : BitVec 8} {f19 f15 f11 lo f3 : BitVec 4}
    (selects : hi &&& 0xFB#8 = 0x32#8) :
    (armEncoding c hi f19 f15 f11 lo f3).decode = some (buildMsrImm c ⟨c.bits, hi, f19, f15, f11, lo, f3⟩) :=
  decode_armEncoding_of_mem (List.mem_of_find?_eq_some (p := fun r => r.row == 50) rfl)
    (by simp [ArmRow.selects, selects])

/-- Decoding undoes encoding. The cases are the formats of R126 to R138 and R151: the constant fields select
the row of the instruction, whatever its operands, and cutting the joined fields gives the operands back. A
lemma about appended fields names the width `m` of the lower one, as `simp` does not solve for it. -/
theorem decode_encode (i : Instr) (h : i.wellFormed = true) : (encode i).decode = some i := by
  cases i
  -- MSR immediate and the hints (R130, R142).
  case nop | wfi => exact (decode_msrImmRow (hi := 0b00110010#8) rfl).trans (by simp [buildMsrImm])
  case hintOther cond imm8 =>
    obtain ⟨notNop, notWfi⟩ := hintOtherOk_iff.mp h
    refine (decode_msrImmRow (hi := 0b00110010#8) rfl).trans ?_
    simp only [buildMsrImm, extract_join imm8 0 4 4, extract_self]
    rw [if_pos ⟨rfl, rfl⟩, if_neg notNop, if_neg notWfi]
  case msrImm cond R mask rot4 imm8 =>
    have bitR : (0b00110#5 ++ bit R ++ 0b10#2 : BitVec 8).getLsbD 2 = R := by cases R <;> rfl
    refine (decode_msrImmRow (by simp [append_and (m := 1), append_and (m := 2)])).trans ?_
    simp only [buildMsrImm, bitR]
    rw [if_neg (msrImmOk_iff.mp h), extract_join imm8 0 4 4, extract_self]
  -- A register shifted by an immediate (R129, R133).
  case andShiftImm | eorShiftImm | subShiftImm | rsbShiftImm | addShiftImm | adcShiftImm | sbcShiftImm |
      rscShiftImm | tstShiftImm | teqShiftImm | cmpShiftImm | cmnShiftImm | orrShiftImm | movShiftImm |
      bicShiftImm | mvnShiftImm | ldrReg | strReg | ldrbReg | strbReg =>
    exact decode_armEncoding rfl (by simp [ArmRow.selects, append_and (m := 1), append_and (m := 2)])
      (by simp [extract_append_high (m := 1), extract_append_high (m := 2), extract_append_low (m := 2),
        BitVec.getElem_append (m := 1), extract_join (l := 1)])
  -- A register shifted by a register (R129).
  case andShiftReg | eorShiftReg | subShiftReg | rsbShiftReg | addShiftReg | adcShiftReg | sbcShiftReg |
      rscShiftReg | tstShiftReg | teqShiftReg | cmpShiftReg | cmnShiftReg | orrShiftReg | movShiftReg |
      bicShiftReg | mvnShiftReg =>
    exact decode_armEncoding rfl (by simp [ArmRow.selects, append_and (m := 1), append_and (m := 2)])
      (by simp [extract_append_high (m := 1), extract_append_low (m := 2), BitVec.getElem_append (m := 1)])
  -- Flag bits in `hi`, and an immediate or a list in nibbles (R128, R133 to R135).
  case andImm | eorImm | subImm | rsbImm | addImm | adcImm | sbcImm | rscImm | tstImm | teqImm | cmpImm |
      cmnImm | orrImm | movImm | bicImm | mvnImm | ldrImm | strImm | ldrbImm | strbImm | strhImm | ldrhImm |
      ldrsbImm | ldrshImm | ldrdImm | strdImm | ldm | stm =>
    exact decode_armEncoding rfl (by simp [ArmRow.selects, append_and (m := 1)])
      (by simp [BitVec.getElem_append (m := 1), extract_join (l := 4)])
  -- Flag bits in `hi` alone (R131, R134).
  case mul | mla | umull | umlal | smull | smlal | strhReg | ldrhReg | ldrsbReg | ldrshReg | ldrdReg |
      strdReg =>
    exact decode_armEncoding rfl (by simp [ArmRow.selects, append_and (m := 1)])
      (by simp [BitVec.getElem_append (m := 1)])
  -- Flag bits above a constant pair (R130, R131).
  case mrs | msrReg | smlaXY | smlaWY | smulWY | smlalXY | smulXY =>
    exact decode_armEncoding rfl (by simp [ArmRow.selects, append_and (m := 1), append_and (m := 2)])
      (by simp [BitVec.getElem_append (m := 1), BitVec.getElem_append (m := 2)])
  -- An immediate of 24 bits (R136, R138).
  case b | bl | swi =>
    exact decode_armEncoding rfl (by simp [ArmRow.selects, append_and (m := 4)])
      (by simp [extract_append_low (m := 4), extract_join (l := 4)])
  -- Coprocessor transfer (R137).
  case mcr | mrc =>
    exact decode_armEncoding rfl (by simp [ArmRow.selects, append_and (m := 1), append_and (m := 3)])
      (by simp [extract_append_high (m := 1), extract_append_low (m := 3)])
  -- A constant index (R132, R140).
  case swp | swpb | bx | blxReg | clz | qadd | qsub | qdadd | qdsub | undMultiply | undSwapLoad | undSwapWide |
      undSwapOdd | undMiscBranch | undMiscClz | undMiscTwo | undMiscFourSix | undMiscSeven | undCompareImm |
      undMedia | undCoprocTransfer | undCoprocOp =>
    exact decode_armEncoding rfl rfl rfl
  -- The NV space (R124, R136).
  case blxImm =>
    exact decode_nvEncoding rfl (by simp [NvRow.selects, append_and (m := 1), append_and (m := 4)])
      (by simp [BitVec.getElem_append (m := 1), BitVec.getElem_append (m := 4), extract_append_low (m := 4),
        extract_join (l := 4)])
  case undNvLow | undNvCoproc | undNvBlock => exact decode_nvEncoding rfl rfl rfl
  -- Thumb formats 1, 9 and 10: `imm5` and two registers.
  case tLslImm | tLsrImm | tAsrImm | tStrImm | tLdrImm | tStrbImm | tLdrbImm | tStrhImm | tLdrhImm =>
    exact decode_thumbEncoding rfl (by simp [ThumbRow.selects, append_and (m := 5)])
      (by simp [extract_append_low (m := 5)])
  -- Formats 2, 7 and 8: three fields of three bits.
  case tAddReg | tSubReg | tAddImm3 | tSubImm3 | tStrReg | tStrbReg | tLdrReg | tLdrbReg | tStrhReg | tLdsb |
      tLdrhReg | tLdsh =>
    exact decode_thumbEncoding rfl (by simp [ThumbRow.selects, append_and (m := 3)])
      (by simp [extract_append_low (m := 3)])
  -- Formats 3, 6, 11, 12 and 15: a register and 8 bits.
  case tMovImm | tCmpImm | tAddImm8 | tSubImm8 | tLdrPc | tStrSp | tLdrSp | tAddPc | tAddSp | tStmia | tLdmia =>
    exact decode_thumbEncoding rfl (by simp [ThumbRow.selects, append_and (m := 2), append_and (m := 3)])
      (by simp [extract_append_high (m := 2), extract_append_low (m := 2), extract_append_low (m := 3),
        extract_join (l := 3)])
  -- Format 5: the top bits of the registers apart.
  case tAddHi | tCmpHi | tMovHi =>
    exact decode_thumbEncoding rfl (by simp [ThumbRow.selects, append_and (m := 1)])
      (by simp [extract_append_high (m := 1), extract_append_low (m := 1), extract_join (l := 3)])
  -- Format 5, BX and BLX.
  case tBx | tBlxReg =>
    exact decode_thumbEncoding rfl (by simp [ThumbRow.selects, append_and (m := 1)])
      (by simp [extract_append_low (m := 1), extract_join (l := 3)])
  -- Formats 13 and 14: a flag bit and 7 or 8 bits.
  case tAdjustSp =>
    exact decode_thumbEncoding rfl (by simp [ThumbRow.selects, append_and (m := 1)])
      (by simp [BitVec.getElem_append (m := 1), extract_append_low (m := 1), extract_join (l := 3)])
  case tPush | tPop =>
    exact decode_thumbEncoding rfl (by simp [ThumbRow.selects, append_and (m := 1), append_and (m := 2)])
      (by simp [BitVec.getElem_append (m := 1), BitVec.getElem_append (m := 2), extract_append_low (m := 2),
        extract_join (l := 3)])
  -- Formats 16 and 17: 8 bits.
  case tBeq | tBne | tBcs | tBcc | tBmi | tBpl | tBvs | tBvc | tBhi | tBls | tBge | tBlt | tBgt | tBle | tSwi =>
    exact decode_thumbEncoding rfl (by simp [ThumbRow.selects, append_and (m := 2)])
      (by simp [extract_append_low (m := 2), extract_join (l := 3)])
  -- Formats 18 and 19: 11 bits.
  case tB | tBlFirst | tBlSecond | tBlxSecond =>
    exact decode_thumbEncoding rfl (by simp [ThumbRow.selects, append_and (m := 5)])
      (by simp [extract_append_low (m := 5), extract_join (l := 3)])
  -- Format 4 and the undefined encodings: a constant index (R153).
  case tAnd | tEor | tLslReg | tLsrReg | tAsrReg | tAdc | tSbc | tRor | tTst | tNeg | tCmpReg | tCmn | tOrr |
      tMul | tBic | tMvn | tUndB1 | tUndB2 | tUndB6 | tUndB8 | tUndBE | tUndDE =>
    exact decode_thumbEncoding rfl rfl rfl

/-- The bytes of an encoding decode as its word does. -/
theorem decodeBytes_encoding (e : Encoding) : decodeBytes e.isThumb e.bytes = orNoRow e.decode [] := by
  cases e with
  | arm w => exact decodeBytes_arm w
  | thumb h => exact decodeBytes_thumb h

/-- Settles O1: the row of the instruction is the only one that selects its encoding, and its fields are the
operands. -/
theorem decodeOfEncodeIsTheInstruction : Obligations.DecodeOfEncodeIsTheInstruction := by
  unfold Obligations.DecodeOfEncodeIsTheInstruction
  intro i h
  have back := decode_encode i h
  exact ⟨back, by rw [decodeBytes_encoding, back, orNoRow]⟩

end Sys2Proof
end

section
/-! PROOFS. What a core cannot execute, and the hints (30_encoding.md R124, R140 to R142, R153;
42_status_transfer.md R257, R258). -/
namespace Sys2Proof.Machine

/-! The guards of the meanings, where they let an instruction through to its panic. -/

theorem ifCond_fault {cond : Cond} {s : State} (r : Fault) (pass : condPass cond s.cur.cpsr = true) :
    (ifCond cond s fun _ => .fault r) = .fault r := ifCond_pass _ pass

theorem ifCond_onArm9_arm7 {cond : Cond} {s : State} (k : State → Result)
    (pass : condPass cond s.cur.cpsr = true) (arm7 : s.current = .arm7) :
    (ifCond cond s fun s => onArm9 s k) = .fault .undefinedInstruction :=
  (ifCond_pass _ pass).trans (onArm9_arm7 k arm7)

theorem ifNv_fault {s : State} (r : Fault) (arm9 : s.current = .arm9) :
    (ifNv s fun _ => .fault r) = .fault r := by
  simp [ifNv, nvPass, arm9]

/-! One lemma per kind of encoding: the instructions of the kind are under that guard. -/

/-- The ARM instructions test their condition before the core, the Thumb ones have none (log 19). -/
theorem exec_arm9Only_arm7 {i : Instr} {s : State} (h : arm9Only i = true) (pass : i.passes s.cur.cpsr = true)
    (arm7 : s.current = .arm7) : exec i s = .fault .undefinedInstruction := by
  cases i
  case smlaXY | smlaWY | smulWY | smlalXY | smulXY | ldrdReg | ldrdImm | strdReg | strdImm | clz | qadd | qsub
      | qdadd | qdsub | blxReg | mcr | mrc => exact ifCond_onArm9_arm7 _ pass arm7
  case tBlxReg rs => exact (onArm9_arm7 _ arm7 : execTBlxReg rs s = _)
  case tBlxSecond imm11 => exact (onArm9_arm7 _ arm7 : execTBlxSecond imm11 s = _)
  all_goals cases h

theorem exec_undefinedArm {i : Instr} {s : State} (h : undefinedArm i = true)
    (pass : i.passes s.cur.cpsr = true) : exec i s = .fault .undefinedInstruction := by
  cases i
  case undMultiply | undSwapLoad | undSwapWide | undSwapOdd | undMiscBranch | undMiscClz | undMiscTwo
      | undMiscFourSix | undMiscSeven | undCompareImm | undMedia | undCoprocTransfer | undCoprocOp =>
    exact ifCond_fault _ pass
  all_goals cases h

theorem exec_undefinedNv {i : Instr} {s : State} (h : undefinedNv i = true) (arm9 : s.current = .arm9) :
    exec i s = .fault .unimplementedNv := by
  cases i
  case undNvLow | undNvCoproc | undNvBlock => exact ifNv_fault _ arm9
  all_goals cases h

theorem exec_undefinedThumb {i : Instr} (s : State) (h : undefinedThumbCode i = true) :
    exec i s = .fault .undefinedInstruction := by
  cases i
  case tUndB1 | tUndB2 | tUndB6 | tUndB8 | tUndBE | tUndDE => rfl
  all_goals cases h

/-- Settles O29, by kind of encoding. -/
theorem encodingsTheCoreLacksPanic : Obligations.EncodingsTheCoreLacksPanic := by
  unfold Obligations.EncodingsTheCoreLacksPanic
  exact fun i s => ⟨exec_arm9Only_arm7, exec_undefinedArm, exec_undefinedNv, exec_undefinedThumb s⟩

/-- Changing the core that runs and advancing is one update of it. -/
theorem finishArm_eq_upd (f : Cpu → Cpu) (s : State) :
    finishArm f s = .next (s.upd fun k => { f k with r15 := (f k).r15 + 4 }) := by
  rw [finishArm, advanceArm, State.upd_upd]

/-- Settles O25: each hint is its meaning under a condition that passes. -/
theorem hintsDoNothingOrWait : Obligations.HintsDoNothingOrWait := by
  unfold Obligations.HintsDoNothingOrWait
  intro cond s pass
  refine ⟨?nop, ?wfi, fun imm8 => ifCond_fault _ pass⟩
  case nop => exact (ifCond_pass _ pass).trans (finishArm_eq_upd id s)
  case wfi => exact (ifCond_pass _ pass).trans (finishArm_eq_upd _ s)

end Sys2Proof.Machine
end

section
/-! PROOFS. The shifter, the adder and the conditions over numbers (40_execution_and_shifter.md R178 to
R188), and the ARM instruction whose condition fails (R173, R176). -/
namespace Sys2Proof.Machine

/-! Rotations and filled words as numbers (00_scope.md R8). -/

/-- A rotation moves the low `n` bits to the top: as a number. -/
theorem ror32_toNat (v : Word) {n : Nat} (h : n < 32) :
    (ror32 v n).toNat = v.toNat / 2 ^ n + v.toNat % 2 ^ n * 2 ^ (32 - n) := by
  have size : 2 ^ 32 = 2 ^ n * 2 ^ (32 - n) := by rw [← Nat.pow_add, Nat.add_sub_cancel' (Nat.le_of_lt h)]
  have top : v.toNat <<< (32 - n) % 2 ^ 32 = (v.toNat % 2 ^ n) <<< (32 - n) := by
    rw [Nat.shiftLeft_eq, Nat.shiftLeft_eq, size, Nat.mul_mod_mul_right]
  have low : v.toNat >>> n < 2 ^ (32 - n) := by
    rw [Nat.shiftRight_eq_div_pow]
    exact Nat.div_lt_of_lt_mul (size ▸ v.isLt)
  rw [ror32, BitVec.toNat_rotateRight, Nat.mod_eq_of_lt h, top, Nat.or_comm,
    ← Nat.shiftLeft_add_eq_or_of_lt low, Nat.shiftLeft_eq, Nat.shiftRight_eq_div_pow, Nat.add_comm]

/-- RRX puts the carry above the upper 31 bits (R181). -/
theorem rrx_eq_append (v : Word) (c : Bool) :
    setBit (v >>> 1) 31 c = (BitVec.ofBool c ++ v.extractLsb' 1 31 : BitVec (1 + 31)) := by
  apply BitVec.eq_of_getLsbD_eq
  intro i hi
  rw [getLsbD_setBit _ _ _ (by decide), BitVec.getLsbD_append]
  by_cases top : i = 31
  · simp [top]
  · have low : i < 31 := by omega
    simp [top, low]

theorem rrx_toNat (v : Word) (c : Bool) : (setBit (v >>> 1) 31 c).toNat = v.toNat / 2 + c.toNat * 2 ^ 31 := by
  rw [rrx_eq_append, BitVec.toNat_append, ← Nat.shiftLeft_add_eq_or_of_lt (BitVec.isLt _),
    BitVec.extractLsb'_toNat, Nat.shiftRight_eq_div_pow, Nat.shiftLeft_eq, BitVec.toNat_ofBool,
    Nat.mod_eq_of_lt (by have := v.isLt; omega), Nat.add_comm]

/-! `ShiftImm` by an amount other than 0, type by type (R181). -/

section
variable (v : Word) {n : BitVec 5} (c : Bool) (h : n.toNat ≠ 0)
include h

theorem shiftImm_lsl : shiftImm .lsl v n c = ⟨v <<< n.toNat, v.getLsbD (32 - n.toNat)⟩ := if_neg h

theorem shiftImm_lsr : shiftImm .lsr v n c = ⟨v >>> n.toNat, v.getLsbD (n.toNat - 1)⟩ := if_neg h

theorem shiftImm_asr : shiftImm .asr v n c = ⟨v.sshiftRight n.toNat, v.getLsbD (n.toNat - 1)⟩ := if_neg h

theorem shiftImm_ror : shiftImm .ror v n c = ⟨ror32 v n.toNat, v.getLsbD (n.toNat - 1)⟩ := if_neg h

end

/-! `ShiftReg` by its amount (R182). -/

theorem shiftReg_zero (ty : ShiftType) (v : Word) (c : Bool) : shiftReg ty v 0 c = ⟨v, c⟩ := rfl

theorem shiftReg_32 (v : Word) (c : Bool) :
    shiftReg .lsl v 32 c = ⟨0, v.getLsbD 0⟩ ∧ shiftReg .lsr v 32 c = ⟨0, v.getLsbD 31⟩ := ⟨rfl, rfl⟩

/-- The low five bits of an amount, as a number. -/
theorem lowFive_toNat (n : Byte) : (n.setWidth 5).toNat = n.toNat % 32 := BitVec.toNat_setWidth ..

/-- By 1 to 31 a register shifts as an immediate does. -/
theorem shiftReg_eq_shiftImm (ty : ShiftType) (v : Word) {n : Byte} (c : Bool) (h : n.toNat ≠ 0)
    (small : n.toNat < 32) : shiftReg ty v n c = shiftImm ty v (n.setWidth 5) c := by
  have amount : (n.setWidth 5).toNat = n.toNat := (lowFive_toNat n).trans (Nat.mod_eq_of_lt small)
  cases ty <;> simp [shiftReg, shiftImm, amount, Nat.mod_eq_of_lt small, h, small]

/-- By more than 32 a left or logical right shift leaves nothing, and no carry. -/
theorem shiftReg_large (v : Word) {n : Byte} (c : Bool) (h : 32 < n.toNat) :
    shiftReg .lsl v n c = ⟨0, false⟩ ∧ shiftReg .lsr v n c = ⟨0, false⟩ := by
  have h0 : n.toNat ≠ 0 := by omega
  have h1 : ¬ n.toNat < 32 := by omega
  have h2 : n.toNat ≠ 32 := by omega
  simp only [shiftReg, if_neg h0, if_neg h1, if_neg h2, and_self]

/-- By 32 and more an arithmetic right shift leaves the sign. -/
theorem shiftReg_asr_large (v : Word) {n : Byte} (c : Bool) (h : 32 ≤ n.toNat) :
    shiftReg .asr v n c = ⟨fill (v.getLsbD 31), v.getLsbD 31⟩ := by
  have h0 : n.toNat ≠ 0 := by omega
  simp only [shiftReg, if_neg h0, if_neg (Nat.not_lt_of_le h)]

/-- By whole turns a rotation keeps the value; the carry is its top bit. -/
theorem shiftReg_ror_turns (v : Word) {n : Byte} (c : Bool) (h : n.toNat ≠ 0) (turns : n.toNat % 32 = 0) :
    shiftReg .ror v n c = ⟨v, v.getLsbD 31⟩ := by
  simp only [shiftReg, if_neg h, if_pos turns]

/-- A rotation by any other amount is one by its low five bits. -/
theorem shiftReg_ror_low (v : Word) {n : Byte} (c : Bool) (h : n.toNat % 32 ≠ 0) :
    shiftReg .ror v n c = shiftImm .ror v (n.setWidth 5) c := by
  have h0 : n.toNat ≠ 0 := by omega
  rw [shiftImm_ror v c (by rwa [lowFive_toNat]), lowFive_toNat]
  simp only [shiftReg, if_neg h0, if_neg h]

/-- The rotated immediate as a number (R184). -/
theorem rotatedImm_toNat (rot4 : BitVec 4) (imm8 : BitVec 8) :
    (rotatedImm rot4 imm8).toNat = imm8.toNat / 2 ^ (2 * rot4.toNat) +
      imm8.toNat % 2 ^ (2 * rot4.toNat) * 2 ^ (32 - 2 * rot4.toNat) := by
  have byte : (imm8.setWidth 32).toNat = imm8.toNat := BitVec.toNat_setWidth_of_le (by decide)
  rw [rotatedImm, ror32_toNat _ (by have := rot4.isLt; omega), byte]

/-- Settles O16: each clause by the equation of its type and amount; the values by the library's shifts over
numbers and by the rotation as a number. -/
theorem shiftsComputeOverNumbers : Obligations.ShiftsComputeOverNumbers := by
  unfold Obligations.ShiftsComputeOverNumbers
  refine ⟨fun v n c hn => ?imm, fun v c => ?immZero, shiftReg_zero,
    fun ty v n c hn small => shiftReg_eq_shiftImm ty v c (BitVec.toNat_ne_iff_ne.mpr hn) small,
    shiftReg_32, fun v n c h => shiftReg_large v c h, fun v n c h => ?regFar, fun rot4 imm8 c => ?expand⟩
  case imm =>
    have h : n.toNat ≠ 0 := BitVec.toNat_ne_iff_ne.mpr hn
    rw [shiftImm_lsl v c h, shiftImm_lsr v c h, shiftImm_asr v c h, shiftImm_ror v c h]
    refine ⟨?lsl, rfl, ?lsr, rfl, ?asr, rfl, ror32_toNat v n.isLt, rfl⟩
    case lsl => rw [BitVec.toNat_shiftLeft, Nat.shiftLeft_eq]
    case lsr => rw [BitVec.toNat_ushiftRight, Nat.shiftRight_eq_div_pow]
    case asr =>
      rw [BitVec.toInt_sshiftRight, Int.shiftRight_eq_div_pow]
      norm_cast
  case immZero => exact ⟨rfl, rfl, rfl, rrx_toNat v c, rfl⟩
  case regFar =>
    exact ⟨shiftReg_asr_large v c h, shiftReg_ror_turns v c (by omega), shiftReg_ror_low v c⟩
  case expand =>
    refine ⟨?_, rfl⟩
    have value := rotatedImm_toNat rot4 imm8
    have fits : imm8.toNat % 2 ^ (2 * rot4.toNat) * 2 ^ (32 - 2 * rot4.toNat) < 2 ^ 32 :=
      Nat.lt_of_le_of_lt (Nat.le_add_left ..) (value ▸ (rotatedImm rot4 imm8).isLt)
    rw [Nat.mod_eq_of_lt fits]
    exact value

/-! The adder and saturation (R185, R188). -/

/-- A number in the signed range is the value it saturates to. -/
theorem satS32_fits {i : Int} (lo : -2 ^ 31 ≤ i) (hi : i ≤ 2 ^ 31 - 1) : satS32 i = ⟨BitVec.ofInt 32 i, false⟩ := by
  rw [satS32, if_neg (Int.not_lt.mpr hi), if_neg (Int.not_lt.mpr lo)]

theorem satS32_above {i : Int} (h : 2 ^ 31 - 1 < i) : satS32 i = ⟨0x7FFFFFFF, true⟩ := if_pos h

theorem satS32_below {i : Int} (h : i < -2 ^ 31) : satS32 i = ⟨0x80000000, true⟩ := by
  rw [satS32, if_neg (by omega), if_pos h]

/-- Settles O17: the carry out is the adder's own test, the overflow the law of the adder. -/
theorem adderOverflowsAndSaturationClamps : Obligations.AdderOverflowsAndSaturationClamps := by
  unfold Obligations.AdderOverflowsAndSaturationClamps
  refine ⟨fun a b cin => ⟨BitVec.toNat_ofNat .., rfl, addWithCarry_overflow a b cin⟩,
    fun i => ⟨satS32_above, satS32_below, fun lo hi => ?fits⟩⟩
  case fits =>
    rw [satS32_fits lo hi]
    exact ⟨BitVec.toInt_ofInt_eq_self (by decide) lo (by omega), rfl⟩

/-! Conditions (R178). -/

/-- Settles O15: `CondPass` row by row. -/
theorem conditionsTestTheirFlags : Obligations.ConditionsTestTheirFlags := by
  unfold Obligations.ConditionsTestTheirFlags
  refine ⟨?_, rfl, rfl⟩
  rintro psr n z c v rfl rfl rfl rfl
  have differ : (psrN psr != psrV psr) = decide (psr.getLsbD 31 ≠ psr.getLsbD 28) :=
    (decide_not ..).symm
  exact ⟨rfl, rfl, rfl, rfl, rfl, rfl, rfl, rfl, rfl, rfl, rfl, differ, rfl, congrArg (psrZ psr || ·) differ, rfl⟩

/-! Skipping (R173, R176). -/

/-- Every instruction with a condition tests it first. -/
theorem exec_skips_of_cond {i : Instr} {cond : Cond} {s : State} (h : i.cond? = some cond)
    (fail : ¬ condPass cond s.cur.cpsr = true) : exec i s = .next (advanceArm s) := by
  cases i <;> cases h
  all_goals exact if_neg fail

/-- Every instruction of the NV space is skipped on ARM7 (R178). -/
theorem exec_skips_nvSpace {i : Instr} {s : State} (h : nvSpace i = true) (arm7 : s.current = .arm7) :
    exec i s = .next (advanceArm s) := by
  have fail : ¬ nvPass s.current = true := by simp [nvPass, arm7]
  cases i
  case blxImm | undNvLow | undNvCoproc | undNvBlock => exact if_neg fail
  all_goals cases h

/-- An instruction that does not pass has a condition, which fails. -/
theorem exists_cond_of_not_passes {i : Instr} {psr : Word} (h : i.passes psr = false) :
    ∃ cond, i.cond? = some cond ∧ ¬ condPass cond psr = true := by
  rw [Instr.passes] at h
  split at h
  next cond isCond => exact ⟨cond, isCond, by simp [h]⟩
  next => cases h

/-- Settles O18: the failed condition and the NV space skip to the same advance. -/
theorem failedConditionSkips : Obligations.FailedConditionSkips := by
  unfold Obligations.FailedConditionSkips
  rintro i s (fails | ⟨nv, arm7⟩)
  · obtain ⟨cond, isCond, fail⟩ := exists_cond_of_not_passes fails
    exact exec_skips_of_cond isCond fail
  · exact exec_skips_nvSpace nv arm7

end Sys2Proof.Machine
end

section
/-! PROOFS. A step of a core and the loop of `Step(N)` (40_execution_and_shifter.md R170 to R174,
60_exceptions.md R504, R506, R565, R575). -/
namespace Sys2Proof.Machine

/-! `step` by the phase it stands in (R575). -/

theorem step_idle {s : State} (h : s.phase = .idle) : step s = idleStep s := by rw [step, facadeStep, h]

theorem step_slice {s : State} {second : Bool} (h : s.phase = .slice second) : step s = sliceStep second s := by
  rw [step, facadeStep, h]

theorem step_run {s : State} {second : Bool} {budget : Cycles} (h : s.phase = .run second budget) :
    step s = runStep second budget s := by
  rw [step, facadeStep, h]

/-! One iteration of `CpuRun` (R170, R171). -/

/-- Its end. -/
theorem runStep_ends {s : State} (second : Bool) {budget : Cycles}
    (h : budget = 0 ∨ ¬ s.cur.cyc < s.sched.target) :
    runStep second budget s = .next (afterSlice second s) := if_pos h

/-- What `CpuStep` starts from: the core that runs is awake, and the facade stands in phase `p`. -/
def State.awakeIn (s : State) (p : Phase) : State :=
  { (s.upd fun k => { k with waiting := false }) with phase := p }

@[simp] theorem State.awakeIn_cur (s : State) (p : Phase) :
    (s.awakeIn p).cur = { s.cur with waiting := false } :=
  State.upd_cur s fun k => { k with waiting := false }

section
variable {s : State} (second : Bool) {budget : Cycles} (left : budget ≠ 0) (behind : s.cur.cyc < s.sched.target)
include left behind

/-- The wait. -/
theorem runStep_waits (wait : s.cur.waiting = true) (line : irqLine s s.current = false) :
    runStep second budget s = .next (afterSlice second (s.upd fun k => { k with cyc := k.cyc + budget })) := by
  have waiting : stillWaiting s = true := by simp [stillWaiting, wait, line]
  rw [runStep, if_neg (not_or.mpr ⟨left, not_not_intro behind⟩), if_pos waiting]

/-- One `CpuStep`. -/
theorem runStep_cpuStep (awake : s.cur.waiting = true → irqLine s s.current = true) :
    runStep second budget s = cpuStep (s.awakeIn (.run second (budget - 1))) := by
  have running : ¬ stillWaiting s = true := by simpa [stillWaiting] using awake
  rw [runStep, if_neg (not_or.mpr ⟨left, not_not_intro behind⟩), if_neg running]
  rfl

end

/-- Settles O6: the wait of `CpuRun`. -/
theorem waitingCoreConsumesItsBudget : Obligations.WaitingCoreConsumesItsBudget := by
  unfold Obligations.WaitingCoreConsumesItsBudget
  intro s second budget phase left behind wait line
  rw [step_run phase, runStep_waits second left behind wait line]
  rfl

/-! `CpuStep` (R172). -/

theorem cpuStep_irq {s : State} (h : irqTaken s = true) : cpuStep s = thenDo (raiseIrq s) executeNext := by
  rw [cpuStep, if_pos h]

theorem cpuStep_plain {s : State} (h : irqTaken s = false) : cpuStep s = executeNext s := by
  simp [cpuStep, h]

/-- The interrupt is tested by the line and `I`, whatever the wait flag and the phase. -/
theorem irqTaken_awakeIn (s : State) (p : Phase) :
    irqTaken (s.awakeIn p) = (irqLine s s.current && !psrI s.cur.cpsr) := by
  rw [irqTaken, State.awakeIn_cur]
  rfl

/-- Step 3 of R172 over plain code. -/
theorem takeOpcode_plain {s : State}
    (h : plainAt s s.current (alignTo s.cur.fetchWidth s.cur.r15) .fetch = true) :
    let v := peekFrom s.cur.lastFetch s s.current (alignTo s.cur.fetchWidth s.cur.r15) s.cur.fetchWidth .fetch
    takeOpcode s =
      .next (s.cur.pipe0, s.upd fun k => { k with pipe0 := k.pipe1, pipe1 := v, lastFetch := v }) := by
  simp [takeOpcode, fetch_plain h]

/-- Step 4 of R172 where a row selects the opcode. -/
theorem dispatchOpcode_decoded {op : Word} {s : State} {i : Instr} (h : decodeOpcode s.cur.thumb op = some i) :
    dispatchOpcode op s = exec i s := by rw [dispatchOpcode, h]

/-- Settles O4: no interrupt is taken, and over plain code the three last steps of R172 are the shift, the
prefetch, `exec` and the cycle. -/
theorem stepRunsTheDecodedInstruction : Obligations.StepRunsTheDecodedInstruction := by
  unfold Obligations.StepRunsTheDecodedInstruction
  refine ⟨fun s second budget phase left behind awake masked => ?step, fun s i plain decoded => ?exec⟩
  case step =>
    have noIrq : (irqLine s s.current && !psrI s.cur.cpsr) = false := by simpa using masked
    rw [step_run phase, runStep_cpuStep second left behind awake]
    exact cpuStep_plain ((irqTaken_awakeIn s _).trans noIrq)
  case exec =>
    intro v
    have row : decodeOpcode (s.upd fun k => { k with pipe0 := k.pipe1, pipe1 := v, lastFetch := v }).cur.thumb
        s.cur.pipe0 = some i := by rw [State.upd_cur]; exact decoded
    rw [executeNext, takeOpcode_plain plain, bindVal_next, dispatchOpcode_decoded row]
    rfl

/-- Whether code is plain depends on the core that runs, the CP15 port and the boot mapping. -/
theorem codeAt_congr {s t : State} (thumb : Bool) (target : Word) (core : t.current = s.current)
    (h : t.cp15 = s.cp15) (hi : t.bootromInert = s.bootromInert) : codeAt t thumb target = codeAt s thumb target := by
  simp only [codeAt, core, plainAt_congr s.current _ _ h hi]

/-- `EnterException` into a bank with an SPSR, over plain code, does all of R504 and nothing else. -/
theorem enterException_entered {mode : BitVec 5} {offset : Word} (lr : Word) {s : State}
    (bank : bankOf mode ≠ .usr) (code : codeAt s false (exceptionBase s s.current + offset) = true) :
    ∃ t, enterException mode offset lr s = .next t ∧ Entered mode offset lr s t := by
  have arm : (s.upd (Cpu.enterMode mode lr)).cur.thumb = false := by simp [Cpu.thumb]
  have run := branchTo_plain (s := s.upd (Cpu.enterMode mode lr)) (target := exceptionBase s s.current + offset)
    (by rw [arm]; exact (codeAt_congr false _ rfl rfl rfl).trans code)
  simp only [State.upd_upd] at run
  refine ⟨_, run, ?_⟩
  constructor
  case outside => exact State.upd_eq s _
  case bytes => exact fun _ _ => rfl
  case landed =>
    have same := fun l c a w kind =>
      peekFrom_congr (s := s) (t := s.upd (Cpu.enterMode mode lr)) l c a w kind rfl rfl rfl
    change Landed (exceptionBase s s.current + offset) s _
    constructor <;> simp [Cpu.fetchWidth, Cpu.stride, Cpu.thumb, same]
  case status => simpa [KeepsStatus] using entered_keeps s.cur.cpsr mode
  all_goals rw [State.upd_cur]
  case saved => exact Cpu.enterMode_saved mode lr s.cur bank
  case link => exact Cpu.enterMode_link mode lr s.cur
  case regs => exact Cpu.enterMode_regs mode lr s.cur
  case spsr => exact Cpu.enterMode_spsr mode lr s.cur
  case waiting => exact Cpu.enterMode_waiting mode lr s.cur
  case cyc => exact Cpu.enterMode_cyc mode lr s.cur
  case modeSet | masked | armState => simp

/-- Settles O5: the step is the entry of R506 from the awakened core, then the steps that execute. -/
theorem stepTakesTheInterrupt : Obligations.StepTakesTheInterrupt := by
  unfold Obligations.StepTakesTheInterrupt
  intro s second budget phase left behind line unmasked code s1
  have taken : irqTaken s1 = true := (irqTaken_awakeIn s _).trans (by rw [line, unmasked]; rfl)
  have cur : s1.cur = { s.cur with waiting := false } := State.awakeIn_cur s _
  have link : (if s1.cur.thumb then s1.cur.r15 else s1.cur.r15 - 4) =
      if s.cur.thumb then s.cur.r15 else s.cur.r15 - 4 := by
    rw [cur]
    rfl
  obtain ⟨t, enter, entered⟩ := enterException_entered (mode := modeIrq)
    (if s1.cur.thumb then s1.cur.r15 else s1.cur.r15 - 4) (s := s1) (by decide) code
  refine ⟨t, link ▸ entered, ?_⟩
  calc step s = runStep second budget s := step_run phase
    _ = cpuStep s1 := runStep_cpuStep second left behind fun _ => line
    _ = thenDo (raiseIrq s1) executeNext := cpuStep_irq taken
    _ = executeNext t := by rw [raiseIrq, enter, thenDo_next]

/-! The target of the scheduler (R565). -/

/-- An event before another is not later. -/
theorem Event.time_le_of_before {a b : Event} (h : a.before b = true) : a.time ≤ b.time := by
  simp only [Event.before, Bool.or_eq_true, Bool.and_eq_true, decide_eq_true_eq, beq_iff_eq] at h
  obtain earlier | ⟨same, -⟩ := h
  · exact BitVec.le_of_lt earlier
  · exact same ▸ BitVec.le_refl _

/-- The head of the sorted list has the least time, so the target is the least of R565. -/
theorem Sched.targetIs_target {d : Sched} (h : d.Inv) : d.TargetIs d.target := by
  have sorted := h.sorted
  rw [Sched.target]
  cases events : d.events with
  | nil => exact ⟨.inl rfl, BitVec.le_refl _, by simp [events]⟩
  | cons e rest =>
    rw [events, List.pairwise_cons] at sorted
    have least : ∀ f ∈ d.events, e.time ≤ f.time := by
      rw [events]
      exact List.forall_mem_cons.mpr ⟨BitVec.le_refl _, fun f hf => Event.time_le_of_before (sorted.1 f hf)⟩
    change d.TargetIs (if e.time < d.horizon then e.time else d.horizon)
    split
    next first => exact ⟨.inr ⟨e, by simp [events], rfl⟩, BitVec.le_of_lt first, least⟩
    next notFirst =>
      exact ⟨.inl rfl, BitVec.le_refl _, fun f hf => BitVec.le_trans (BitVec.not_lt.mp notFirst) (least f hf)⟩

/-- There is one least time. -/
theorem Sched.TargetIs.unique {d : Sched} {t u : Cycles} (ht : d.TargetIs t) (hu : d.TargetIs u) : t = u := by
  have le : ∀ {t u : Cycles}, d.TargetIs t → d.TargetIs u → t ≤ u := by
    rintro t u ⟨-, horizon, events⟩ ⟨rfl | ⟨e, he, rfl⟩, -, -⟩
    · exact horizon
    · exact events e he
  exact BitVec.le_antisymm (le ht hu) (le hu ht)

/-! The loop of `Step(N)` (R575). -/

/-- The beginning of `Step(N)` for `N` other than 0. -/
theorem beginStep_fits {s : State} {n : Cycles} (h : n ≠ 0) (fits : s.sched.now.toNat + n.toNat < 2 ^ 64) :
    beginStep n s = .next { s with
      sched := { s.sched with horizon := s.sched.now + n }
      phase := .slice false } := by
  rw [beginStep, if_neg (Nat.not_le_of_lt fits), if_neg h]

theorem beginStep_overflows {s : State} {n : Cycles} (h : 2 ^ 64 ≤ s.sched.now.toNat + n.toNat) :
    beginStep n s = .refused .horizonOverflow := if_pos h

/-- Between two calls the host calls `Step(n)`, or `Step(quantum)` where it has no call to make (log 8). -/
theorem idleStep_step {s : State} {n : Cycles}
    (h : s.hostCalls.head? = some (.step n) ∨ (s.hostCalls = [] ∧ s.quantum = n)) :
    idleStep s = beginStep n { s with hostCalls := s.hostCalls.tail } := by
  obtain call | ⟨none, rfl⟩ := h
  · obtain ⟨rest, calls⟩ := List.head?_eq_some_iff.mp call
    rw [idleStep, calls]
    rfl
  · rw [idleStep, none]
    exact congrArg (beginStep s.quantum) (by rw [List.tail_nil, ← none])

/-- Settles O59: the call by the beginning of `Step(N)`; the slices by the model's target, which is the one least
time of R565. -/
theorem stepNGivesTheCoresTheirSlices : Obligations.StepNGivesTheCoresTheirSlices := by
  unfold Obligations.StepNGivesTheCoresTheirSlices
  refine ⟨fun s n phase hn call => ?call, fun s second t inv target => ?loop⟩
  case call =>
    rw [step_idle phase, idleStep_step call]
    exact ⟨fun fits => beginStep_fits hn fits, fun large => beginStep_overflows large⟩
  case loop =>
    intro c after
    obtain rfl : t = s.sched.target := target.unique (Sched.targetIs_target inv)
    refine ⟨fun phase => ⟨fun behind => ?given, fun ahead => ?passed⟩, fun budget phase done => ?ends⟩
    case given =>
      rw [step_slice phase]
      exact if_pos behind
    case passed =>
      rw [step_slice phase]
      exact if_neg ahead
    case ends =>
      rw [step_run phase, runStep_ends second done]
      rfl

end Sys2Proof.Machine
end

section
/-! PROOFS. Decoding the words the spec prints (30_encoding.md R120 to R153). -/
namespace Sys2Proof

/-- Settles O3: each word is closed, and its row of the opcode map is computed. -/
theorem printedWordsDecodeAsPrinted : Obligations.PrintedWordsDecodeAsPrinted := by
  unfold Obligations.PrintedWordsDecodeAsPrinted
  decide

end Sys2Proof
end

section
/-! PROOFS. Data processing, and the register forms that are refused (41_data_processing.md R210 to R235,
42_status_transfer.md R252, 43_multiply.md R271, 46_branch_misc.md R377, R380, R381, 47_thumb_a.md R444, R447). -/
namespace Sys2Proof.Machine

/-! The instructions of 41_data_processing.md, each as its shape (R210 to R215). -/

/-- What an operation gives over the operands of a shape. -/
def DataShape.result (x : DataShape) (k : Cpu) : AluResult :=
  x.op.alu (x.form.read k x.rn) (x.form.shifted k) (psrC k.cpsr)

/-- The value of the result is the arithmetic one modulo `2 ^ 32`. -/
theorem DataShape.result_value (x : DataShape) (k : Cpu) :
    (x.result k).value = x.op.value (x.form.read k x.rn) (x.form.shifted k).value (psrC k.cpsr) :=
  DataOp.alu_value ..

/-- The shared operation of each form of operand 2. -/
def DataShape.write (x : DataShape) (cond : Cond) (s : State) : Result :=
  match x.form with
  | .shiftImm imm5 ty rm => dpShiftImm x.op.alu cond x.S x.rn x.rd imm5 ty rm s
  | .shiftReg rs ty rm => dpShiftReg x.op.alu cond x.S x.rn x.rd rs ty rm s
  | .imm rot4 imm8 => dpImm x.op.alu cond x.S x.rn x.rd rot4 imm8 s

/-- The same of a comparison. -/
def DataShape.compare (x : DataShape) (cond : Cond) (s : State) : Result :=
  match x.form with
  | .shiftImm imm5 ty rm => cmpShiftImm x.op.alu cond x.rn x.rd imm5 ty rm s
  | .shiftReg rs ty rm => cmpShiftReg x.op.alu cond x.rn x.rd rs ty rm s
  | .imm rot4 imm8 => cmpImm x.op.alu cond x.rn x.rd rot4 imm8 s

/-- Under a condition that passes, a write is refused for its shift amount (R215), or ends with its result
(R210). -/
theorem DataShape.write_pass (x : DataShape) {cond : Cond} {s : State} (pass : condPass cond s.cur.cpsr = true) :
    x.write cond s = refuseIf x.form.amountInPc .shiftAmountR15 (dpFinish x.S x.rd (x.result s.cur) s) := by
  obtain ⟨op, S, rn, rd, form⟩ := x
  cases form with
  | shiftImm imm5 ty rm => simp only [DataShape.write, dpShiftImm, ifCond_pass _ pass]; rfl
  | shiftReg rs ty rm => simp only [DataShape.write, dpShiftReg, ifCond_pass _ pass]; rfl
  | imm rot4 imm8 => simp only [DataShape.write, dpImm, ifCond_pass _ pass]; rfl

theorem DataShape.compare_pass (x : DataShape) {cond : Cond} {s : State}
    (pass : condPass cond s.cur.cpsr = true) :
    x.compare cond s = refuseIf x.form.amountInPc .shiftAmountR15 (dpCompare x.rd (x.result s.cur) s) := by
  obtain ⟨op, S, rn, rd, form⟩ := x
  cases form with
  | shiftImm imm5 ty rm => simp only [DataShape.compare, cmpShiftImm, ifCond_pass _ pass]; rfl
  | shiftReg rs ty rm => simp only [DataShape.compare, cmpShiftReg, ifCond_pass _ pass]; rfl
  | imm rot4 imm8 => simp only [DataShape.compare, cmpImm, ifCond_pass _ pass]; rfl

/-- An instruction of 41_data_processing.md is the shared operation of its shape, under its condition. -/
theorem exec_dataShape {i : Instr} {x : DataShape} (s : State) (shape : dataShape? i = some x) :
    ∃ cond, i.cond? = some cond ∧ exec i s = x.write cond s := by
  cases i
  case andShiftImm | eorShiftImm | subShiftImm | rsbShiftImm | addShiftImm | adcShiftImm | sbcShiftImm |
      rscShiftImm | orrShiftImm | movShiftImm | bicShiftImm | mvnShiftImm | andShiftReg | eorShiftReg |
      subShiftReg | rsbShiftReg | addShiftReg | adcShiftReg | sbcShiftReg | rscShiftReg | orrShiftReg |
      movShiftReg | bicShiftReg | mvnShiftReg | andImm | eorImm | subImm | rsbImm | addImm | adcImm | sbcImm |
      rscImm | orrImm | movImm | bicImm | mvnImm =>
    cases shape
    exact ⟨_, rfl, rfl⟩
  all_goals cases shape

theorem exec_compareShape {i : Instr} {x : DataShape} (s : State) (shape : compareShape? i = some x) :
    ∃ cond, i.cond? = some cond ∧ exec i s = x.compare cond s := by
  cases i
  case tstShiftImm | teqShiftImm | cmpShiftImm | cmnShiftImm | tstShiftReg | teqShiftReg | cmpShiftReg |
      cmnShiftReg | tstImm | teqImm | cmpImm | cmnImm =>
    cases shape
    exact ⟨_, rfl, rfl⟩
  all_goals cases shape

theorem passes_of_cond {i : Instr} {cond : Cond} (psr : Word) (h : i.cond? = some cond) :
    i.passes psr = condPass cond psr := by rw [Instr.passes, h]

/-- Where its condition passes, the instruction is what its write is. -/
theorem exec_data {i : Instr} {x : DataShape} {s : State} (shape : dataShape? i = some x)
    (pass : i.passes s.cur.cpsr = true) :
    exec i s = refuseIf x.form.amountInPc .shiftAmountR15 (dpFinish x.S x.rd (x.result s.cur) s) := by
  obtain ⟨cond, isCond, run⟩ := exec_dataShape s shape
  rw [run, x.write_pass (passes_of_cond _ isCond ▸ pass)]

theorem exec_compare {i : Instr} {x : DataShape} {s : State} (shape : compareShape? i = some x)
    (pass : i.passes s.cur.cpsr = true) :
    exec i s = refuseIf x.form.amountInPc .shiftAmountR15 (dpCompare x.rd (x.result s.cur) s) := by
  obtain ⟨cond, isCond, run⟩ := exec_compareShape s shape
  rw [run, x.compare_pass (passes_of_cond _ isCond ▸ pass)]

section
variable {i : Instr} {x : DataShape} {s : State} (pass : i.passes s.cur.cpsr = true)
include pass

theorem exec_data_executes (shape : dataShape? i = some x) (amount : x.form.amountInPc = false) :
    exec i s = dpFinish x.S x.rd (x.result s.cur) s := by
  rw [exec_data shape pass, amount, refuseIf_false]

theorem exec_compare_executes (shape : compareShape? i = some x) (amount : x.form.amountInPc = false) :
    exec i s = dpCompare x.rd (x.result s.cur) s := by
  rw [exec_compare shape pass, amount, refuseIf_false]

end

/-- Settles O19: every operation and form ends in the one write of a result. -/
theorem dataProcessingWritesItsResult : Obligations.DataProcessingWritesItsResult := by
  unfold Obligations.DataProcessingWritesItsResult
  intro i x s shape pass rd amount a o
  rw [exec_data_executes pass shape amount]
  exact dpFinish_spec x.S x.op a o rd

/-- Settles O20: every comparison ends in the one write of flags. -/
theorem comparisonsWriteFlagsOnly : Obligations.ComparisonsWriteFlagsOnly := by
  unfold Obligations.ComparisonsWriteFlagsOnly
  intro i x s shape pass rd amount
  rw [exec_compare_executes pass shape amount]
  exact dpCompare_spec x.op _ _ rd

/-- A result for `r15` with S is the return from an exception (R213). -/
theorem dpFinish_return (a : AluResult) (s : State) : dpFinish true 15 a s = returnTo a.value s := rfl

/-- Settles O21: the branch and the return of R213, by S and by the SPSR. -/
theorem dataProcessingToPcBranchesOrReturns : Obligations.DataProcessingToPcBranchesOrReturns := by
  unfold Obligations.DataProcessingToPcBranchesOrReturns
  intro i x s shape pass rd amount r
  have value : (x.result s.cur).value = r := x.result_value s.cur
  have run := exec_data_executes pass shape amount
  rw [rd] at run
  refine ⟨fun S code => ?branch, fun S spsr saved => ⟨fun valid code => ?returns, fun invalid => ?panics⟩,
    fun S noSpsr => ?refused⟩
  all_goals rw [run, S]
  case branch =>
    have branch := dpFinish_branch (x.result s.cur) (value ▸ code)
    rwa [value] at branch
  all_goals rw [dpFinish_return, value]
  case returns =>
    obtain ⟨t, returned, -, frame⟩ := returnTo_spec saved valid code
    exact ⟨t, returned, frame⟩
  case panics => exact returnTo_invalid r saved invalid
  case refused => exact returnTo_none r noSpsr

/-! The register forms that are refused. -/

/-- A register refused by an instruction whose condition passes, on either core or on ARM9. -/
theorem ifCond_refused {cond : Cond} {s : State} {p : Bool} {r : Refusal} {k : State → Result}
    (pass : condPass cond s.cur.cpsr = true) (refused : p = true) :
    (ifCond cond s fun s => refuseIf p r (k s)) = .refused r := by
  rw [ifCond_pass _ pass, refused, refuseIf_true]

theorem ifCond_onArm9_refused {cond : Cond} {s : State} {p : Bool} {r : Refusal} {k : State → Result}
    (pass : condPass cond s.cur.cpsr = true) (arm9 : s.current = .arm9) (refused : p = true) :
    (ifCond cond s fun s => onArm9 s fun s => refuseIf p r (k s)) = .refused r := by
  rw [ifCond_pass _ pass, onArm9_arm9 _ arm9, refused, refuseIf_true]

theorem low_ne_pc (r : LowReg) : low r ≠ 15 := by revert r; decide

/-! The multiplies test the registers they name for `r15` (R271). -/

theorem any_isPc_iff {regs : List Reg} : regs.any isPc = true ↔ (15 : Reg) ∈ regs := by simp [isPc]

theorem isPc_three (a b c : Reg) : (isPc a || isPc b || isPc c) = [a, b, c].any isPc := by simp [Bool.or_assoc]

theorem isPc_four (a b c d : Reg) : (isPc a || isPc b || isPc c || isPc d) = [a, b, c, d].any isPc := by
  simp [Bool.or_assoc]

/-- A 32-bit result; the Thumb form names low registers only. -/
theorem exec_mul_pc {i : Instr} {x : MulShape} {s : State} (shape : mulShape? i = some x)
    (pass : i.passes s.cur.cpsr = true) (pc : (15 : Reg) ∈ x.regs) : exec i s = .refused .multiplyR15 := by
  cases i
  case mul => cases shape; exact ifCond_refused pass ((isPc_three ..).trans (any_isPc_iff.mpr pc))
  case mla => cases shape; exact ifCond_refused pass ((isPc_four ..).trans (any_isPc_iff.mpr pc))
  case tMul rs rd =>
    cases shape
    have notPc : ∀ r ∈ [low rd, low rs], r ≠ 15 :=
      List.forall_mem_cons.mpr ⟨low_ne_pc rd, List.forall_mem_singleton.mpr (low_ne_pc rs)⟩
    exact absurd rfl (notPc 15 pc)
  all_goals cases shape

/-- Halfword operands and a 32-bit result. -/
theorem exec_halfMul_pc {i : Instr} {x : HalfMulShape} {s : State} (shape : halfMulShape? i = some x)
    (pass : i.passes s.cur.cpsr = true) (arm9 : s.current = .arm9) (pc : (15 : Reg) ∈ x.regs) :
    exec i s = .refused .multiplyR15 := by
  cases i
  case smlaXY | smlaWY =>
    cases shape
    exact ifCond_onArm9_refused pass arm9 ((isPc_four ..).trans (any_isPc_iff.mpr pc))
  case smulWY | smulXY =>
    cases shape
    exact ifCond_onArm9_refused pass arm9 ((isPc_three ..).trans (any_isPc_iff.mpr pc))
  all_goals cases shape

/-- A 64-bit result: the test for `r15` stands before that for equal halves (log 19). -/
theorem longMultiply_guards {cond : Cond} {s : State} (signed accumulate S : Bool) (hi lo rs rm : Reg)
    (pass : condPass cond s.cur.cpsr = true) :
    ∃ k, longMultiply signed accumulate cond S hi lo rs rm s =
      refuseIf ([hi, lo, rs, rm].any isPc) .multiplyR15 (refuseIf (hi == lo) .multiplySameHiLo k) := by
  rw [longMultiply, ifCond_pass _ pass, isPc_four]
  exact ⟨_, rfl⟩

theorem execSmlalXY_guards {cond : Cond} {s : State} (hi lo rs : Reg) (y x : Bool) (rm : Reg)
    (pass : condPass cond s.cur.cpsr = true) (arm9 : s.current = .arm9) :
    ∃ k, execSmlalXY cond hi lo rs y x rm s =
      refuseIf ([hi, lo, rs, rm].any isPc) .multiplyR15 (refuseIf (hi == lo) .multiplySameHiLo k) := by
  rw [execSmlalXY, ifCond_pass _ pass, onArm9_arm9 _ arm9, isPc_four]
  exact ⟨_, rfl⟩

theorem exec_long_guards {i : Instr} {x : LongShape} {s : State} (shape : longShape? i = some x)
    (pass : i.passes s.cur.cpsr = true) (core : x.arm9 = true → s.current = .arm9) :
    ∃ k, exec i s = refuseIf (x.regs.any isPc) .multiplyR15 (refuseIf (x.hi == x.lo) .multiplySameHiLo k) := by
  cases i
  case umull | umlal | smull | smlal => cases shape; exact longMultiply_guards _ _ _ _ _ _ _ pass
  case smlalXY => cases shape; exact execSmlalXY_guards _ _ _ _ _ _ pass (core rfl)
  all_goals cases shape

/-- The saturating instructions (46_branch_misc.md R381). -/
theorem exec_saturating_pc {i : Instr} {x : SatShape} {s : State} (shape : satShape? i = some x)
    (pass : i.passes s.cur.cpsr = true) (arm9 : s.current = .arm9) (pc : x.rn = 15 ∨ x.rd = 15 ∨ x.rm = 15) :
    exec i s = .refused .saturatingR15 := by
  have named : (isPc x.rn || isPc x.rd || isPc x.rm) = true := by simpa [isPc, or_assoc] using pc
  cases i
  case qadd | qsub | qdadd | qdsub => cases shape; exact ifCond_onArm9_refused pass arm9 named
  all_goals cases shape

/-- Settles O30: each form is the guard of its instruction. -/
theorem refusedRegisterFormsStop : Obligations.RefusedRegisterFormsStop := by
  unfold Obligations.RefusedRegisterFormsStop
  refine ⟨?amount, ?compare, fun _ _ => rfl, ?mrs, fun _ _ _ => exec_mul_pc, ?long,
    fun _ _ _ => exec_halfMul_pc, ?clz, fun _ _ _ => exec_saturating_pc,
    fun _ _ pass arm9 => ifCond_onArm9_refused pass arm9 rfl,
    fun s arm9 => (onArm9_arm9 _ arm9 : execTBlxReg 15 s = _)⟩
  case amount =>
    rintro i x s (shape | shape) pass amount
    · rw [exec_data shape pass, amount, refuseIf_true]
    · rw [exec_compare shape pass, amount, refuseIf_true]
  case compare =>
    intro i x s shape pass amount rd
    rw [exec_compare_executes pass shape amount, rd]
    rfl
  case mrs => exact fun cond R s pass => (ifCond_pass _ pass : execMrs cond R 15 s = _)
  case long =>
    intro i x s shape pass core
    obtain ⟨k, run⟩ := exec_long_guards shape pass core
    refine ⟨fun pc => ?pc, fun notPc same => ?same⟩
    case pc => rw [run, any_isPc_iff.mpr pc, refuseIf_true]
    case same =>
      rw [run, Bool.eq_false_iff.mpr (mt any_isPc_iff.mp notPc), refuseIf_false, same, beq_self_eq_true,
        refuseIf_true]
  case clz =>
    intro cond rd rm s pass arm9 pc
    exact ifCond_onArm9_refused pass arm9 (by simpa [isPc] using pc)

end Sys2Proof.Machine
end

section
/-! PROOFS. Status transfer: MRS and MSR (42_status_transfer.md R251 to R260). -/
namespace Sys2Proof.Machine

/-! MRS (R252). -/

/-- Writing one register and advancing past an ARM instruction. -/
theorem finishArm_setReg_spec {s : State} {rd : Reg} (v : Word) (h : rd ≠ 15) :
    ∃ t, finishArm (fun k => k.setReg rd v) s = .next t ∧ t.cur.reg rd = v ∧
      RegisterFrame [s.slotOf rd] 0 4 s t := by
  refine ⟨_, ?_, plainWrite_spec v 4 h⟩
  simp only [finishArm_eq_upd, Cpu.setReg_r15]

theorem psrValue_spsr {s : State} {v : Word} (h : s.cur.spsrAt s.cur.bank = some v) :
    psrValue true s = (v, s) := by simp [psrValue, h]

theorem psrValue_noSpsr {s : State} (h : s.cur.spsrAt s.cur.bank = none) : psrValue true s = draw s := by
  simp [psrValue, h]

/-- Where its condition passes, MRS writes the status value to a register other than `r15`, in the state in
which reading that value leaves the machine. -/
theorem exec_mrs_spec {cond : Cond} {R : Bool} {rd : Reg} {s s1 : State} {v : Word}
    (pass : condPass cond s.cur.cpsr = true) (hrd : rd ≠ 15) (read : psrValue R s = (v, s1)) :
    ∃ t, exec (.mrs cond R rd) s = .next t ∧ t.cur.reg rd = v ∧ RegisterFrame [s1.slotOf rd] 0 4 s1 t := by
  have run : exec (.mrs cond R rd) s = finishArm (fun k => k.setReg rd v) s1 := by
    change execMrs cond R rd s = _
    rw [execMrs, ifCond_pass _ pass, isPc_eq_false hrd, refuseIf_false, read]
  rw [run]
  exact finishArm_setReg_spec v hrd

/-- Settles O22: one write of the value read, by the three sources of R252. -/
theorem mrsCopiesTheStatusWord : Obligations.MrsCopiesTheStatusWord := by
  unfold Obligations.MrsCopiesTheStatusWord
  exact fun cond rd s pass hrd =>
    ⟨exec_mrs_spec pass hrd rfl, fun v saved => exec_mrs_spec pass hrd (psrValue_spsr saved),
      fun noSpsr => exec_mrs_spec pass hrd (psrValue_noSpsr noSpsr)⟩

/-! The lanes of a mask (R251). -/

theorem cpsrLanes_eq (psr : Word) (mask : BitVec 4) : cpsrLanes psr mask = statusLanes psr mask := by
  rw [cpsrLanes, statusLanes, laneBits_eq]

/-- The control lane is whole or absent. -/
theorem lanesOf_control (mask : BitVec 4) : lanesOf mask &&& 0xFF = 0 ∨ lanesOf mask &&& 0xFF = 0xFF := by
  revert mask; decide

theorem lanesOf_flags_control (mask : BitVec 4) : lanesOf mask &&& 0xFF000000 &&& 0xFF = 0 := by
  revert mask; decide

/-- The control lane of CPSR is written outside User mode only. -/
theorem statusLanes_control_iff {psr : Word} {mask : BitVec 4} :
    statusLanes psr mask &&& 0xFF ≠ 0 ↔ modeOf psr ≠ modeUser ∧ lanesOf mask &&& 0xFF ≠ 0 := by
  rw [statusLanes]
  by_cases user : modeOf psr = modeUser
  · rw [if_pos user, lanesOf_flags_control]
    exact iff_of_false (· rfl) (·.1 user)
  · rw [if_neg user, and_iff_right user]

theorem statusLanes_control {psr : Word} {mask : BitVec 4} (h : statusLanes psr mask &&& 0xFF ≠ 0) :
    statusLanes psr mask &&& 0xFF = 0xFF := by
  obtain ⟨privileged, control⟩ := statusLanes_control_iff.mp h
  rw [statusLanes, if_neg privileged]
  exact (lanesOf_control mask).resolve_left control

/-- Outside its lanes a merge keeps the old value. -/
theorem mergeLanes_keeps (old v lanes : Word) : mergeLanes old v lanes &&& ~~~lanes = old &&& ~~~lanes := by
  ext i hi
  simp only [mergeLanes, BitVec.getElem_and, BitVec.getElem_or, BitVec.getElem_not]
  cases lanes[i] <;> simp

/-- Inside its lanes a merge reads the source. -/
theorem getLsbD_mergeLanes (old v : Word) {lanes : Word} {i : Nat} (h : lanes.getLsbD i = true) :
    (mergeLanes old v lanes).getLsbD i = v.getLsbD i := by
  simp [mergeLanes, h]

/-- A control lane that is written puts the mode and `T` of the source there. -/
theorem mergeLanes_control (old v : Word) {lanes : Word} (control : lanes &&& 0xFF = 0xFF) :
    modeOf (mergeLanes old v lanes) = modeOf v ∧ psrT (mergeLanes old v lanes) = psrT v := by
  have low : ∀ i, i < 8 → (0xFF : Word).getLsbD i = true := by decide
  have inLane : ∀ i, i < 8 → lanes.getLsbD i = true := fun i hi => by
    have bit := low i hi
    rw [← control, BitVec.getLsbD_and, Bool.and_eq_true] at bit
    exact bit.1
  refine ⟨BitVec.eq_of_getLsbD_eq fun i hi => ?mode, getLsbD_mergeLanes old v (inLane 5 (by decide))⟩
  case mode =>
    simp only [modeOf, BitVec.getLsbD_extractLsb', Nat.zero_add,
      getLsbD_mergeLanes old v (inLane i (by omega))]

/-! `WritePSR` to CPSR, by what the control lane of the source holds (R251). -/

/-- CPSR with the lanes of the mask that the mode lets through replaced. -/
def State.mergedStatus (s : State) (mask : BitVec 4) (v : Word) : Word :=
  mergeLanes s.cur.cpsr v (statusLanes s.cur.cpsr mask)

section
variable {mask : BitVec 4} {v : Word} {s : State}

/-- Where the control lane is written, the tests of `WritePSR` see the mode and `T` of the source. -/
theorem State.mergedStatus_control (control : statusLanes s.cur.cpsr mask &&& 0xFF ≠ 0) :
    modeOf (s.mergedStatus mask v) = modeOf v ∧ psrT (s.mergedStatus mask v) = psrT v :=
  mergeLanes_control s.cur.cpsr v (statusLanes_control control)

/-- The tests of `WritePSR`, on the merged word. -/
theorem writeCpsr_eq : writeCpsr mask v s =
    if statusLanes s.cur.cpsr mask &&& 0xFF ≠ 0 ∧ validMode (modeOf (s.mergedStatus mask v)) = false then
      .fault .invalidMode
    else if statusLanes s.cur.cpsr mask &&& 0xFF ≠ 0 ∧ psrT (s.mergedStatus mask v) ≠ psrT s.cur.cpsr then
      .refused .msrChangesT
    else .next (s.upd fun k => { k with cpsr := s.mergedStatus mask v }) := by
  rw [writeCpsr, cpsrLanes_eq]
  rfl

theorem writeCpsr_next
    (ok : statusLanes s.cur.cpsr mask &&& 0xFF ≠ 0 → validMode (modeOf v) = true ∧ psrT v = psrT s.cur.cpsr) :
    writeCpsr mask v s = .next (s.upd fun k => { k with cpsr := s.mergedStatus mask v }) := by
  rw [writeCpsr_eq, if_neg, if_neg]
  · rintro ⟨control, changes⟩
    exact changes ((State.mergedStatus_control control).2.trans (ok control).2)
  · rintro ⟨control, invalid⟩
    rw [(State.mergedStatus_control control).1, (ok control).1] at invalid
    cases invalid

theorem writeCpsr_invalid (control : statusLanes s.cur.cpsr mask &&& 0xFF ≠ 0)
    (invalid : validMode (modeOf v) = false) : writeCpsr mask v s = .fault .invalidMode := by
  rw [writeCpsr_eq, (State.mergedStatus_control control).1]
  exact if_pos ⟨control, invalid⟩

theorem writeCpsr_changesT (control : statusLanes s.cur.cpsr mask &&& 0xFF ≠ 0)
    (valid : validMode (modeOf v) = true) (changes : psrT v ≠ psrT s.cur.cpsr) :
    writeCpsr mask v s = .refused .msrChangesT := by
  obtain ⟨sameMode, sameT⟩ := State.mergedStatus_control (v := v) control
  rw [writeCpsr_eq, sameMode, sameT, if_neg (by simp [valid]), if_pos ⟨control, changes⟩]

end

/-! `WritePSR` to the SPSR of the bank (R251, 10_state.md R35). -/

theorem writeSpsr_some {mask : BitVec 4} {v old : Word} {s : State} (h : s.cur.spsrAt s.cur.bank = some old) :
    writeSpsr mask v s = s.upd fun k => k.setSpsrAt k.bank (mergeLanes old v (lanesOf mask)) := by
  simp only [writeSpsr, h, laneBits_eq]

theorem writeSpsr_none {mask : BitVec 4} {v : Word} {s : State} (h : s.cur.spsrAt s.cur.bank = none) :
    writeSpsr mask v s = s := by
  simp only [writeSpsr, h]

/-- The User bank has no SPSR. -/
theorem Cpu.bank_ne_usr_of_spsrAt {k : Cpu} {b : Bank} {old : Word} (h : k.spsrAt b = some old) : b ≠ .usr := by
  rintro rfl
  cases h

/-- Writing an SPSR changes the SPSRs only. -/
theorem Cpu.setSpsrAt_eq (k : Cpu) (b : Bank) (v : Word) :
    k.setSpsrAt b v = { k with spsr := (k.setSpsrAt b v).spsr } := by
  unfold Cpu.setSpsrAt
  split <;> rfl

/-! MSR (R254, R255). -/

/-- Both forms, where the condition passes: `WritePSR` of the source. -/
theorem exec_msr {i : Instr} {R : Bool} {mask : BitVec 4} {val : Cpu → Word} {s : State}
    (shape : msrShape? i = some (R, mask, val)) (pass : i.passes s.cur.cpsr = true) :
    exec i s = writePsr R mask (val s.cur) s := by
  cases i
  case msrReg | msrImm => cases shape; exact ifCond_pass _ pass
  all_goals cases shape

theorem writePsr_cpsr (mask : BitVec 4) (v : Word) (s : State) :
    writePsr false mask v s = thenDo (writeCpsr mask v s) fun s1 => .next (advanceArm s1) := rfl

theorem writePsr_spsr (mask : BitVec 4) (v : Word) (s : State) :
    writePsr true mask v s = .next (advanceArm (writeSpsr mask v s)) := rfl

/-- A write of CPSR that completes: the lanes merged, and the frame. -/
theorem writePsr_cpsr_spec {mask : BitVec 4} {v : Word} {s : State}
    (ok : statusLanes s.cur.cpsr mask &&& 0xFF ≠ 0 → validMode (modeOf v) = true ∧ psrT v = psrT s.cur.cpsr) :
    ∃ t, writePsr false mask v s = .next t ∧
      t.cur.cpsr = s.mergedStatus mask v ∧ RegisterFrame [] (statusLanes s.cur.cpsr mask) 4 s t := by
  have run : writePsr false mask v s = .next (s.upd fun k =>
      { k with cpsr := s.mergedStatus mask v, r15 := k.r15 + 4 }) := by
    rw [writePsr_cpsr, writeCpsr_next ok, thenDo_next, advanceArm, State.upd_upd]
  refine ⟨_, run, by rw [State.upd_cur], ?frame⟩
  case frame =>
    apply finish_frame
    case psr => exact mergeLanes_keeps ..
    all_goals simp

/-- A write of the SPSR of a bank that has one: the lanes merged, the other SPSRs and the rest as before. -/
theorem writePsr_spsr_spec {mask : BitVec 4} {v old : Word} {s : State}
    (saved : s.cur.spsrAt s.cur.bank = some old) :
    ∃ t, writePsr true mask v s = .next t ∧
      t.cur.spsrAt s.cur.bank = some (mergeLanes old v (lanesOf mask)) ∧
      (∀ j, some j ≠ spsrSlot s.cur.bank → t.cur.spsr[j] = s.cur.spsr[j]) ∧
      t = s.upd (fun k => { k with r15 := k.r15 + 4, spsr := t.cur.spsr }) ∧ SameBytes s t := by
  have run : writePsr true mask v s = .next (s.upd fun k =>
      { k with r15 := k.r15 + 4, spsr := (k.setSpsrAt k.bank (mergeLanes old v (lanesOf mask))).spsr }) := by
    rw [writePsr_spsr, writeSpsr_some saved, advanceArm, State.upd_upd]
    refine congrArg _ (State.upd_congr ?_)
    rw [Cpu.setSpsrAt_eq]
  refine ⟨_, run, ?merged, fun j other => ?others, ?rest, fun _ _ => rfl⟩
  all_goals rw [State.upd_cur]
  case merged => exact Cpu.spsrAt_setSpsrAt s.cur _ (Cpu.bank_ne_usr_of_spsrAt saved)
  case others => exact Cpu.setSpsrAt_other s.cur _ _ j other
  case rest => exact State.upd_congr rfl

/-- Settles O23: `WritePSR` by its clauses; CPSR by the control lane, the SPSR by the bank. -/
theorem msrWritesTheLanesOfItsMask : Obligations.MsrWritesTheLanesOfItsMask := by
  unfold Obligations.MsrWritesTheLanesOfItsMask
  intro i R mask val s shape pass v lanes
  rw [exec_msr shape pass]
  refine ⟨?cpsr, ?invalid, ?changesT, ?spsr, ?noSpsr⟩
  case cpsr =>
    rintro rfl ok
    exact writePsr_cpsr_spec ok
  case invalid =>
    rintro rfl control invalid
    rw [writePsr_cpsr, writeCpsr_invalid control invalid, thenDo_fault]
  case changesT =>
    rintro rfl control valid changes
    rw [writePsr_cpsr, writeCpsr_changesT control valid changes, thenDo_refused]
  case spsr =>
    rintro rfl old saved
    exact writePsr_spsr_spec saved
  case noSpsr =>
    rintro rfl noSpsr
    rw [writePsr_spsr, writeSpsr_none noSpsr, advanceArm]

/-- Settles O24: the MSR completes by R251, and the MRS after it reads the merged status word. -/
theorem mrsAfterMsrReadsBackTheLanes : Obligations.MrsAfterMsrReadsBackTheLanes := by
  unfold Obligations.MrsAfterMsrReadsBackTheLanes
  intro i mask val rd s shape pass hrd ok
  have completes : statusLanes s.cur.cpsr mask &&& 0xFF ≠ 0 →
      validMode (modeOf (val s.cur)) = true ∧ psrT (val s.cur) = psrT s.cur.cpsr := fun control =>
    have ⟨privileged, written⟩ := statusLanes_control_iff.mp control
    ok privileged written
  obtain ⟨t, write, merged, -⟩ := writePsr_cpsr_spec completes
  obtain ⟨u, read, copied, -⟩ := exec_mrs_spec (cond := .al) (s := t) rfl hrd rfl
  exact ⟨t, u, (exec_msr shape pass).trans write, read, copied.trans merged⟩

end Sys2Proof.Machine
end

section
/-! PROOFS. The multiplies (43_multiply.md R270 to R284, 47_thumb_a.md R439). -/
namespace Sys2Proof.Machine

/-! Products as numbers and as words. -/

theorem product32_zero (a b : Word) : product32 a b 0 = a * b := BitVec.add_zero _

/-- The 64-bit product of the integers is that of the extended words (R189). -/
theorem product64_eq_wideProduct (signed : Bool) (a b : Word) :
    product64 signed a b = wideProduct signed a b := by
  cases signed with
  | false =>
    change BitVec.ofNat 64 (a.toNat * b.toNat) = a.setWidth 64 * b.setWidth 64
    rw [BitVec.ofNat_mul, BitVec.ofNat_toNat, BitVec.ofNat_toNat]
  | true => exact BitVec.ofInt_mul a.toInt b.toInt

/-- The signed half of R279, extended, is the half as an integer, wrapped. -/
theorem ofInt_halfOf (n : Nat) (v : Word) (top : Bool) : BitVec.ofInt n (halfOf v top) = signedHalf n v top := by
  cases top <;> rfl

/-- A product of two halves, wrapped to any width, is that of the halves extended to it (R280). -/
theorem ofInt_halfProduct (n : Nat) (k : Cpu) (rm rs : Reg) (x y : Bool) :
    BitVec.ofInt n (halfProduct k rm rs x y) = signedHalf n (k.reg rm) x * signedHalf n (k.reg rs) y := by
  rw [halfProduct, BitVec.ofInt_mul, ofInt_halfOf, ofInt_halfOf]

/-- Bits 47:16 of a wrapped integer are its quotient by `2 ^ 16`, wrapped. -/
theorem extract_ofInt_64 (i : Int) : (BitVec.ofInt 64 i).extractLsb' 16 32 = BitVec.ofInt 32 (i / 65536) := by
  apply BitVec.eq_of_toNat_eq
  rw [BitVec.extractLsb'_toNat, BitVec.toNat_ofInt, BitVec.toNat_ofInt, Nat.shiftRight_eq_div_pow]
  omega

/-- The product of a word and a half, cut to bits 47:16 (R281). -/
theorem wordHalfProduct_eq (k : Cpu) (rm rs : Reg) (y : Bool) :
    wordHalfProduct k rm rs y =
      ((k.reg rm).signExtend 64 * signedHalf 64 (k.reg rs) y).extractLsb' 16 32 := by
  rw [wordHalfProduct, ← extract_ofInt_64, BitVec.ofInt_mul, ofInt_halfOf]
  rfl

/-- The adder without a carry in gives the wrapped sum. -/
theorem addWithCarry_value (a b : Word) : (addWithCarry a b false).value = a + b :=
  DataOp.alu_value .add a ⟨b, false⟩ false

/-- Its overflow says that the exact signed sum does not fit. -/
theorem addWithCarry_overflows (a b : Word) : ((addWithCarry a b false).overflow == some true) =
    decide (a.toInt + b.toInt < -2 ^ 31 ∨ 2 ^ 31 ≤ a.toInt + b.toInt) := by
  simp [addWithCarry_overflow]

/-! The guards, where they let a multiply through (R271). -/

theorem any_isPc_eq_false {regs : List Reg} (legal : ∀ r ∈ regs, r ≠ 15) : regs.any isPc = false :=
  Bool.eq_false_iff.mpr fun pc => legal 15 (any_isPc_iff.mp pc) rfl

theorem isPc_three_eq_false {a b c : Reg} (legal : ∀ r ∈ [a, b, c], r ≠ 15) :
    (isPc a || isPc b || isPc c) = false := (isPc_three a b c).trans (any_isPc_eq_false legal)

theorem isPc_four_eq_false {a b c d : Reg} (legal : ∀ r ∈ [a, b, c, d], r ≠ 15) :
    (isPc a || isPc b || isPc c || isPc d) = false := (isPc_four a b c d).trans (any_isPc_eq_false legal)

section
variable {cond : Cond} {s : State} {p : Bool} {r : Refusal} {k : State → Result}
  (pass : condPass cond s.cur.cpsr = true)
include pass

theorem ifCond_allowed (allowed : p = false) : (ifCond cond s fun s => refuseIf p r (k s)) = k s := by
  rw [ifCond_pass _ pass, allowed, refuseIf_false]

theorem ifCond_onArm9_allowed (arm9 : s.current = .arm9) (allowed : p = false) :
    (ifCond cond s fun s => onArm9 s fun s => refuseIf p r (k s)) = k s := by
  rw [ifCond_pass _ pass, onArm9_arm9 _ arm9, allowed, refuseIf_false]

end

/-! The ends of the multiplies. -/

/-- Only the value of a change at the core that runs counts. -/
theorem finishArm_congr {s : State} {f g : Cpu → Cpu} (h : f s.cur = g s.cur) :
    finishArm f s = finishArm g s := by rw [finishArm, finishArm, State.upd_congr h]

@[simp] theorem Cpu.writeProduct_r15 (k : Cpu) (S : Bool) (rd : Reg) (v : Word) :
    (k.writeProduct S rd v).r15 = k.r15 := by unfold Cpu.writeProduct; split <;> simp

@[simp] theorem Cpu.writeLong_r15 (k : Cpu) (S : Bool) (hi lo : Reg) (v : BitVec 64) :
    (k.writeLong S hi lo v).r15 = k.r15 := by unfold Cpu.writeLong; split <;> simp

section
variable (S : Bool) (rd : Reg) (v : Cpu → Word) (s : State)

/-- A 32-bit result in ARM state, its operands read before. -/
theorem finishArm_writeProduct : finishArm (fun k => k.writeProduct S rd (v k)) s =
    .next (s.upd fun k => { k.writeProduct S rd (v s.cur) with r15 := k.r15 + 4 }) := by
  rw [finishArm_eq_upd]
  exact congrArg _ (State.upd_congr (by simp only [Cpu.writeProduct_r15]))

/-- The same in Thumb state. -/
theorem finishThumb_writeProduct : finishThumb (fun k => k.writeProduct S rd (v k)) s =
    .next (s.upd fun k => { k.writeProduct S rd (v s.cur) with r15 := k.r15 + 2 }) := by
  rw [finishThumb, advanceThumb, State.upd_upd]
  exact congrArg _ (State.upd_congr (by simp only [Cpu.writeProduct_r15]))

end

/-- A 64-bit result. -/
theorem finishArm_writeLong_spec {s : State} {hi lo : Reg} (S : Bool) (p : BitVec 64) (hh : hi ≠ 15)
    (hl : lo ≠ 15) (ne : hi ≠ lo) :
    ∃ t, finishArm (fun k => k.writeLong S hi lo p) s = .next t ∧
      t.cur.reg lo = p.extractLsb' 0 32 ∧ t.cur.reg hi = p.extractLsb' 32 32 ∧
      (S = true → psrN t.cur.cpsr = p.msb ∧ psrZ t.cur.cpsr = decide (p = 0)) ∧
      RegisterFrame [s.slotOf hi, s.slotOf lo] (if S then bitsNZ else 0) 4 s t := by
  refine ⟨_, ?_, writeLong_spec S p hh hl ne⟩
  simp only [finishArm_eq_upd, Cpu.writeLong_r15]

/-- An accumulated 32-bit result: the wrapped sum, and Q where the signed sum does not fit (R279). -/
theorem finishArm_accumulateQ_spec {s : State} {rd : Reg} (p acc : Word) (h : rd ≠ 15) :
    ∃ t, finishArm (fun k => k.accumulateQ rd p acc) s = .next t ∧ t.cur.reg rd = p + acc ∧
      psrQ t.cur.cpsr = (psrQ s.cur.cpsr ||
        decide (p.toInt + acc.toInt < -2 ^ 31 ∨ 2 ^ 31 ≤ p.toInt + acc.toInt)) ∧
      RegisterFrame [s.slotOf rd] bitQ 4 s t := by
  refine ⟨_, ?_, stickyWrite_spec (p + acc) _ h⟩
  simp only [finishArm_eq_upd, Cpu.accumulateQ, addWithCarry_value, addWithCarry_overflows, Cpu.setReg_r15,
    Cpu.setReg_cpsr]

/-! 32-bit results (R272, R273, R439). -/

/-- A multiply with a 32-bit result writes the value of its shape and advances. -/
theorem exec_mul {i : Instr} {x : MulShape} {s : State} (shape : mulShape? i = some x)
    (pass : i.passes s.cur.cpsr = true) (legal : ∀ r ∈ x.regs, r ≠ 15) :
    exec i s = .next (s.upd fun k => { k.writeProduct x.S x.rd (x.value s.cur) with r15 := k.r15 + x.width }) := by
  cases i
  case mul =>
    cases shape
    refine (ifCond_allowed pass (isPc_three_eq_false legal)).trans ((finishArm_writeProduct ..).trans ?_)
    simp only [product32_zero]
  case mla =>
    cases shape
    exact (ifCond_allowed pass (isPc_four_eq_false legal)).trans (finishArm_writeProduct ..)
  case tMul =>
    cases shape
    refine (finishThumb_writeProduct ..).trans ?_
    simp only [product32_zero]
  all_goals cases shape

/-- A shape names its destination among its registers. -/
theorem mulShape_rd_mem {i : Instr} {x : MulShape} (shape : mulShape? i = some x) : x.rd ∈ x.regs := by
  cases i
  case mul | mla | tMul => cases shape; exact List.mem_cons_self
  all_goals cases shape

/-- Settles O26: each form ends in the one write of a 32-bit product. -/
theorem multipliesWriteTheProduct : Obligations.MultipliesWriteTheProduct := by
  unfold Obligations.MultipliesWriteTheProduct
  intro i x s shape pass legal
  exact ⟨_, exec_mul shape pass legal,
    writeProduct_spec x.S (x.value s.cur) x.width (legal x.rd (mulShape_rd_mem shape))⟩

/-! 64-bit results (R274 to R277, R283). -/

/-- The long multiplies of both cores. -/
theorem longMultiply_legal {cond : Cond} {s : State} {hi lo rs rm : Reg} (signed accumulate S : Bool)
    (pass : condPass cond s.cur.cpsr = true) (legal : ∀ r ∈ [hi, lo, rs, rm], r ≠ 15) (ne : hi ≠ lo) :
    longMultiply signed accumulate cond S hi lo rs rm s =
      finishArm (fun k => k.writeLong S hi lo (wideProduct signed (s.cur.reg rm) (s.cur.reg rs) +
        if accumulate then s.cur.reg hi ++ s.cur.reg lo else 0)) s := by
  refine (ifCond_allowed pass (isPc_four_eq_false legal)).trans ?_
  rw [beq_false_of_ne ne, refuseIf_false]
  exact finishArm_congr (by rw [product64_eq_wideProduct]; rfl)

/-- SMLALxy accumulates the product of two halves. -/
theorem execSmlalXY_legal {cond : Cond} {s : State} {hi lo rs rm : Reg} (y x : Bool)
    (pass : condPass cond s.cur.cpsr = true) (arm9 : s.current = .arm9)
    (legal : ∀ r ∈ [hi, lo, rs, rm], r ≠ 15) (ne : hi ≠ lo) :
    execSmlalXY cond hi lo rs y x rm s = finishArm (fun k => k.writeLong false hi lo
      (signedHalf 64 (s.cur.reg rm) x * signedHalf 64 (s.cur.reg rs) y + (s.cur.reg hi ++ s.cur.reg lo))) s := by
  refine (ifCond_onArm9_allowed pass arm9 (isPc_four_eq_false legal)).trans ?_
  rw [beq_false_of_ne ne, refuseIf_false]
  exact finishArm_congr (by rw [ofInt_halfProduct]; rfl)

/-- A multiply with a 64-bit result writes the value of its shape. -/
theorem exec_long {i : Instr} {x : LongShape} {s : State} (shape : longShape? i = some x)
    (pass : i.passes s.cur.cpsr = true) (core : x.arm9 = true → s.current = .arm9)
    (legal : ∀ r ∈ x.regs, r ≠ 15) (ne : x.hi ≠ x.lo) :
    exec i s = finishArm (fun k => k.writeLong x.S x.hi x.lo (x.value s.cur)) s := by
  cases i
  case umull | smull =>
    cases shape
    exact (longMultiply_legal _ false _ pass legal ne).trans (finishArm_congr (congrArg _ (BitVec.add_zero _)))
  case umlal | smlal => cases shape; exact longMultiply_legal _ true _ pass legal ne
  case smlalXY => cases shape; exact execSmlalXY_legal _ _ pass (core rfl) legal ne
  all_goals cases shape

/-- A shape names its two halves among its registers. -/
theorem longShape_hi_lo_mem {i : Instr} {x : LongShape} (shape : longShape? i = some x) :
    x.hi ∈ x.regs ∧ x.lo ∈ x.regs := by
  cases i
  case umull | umlal | smull | smlal | smlalXY =>
    cases shape
    exact ⟨List.mem_cons_self, List.mem_cons_of_mem _ List.mem_cons_self⟩
  all_goals cases shape

/-- Settles O27: each form ends in the one write of a 64-bit product. -/
theorem longMultipliesWriteBothHalves : Obligations.LongMultipliesWriteBothHalves := by
  unfold Obligations.LongMultipliesWriteBothHalves
  intro i x s shape pass core legal ne p
  obtain ⟨hi, lo⟩ := longShape_hi_lo_mem shape
  rw [exec_long shape pass core legal ne]
  exact finishArm_writeLong_spec x.S p (legal x.hi hi) (legal x.lo lo) ne

/-! Halfword operands and a 32-bit result (R280 to R282, R284). -/

/-- How a halfword multiply ends: the product alone, or accumulated. -/
def HalfMulShape.write (x : HalfMulShape) (k0 k : Cpu) : Cpu :=
  match x.acc with
  | none => k.setReg x.rd (x.product k0)
  | some rn => k.accumulateQ x.rd (x.product k0) (k0.reg rn)

/-- A halfword multiply ends as its shape says, its operands read before. -/
theorem exec_halfMul {i : Instr} {x : HalfMulShape} {s : State} (shape : halfMulShape? i = some x)
    (pass : i.passes s.cur.cpsr = true) (arm9 : s.current = .arm9) (legal : ∀ r ∈ x.regs, r ≠ 15) :
    exec i s = finishArm (x.write s.cur) s := by
  cases i
  case smlaXY | smlaWY =>
    cases shape
    refine (ifCond_onArm9_allowed pass arm9 (isPc_four_eq_false legal)).trans (finishArm_congr ?_)
    simp only [HalfMulShape.write, ofInt_halfProduct, wordHalfProduct_eq]
  case smulWY | smulXY =>
    cases shape
    refine (ifCond_onArm9_allowed pass arm9 (isPc_three_eq_false legal)).trans (finishArm_congr ?_)
    simp only [HalfMulShape.write, ofInt_halfProduct, wordHalfProduct_eq]
  all_goals cases shape

/-- A shape names its destination among its registers. -/
theorem halfMulShape_rd_mem {i : Instr} {x : HalfMulShape} (shape : halfMulShape? i = some x) :
    x.rd ∈ x.regs := by
  cases i
  case smlaXY | smlaWY | smulWY | smulXY => cases shape; exact List.mem_cons_self
  all_goals cases shape

/-- Settles O28: the product ends in one write of a register, the sum in one with a sticky Q. -/
theorem halfwordMultipliesAccumulateWithQ : Obligations.HalfwordMultipliesAccumulateWithQ := by
  unfold Obligations.HalfwordMultipliesAccumulateWithQ
  intro i x s shape pass arm9 legal p
  have rd : x.rd ≠ 15 := legal x.rd (halfMulShape_rd_mem shape)
  rw [exec_halfMul shape pass arm9 legal]
  refine ⟨fun plain => ?product, fun rn accumulates => ?sum⟩
  case product =>
    have write : x.write s.cur = fun k => k.setReg x.rd p := by funext k; rw [HalfMulShape.write, plain]
    rw [write]
    exact finishArm_setReg_spec p rd
  case sum =>
    have write : x.write s.cur = fun k => k.accumulateQ x.rd p (s.cur.reg rn) := by
      funext k; rw [HalfMulShape.write, accumulates]
    rw [write]
    exact finishArm_accumulateQ_spec p (s.cur.reg rn) rd

end Sys2Proof.Machine
end

section
/-! PROOFS. Single transfers, doubles and swaps, and the transfers that stop (44_single_transfer.md R300 to
R331, 45_block_transfer.md R340, R343, R346). -/
namespace Sys2Proof.Machine

/-! The addresses of a transfer (R301, R310). -/

/-- The addresses of a transfer, as `indexed` computes them for the meanings. -/
def Transfer.address (x : Transfer) (k : Cpu) : Address := ⟨x.addr k, x.moved k, x.writes⟩

theorem Transfer.legal_iff (x : Transfer) :
    x.legal = true ↔ (x.writes = true → x.rn ≠ 15) ∧ x.off.inPc = false := by
  cases writes : x.writes <;> simp [Transfer.legal, writes]

theorem Transfer.base_ne_pc {x : Transfer} (legal : x.legal = true) : x.writes = true → x.rn ≠ 15 :=
  (x.legal_iff.mp legal).1

/-! The guards of a transfer (R302, R310, R319). -/

/-- The guards of the base and of the offset before a transfer, in the order of the meanings (log 19). -/
def Transfer.guarded (x : Transfer) (k : Result) : Result :=
  refuseIf (x.writes && isPc x.rn) .writebackR15 (refuseIf x.off.inPc .offsetR15 k)

theorem Transfer.guarded_base {x : Transfer} (k : Result) (writes : x.writes = true) (pc : x.rn = 15) :
    x.guarded k = .refused .writebackR15 := by
  rw [Transfer.guarded, writes, pc]
  rfl

theorem Transfer.guarded_offset {x : Transfer} (k : Result) (base : ¬ (x.writes = true ∧ x.rn = 15))
    (pc : x.off.inPc = true) : x.guarded k = .refused .offsetR15 := by
  have allowed : (x.writes && isPc x.rn) = false := by simpa [isPc] using base
  rw [Transfer.guarded, allowed, pc, refuseIf_false, refuseIf_true]

theorem Transfer.guarded_legal {x : Transfer} (k : Result) (legal : x.legal = true) : x.guarded k = k := by
  obtain ⟨base, off⟩ := x.legal_iff.mp legal
  have allowed : (x.writes && isPc x.rn) = false := by simpa [isPc] using base
  rw [Transfer.guarded, allowed, off, refuseIf_false, refuseIf_false]

theorem doubleGuard_odd {rd : Reg} (k : Result) (odd : rd.getLsbD 0 = true) :
    doubleGuard rd k = .fault .undefinedInstruction := if_pos odd

theorem doubleGuard_r14 (k : Result) : doubleGuard 14 k = .refused .doubleR14 := rfl

theorem doubleGuard_even {rd : Reg} (k : Result) (even : rd.getLsbD 0 = false) (ne : rd ≠ 14) :
    doubleGuard rd k = k := by
  rw [doubleGuard, even, if_neg Bool.false_ne_true, beq_false_of_ne ne, refuseIf_false]

/-- An even register and the next one are none of them `r15`, but for `r14` (R319). -/
theorem even_pair_ne_pc {rd : Reg} (even : rd.getLsbD 0 = false) (ne : rd ≠ 14) : rd ≠ 15 ∧ rd + 1 ≠ 15 := by
  revert rd; decide

/-! Each instruction as its shape, where its condition passes. -/

section
variable {cond : Cond} {s : State} (go : Address → State → Result) (pass : condPass cond s.cur.cpsr = true)
include pass

theorem transferImm12_pass (P U W : Bool) (rn rd : Reg) (imm12 : BitVec 12) :
    let x : Transfer := ⟨P, U, W, rn, rd, .imm12 imm12⟩
    transferImm12 go cond P U W rn imm12 s = x.guarded (go (x.address s.cur) s) :=
  ifCond_pass _ pass

theorem transferShifted_pass (P U W : Bool) (rn rd : Reg) (imm5 : BitVec 5) (ty : ShiftType) (rm : Reg) :
    let x : Transfer := ⟨P, U, W, rn, rd, .shifted imm5 ty rm⟩
    transferShifted go cond P U W rn imm5 ty rm s = x.guarded (go (x.address s.cur) s) :=
  ifCond_pass _ pass

end

section
variable {i : Instr} {x : Transfer} {s : State} (pass : i.passes s.cur.cpsr = true)
include pass

/-- A load refuses `r15` but for the word (R304, R305). -/
theorem exec_load {kind : LoadKind} (shape : loadShape? i = some (kind, x)) :
    exec i s = x.guarded (refuseIf (kind != .word && isPc x.rd) .narrowLoadR15
      (loadTo kind.op (x.address s.cur) x.rn x.rd s)) := by
  cases i
  case ldrImm => cases shape; exact transferImm12_pass (fun ad => loadTo _ ad _ _) pass ..
  case ldrReg => cases shape; exact transferShifted_pass (fun ad => loadTo _ ad _ _) pass ..
  case ldrbImm => cases shape; exact transferImm12_pass (loadNarrow _ _ _) pass ..
  case ldrbReg => cases shape; exact transferShifted_pass (loadNarrow _ _ _) pass ..
  case ldrhReg | ldrhImm | ldrsbReg | ldrsbImm | ldrshReg | ldrshImm => cases shape; exact ifCond_pass _ pass
  all_goals cases shape

theorem exec_store {w : Width} (shape : storeShape? i = some (w, x)) :
    exec i s = x.guarded (storeFrom w (x.address s.cur) x.rn x.rd s) := by
  cases i
  case strImm | strbImm => cases shape; exact transferImm12_pass (fun ad => storeFrom _ ad _ _) pass ..
  case strReg | strbReg => cases shape; exact transferShifted_pass (fun ad => storeFrom _ ad _ _) pass ..
  case strhReg | strhImm => cases shape; exact ifCond_pass _ pass
  all_goals cases shape

/-- LDRD and STRD test their destination before the base and the offset (log 19). -/
theorem exec_double {load : Bool} (shape : doubleShape? i = some (load, x)) (arm9 : s.current = .arm9) :
    exec i s = doubleGuard x.rd (x.guarded
      ((if load then loadDouble else storeDouble) x.rn x.rd (x.address s.cur) s)) := by
  cases i
  case ldrdReg | ldrdImm | strdReg | strdImm =>
    cases shape
    exact (ifCond_pass (fun s => onArm9 s _) pass).trans (onArm9_arm9 _ arm9)
  all_goals cases shape

theorem exec_load_legal {kind : LoadKind} (shape : loadShape? i = some (kind, x)) (legal : x.legal = true)
    (wide : x.rd = 15 → kind = .word) :
    exec i s = loadTo kind.op (x.address s.cur) x.rn x.rd s := by
  have allowed : (kind != .word && isPc x.rd) = false := by simpa [isPc] using mt wide
  rw [exec_load pass shape, x.guarded_legal _ legal, allowed, refuseIf_false]

theorem exec_double_legal {load : Bool} (shape : doubleShape? i = some (load, x)) (arm9 : s.current = .arm9)
    (even : x.rd.getLsbD 0 = false) (ne : x.rd ≠ 14) (legal : x.legal = true) :
    exec i s = (if load then loadDouble else storeDouble) x.rn x.rd (x.address s.cur) s := by
  rw [exec_double pass shape arm9, doubleGuard_even _ even ne, x.guarded_legal _ legal]

end

/-- Settles O31: each load is the shared one at the address of its shape. -/
theorem loadsWriteTheLoadedValue : Obligations.LoadsWriteTheLoadedValue := by
  unfold Obligations.LoadsWriteTheLoadedValue
  intro i kind x s shape pass notPc legal plain
  rw [exec_load_legal pass shape legal fun pc => absurd pc notPc]
  exact loadTo_spec kind notPc (Transfer.base_ne_pc legal) plain

/-- Settles O32: LDR to `r15` is the shared load, which ends in a branch. -/
theorem ldrToPcInterworksOnArm9 : Obligations.LdrToPcInterworksOnArm9 := by
  unfold Obligations.LdrToPcInterworksOnArm9
  intro i x s shape pass pc legal plain
  rw [exec_load_legal pass shape legal fun _ => rfl, pc, not_one, not_three]
  exact loadTo_pc (ad := x.address s.cur) (Transfer.base_ne_pc legal) plain

/-- Settles O33: each store is the shared one at the address of its shape. -/
theorem storesWriteTheirBytes : Obligations.StoresWriteTheirBytes := by
  unfold Obligations.StoresWriteTheirBytes
  intro i w x s shape wf pass legal plain
  rw [exec_store pass shape, x.guarded_legal _ legal]
  exact storeFrom_spec wf (Transfer.base_ne_pc legal) plain

/-- Settles O34: LDRD is the shared double load, of an even pair below `r14`. -/
theorem ldrdWritesBackBetweenItsLoads : Obligations.LdrdWritesBackBetweenItsLoads := by
  unfold Obligations.LdrdWritesBackBetweenItsLoads
  intro i x s shape pass arm9 even ne legal plain plain'
  obtain ⟨rd, rd'⟩ := even_pair_ne_pc even ne
  rw [exec_double_legal pass shape arm9 even ne legal]
  exact loadDouble_spec rd rd' (Transfer.base_ne_pc legal) plain plain'

/-- Settles O35: STRD is the shared double store. -/
theorem strdStoresTwoWords : Obligations.StrdStoresTwoWords := by
  unfold Obligations.StrdStoresTwoWords
  intro i x s shape pass wf arm9 even ne legal plain plain'
  rw [exec_double_legal pass shape arm9 even ne legal]
  exact storeDouble_spec wf (Transfer.base_ne_pc legal) plain plain'

/-- Settles O36: both swaps are the shared one, over a word and over a byte. -/
theorem swapsExchangeWithMemory : Obligations.SwapsExchangeWithMemory := by
  unfold Obligations.SwapsExchangeWithMemory
  intro cond rn rd rm s pass wf rn_ne rd_ne rm_ne
  exact ⟨swapOp_spec .word .word rfl pass wf rn_ne rd_ne rm_ne,
    swapOp_spec .byte .byte rfl pass wf rn_ne rd_ne rm_ne⟩

/-! The guards of a block transfer (45_block_transfer.md R340, R343, R346). -/

theorem emptyGuard_arm9 {s : State} (S : Bool) (k : Result) (arm9 : s.current = .arm9) :
    emptyGuard 0 S s k = .fault .emptyRegisterList := by simp [emptyGuard, arm9]

theorem emptyGuard_arm7 {s : State} (S : Bool) (k : Result) (arm7 : s.current = .arm7) :
    emptyGuard 0 S s k = refuseIf S .blockEmptyUser k := by simp [emptyGuard, arm7]

theorem emptyGuard_nonempty {list : BitVec 16} (S : Bool) (s : State) (k : Result) (ne : list ≠ 0) :
    emptyGuard list S s k = k := if_neg ne

/-- The guards before a block transfer, in the order of the meanings (log 19); `user` where it moves
user-bank registers. -/
def Block.guarded (b : Block) (user : Bool) (s : State) (k : Result) : Result :=
  emptyGuard b.list b.S s <| refuseIf (isPc b.rn) .blockBaseR15 <| refuseIf (user && b.W) .blockUserWriteback k

/-- A form whose base is no `r15` and whose registers are the current ones tests its list only. -/
theorem Block.guarded_current {b : Block} (s : State) (k : Result) (base : b.rn ≠ 15) :
    b.guarded false s k = emptyGuard b.list b.S s k := by
  rw [Block.guarded, isPc_eq_false base, Bool.false_and, refuseIf_false, refuseIf_false]

/-- User-bank registers allow no writeback (R346). -/
theorem Block.guarded_user {b : Block} (s : State) (k : Result) (list : b.list ≠ 0) (base : b.rn ≠ 15)
    (W : b.W = true) : b.guarded true s k = .refused .blockUserWriteback := by
  rw [Block.guarded, emptyGuard_nonempty _ _ _ list, isPc_eq_false base, W, refuseIf_false]
  rfl

/-! Each block transfer as its shape, where its condition passes. -/

theorem sp_ne_pc : (13 : Reg) ≠ 15 := by decide

/-- The lists of POP and PUSH (48_thumb_b.md R473). -/
theorem stackList_pop (list : BitVec 8) (r : Bool) : stackList list r 15 = bit r ++ 0#7 ++ list := by
  rw [stackList, BitVec.or_comm]
  cases r <;> rfl

theorem stackList_push (list : BitVec 8) (r : Bool) : stackList list r 14 = 0#1 ++ bit r ++ 0#6 ++ list := by
  rw [stackList, BitVec.or_comm]
  cases r <;> rfl

/-- How a block transfer goes on past the instruction. -/
def Block.advance (b : Block) : State → State := if b.thumb then advanceThumb else advanceArm

/-- The shared load of a block, with what happens to a loaded `r15` (R347, R348, 48_thumb_b.md R475). -/
def Block.load (b : Block) (s : State) : Result :=
  blockLoad b.P b.U (b.user true) b.W b.rn b.list
    (if b.thumb then popPc else if b.S then returnTo else loadPc) b.advance s

/-- The shared store of a block. -/
def Block.store (b : Block) (s : State) : Result :=
  blockStore b.P b.U b.S b.W b.rn b.list b.advance s

section
variable {i : Instr} {b : Block} {s : State} (pass : i.passes s.cur.cpsr = true)
include pass

theorem exec_blockLoad (shape : blockLoad? i = some b) :
    exec i s = b.guarded (b.user true) s (b.load s) := by
  cases i
  case ldm =>
    cases shape
    change execLdm .. = _
    rw [execLdm, ifCond_pass _ pass]
    rfl
  case tPop r list =>
    cases shape
    change execTPop r list s = _
    rw [execTPop, stackList_pop]
    exact Eq.symm (Block.guarded_current s _ (by exact sp_ne_pc))
  case tLdmia rb list => cases shape; exact Eq.symm (Block.guarded_current s _ (by exact low_ne_pc rb))
  all_goals cases shape

theorem exec_blockStore (shape : blockStore? i = some b) : exec i s = b.guarded b.S s (b.store s) := by
  cases i
  case stm =>
    cases shape
    change execStm .. = _
    rw [execStm, ifCond_pass _ pass]
    rfl
  case tPush r list =>
    cases shape
    change execTPush r list s = _
    rw [execTPush, stackList_push]
    exact Eq.symm (Block.guarded_current s _ (by exact sp_ne_pc))
  case tStmia rb list => cases shape; exact Eq.symm (Block.guarded_current s _ (by exact low_ne_pc rb))
  all_goals cases shape

/-- Loads and stores have the guards of the list and of the base in common. -/
theorem exec_block (shape : blockLoad? i = some b ∨ blockStore? i = some b) :
    ∃ k, exec i s = emptyGuard b.list b.S s (refuseIf (isPc b.rn) .blockBaseR15 k) := by
  rcases shape with shape | shape
  · exact ⟨_, exec_blockLoad pass shape⟩
  · exact ⟨_, exec_blockStore pass shape⟩

end

theorem swapOp_pc {load : Word → State → ValueResult Word} {w : Width} {cond : Cond} {rn rd rm : Reg} {s : State}
    (pass : condPass cond s.cur.cpsr = true) (pc : rn = 15 ∨ rd = 15 ∨ rm = 15) :
    swapOp load w cond rn rd rm s = .refused .swapR15 :=
  ifCond_refused pass (by simpa [isPc, or_assoc] using pc)

/-- Settles O37: each clause is a guard of the instruction of its shape. -/
theorem refusedTransfersStop : Obligations.RefusedTransfersStop := by
  unfold Obligations.RefusedTransfersStop
  refine ⟨?loads, ?stores, ?doubles, fun _ _ _ _ _ pass pc => ⟨swapOp_pc pass pc, swapOp_pc pass pc⟩,
    ?blocks, ?userLoads, ?userStores⟩
  case loads =>
    intro i kind x s shape pass
    rw [exec_load pass shape]
    refine ⟨x.guarded_base _, x.guarded_offset _, fun legal pc narrow => ?narrow⟩
    rw [x.guarded_legal _ legal, pc, bne_iff_ne.mpr narrow]
    rfl
  case stores =>
    intro i w x s shape pass
    rw [exec_store pass shape]
    exact ⟨x.guarded_base _, x.guarded_offset _⟩
  case doubles =>
    intro i load x s shape pass arm9
    rw [exec_double pass shape arm9]
    refine ⟨doubleGuard_odd _, fun r14 => r14 ▸ doubleGuard_r14 _, fun even ne => ?base, fun even ne => ?offset⟩
    all_goals rw [doubleGuard_even _ even ne]
    case base => exact x.guarded_base _
    case offset => exact x.guarded_offset _
  case blocks =>
    intro i b s shape pass
    obtain ⟨k, run⟩ := exec_block pass shape
    rw [run]
    refine ⟨fun empty arm9 => ?arm9, fun empty arm7 S => ?user, fun empty arm7 S base => ?emptyBase,
      fun list base => ?base⟩
    case arm9 => rw [empty, emptyGuard_arm9 _ _ arm9]
    case user => rw [empty, emptyGuard_arm7 _ _ arm7, S, refuseIf_true]
    case emptyBase => rw [empty, emptyGuard_arm7 _ _ arm7, S, base, refuseIf_false, isPc_15, refuseIf_true]
    case base => rw [emptyGuard_nonempty _ _ _ list, base, isPc_15, refuseIf_true]
  case userLoads =>
    intro i b s shape pass list base user W
    rw [exec_blockLoad pass shape, user, b.guarded_user _ _ list base W]
  case userStores =>
    intro i b s shape pass list base S W
    rw [exec_blockStore pass shape, S, b.guarded_user _ _ list base W]

end Sys2Proof.Machine
end

section
/-! PROOFS. What block transfers have in common: the words by place, the ends of the list, the base and the guards
(45_block_transfer.md R340 to R345). -/
namespace Sys2Proof.Machine

/-! The words of a transfer by their place: the `j`-th lies `4j` above the first (R341). -/

theorem word_succ (addr : Word) (j : Nat) :
    addr + 4 + BitVec.ofNat 32 (4 * j) = addr + BitVec.ofNat 32 (4 * (j + 1)) := by
  rw [Nat.mul_add, Nat.add_comm (4 * j), BitVec.ofNat_add, BitVec.add_assoc]
  rfl

theorem wordsAt_iff (s : State) (addr : Word) (n : Nat) :
    wordsAt s addr n = true ↔ ∀ j < n, dataAt s (addr + BitVec.ofNat 32 (4 * j)) .word = true := by
  induction n generalizing addr with
  | zero => simp [wordsAt]
  | succ n ih =>
    rw [wordsAt, Bool.and_eq_true, ih, Nat.forall_lt_succ_left, show addr + BitVec.ofNat 32 (4 * 0) = addr from
      BitVec.add_zero addr]
    simp only [word_succ]

theorem getElem?_wordsOf (s : State) (l : List Reg) (addr : Word) (j : Nat) :
    (wordsOf s l addr)[j]? = l[j]?.map fun r => (r, peek s (addr + BitVec.ofNat 32 (4 * j)) .word) := by
  induction l generalizing addr j with
  | nil => rfl
  | cons r l ih =>
    cases j with
    | zero => simp [wordsOf]
    | succ j => simp only [wordsOf, List.getElem?_cons_succ, ih, word_succ]

theorem getElem?_pairsOf (l : List Word) (addr : Word) (j : Nat) :
    (pairsOf l addr)[j]? = l[j]?.map fun v => (addr + BitVec.ofNat 32 (4 * j), v) := by
  induction l generalizing addr j with
  | nil => rfl
  | cons v l ih =>
    cases j with
    | zero => simp [pairsOf]
    | succ j => simp only [pairsOf, List.getElem?_cons_succ, ih, word_succ]

theorem map_fst_wordsOf (s : State) (l : List Reg) (addr : Word) : (wordsOf s l addr).map Prod.fst = l := by
  induction l generalizing addr with
  | nil => rfl
  | cons r l ih => rw [wordsOf, List.map_cons, ih]

/-! The word loaded for `r15`. -/

theorem pcWord_of_not_mem {l : List (Reg × Word)} (pc : Option Word) (h : 15 ∉ l.map Prod.fst) :
    pcWord l pc = pc := by
  induction l generalizing pc with
  | nil => rfl
  | cons p l ih =>
    rw [List.map_cons, List.mem_cons, not_or] at h
    rw [pcWord, ih _ h.2, if_neg fun e => h.1 e.symm]

theorem pcWord_of_mem {l : List (Reg × Word)} {v : Word} (pc : Option Word) (nodup : (l.map Prod.fst).Nodup)
    (h : (15, v) ∈ l) : pcWord l pc = some v := by
  induction l generalizing pc with
  | nil => exact absurd h List.not_mem_nil
  | cons p l ih =>
    rw [List.map_cons, List.nodup_cons] at nodup
    rcases List.mem_cons.mp h with rfl | h
    · exact pcWord_of_not_mem _ nodup.1
    · exact ih _ nodup.2 h

/-! The ends of a list of registers (R344, R345). -/

theorem listRegs_sorted (list : BitVec 16) : (listRegs list).Pairwise fun a b => a.toNat < b.toNat := by
  unfold listRegs
  rw [List.pairwise_filterMap]
  refine List.Pairwise.imp_of_mem ?_ List.pairwise_lt_range
  intro i j hi hj lt r hr q hq
  rw [List.mem_range] at hi hj
  obtain ⟨-, hr⟩ := Option.ite_none_right_eq_some.mp hr
  obtain ⟨-, hq⟩ := Option.ite_none_right_eq_some.mp hq
  rw [← Option.some_inj.mp hr, ← Option.some_inj.mp hq, BitVec.toNat_ofNat, BitVec.toNat_ofNat,
    Nat.mod_eq_of_lt hi, Nat.mod_eq_of_lt hj]
  exact lt

/-- The head of a list in strict order is the one element before all others. -/
theorem head?_eq_some_iff_of_pairwise {α : Type} {R : α → α → Prop} {l : List α} {r : α}
    (asymm : ∀ a b, R a b → ¬ R b a) (ordered : l.Pairwise R) (mem : r ∈ l) :
    l.head? = some r ↔ ∀ q ∈ l, ¬ R q r := by
  cases l with
  | nil => exact absurd mem List.not_mem_nil
  | cons a l =>
    rw [List.pairwise_cons] at ordered
    obtain ⟨first, -⟩ := ordered
    rw [List.head?_cons, Option.some_inj, List.forall_mem_cons]
    constructor
    · rintro rfl
      exact ⟨fun before => asymm _ _ before before, fun q hq => asymm _ _ (first q hq)⟩
    · rintro ⟨least, -⟩
      rcases List.mem_cons.mp mem with e | tail
      · exact e.symm
      · exact absurd (first r tail) least

/-- What holds of all registers of a list holds of all its bits. -/
theorem forall_mem_listRegs (list : BitVec 16) (p : Nat → Prop) :
    (∀ q ∈ listRegs list, p q.toNat) ↔ ∀ j, list.toNat.testBit j = true → p j := by
  simp only [mem_listRegs, BitVec.getLsbD]
  refine ⟨fun regs j set => ?_, fun bits q => bits q.toNat⟩
  have small : j < 16 := (Nat.pow_lt_pow_iff_right (by decide)).mp
    (Nat.lt_of_le_of_lt (Nat.ge_two_pow_of_testBit set) list.isLt)
  have place : (BitVec.ofNat 4 j).toNat = j := Nat.mod_eq_of_lt small
  exact place ▸ regs (BitVec.ofNat 4 j) (place.symm ▸ set)

/-- A register of the list is the lowest where the list is a multiple of its bit. -/
theorem lowestIs_iff {list : BitVec 16} {r : Reg} (mem : list.getLsbD r.toNat = true) :
    lowestIs list r = true ↔ list.toNat % 2 ^ r.toNat = 0 := by
  rw [lowestIs, beq_iff_eq,
    head?_eq_some_iff_of_pairwise (fun _ _ => Nat.lt_asymm) (listRegs_sorted list) ((mem_listRegs list r).mpr mem)]
  refine (forall_mem_listRegs list fun j => ¬ j < r.toNat).trans ⟨fun above => ?_, fun zero j set lt => ?_⟩
  · refine Nat.eq_of_testBit_eq fun j => ?_
    rw [Nat.testBit_mod_two_pow, Nat.zero_testBit]
    refine Bool.eq_false_iff.mpr fun low => ?_
    obtain ⟨lt, set⟩ := Bool.and_eq_true_iff.mp low
    exact above j set (of_decide_eq_true lt)
  · have bit := Nat.testBit_mod_two_pow list.toNat r.toNat j
    rw [zero, Nat.zero_testBit, set, decide_eq_true lt] at bit
    exact absurd bit (by decide)

/-- It is the highest where the list is below the next bit. -/
theorem highestIs_iff {list : BitVec 16} {r : Reg} (mem : list.getLsbD r.toNat = true) :
    highestIs list r = true ↔ list.toNat < 2 ^ (r.toNat + 1) := by
  rw [highestIs, beq_iff_eq, ← List.head?_reverse, head?_eq_some_iff_of_pairwise
    (R := fun a b => b.toNat < a.toNat) (fun _ _ => Nat.lt_asymm) (List.pairwise_reverse.mpr (listRegs_sorted list))
    (List.mem_reverse.mpr ((mem_listRegs list r).mpr mem))]
  simp only [List.mem_reverse]
  refine (forall_mem_listRegs list fun j => ¬ r.toNat < j).trans ⟨fun below => ?_, fun lt j set above => ?_⟩
  · exact Nat.lt_pow_two_of_testBit _ fun j le => Bool.eq_false_iff.mpr fun set => below j set le
  · have := Nat.ge_two_pow_of_testBit set
    have := Nat.pow_le_pow_right (n := 2) (by decide) above
    omega

/-! The addresses of a block (R341, R343). -/

/-- The first address and the final base of a block, as the meanings compute them. -/
def Block.address (b : Block) (k : Cpu) : BlockAddress := blockAddr b.P b.U (k.reg b.rn) (blockWidth b.list)

/-- The first address lies a word further where P and U agree: the base for IA, and so on (R341). -/
theorem blockAddr_first (P U : Bool) (base width : Word) :
    (blockAddr P U base width).first = (if U then base else base - width) + (if P == U then 4 else 0) := by
  cases P <;> cases U <;> simp [blockAddr, BlockAddress.first]

theorem blockAddr_final (P U : Bool) (base width : Word) :
    (blockAddr P U base width).final = if U then base + width else base - width := by
  cases U <;> rfl

section
variable {b : Block} (nonempty : b.list ≠ 0)
include nonempty

theorem Block.blockRegs_eq : blockRegs b.list = b.regs := if_neg nonempty

theorem Block.blockWidth_eq : blockWidth b.list = b.bytes := if_neg nonempty

theorem Block.address_final (k : Cpu) : (b.address k).final = b.final k := by
  rw [Block.address, blockAddr_final, b.blockWidth_eq nonempty]
  rfl

theorem Block.addr_eq (k : Cpu) (j : Nat) : b.addr k j = (b.address k).first + BitVec.ofNat 32 (4 * j) := by
  rw [Block.address, blockAddr_first, b.blockWidth_eq nonempty]
  rfl

/-- The words the loops access are those of the block. -/
theorem Block.wordsAt_of_reachable {s : State} (plain : b.reachable s = true) :
    wordsAt s (b.address s.cur).first (blockRegs b.list).length = true := by
  rw [wordsAt_iff, b.blockRegs_eq nonempty]
  intro j lt
  rw [← b.addr_eq nonempty]
  exact List.all_eq_true.mp plain j (List.mem_range.mpr lt)

end

/-- The writeback of a block, `writes` where the base is written. -/
def Block.back (b : Block) (writes : Bool) (k : Cpu) : Address :=
  ⟨(b.address k).first, (b.address k).final, writes⟩

/-! The writeback, slot by slot. -/

section
variable {ad : Address} {rn : Reg} {k : Cpu} {bk : Bank} (bank : k.bank = bk)
include bank

theorem Cpu.regs_wroteBack_other {j : Fin 30} (base : ad.writeback = true → j ≠ slot bk rn) :
    (k.wroteBack ad rn).regs[j] = k.regs[j] := by
  subst bank
  unfold Cpu.wroteBack
  split
  · next writes => exact Cpu.setReg_other _ _ _ _ (base writes)
  · rfl

theorem Cpu.regs_wroteBack_base (writes : ad.writeback = true) (rn_ne : rn ≠ 15) :
    (k.wroteBack ad rn).regs[slot bk rn] = ad.moved := by
  subst bank
  rw [Cpu.wroteBack, if_pos writes]
  exact Cpu.setReg_slot k rn ad.moved rn_ne

end

/-! The forms that are under no guard, and the advance (R340, R343, R346). -/

theorem Block.legal_iff {b : Block} {load : Bool} :
    b.legal load = true ↔ b.list ≠ 0 ∧ b.rn ≠ 15 ∧ (b.W = true → b.user load = false) := by
  cases W : b.W <;> simp [Block.legal, W, and_assoc]

/-- Advancing moves `r15` by the width of the state the block is of. -/
theorem Block.advance_eq (b : Block) (s : State) :
    b.advance s = s.upd fun k => { k with r15 := k.r15 + if b.thumb then 2 else 4 } := by
  cases thumb : b.thumb <;> simp [Block.advance, thumb, advanceArm, advanceThumb]

/-- The forms R340, R343 and R346 leave are under no guard. -/
theorem Block.guarded_legal {b : Block} {load : Bool} (s : State) (k : Result) (legal : b.legal load = true) :
    b.guarded (b.user load) s k = k := by
  obtain ⟨nonempty, rn_ne, current⟩ := Block.legal_iff.mp legal
  have bank : (b.user load && b.W) = false := by
    cases W : b.W with
    | false => exact Bool.and_false _
    | true => rw [current W]; rfl
  rw [Block.guarded, emptyGuard_nonempty _ _ _ nonempty, isPc_eq_false rn_ne, bank, refuseIf_false, refuseIf_false]

end Sys2Proof.Machine
end

section
/-! PROOFS. Block loads (45_block_transfer.md R345 to R350, 48_thumb_b.md R475, R478). -/
namespace Sys2Proof.Machine

/-! A loaded `r15` (R347, R348, 48_thumb_b.md R475). -/

/-- The state with another status word in the core that runs. -/
def State.withPsr (s : State) (psr : Word) : State := s.upd fun k => { k with cpsr := psr }

theorem State.withPsr_self (s : State) : s.withPsr s.cur.cpsr = s :=
  congrArg (fun cpu => { s with cpu }) (PerCore.set_get s.cpu s.current)

section
variable {s : State} {v : Word}

theorem loadPc_thumb (arm9 : s.current = .arm9) (bit : v.getLsbD 0 = true) :
    loadPc v s = branchTo (v &&& ~~~1#32) (s.withPsr (withT s.cur.cpsr true)) := by
  rw [loadPc, if_pos ⟨arm9, bit⟩, not_one, ← setT_eq]
  rfl

theorem loadPc_same (same : ¬ (s.current = .arm9 ∧ v.getLsbD 0 = true)) :
    loadPc v s = branchTo (v &&& ~~~3#32) s := by
  rw [loadPc, if_neg same, not_three]

theorem popPc_arm9 (arm9 : s.current = .arm9) :
    popPc v s = branchTo (v &&& ~~~1#32) (s.withPsr (withT s.cur.cpsr (v.getLsbD 0))) := by
  rw [popPc, arm9, branchExchange, not_one, ← setT_eq]
  rfl

theorem popPc_arm7 (arm7 : s.current = .arm7) : popPc v s = branchTo (v &&& ~~~1#32) s := by
  rw [popPc, arm7, not_one]

theorem returnTo_valid {psr : Word} (saved : s.cur.spsrAt s.cur.bank = some psr)
    (valid : validMode (modeOf psr) = true) : returnTo v s = branchTo v (s.withPsr psr) := by
  simp [returnTo, copySpsr, saved, valid, State.withPsr]

end

/-- Where a block load puts the word it loads for `r15`. -/
def Block.landPc (b : Block) : Word → State → Result :=
  if b.thumb then popPc else if b.S then returnTo else loadPc

theorem Block.landPc_return {b : Block} (thumb : b.thumb = false) (S : b.S = true) : b.landPc = returnTo := by
  rw [Block.landPc, thumb, S]
  rfl

/-- A loaded `r15` branches to its landing, which is none where R347 stops. -/
theorem Block.landPc_eq {b : Block} {s : State} {v psr target : Word} (arm : b.S = true → b.thumb = false)
    (landing : b.landing s v = some (psr, target)) : b.landPc v s = branchTo target (s.withPsr psr) := by
  rw [Block.landing] at landing
  split at landing
  · next S =>
    rw [b.landPc_return (arm S) S]
    split at landing
    · next saved =>
      obtain ⟨valid, e⟩ := Option.ite_none_right_eq_some.mp landing
      cases e
      exact returnTo_valid saved valid
    · cases landing
  next S =>
  rw [Block.landPc, if_neg S]
  split at landing
  · next thumbBit =>
    cases landing
    split
    · rw [popPc_arm9 thumbBit.1, thumbBit.2]
    · exact loadPc_thumb thumbBit.1 thumbBit.2
  next bit =>
  split at landing
  · next thumb =>
    cases landing
    rw [if_neg (by rw [thumb]; decide), State.withPsr_self, loadPc_same bit]
  next thumb =>
  rw [if_pos (by simpa using thumb)]
  split at landing
  · next arm9 =>
    cases landing
    have clear : v.getLsbD 0 = false := by simpa [arm9] using bit
    rw [popPc_arm9 arm9, clear]
  · next other =>
    cases landing
    have arm7 : s.current = .arm7 := by cases core : s.current with
      | arm7 => rfl
      | arm9 => exact absurd core other
    rw [State.withPsr_self, popPc_arm7 arm7]

/-- The landing is of the status words and of the core. -/
theorem Block.landing_congr (b : Block) {s t : State} (v : Word) (core : t.current = s.current)
    (cpsr : t.cur.cpsr = s.cur.cpsr) (spsr : t.cur.spsr = s.cur.spsr) : b.landing t v = b.landing s v := by
  simp only [Block.landing, Cpu.spsrAt, Cpu.bank, core, cpsr, spsr]

theorem psrT_withT (psr : Word) (t : Bool) : psrT (withT psr t) = t := by rw [← setT_eq, psrT_setT]

section
variable {b : Block} {s : State} {v : Word}

theorem Block.landing_thumb (S : b.S = false) (arm9 : s.current = .arm9) (bit : v.getLsbD 0 = true) :
    b.landing s v = some (withT s.cur.cpsr true, v &&& ~~~1#32) := by
  rw [Block.landing, S, if_neg Bool.false_ne_true, if_pos ⟨arm9, bit⟩]

theorem Block.landing_same (S : b.S = false) (thumb : b.thumb = false)
    (same : s.current = .arm7 ∨ v.getLsbD 0 = false) : b.landing s v = some (s.cur.cpsr, v &&& ~~~3#32) := by
  have stays : ¬ (s.current = .arm9 ∧ v.getLsbD 0 = true) := by
    rcases same with arm7 | clear
    · rw [arm7]; exact fun h => absurd h.1 (by decide)
    · rw [clear]; exact fun h => absurd h.2 (by decide)
  rw [Block.landing, S, if_neg Bool.false_ne_true, if_neg stays, if_pos thumb]

theorem Block.landing_popToArm (S : b.S = false) (thumb : b.thumb = true) (arm9 : s.current = .arm9)
    (bit : v.getLsbD 0 = false) : b.landing s v = some (withT s.cur.cpsr false, v &&& ~~~1#32) := by
  rw [Block.landing, S, bit, thumb, arm9]
  rfl

theorem Block.landing_popOnArm7 (S : b.S = false) (thumb : b.thumb = true) (arm7 : s.current = .arm7) :
    b.landing s v = some (s.cur.cpsr, v &&& ~~~1#32) := by
  rw [Block.landing, S, thumb, arm7]
  rfl

theorem Block.landing_return {psr : Word} (S : b.S = true) (saved : s.cur.spsrAt s.cur.bank = some psr)
    (valid : validMode (modeOf psr) = true) : b.landing s v = some (psr, v) := by
  rw [Block.landing, if_pos S, saved]
  exact if_pos valid

end

/-! The load of a block (R345, R350). -/

/-- The registers of a block load with the words it reads. -/
def Block.words (b : Block) (s : State) : List (Reg × Word) :=
  wordsOf s (blockRegs b.list) (b.address s.cur).first

section
variable {b : Block} (nonempty : b.list ≠ 0) (s : State)
include nonempty

theorem Block.map_fst_words : (b.words s).map Prod.fst = b.regs := by
  rw [Block.words, map_fst_wordsOf, b.blockRegs_eq nonempty]

theorem Block.words_nodup : ((b.words s).map Prod.fst).Nodup :=
  b.map_fst_words nonempty s ▸ listRegs_nodup b.list

theorem Block.mem_words {j : Nat} {r : Reg} (place : b.regs[j]? = some r) :
    (r, peek s (b.addr s.cur j) .word) ∈ b.words s := by
  refine List.mem_of_getElem? (i := j) ?_
  rw [Block.words, getElem?_wordsOf, b.blockRegs_eq nonempty, place, ← b.addr_eq nonempty, Option.map_some]

end

/-- The bank a block load fills (R346, R347). -/
def Block.bank (b : Block) (k : Cpu) : Bank := if b.user true then .usr else k.bank

/-- What a block load makes of the core that runs, but for a loaded `r15`: the list, then the base. -/
def Block.fill (b : Block) (s : State) (k : Cpu) : Cpu :=
  (k.loadInto (b.bank s.cur) (b.words s)).wroteBack (b.back (b.loadWrites s.current) s.cur) b.rn

/-- The base of a load is written back by the rule of the core (R345). -/
theorem Block.ldmWrites_eq (b : Block) (c : CoreId) :
    (b.W && ldmWrites c b.list b.rn) = b.loadWrites c := by
  rw [Block.loadWrites]
  cases mem : b.list.getLsbD b.rn.toNat with
  | false => simp [ldmWrites, mem]
  | true =>
    have highest : highestIs b.list b.rn = decide (b.list.toNat < 2 ^ (b.rn.toNat + 1)) :=
      Bool.eq_iff_iff.mpr ((highestIs_iff mem).trans decide_eq_true_iff.symm)
    rw [ldmWrites.eq_def, if_neg (by rw [mem]; decide), highest]
    cases c <;> rfl

/-- The load of a block over plain words: the fill, then the branch of a loaded `r15` or the advance (R350). -/
theorem Block.load_eq {b : Block} {s : State}
    (plain : wordsAt s (b.address s.cur).first (blockRegs b.list).length = true) :
    b.load s = match pcWord (b.words s) none with
      | some v => b.landPc v (s.upd (b.fill s))
      | none => .next (b.advance (s.upd (b.fill s))) := by
  have fill : (s.upd (Cpu.loadInto (b.bank s.cur) (b.words s))).upd
      (Cpu.wroteBack (b.back (b.loadWrites s.current) s.cur) b.rn) = s.upd (b.fill s) := State.upd_upd ..
  rw [← fill, ← writeBack_eq, ← b.ldmWrites_eq]
  change bindVal (loadRegs (b.user true) (blockRegs b.list) (b.address s.cur).first none s) _ = _
  rw [loadRegs_spec _ _ _ _ _ plain, bindVal_next]
  rfl

@[simp] theorem Cpu.loadInto_bank (bk : Bank) (l : List (Reg × Word)) (k : Cpu) :
    (k.loadInto bk l).bank = k.bank := by simp [Cpu.bank]

/-- A slot stays where no register of the list but `r15` has it, nor the base, where it is written. -/
theorem Block.fill_other {b : Block} {s : State} {j : Fin 30}
    (list : ∀ r ∈ blockRegs b.list, r ≠ 15 → j ≠ slot (b.bank s.cur) r)
    (base : b.loadWrites s.current = true → j ≠ s.slotOf b.rn) : (b.fill s s.cur).regs[j] = s.cur.regs[j] := by
  rw [Block.fill, Cpu.regs_wroteBack_other (Cpu.loadInto_bank ..) base]
  refine Cpu.loadInto_other _ _ _ _ fun p mem => list p.1 ?_
  exact map_fst_wordsOf s (blockRegs b.list) _ ▸ List.mem_map_of_mem mem

theorem Block.fill_base {b : Block} {s : State} (writes : b.loadWrites s.current = true) (rn_ne : b.rn ≠ 15) :
    (b.fill s s.cur).regs[s.slotOf b.rn] = (b.address s.cur).final :=
  Cpu.regs_wroteBack_base (Cpu.loadInto_bank ..) writes rn_ne

section
variable {b : Block} {s : State} (legal : b.legal true = true)
include legal

/-- User-bank registers come with no writeback (R346). -/
theorem Block.slotOf_ne_base {r : Reg} (writes : b.loadWrites s.current = true) (r_ne : r ≠ 15) (ne : r ≠ b.rn) :
    b.slotOf true s r ≠ s.slotOf b.rn := by
  obtain ⟨-, rn_ne, current⟩ := Block.legal_iff.mp legal
  have W : b.W = true := (Bool.and_eq_true_iff.mp writes).1
  rw [Block.slotOf, current W]
  exact slot_ne r_ne rn_ne ne

theorem Block.fill_list {j : Nat} {r : Reg} (place : b.regs[j]? = some r) (r_ne : r ≠ 15)
    (kept : b.loadWrites s.current = true → r ≠ b.rn) :
    (b.fill s s.cur).regs[b.slotOf true s r] = peek s (b.addr s.cur j) .word := by
  obtain ⟨nonempty, rn_ne, -⟩ := Block.legal_iff.mp legal
  rw [Block.fill, Cpu.regs_wroteBack_other (Cpu.loadInto_bank ..) fun writes =>
    b.slotOf_ne_base legal writes r_ne (kept writes)]
  exact Cpu.loadInto_mem _ _ _ (b.words_nodup nonempty s) (b.mem_words nonempty s place) r_ne

theorem Block.loaded_of_fill {t : State} (regs : t.cur.regs = (b.fill s s.cur).regs) : b.Loaded s t where
  words j r place r_ne kept := regs ▸ b.fill_list legal place r_ne kept
  base writes := by
    obtain ⟨nonempty, rn_ne, -⟩ := Block.legal_iff.mp legal
    rw [regs, b.fill_base writes rn_ne, b.address_final nonempty]

theorem Block.fill_frame {j : Fin 30} (h : j ∉ b.loadSlots s) : (b.fill s s.cur).regs[j] = s.cur.regs[j] := by
  obtain ⟨nonempty, -⟩ := Block.legal_iff.mp legal
  rw [Block.loadSlots, List.mem_append, not_or] at h
  obtain ⟨list, base⟩ := h
  refine b.fill_other (fun r mem r_ne e => list ?_) fun writes => ?_
  · rw [b.blockRegs_eq nonempty] at mem
    exact List.mem_map.mpr ⟨r, List.mem_filter.mpr ⟨mem, bne_iff_ne.mpr r_ne⟩, e.symm⟩
  · rw [if_pos writes] at base
    exact fun e => base (List.mem_singleton.mpr e)

end

/-! A block load over plain words, as its frame. -/

section
variable {b : Block} {s : State}
  (plain : wordsAt s (b.address s.cur).first (blockRegs b.list).length = true)
include plain

/-- Without `r15` the load advances (R350). -/
theorem Block.load_done (no_pc : pcWord (b.words s) none = none) :
    b.load s = .next (b.advance (s.upd (b.fill s))) := by
  rw [b.load_eq plain, no_pc]

theorem Block.load_pc {v : Word} (pc : pcWord (b.words s) none = some v) :
    b.load s = b.landPc v (s.upd (b.fill s)) := by
  rw [b.load_eq plain, pc]

/-- With `r15` it branches to its landing. -/
theorem Block.load_lands {ws : List (Fin 30)} {v psr target : Word} (arm : b.S = true → b.thumb = false)
    (pc : pcWord (b.words s) none = some v) (landing : b.landing s v = some (psr, target))
    (regs : ∀ j, j ∉ ws → (b.fill s s.cur).regs[j] = s.cur.regs[j]) (code : codeAt s (psrT psr) target = true) :
    ∃ t, b.load s = .next t ∧ t.cur.regs = (b.fill s s.cur).regs ∧ BranchFrame ws psr target s t := by
  have filled : b.landing (s.upd (b.fill s)) v = some (psr, target) :=
    (b.landing_congr (s := s) (t := s.upd (b.fill s)) v rfl (by simp [Block.fill]) (by simp [Block.fill])).trans
      landing
  obtain ⟨t, run, fill, -, frame⟩ := branchTo_frame (s := s) (f := fun k => { b.fill s k with cpsr := psr })
    regs (by simp [Block.fill]) (by simp [Block.fill]) (by simp [Block.fill]) (by simp [Block.fill]) code
  refine ⟨t, ?_, fill, frame⟩
  rw [b.load_pc plain pc, b.landPc_eq arm filled, State.withPsr, State.upd_upd, run]

end

/-- Settles O38: the load fills the list and the base, and advances. -/
theorem blockLoadsFillTheList : Obligations.BlockLoadsFillTheList := by
  unfold Obligations.BlockLoadsFillTheList
  intro i b s shape pass legal no_pc plain
  obtain ⟨nonempty, -⟩ := Block.legal_iff.mp legal
  have pc : pcWord (b.words s) none = none := pcWord_of_not_mem _ <| by
    rw [b.map_fst_words nonempty]
    exact mt (mem_listRegs b.list 15).mp (Bool.eq_false_iff.mp no_pc)
  refine ⟨s.upd fun k => { b.fill s k with r15 := k.r15 + if b.thumb then 2 else 4 }, ?run,
    b.loaded_of_fill legal ?regs, ?frame⟩
  case run =>
    rw [exec_blockLoad pass shape, b.guarded_legal s _ legal, b.load_done (b.wordsAt_of_reachable nonempty plain) pc,
      b.advance_eq, State.upd_upd]
    simp [Block.fill]
  case regs => rw [State.upd_cur]
  case frame =>
    apply finish_frame
    case regs => exact fun j => b.fill_frame legal
    all_goals simp [Block.fill]

/-- `r15` is the last register of its list (R341). -/
theorem Block.pc_last {b : Block} (pc : b.list.getLsbD 15 = true) : b.regs[b.regs.length - 1]? = some 15 := by
  have highest : highestIs b.list 15 = true := (highestIs_iff pc).mpr b.list.isLt
  rw [← List.getLast?_eq_getElem?]
  exact beq_iff_eq.mp highest

/-- A transfer of `r15` loads the last word for it. -/
theorem Block.pcWord_words {b : Block} (s : State) (pc : b.list.getLsbD 15 = true) (nonempty : b.list ≠ 0) :
    pcWord (b.words s) none = some (peek s (b.addr s.cur (b.regs.length - 1)) .word) :=
  pcWord_of_mem _ (b.words_nodup nonempty s) (b.mem_words nonempty s (b.pc_last pc))

/-- The S bit is of the ARM forms (R340, 48_thumb_b.md R475, R478). -/
theorem blockLoad_thumb_of_S {i : Instr} {b : Block} (shape : blockLoad? i = some b) (S : b.S = true) :
    b.thumb = false := by
  cases i
  case ldm => cases shape; rfl
  case tPop | tLdmia => cases shape; cases S
  all_goals cases shape

/-- Settles O39: the load fills the list and the base, and lands by the clauses of `Block.landing`. -/
theorem blockLoadsOfPcBranchOrReturn : Obligations.BlockLoadsOfPcBranchOrReturn := by
  unfold Obligations.BlockLoadsOfPcBranchOrReturn
  intro i b s shape pass legal pc reachable v
  obtain ⟨nonempty, -⟩ := Block.legal_iff.mp legal
  have plain := b.wordsAt_of_reachable nonempty reachable
  have arm : b.S = true → b.thumb = false := blockLoad_thumb_of_S shape
  have notS (thumb : b.thumb = true) : b.S = false :=
    Bool.eq_false_iff.mpr fun S => absurd (thumb.symm.trans (arm S)) (by decide)
  have word : pcWord (b.words s) none = some v := b.pcWord_words s pc nonempty
  have run : exec i s = b.load s := by rw [exec_blockLoad pass shape, b.guarded_legal s _ legal]
  have lands {psr target : Word} (landing : b.landing s v = some (psr, target))
      (code : codeAt s (psrT psr) target = true) :
      ∃ t, exec i s = .next t ∧ b.Loaded s t ∧ BranchFrame (b.loadSlots s) psr target s t := by
    obtain ⟨t, load, fill, frame⟩ := b.load_lands plain arm word landing (fun j => b.fill_frame legal) code
    exact ⟨t, run.trans load, b.loaded_of_fill legal fill, frame⟩
  refine ⟨fun S arm9 bit code => ?toThumb, fun S thumb same code => ?sameState,
    fun thumb arm9 bit code => ?popToArm, fun thumb arm7 code => ?popOnArm7,
    fun S psr saved => ⟨fun valid code => ?returns, fun invalid => ?panics⟩, fun S noSpsr => ?refused⟩
  case toThumb => exact lands (b.landing_thumb S arm9 bit) (by rwa [psrT_withT])
  case sameState => exact lands (b.landing_same S thumb same) code
  case popToArm => exact lands (b.landing_popToArm (notS thumb) thumb arm9 bit) (by rwa [psrT_withT])
  case popOnArm7 => exact lands (b.landing_popOnArm7 (notS thumb) thumb arm7) code
  case returns => exact lands (b.landing_return S saved valid) code
  all_goals rw [run, b.load_pc plain word, b.landPc_return (arm S) S]
  case panics => exact returnTo_invalid v (by simpa [Block.fill, Cpu.spsrAt, Cpu.bank] using saved) invalid
  case refused => exact returnTo_none v (by simpa [Block.fill, Cpu.spsrAt, Cpu.bank] using noSpsr)

end Sys2Proof.Machine
end

section
/-! PROOFS. Block stores, and the empty list (45_block_transfer.md R343, R344, R351, 48_thumb_b.md R474, R477,
R479). -/
namespace Sys2Proof.Machine

/-! The store of a block (R344, R351). -/

/-- The words a store stores, as the meanings compute them. -/
def Block.values (b : Block) (s : State) : List Word :=
  (blockRegs b.list).map (storedValue s.cur s.current b.S b.W b.list b.rn (b.address s.cur))

/-- The store of a block over plain words: the words of the registers, then the base. -/
theorem Block.store_spec {b : Block} {s : State} (wf : s.mem.wf = true) (rn_ne : b.rn ≠ 15)
    (plain : wordsAt s (b.address s.cur).first (blockRegs b.list).length = true) :
    ∃ t, b.store s = .next t ∧ (b.W = true → t.cur.reg b.rn = (b.address s.cur).final) ∧
      StoreFrame (pokedAll s (pairsOf (b.values s) (b.address s.cur).first) s.mem.readByte)
        (if b.W then [s.slotOf b.rn] else []) (if b.thumb then 2 else 4) s t := by
  obtain ⟨m, stored, -, bytes⟩ := storeWords_spec (b.values s) (b.address s.cur).first s wf
    (by rwa [Block.values, List.length_map])
  refine ⟨({ s with mem := m } : State).upd fun k =>
    { k.wroteBack (b.back b.W s.cur) b.rn with r15 := k.r15 + if b.thumb then 2 else 4 },
    ?run, fun W => ?base, ?frame⟩
  case run =>
    have run : b.store s = .next (b.advance (writeBack (b.back b.W s.cur) b.rn { s with mem := m })) := by
      change thenDo (storeWords (b.values s) (b.address s.cur).first s) _ = _
      rw [stored]
      rfl
    rw [run, writeBack_eq, b.advance_eq, State.upd_upd]
    simp
  case base =>
    rw [State.upd_cur, State.mem_cur]
    exact (Cpu.reg_withPc _ _ rn_ne).trans (Cpu.wroteBack_base _ W rn_ne)
  case frame =>
    apply store_frame
    case bytes => exact fun arr off => congrFun (congrFun bytes arr) off
    case regs => exact fun j => Cpu.wroteBack_other (ad := b.back b.W s.cur)
    all_goals simp

/-- What a store stores for its base in the list (R344). -/
theorem Block.storedBase_eq {b : Block} {s : State} (nonempty : b.list ≠ 0)
    (mem : b.list.getLsbD b.rn.toNat = true) :
    Machine.storedBase s.current b.W b.list b.rn (s.cur.reg b.rn) (b.address s.cur).final = b.storedBase s := by
  have lowest : lowestIs b.list b.rn = decide (b.list.toNat % 2 ^ b.rn.toNat = 0) :=
    Bool.eq_iff_iff.mpr ((lowestIs_iff mem).trans decide_eq_true_iff.symm)
  rw [b.address_final nonempty, Machine.storedBase.eq_def, Block.storedBase, lowest]
  cases b.W with
  | false => rfl
  | true =>
    cases s.current with
    | arm9 => rfl
    | arm7 => by_cases first : b.list.toNat % 2 ^ b.rn.toNat = 0 <;> simp [first]

/-- What a store stores for a register of its list (R303, R344, R351). -/
theorem Block.storedValue_eq {b : Block} {s : State} {r : Reg} (nonempty : b.list ≠ 0)
    (width : s.cur.thumb = b.thumb) (mem : r ∈ b.regs) :
    storedValue s.cur s.current b.S b.W b.list b.rn (b.address s.cur) r = b.stored s r := by
  rw [storedValue, Block.stored, Cpu.stride, width]
  by_cases pc : r = 15
  · rw [pc, isPc_15, if_pos rfl, if_pos rfl]
  rw [isPc_eq_false pc, if_neg Bool.false_ne_true, if_neg pc]
  by_cases base : r = b.rn ∧ b.S = false
  · rw [if_pos base, if_pos base, b.storedBase_eq nonempty (base.1 ▸ (mem_listRegs b.list r).mp mem)]
  · rw [if_neg base, if_neg base]

theorem Block.values_eq {b : Block} {s : State} (nonempty : b.list ≠ 0) (width : s.cur.thumb = b.thumb) :
    b.values s = b.regs.map (b.stored s) := by
  rw [Block.values, b.blockRegs_eq nonempty]
  exact List.map_congr_left fun r => b.storedValue_eq nonempty width

/-- The pairs the store writes are those of the block, place by place. -/
theorem Block.writes_eq {b : Block} {s : State} (nonempty : b.list ≠ 0) (width : s.cur.thumb = b.thumb) :
    pairsOf (b.values s) (b.address s.cur).first = b.writes s := by
  refine List.ext_getElem? fun j => ?_
  rw [getElem?_pairsOf, b.values_eq nonempty width, Block.writes, List.getElem?_map, List.getElem?_map, List.zip,
    List.getElem?_zipWith]
  cases place : b.regs[j]? with
  | none => simp
  | some r =>
    have lt : j < b.regs.length := (List.getElem?_eq_some_iff.mp place).1
    simp [List.getElem?_range lt, b.addr_eq nonempty]

/-- Settles O40: the store writes the list, then the base. -/
theorem blockStoresWriteTheList : Obligations.BlockStoresWriteTheList := by
  unfold Obligations.BlockStoresWriteTheList
  intro i b s shape pass wf legal plain width
  obtain ⟨nonempty, rn_ne, -⟩ := Block.legal_iff.mp legal
  have user : b.user false = b.S := Bool.and_true _
  have spec := b.store_spec wf rn_ne (b.wordsAt_of_reachable nonempty plain)
  rw [b.writes_eq nonempty width, b.address_final nonempty] at spec
  rwa [exec_blockStore pass shape, ← user, b.guarded_legal s _ legal]

/-! The empty list (R343, 48_thumb_b.md R479). -/

/-- Settles O41: `r15` is the list, and the base moves by 64. -/
theorem emptyListMovesPcOnArm7 : Obligations.EmptyListMovesPcOnArm7 := by
  unfold Obligations.EmptyListMovesPcOnArm7
  intro i b s pass empty S rn_ne arm7 width moved addr slots plain
  have first : (b.address s.cur).first = addr := by
    rw [Block.address, blockAddr_first, empty]
    rfl
  have final : (b.address s.cur).final = moved := by
    rw [Block.address, blockAddr_final, empty]
    rfl
  have pcOnly : blockRegs b.list = [15] := if_pos empty
  have reachable : wordsAt s (b.address s.cur).first (blockRegs b.list).length = true := by
    rw [first, pcOnly]
    exact Bool.and_eq_true_iff.mpr ⟨plain, rfl⟩
  have unguarded (k : Result) : b.guarded false s k = k := by
    rw [b.guarded_current s k rn_ne, empty, emptyGuard_arm7 _ _ arm7, S, refuseIf_false]
  refine ⟨fun shape => ?load, fun shape wf => ?store⟩
  case load =>
    intro target code
    have arm : b.S = true → b.thumb = false := blockLoad_thumb_of_S shape
    have writes : b.loadWrites s.current = b.W := by simp [Block.loadWrites, empty]
    have pc : pcWord (b.words s) none = some (peek s addr .word) := by rw [Block.words, pcOnly, first]; rfl
    have landing : b.landing s (peek s addr .word) = some (s.cur.cpsr, target) := by
      cases thumb : b.thumb with
      | false => simpa [target, thumb] using b.landing_same (v := peek s addr .word) S thumb (.inl arm7)
      | true => simpa [target, thumb] using b.landing_popOnArm7 (v := peek s addr .word) S thumb arm7
    obtain ⟨t, run, regs, frame⟩ := b.load_lands (ws := slots) reachable arm pc landing
      (fun j kept => b.fill_other (by simp [pcOnly]) fun W => by simpa [slots, ← writes, W] using kept)
      (by rwa [← width] at code)
    refine ⟨t, ?_, fun W => ?_, frame⟩
    · rw [exec_blockLoad pass shape, Block.user, S, Bool.false_and, unguarded, run]
    · have base : (b.fill s s.cur).reg b.rn = moved :=
        (Cpu.wroteBack_base _ (writes.trans W) rn_ne).trans final
      rw [← base]
      exact Cpu.reg_congr rn_ne regs (by simp [frame.status, Block.fill])
  case store =>
    have spec := b.store_spec wf rn_ne reachable
    have values : b.values s = [s.cur.r15 + if b.thumb then 2 else 4] := by
      rw [Block.values, pcOnly, ← width]
      rfl
    rw [values, first, final] at spec
    rwa [exec_blockStore pass shape, S, unguarded]

end Sys2Proof.Machine
end

section
/-! PROOFS. Branches in ARM state, CLZ, saturating arithmetic and the coprocessor transfers
(46_branch_misc.md R370 to R385, R394 to R397, 60_exceptions.md R590). -/
namespace Sys2Proof.Machine

/-! Branches with a link and with a status word (R370, R373, R376). -/

/-- The state with a link value in `r14` of the core that runs. -/
def State.linked (s : State) (link : Word) : State := s.upd fun k => k.setReg regLr link

@[simp] theorem State.linked_cur (s : State) (link : Word) : (s.linked link).cur = s.cur.setReg regLr link :=
  s.upd_cur _

/-- The link is computed from the core before it is written. -/
theorem State.upd_link (s : State) (link : Cpu → Word) :
    (s.upd fun k => k.setReg regLr (link k)) = s.linked (link s.cur) := State.upd_congr rfl

/-- A branch that leaves a status word writes no register. -/
theorem branchTo_withPsr {s : State} {psr target : Word} (code : codeAt s (psrT psr) target = true) :
    ∃ t, branchTo target (s.withPsr psr) = .next t ∧ BranchFrame [] psr target s t := by
  obtain ⟨t, run, -, -, frame⟩ := branchTo_frame (s := s) (f := fun k => { k with cpsr := psr }) (ws := [])
    (fun _ _ => rfl) rfl rfl rfl rfl code
  exact ⟨t, run, frame⟩

/-- A linking branch leaves the link in `r14` of the bank it stays in. -/
theorem branchTo_linked {s : State} {psr target link : Word} (mode : modeOf psr = modeOf s.cur.cpsr)
    (code : codeAt s (psrT psr) target = true) :
    ∃ t, branchTo target ((s.linked link).withPsr psr) = .next t ∧ t.cur.reg 14 = link ∧
      BranchFrame [s.slotOf 14] psr target s t := by
  obtain ⟨t, run, regs, status, frame⟩ := branchTo_frame (s := s)
    (f := fun k => { k.setReg regLr link with cpsr := psr }) (ws := [s.slotOf 14])
    (fun j other => Cpu.setReg_other _ _ _ _ (List.ne_of_not_mem_cons other)) (by simp) (by simp) (by simp) (by simp)
    code
  refine ⟨t, ?_, ?link, frame⟩
  · rw [State.withPsr, State.linked, State.upd_upd, run]
  case link =>
    have kept : t.cur.reg 14 = (s.cur.setReg regLr link).reg 14 :=
      Cpu.reg_congr (by decide) regs (by rw [status, Cpu.setReg_cpsr, mode])
    exact kept.trans (Cpu.reg_setReg_same _ _ _ (by decide))

theorem branchExchange_eq (v : Word) (s : State) :
    branchExchange v s = branchTo (v &&& ~~~1#32) (s.withPsr (withT s.cur.cpsr (v.getLsbD 0))) := by
  rw [branchExchange, not_one, ← setT_eq]
  rfl

/-- A linking branch that exchanges keeps the other bits of the status word. -/
theorem branchExchange_linked (v link : Word) (s : State) : branchExchange v (s.linked link) =
    branchTo (v &&& ~~~1#32) ((s.linked link).withPsr (withT s.cur.cpsr (v.getLsbD 0))) := by
  rw [branchExchange_eq, State.linked_cur, Cpu.setReg_cpsr]

theorem modeOf_withT (psr : Word) (t : Bool) : modeOf (withT psr t) = modeOf psr := by rw [← setT_eq, modeOf_setT]

/-- The offset of a branch is four times its signed field (R372). -/
theorem branchOffset_eq (imm24 : BitVec 24) : branchOffset imm24 = imm24.signExtend 32 * 4 :=
  (BitVec.shiftLeft_eq_mul_twoPow ..).trans (congrArg (imm24.signExtend 32 * ·) (by decide))

theorem bitAt_one (b : Bool) : bitAt b 1 = if b then 2 else 0 := by cases b <;> rfl

/-! Each ARM branch where it passes (R372, R373, R376 to R378). -/

section
variable {cond : Cond} {s : State} (pass : condPass cond s.cur.cpsr = true)
include pass

theorem exec_b (imm24 : BitVec 24) :
    exec (.b cond imm24) s = branchTo (s.cur.r15 + imm24.signExtend 32 * 4) (s.withPsr s.cur.cpsr) := by
  change execB cond imm24 s = _
  rw [execB, ifCond_pass _ pass, branchOffset_eq, State.withPsr_self]

theorem exec_bl (imm24 : BitVec 24) : exec (.bl cond imm24) s =
    branchTo (s.cur.r15 + imm24.signExtend 32 * 4) ((s.linked (s.cur.r15 - 4)).withPsr s.cur.cpsr) := by
  have same : (s.linked (s.cur.r15 - 4)).withPsr s.cur.cpsr = s.linked (s.cur.r15 - 4) := by
    simpa using (s.linked (s.cur.r15 - 4)).withPsr_self
  change execBl cond imm24 s = _
  rw [execBl, ifCond_pass _ pass, branchOffset_eq, s.upd_link fun k => k.r15 - 4, same]

theorem exec_bx (rm : Reg) : exec (.bx cond rm) s = branchExchange (s.cur.reg rm) s := by
  change execBx cond rm s = _
  rw [execBx, ifCond_pass _ pass]

theorem exec_blxReg {rm : Reg} (arm9 : s.current = .arm9) (rm_ne : rm ≠ 15) :
    exec (.blxReg cond rm) s = branchExchange (s.cur.reg rm) (s.linked (s.cur.r15 - 4)) := by
  rw [← s.upd_link fun k => k.r15 - 4]
  exact ifCond_onArm9_allowed pass arm9 (isPc_eq_false rm_ne)

end

theorem ifNv_arm9 {s : State} (k : State → Result) (arm9 : s.current = .arm9) : ifNv s k = k s := by
  rw [ifNv, arm9]
  rfl

theorem exec_blxImm {s : State} (H : Bool) (imm24 : BitVec 24) (arm9 : s.current = .arm9) :
    exec (.blxImm H imm24) s = branchTo (s.cur.r15 + imm24.signExtend 32 * 4 + if H then 2 else 0)
      ((s.linked (s.cur.r15 - 4)).withPsr (withT s.cur.cpsr true)) := by
  change execBlxImm H imm24 s = _
  rw [execBlxImm, ifNv_arm9 _ arm9, branchOffset_eq, bitAt_one, ← setT_eq, State.withPsr, State.linked, State.upd_upd]
  exact congrArg _ (State.upd_congr (by simp only [Cpu.setReg_cpsr]))

/-- Settles O42: each branch is one to its target, from the state with its link and its status word. -/
theorem armBranchesReloadFromTheirTarget : Obligations.ArmBranchesReloadFromTheirTarget := by
  unfold Obligations.ArmBranchesReloadFromTheirTarget
  refine ⟨fun cond imm24 s pass => ?direct, fun cond rm s pass => ?exchange, fun H imm24 s arm9 => ?blxImm⟩
  case direct =>
    intro target code
    rw [exec_b pass, exec_bl pass]
    exact ⟨branchTo_withPsr code, branchTo_linked rfl code⟩
  case exchange =>
    intro v code
    have lands : codeAt s (psrT (withT s.cur.cpsr (v.getLsbD 0))) (v &&& ~~~1#32) = true := by rwa [psrT_withT]
    refine ⟨?bx, fun arm9 rm_ne => ?blxReg⟩
    case bx =>
      rw [exec_bx pass, branchExchange_eq]
      exact branchTo_withPsr lands
    case blxReg =>
      rw [exec_blxReg pass arm9 rm_ne, branchExchange_linked]
      exact branchTo_linked (modeOf_withT ..) lands
  case blxImm =>
    intro target code
    rw [exec_blxImm H imm24 arm9]
    exact branchTo_linked (modeOf_withT ..) (by rwa [psrT_withT])

/-! Leading zeros as powers of two (R380). -/

theorem leadingZeros_le (v : Word) (n : Nat) : leadingZeros v n ≤ n := by
  induction n with
  | zero => exact Nat.le_refl 0
  | succ n ih =>
    rw [leadingZeros]
    split <;> omega

/-- The low `n` bits of a word, as a number, lie between the powers of two that its leading zeros name. -/
theorem leadingZeros_bounds (v : Word) (n : Nat) :
    v.toNat % 2 ^ n < 2 ^ (n - leadingZeros v n) ∧
      (leadingZeros v n < n → 2 ^ (n - 1 - leadingZeros v n) ≤ v.toNat % 2 ^ n) := by
  induction n with
  | zero => exact ⟨Nat.mod_lt _ (by decide), fun lt => nomatch lt⟩
  | succ n ih =>
    have split : v.toNat % 2 ^ (n + 1) = v.toNat % 2 ^ n + 2 ^ n * (v.getLsbD n).toNat := by
      rw [Nat.mod_pow_succ, BitVec.getLsbD, Nat.toNat_testBit]
    rw [leadingZeros, split]
    cases v.getLsbD n with
    | true =>
      have low : v.toNat % 2 ^ n < 2 ^ n := Nat.mod_lt _ (Nat.two_pow_pos n)
      rw [if_pos rfl, Bool.toNat_true, Nat.mul_one]
      refine ⟨?_, fun _ => Nat.le_add_left ..⟩
      rw [Nat.sub_zero, Nat.pow_succ]
      omega
    | false => simpa [Nat.sub_sub, Nat.add_comm 1] using ih

/-- Settles O43: one write of the count, which its bounds characterise. -/
theorem clzCountsLeadingZeros : Obligations.ClzCountsLeadingZeros := by
  unfold Obligations.ClzCountsLeadingZeros
  intro cond rd rm s pass arm9 rd_ne rm_ne
  have notPc : (isPc rd || isPc rm) = false := by rw [isPc_eq_false rd_ne, isPc_eq_false rm_ne]; rfl
  have run : exec (.clz cond rd rm) s =
      finishArm (fun k => k.setReg rd (BitVec.ofNat 32 (leadingZeros (s.cur.reg rm) 32))) s :=
    (ifCond_onArm9_allowed pass arm9 notPc).trans (finishArm_congr rfl)
  obtain ⟨t, write, value, frame⟩ :=
    finishArm_setReg_spec (s := s) (BitVec.ofNat 32 (leadingZeros (s.cur.reg rm) 32)) rd_ne
  have le : leadingZeros (s.cur.reg rm) 32 ≤ 32 := leadingZeros_le _ _
  have count : (t.cur.reg rd).toNat = leadingZeros (s.cur.reg rm) 32 := by
    rw [value, BitVec.toNat_ofNat]
    exact Nat.mod_eq_of_lt (by omega)
  obtain ⟨below, above⟩ := leadingZeros_bounds (s.cur.reg rm) 32
  rw [Nat.mod_eq_of_lt (s.cur.reg rm).isLt] at below above
  refine ⟨t, run.trans write, ?_⟩
  rw [count]
  exact ⟨le, below, above, frame⟩

/-! Saturation over the integers (40_execution_and_shifter.md R188). -/

/-- Saturation gives the clamped integer, and says whether that is another one. -/
theorem satS32_clamps (i : Int) :
    (satS32 i).value.toInt = clamp32 i ∧ (satS32 i).sat = (i != clamp32 i) := by
  obtain ⟨-, saturates⟩ := adderOverflowsAndSaturationClamps
  obtain ⟨above, below, fits⟩ := saturates i
  by_cases hi : 2 ^ 31 - 1 < i
  · have clamped : clamp32 i = 2 ^ 31 - 1 := by rw [clamp32]; omega
    rw [above hi, clamped]
    exact ⟨rfl, (bne_iff_ne.mpr (by omega)).symm⟩
  by_cases lo : i < -2 ^ 31
  · have clamped : clamp32 i = -2 ^ 31 := by rw [clamp32]; omega
    rw [below lo, clamped]
    exact ⟨rfl, (bne_iff_ne.mpr (by omega)).symm⟩
  · have clamped : clamp32 i = i := by rw [clamp32]; omega
    rw [clamped, bne_self_eq_false]
    exact fits (Int.not_lt.mp lo) (Int.not_lt.mp hi)

@[simp] theorem satS32_toInt (i : Int) : (satS32 i).value.toInt = clamp32 i := (satS32_clamps i).1

@[simp] theorem satS32_sat (i : Int) : (satS32 i).sat = (i != clamp32 i) := (satS32_clamps i).2

/-! The saturating instructions (R381 to R385). -/

/-- Writing a saturated result and advancing past an ARM instruction (R381). -/
theorem finishArm_writeSaturated_spec {s : State} {rd : Reg} (r : Saturated) (h : rd ≠ 15) :
    ∃ t, finishArm (fun k => k.writeSaturated rd r) s = .next t ∧ t.cur.reg rd = r.value ∧
      psrQ t.cur.cpsr = (psrQ s.cur.cpsr || r.sat) ∧ RegisterFrame [s.slotOf rd] bitQ 4 s t := by
  refine ⟨_, ?_, stickyWrite_spec r.value r.sat h⟩
  simp only [finishArm_eq_upd, Cpu.writeSaturated, Cpu.setReg_r15, Cpu.setReg_cpsr]

theorem saturating_legal {cond : Cond} {s : State} {rn rd rm : Reg} (op : Word → Word → Saturated)
    (pass : condPass cond s.cur.cpsr = true) (arm9 : s.current = .arm9) (legal : ∀ r ∈ [rn, rd, rm], r ≠ 15) :
    saturating op cond rn rd rm s =
      finishArm (fun k => k.writeSaturated rd (op (s.cur.reg rm) (s.cur.reg rn))) s :=
  (ifCond_onArm9_allowed pass arm9 (isPc_three_eq_false legal)).trans (finishArm_congr rfl)

/-- A saturating instruction writes a result that is the clamped one of its shape. -/
theorem exec_saturating {i : Instr} {x : SatShape} {s : State} (shape : satShape? i = some x)
    (pass : i.passes s.cur.cpsr = true) (arm9 : s.current = .arm9) (legal : ∀ r ∈ [x.rn, x.rd, x.rm], r ≠ 15) :
    ∃ r : Saturated, exec i s = finishArm (fun k => k.writeSaturated x.rd r) s ∧
      r.value.toInt = x.value (s.cur.reg x.rm).toInt (s.cur.reg x.rn).toInt ∧
      r.sat = x.clamped (s.cur.reg x.rm).toInt (s.cur.reg x.rn).toInt := by
  cases i
  case qadd | qsub =>
    cases shape
    exact ⟨_, saturating_legal _ pass arm9 legal, satS32_toInt _, satS32_sat _⟩
  case qdadd =>
    cases shape
    exact ⟨_, saturating_legal _ pass arm9 legal, by simp [satDoubleAdd, satDoubled],
      by simp [satDoubleAdd, satDoubled]⟩
  case qdsub =>
    cases shape
    exact ⟨_, saturating_legal _ pass arm9 legal, by simp [satDoubleSub, satDoubled],
      by simp [satDoubleSub, satDoubled]⟩
  all_goals cases shape

/-- Settles O44: one write of the clamped result of the shape, with a sticky Q. -/
theorem saturatingArithmeticClampsAndSetsQ : Obligations.SaturatingArithmeticClampsAndSetsQ := by
  unfold Obligations.SaturatingArithmeticClampsAndSetsQ
  intro i x s shape pass arm9 rn rd rm m n
  have legal : ∀ r ∈ [x.rn, x.rd, x.rm], r ≠ 15 := by simpa using ⟨rn, rd, rm⟩
  obtain ⟨r, run, value, sat⟩ := exec_saturating shape pass arm9 legal
  obtain ⟨t, write, result, q, frame⟩ := finishArm_writeSaturated_spec (s := s) r rd
  exact ⟨t, run.trans write, by rw [result, value], by rw [q, sat], frame⟩

/-! The coprocessor transfers (R394 to R397). -/

theorem coprocGuard_cp15 {s : State} (k : Result) (arm9 : s.current = .arm9) : coprocGuard 15 s k = k := by
  rw [coprocGuard, arm9]
  rfl

theorem coprocGuard_other {s : State} {cp : BitVec 4} (k : Result) (arm9 : s.current = .arm9) (ne : cp ≠ 15) :
    coprocGuard cp s k = .fault .unknownCoprocessor := by
  rw [coprocGuard, arm9]
  exact if_neg (mt of_decide_eq_true ne)

/-- The default mapping has three registers (R590, log 11). -/
theorem cp15Reg_none {opc1 opc2 : BitVec 3} {crn crm : BitVec 4}
    (h : ¬ (opc1 = 0 ∧ ((crn = 1 ∧ crm = 0 ∧ opc2 = 0) ∨ (crn = 9 ∧ crm = 1 ∧ (opc2 = 0 ∨ opc2 = 1))))) :
    cp15Reg opc1 crn crm opc2 = none := by
  rw [cp15Reg, if_neg fun ⟨a, b, c, d⟩ => h ⟨a, .inl ⟨b, c, d⟩⟩,
    if_neg fun ⟨a, b, c, d⟩ => h ⟨a, .inr ⟨b, c, .inl d⟩⟩,
    if_neg fun ⟨a, b, c, d⟩ => h ⟨a, .inr ⟨b, c, .inr d⟩⟩]

section
variable {cond : Cond} {s : State} (pass : condPass cond s.cur.cpsr = true) (arm9 : s.current = .arm9)
  (opc1 opc2 : BitVec 3) (crn crm : BitVec 4) (rd : Reg)
include pass arm9

/-- Where its condition passes on ARM9, a transfer is what its coprocessor's guard lets through. -/
theorem exec_mcr_arm9 (cp : BitVec 4) : exec (.mcr cond opc1 crn rd cp opc2 crm) s =
    coprocGuard cp s (.next (advanceArm (cp15Write opc1 crn crm opc2 (s.cur.reg rd) s))) := by
  change execMcr cond opc1 crn rd cp opc2 crm s = _
  rw [execMcr, ifCond_pass _ pass, onArm9_arm9 _ arm9]

theorem exec_mrc_arm9 (cp : BitVec 4) : exec (.mrc cond opc1 crn rd cp opc2 crm) s =
    coprocGuard cp s (refuseIf (isPc rd) .mrcR15
      (finishArm (fun k => k.setReg rd (cp15Read opc1 crn crm opc2 s).1) (cp15Read opc1 crn crm opc2 s).2)) := by
  change execMrc cond opc1 crn rd cp opc2 crm s = _
  rw [execMrc, ifCond_pass _ pass, onArm9_arm9 _ arm9]

/-- MCR of coprocessor 15 writes the port and advances (R395). -/
theorem exec_mcr_cp15 : exec (.mcr cond opc1 crn rd 15 opc2 crm) s =
    .next (advanceArm (cp15Write opc1 crn crm opc2 (s.cur.reg rd) s)) := by
  rw [exec_mcr_arm9 pass arm9, coprocGuard_cp15 _ arm9]

/-- MRC of coprocessor 15 writes the value read to a register other than `r15`, in the state in which reading
leaves the machine (R396). -/
theorem exec_mrc_cp15 {rd : Reg} {v : Word} {s1 : State} (rd_ne : rd ≠ 15)
    (read : cp15Read opc1 crn crm opc2 s = (v, s1)) :
    ∃ t, exec (.mrc cond opc1 crn rd 15 opc2 crm) s = .next t ∧ t.cur.reg rd = v ∧
      RegisterFrame [s1.slotOf rd] 0 4 s1 t := by
  rw [exec_mrc_arm9 pass arm9, coprocGuard_cp15 _ arm9, isPc_eq_false rd_ne, refuseIf_false, read]
  exact finishArm_setReg_spec v rd_ne

end

/-- Settles O47: the transfers are the write and the read of the port, by the mapping of its registers. -/
theorem coprocessorTransfersReachCp15 : Obligations.CoprocessorTransfersReachCp15 := by
  unfold Obligations.CoprocessorTransfersReachCp15
  intro cond opc1 opc2 crn crm rd s pass arm9
  refine ⟨⟨exec_mcr_cp15 pass arm9 .., exec_mcr_cp15 pass arm9 .., exec_mcr_cp15 pass arm9 ..,
      fun other => ?write⟩,
    fun rd_ne => ⟨exec_mrc_cp15 pass arm9 _ _ _ _ rd_ne rfl, exec_mrc_cp15 pass arm9 _ _ _ _ rd_ne rfl,
      exec_mrc_cp15 pass arm9 _ _ _ _ rd_ne rfl, fun other => ?read⟩, ?toPc, fun cp ne => ⟨?mcr, ?mrc⟩⟩
  case write =>
    rw [exec_mcr_cp15 pass arm9, cp15Write, cp15Reg_none other]
    rfl
  case read =>
    have drawn : cp15Read opc1 crn crm opc2 s = draw s := by rw [cp15Read, cp15Reg_none other]
    exact exec_mrc_cp15 pass arm9 _ _ _ _ rd_ne drawn
  case toPc => rw [exec_mrc_arm9 pass arm9, coprocGuard_cp15 _ arm9, isPc_15, refuseIf_true]
  case mcr => rw [exec_mcr_arm9 pass arm9, coprocGuard_other _ arm9 ne]
  case mrc => rw [exec_mrc_arm9 pass arm9, coprocGuard_other _ arm9 ne]

end Sys2Proof.Machine
end

section
/-! PROOFS. Thumb operations and branches (47_thumb_a.md R410 to R447, 48_thumb_b.md R470 to R494). -/
namespace Sys2Proof.Machine

/-! Formats 1 to 4 (R410 to R441). -/

/-- What an operation gives over the operands of a shape. -/
def ThumbShape.result (x : ThumbShape) (k : Cpu) : AluResult :=
  x.op.alu (x.first k) (x.second k) (psrC k.cpsr)

/-- The shared operation of a shape: one write of a result, or of flags alone. -/
def ThumbShape.run (x : ThumbShape) (s : State) : Result :=
  match x.rd with
  | some rd => thumbAlu rd x.result s
  | none => thumbCompare x.result s

/-- A Thumb operation of formats 1 to 4 is the shared one of its shape: a shift is a MOV of the shifted
register, NEG a subtraction from 0. -/
theorem exec_thumbShape {i : Instr} {x : ThumbShape} (s : State) (shape : thumbShape? i = some x) :
    exec i s = x.run s := by
  cases i
  case tLslImm | tLsrImm | tAsrImm | tAddReg | tSubReg | tAddImm3 | tSubImm3 | tMovImm | tCmpImm | tAddImm8 |
      tSubImm8 | tAnd | tEor | tLslReg | tLsrReg | tAsrReg | tAdc | tSbc | tRor | tTst | tNeg | tCmpReg | tCmn |
      tOrr | tBic | tMvn =>
    cases shape
    rfl
  all_goals cases shape

/-- Settles O49: each operation is the one write of its shape. -/
theorem thumbOperationsWriteResultAndFlags : Obligations.ThumbOperationsWriteResultAndFlags := by
  unfold Obligations.ThumbOperationsWriteResultAndFlags
  intro i x s shape a o
  rw [exec_thumbShape s shape]
  obtain ⟨op, rd, first, second⟩ := x
  cases rd with
  | some rd =>
    obtain ⟨t, run, flags, value, frame⟩ :=
      thumbAlu_spec s rd op a o (ThumbShape.result ⟨op, some rd, first, second⟩) rfl
    refine ⟨t, run, flags, fun rd' named => ?_, frame⟩
    cases named
    exact value
  | none =>
    obtain ⟨t, run, flags, frame⟩ :=
      thumbCompare_spec s op a o (ThumbShape.result ⟨op, none, first, second⟩) rfl
    exact ⟨t, run, flags, nofun, frame⟩

/-! Scaled offsets are products (R449, R460, R470, R480, R484, R492). -/

theorem shiftLeft_one_eq_mul (v : Word) : v <<< 1 = v * 2 := BitVec.shiftLeft_eq_mul_twoPow ..
theorem shiftLeft_two_eq_mul (v : Word) : v <<< 2 = v * 4 := BitVec.shiftLeft_eq_mul_twoPow ..
theorem shiftLeft_twelve_eq_mul (v : Word) : v <<< 12 = v * 4096 := BitVec.shiftLeft_eq_mul_twoPow ..

/-! The forms that write one register (R443 to R445, R470 to R472, R492). -/

/-- Writing one register and advancing past a Thumb instruction. -/
theorem finishThumb_setReg_spec {s : State} {rd : Reg} (v : Cpu → Word) (h : rd ≠ 15) :
    ∃ t, finishThumb (fun k => k.setReg rd (v k)) s = .next t ∧ t.cur.reg rd = v s.cur ∧
      RegisterFrame [s.slotOf rd] 0 2 s t := by
  refine ⟨_, ?_, plainWrite_spec (v s.cur) 2 h⟩
  rw [finishThumb, advanceThumb, State.upd_upd]
  exact congrArg _ (State.upd_congr (by simp only [Cpu.setReg_r15]))

theorem thumbHigh_reg {s : State} {rd : Reg} (v : Word) (h : rd ≠ 15) :
    thumbHigh rd v s = finishThumb (fun k => k.setReg rd v) s := by
  rw [thumbHigh, isPc_eq_false h]
  rfl

/-- A result for `r15` branches in the state the core is in (R443, R445). -/
theorem thumbHigh_pc (v : Word) (s : State) :
    thumbHigh 15 v s = branchTo (v &&& ~~~1#32) (s.withPsr s.cur.cpsr) := by
  rw [State.withPsr_self, not_one]
  rfl

theorem execTCmpHi_reg {s : State} (rs : Reg) {rd : Reg} (h : rd ≠ 15) : execTCmpHi rs rd s =
    thumbCompare (fun k => DataOp.sub.alu (k.reg rd) ⟨k.reg rs, false⟩ (psrC k.cpsr)) s := by
  rw [execTCmpHi, isPc_eq_false h]
  rfl

/-- Settles O50: each form is one write of a register or of flags, or the branch of `Rd = 15`. -/
theorem thumbHighAndAddressFormsWriteOneRegister : Obligations.ThumbHighAndAddressFormsWriteOneRegister := by
  unfold Obligations.ThumbHighAndAddressFormsWriteOneRegister
  refine fun s => ⟨fun rs rd hrd => ⟨?addHi, ?movHi, ?cmpHi⟩, fun rs => ⟨fun code => ?addPc, fun code => ?movPc⟩,
    fun rd imm8 => ⟨?addrPc, ?addrSp⟩, fun sub imm7 => ?adjust, fun imm11 => ?blFirst⟩
  case addHi =>
    change ∃ t, thumbHigh rd (s.cur.reg rd + s.cur.reg rs) s = .next t ∧ _
    rw [thumbHigh_reg _ hrd]
    exact finishThumb_setReg_spec _ hrd
  case movHi =>
    change ∃ t, thumbHigh rd (s.cur.reg rs) s = .next t ∧ _
    rw [thumbHigh_reg _ hrd]
    exact finishThumb_setReg_spec _ hrd
  case cmpHi =>
    change ∃ t, execTCmpHi rs rd s = .next t ∧ _
    rw [execTCmpHi_reg rs hrd]
    exact thumbCompare_spec s .sub _ ⟨s.cur.reg rs, false⟩ _ rfl
  case addPc =>
    change ∃ t, thumbHigh 15 (s.cur.r15 + s.cur.reg rs) s = .next t ∧ _
    rw [thumbHigh_pc]
    exact branchTo_withPsr code
  case movPc =>
    change ∃ t, thumbHigh 15 (s.cur.reg rs) s = .next t ∧ _
    rw [thumbHigh_pc]
    exact branchTo_withPsr code
  case addrPc =>
    rw [← shiftLeft_two_eq_mul, not_two]
    exact finishThumb_setReg_spec (fun k => thumbAddrPc k imm8) (low_ne_pc rd)
  case addrSp =>
    rw [← shiftLeft_two_eq_mul]
    exact finishThumb_setReg_spec (fun k => thumbAddrSp k imm8) (low_ne_pc rd)
  case adjust =>
    rw [← shiftLeft_two_eq_mul]
    exact finishThumb_setReg_spec (rd := 13) _ sp_ne_pc
  case blFirst =>
    rw [← shiftLeft_twelve_eq_mul]
    exact finishThumb_setReg_spec (rd := 14) _ (by decide)

/-! Loads and stores of one register (R449 to R468). -/

theorem thumbAddrImm_bytes (k : Cpu) (imm5 : BitVec 5) (rb : LowReg) :
    thumbAddrImm k imm5 0 rb = k.reg (low rb) + imm5.setWidth 32 := by
  rw [thumbAddrImm, BitVec.shiftLeft_zero]

/-- A Thumb load is the shared one of its kind, at the address of its shape. -/
theorem exec_thumbLoad {i : Instr} {kind : LoadKind} {addr : Cpu → Word} {rd : LowReg} (s : State)
    (shape : thumbLoadShape? i = some (kind, addr, rd)) : exec i s = thumbLoad kind.op (addr s.cur) rd s := by
  cases i
  case tLdrPc | tLdrReg | tLdrbReg | tLdsb | tLdrhReg | tLdsh => cases shape; rfl
  case tLdrbImm imm5 rb rd =>
    cases shape
    exact congrArg (thumbLoad loadByte · rd s) (thumbAddrImm_bytes s.cur imm5 rb)
  case tLdrImm | tLdrhImm | tLdrSp =>
    cases shape
    simp only [← shiftLeft_one_eq_mul, ← shiftLeft_two_eq_mul]
    rfl
  all_goals cases shape

theorem exec_thumbStore {i : Instr} {w : Width} {addr : Cpu → Word} {rd : LowReg} (s : State)
    (shape : thumbStoreShape? i = some (w, addr, rd)) : exec i s = thumbStore w (addr s.cur) rd s := by
  cases i
  case tStrReg | tStrbReg | tStrhReg => cases shape; rfl
  case tStrbImm imm5 rb rd =>
    cases shape
    exact congrArg (thumbStore .byte · rd s) (thumbAddrImm_bytes s.cur imm5 rb)
  case tStrImm | tStrhImm | tStrSp =>
    cases shape
    simp only [← shiftLeft_one_eq_mul, ← shiftLeft_two_eq_mul]
    rfl
  all_goals cases shape

/-- Settles O51: each transfer is the shared one at the address of its shape. -/
theorem thumbLoadsAndStoresTransferOneRegister : Obligations.ThumbLoadsAndStoresTransferOneRegister := by
  unfold Obligations.ThumbLoadsAndStoresTransferOneRegister
  refine ⟨fun i kind addr rd s shape plain => ?load, fun i w addr rd s shape wf plain => ?store⟩
  case load =>
    rw [exec_thumbLoad s shape]
    exact thumbLoad_spec kind rd plain
  case store =>
    rw [exec_thumbStore s shape]
    exact thumbStore_spec rd wf plain

/-! Branches (R446, R447, R480, R484, R493, R494). -/

/-- A conditional branch is the shared one of its condition. -/
theorem exec_thumbBranch {i : Instr} {cond : Cond} {imm8 : BitVec 8} (s : State)
    (shape : thumbBranch? i = some (cond, imm8)) : exec i s = thumbBranchIf cond imm8 s := by
  cases i
  case tBeq | tBne | tBcs | tBcc | tBmi | tBpl | tBvs | tBvc | tBhi | tBls | tBge | tBlt | tBgt | tBle =>
    cases shape
    rfl
  all_goals cases shape

theorem thumbBranchIf_taken {cond : Cond} {s : State} (imm8 : BitVec 8) (pass : condPass cond s.cur.cpsr = true) :
    thumbBranchIf cond imm8 s = branchTo (s.cur.r15 + imm8.signExtend 32 * 2) (s.withPsr s.cur.cpsr) := by
  rw [thumbBranchIf, if_pos pass, shiftLeft_one_eq_mul, State.withPsr_self]

theorem thumbBranchIf_untaken {cond : Cond} {s : State} (imm8 : BitVec 8)
    (fail : condPass cond s.cur.cpsr = false) : thumbBranchIf cond imm8 s = .next (advanceThumb s) := by
  rw [thumbBranchIf, fail, if_neg Bool.false_ne_true]

theorem exec_tB (imm11 : BitVec 11) (s : State) :
    exec (.tB imm11) s = branchTo (s.cur.r15 + imm11.signExtend 32 * 2) (s.withPsr s.cur.cpsr) := by
  rw [← shiftLeft_one_eq_mul, State.withPsr_self]
  rfl

/-- A link leaves the status word. -/
theorem State.linked_withPsr_self (s : State) (link : Word) : (s.linked link).withPsr s.cur.cpsr = s.linked link := by
  simpa using (s.linked link).withPsr_self

theorem exec_tBlSecond (imm11 : BitVec 11) (s : State) : exec (.tBlSecond imm11) s =
    branchTo ((s.cur.reg 14 + imm11.setWidth 32 * 2) &&& ~~~1#32)
      ((s.linked ((s.cur.r15 - 2) ||| 1)).withPsr s.cur.cpsr) := by
  rw [← shiftLeft_one_eq_mul, not_one, State.linked_withPsr_self, ← s.upd_link fun k => (k.r15 - 2) ||| 1]
  rfl

theorem exec_tBlxSecond {s : State} (imm11 : BitVec 11) (arm9 : s.current = .arm9) : exec (.tBlxSecond imm11) s =
    branchTo ((s.cur.reg 14 + imm11.setWidth 32 * 2) &&& ~~~3#32)
      ((s.linked ((s.cur.r15 - 2) ||| 1)).withPsr (withT s.cur.cpsr false)) := by
  change execTBlxSecond imm11 s = _
  rw [execTBlxSecond, onArm9_arm9 _ arm9, shiftLeft_one_eq_mul, not_three, ← setT_eq, State.withPsr, State.linked,
    State.upd_upd]
  exact congrArg _ (State.upd_congr (by simp only [Cpu.setReg_cpsr]; rfl))

theorem exec_tBlxReg {s : State} {rs : Reg} (arm9 : s.current = .arm9) (rs_ne : rs ≠ 15) :
    exec (.tBlxReg rs) s = branchExchange (s.cur.reg rs) (s.linked ((s.cur.r15 - 2) ||| 1)) := by
  change execTBlxReg rs s = _
  rw [execTBlxReg, onArm9_arm9 _ arm9, isPc_eq_false rs_ne, refuseIf_false,
    ← s.upd_link fun k => (k.r15 - 2) ||| 1]
  rfl

/-- Settles O52: each branch is one to its target, from the state with its link and its status word. -/
theorem thumbBranchesReloadFromTheirTarget : Obligations.ThumbBranchesReloadFromTheirTarget := by
  unfold Obligations.ThumbBranchesReloadFromTheirTarget
  refine ⟨fun i cond imm8 s shape => ⟨fun pass code => ?taken, fun fail => ?untaken⟩, fun imm11 s => ?b,
    fun imm11 s => ?second, fun rs s => ?exchange⟩
  case taken =>
    rw [exec_thumbBranch s shape, thumbBranchIf_taken imm8 pass]
    exact branchTo_withPsr code
  case untaken =>
    rw [exec_thumbBranch s shape, thumbBranchIf_untaken imm8 fail]
    rfl
  case b =>
    intro target code
    rw [exec_tB]
    exact branchTo_withPsr code
  case second =>
    refine ⟨fun code => ?bl, fun arm9 code => ?blx⟩
    case bl =>
      rw [exec_tBlSecond]
      exact branchTo_linked rfl code
    case blx =>
      rw [exec_tBlxSecond imm11 arm9]
      exact branchTo_linked (modeOf_withT ..) (by rwa [psrT_withT])
  case exchange =>
    intro v code
    have lands : codeAt s (psrT (withT s.cur.cpsr (v.getLsbD 0))) (v &&& ~~~1#32) = true := by rwa [psrT_withT]
    refine ⟨?bx, fun arm9 rs_ne => ?blxReg⟩
    case bx =>
      change ∃ t, branchExchange v s = .next t ∧ _
      rw [branchExchange_eq]
      exact branchTo_withPsr lands
    case blxReg =>
      rw [exec_tBlxReg arm9 rs_ne, branchExchange_linked]
      exact branchTo_linked (modeOf_withT ..) lands

end Sys2Proof.Machine
end

section
/-! PROOFS. Exceptions (60_exceptions.md R504, R505). -/
namespace Sys2Proof.Machine

/-- Settles O45, by the law of `EnterException`. -/
theorem exceptionEntrySavesAndBranches : Obligations.ExceptionEntrySavesAndBranches := by
  unfold Obligations.ExceptionEntrySavesAndBranches
  exact fun mode offset lr s bank code => enterException_entered lr bank code

/-- Where it passes, SWI of either instruction set is the one exception of R505. -/
theorem exec_swi {i : Instr} {s : State} (swi : isSwi i = true) (pass : i.passes s.cur.cpsr = true) :
    exec i s = raiseSwi s := by
  cases i
  case swi => exact ifCond_pass _ pass
  case tSwi => rfl
  all_goals cases swi

/-- Settles O46: SWI is the entry into Supervisor mode. -/
theorem swiEntersSupervisor : Obligations.SwiEntersSupervisor := by
  unfold Obligations.SwiEntersSupervisor
  intro i s swi pass code
  rw [exec_swi swi pass]
  exact enterException_entered _ (by decide) code

end Sys2Proof.Machine
end

section
/-! PROOFS. The scheduler (60_exceptions.md R562 to R567, R570, R577). -/
namespace Sys2Proof.Machine

/-! The list of events. -/

theorem Event.before_iff {a b : Event} :
    a.before b = true ↔ a.time < b.time ∨ (a.time = b.time ∧ a.seq < b.seq) := by
  simp [Event.before]

theorem mem_insertEvent {e f : Event} {l : List Event} : f ∈ insertEvent e l ↔ f = e ∨ f ∈ l := by
  induction l with
  | nil => simp [insertEvent]
  | cons g rest ih =>
    rw [insertEvent]
    split
    · exact List.mem_cons
    · rw [List.mem_cons, ih, List.mem_cons]
      exact or_left_comm

/-- An event that a filter drops is gone from a list it was inserted in. -/
theorem filter_insertEvent {p : Event → Bool} {e : Event} (l : List Event) (dropped : ¬ p e = true) :
    (insertEvent e l).filter p = l.filter p := by
  induction l with
  | nil => rw [insertEvent, List.filter_cons_of_neg dropped]
  | cons g rest ih =>
    rw [insertEvent]
    split
    · rw [List.filter_cons_of_neg dropped]
    · rw [List.filter_cons, List.filter_cons, ih]

/-! `Add` and `Cancel` (R562, R563). -/

/-- The event that `Add` schedules. -/
def Sched.newEvent (d : Sched) (delta : Int) (action : Nat) : Event :=
  { time := d.now + BitVec.ofNat 64 delta.toNat, seq := d.nextSeq, token := ⟨d.epoch, d.nextSeq⟩, action }

/-- The scheduler with that event. -/
def Sched.withNew (d : Sched) (delta : Int) (action : Nat) : Sched :=
  { d with nextSeq := d.nextSeq + 1, events := insertEvent (d.newEvent delta action) d.events }

theorem schedAdd_negative {delta : Int} (action : Nat) (s : State) (h : delta < 0) :
    schedAdd delta action s = .next s := if_pos h

theorem schedAdd_overflows {delta : Int} (action : Nat) {s : State} (h : 0 ≤ delta)
    (large : 2 ^ 64 ≤ s.sched.now.toNat + delta.toNat) :
    schedAdd delta action s = .refused .timestampOverflow := by
  rw [schedAdd, if_neg (Int.not_lt.mpr h), if_pos large]

theorem schedAdd_fits {delta : Int} (action : Nat) {s : State} (h : 0 ≤ delta)
    (fits : s.sched.now.toNat + delta.toNat < 2 ^ 64) :
    schedAdd delta action s = .next { s with sched := s.sched.withNew delta action } := by
  rw [schedAdd, if_neg (Int.not_lt.mpr h), if_neg (Nat.not_le_of_lt fits)]
  rfl

/-- The time of a new event is the exact sum where it fits. -/
theorem Sched.newEvent_time {d : Sched} {delta : Int} (action : Nat) (h : 0 ≤ delta)
    (fits : d.now.toNat + delta.toNat < 2 ^ 64) :
    ((d.newEvent delta action).time.toNat : Int) = d.now.toNat + delta := by
  change ((d.now + BitVec.ofNat 64 delta.toNat).toNat : Int) = _
  rw [BitVec.toNat_add, BitVec.toNat_ofNat]
  omega

/-- A token that the next insertion will give, or a later one, or one of another epoch names no event (log 25). -/
theorem Sched.Inv.token_ne {d : Sched} (inv : d.Inv) {token : Token}
    (foreign : token.epoch ≠ d.epoch ∨ d.nextSeq ≤ token.seq) {f : Event} (mem : f ∈ d.events) :
    f.token ≠ token := by
  rintro rfl
  have numbered := inv.numbered f mem
  rw [inv.named f mem] at foreign
  obtain epoch | late := foreign
  · exact epoch rfl
  · exact Nat.not_le_of_lt numbered late

/-- A token that names no event cancels nothing. -/
theorem schedCancel_foreign {token : Token} {s : State} (foreign : ∀ f ∈ s.sched.events, f.token ≠ token) :
    schedCancel token s = s := by
  have kept : (s.sched.events.filter fun e => e.token != token) = s.sched.events :=
    List.filter_eq_self.mpr fun f mem => bne_iff_ne.mpr (foreign f mem)
  rw [schedCancel, kept]

/-- The token of a new event names it alone, so cancelling it undoes the insertion. -/
theorem Sched.withNew_cancel {d : Sched} (inv : d.Inv) (delta : Int) (action : Nat) :
    ((d.withNew delta action).events.filter fun e => e.token != (d.newEvent delta action).token) = d.events := by
  rw [Sched.withNew, filter_insertEvent _ (by simp)]
  exact List.filter_eq_self.mpr fun f mem => bne_iff_ne.mpr (inv.token_ne (.inr (Nat.le_refl _)) mem)

/-- Settles O57: `Add` by its three cases, `Cancel` by the tokens, the target by its law. -/
theorem schedulerAddsCancelsAndTargets : Obligations.SchedulerAddsCancelsAndTargets := by
  unfold Obligations.SchedulerAddsCancelsAndTargets
  refine ⟨fun delta action s => ⟨schedAdd_negative action s, fun h large => ?overflows, fun h fits => ?fits⟩,
    fun token s => ⟨fun e => ?cancelled, rfl, fun inv foreign => ?ignored⟩, fun d => Sched.targetIs_target⟩
  case overflows => exact schedAdd_overflows action h (by omega)
  case fits =>
    have fits : s.sched.now.toNat + delta.toNat < 2 ^ 64 := by omega
    exact ⟨_, s.sched.newEvent delta action, schedAdd_fits action h fits, Sched.newEvent_time action h fits, rfl, rfl,
      rfl, rfl, fun f => mem_insertEvent, rfl, fun inv =>
        ⟨fun f => inv.token_ne (.inr (Nat.le_refl _)), Sched.withNew_cancel inv delta action⟩⟩
  case cancelled =>
    change e ∈ s.sched.events.filter _ ↔ _
    rw [List.mem_filter, bne_iff_ne]
  case ignored => exact schedCancel_foreign fun f => inv.token_ne foreign

/-! `Sched.Run` (R566, R567). -/

theorem step_fire {s : State} {limit : Cycles} (h : s.phase = .fire limit) : step s = fireStep limit s := by
  rw [step, facadeStep, h]

theorem laterOf_eq (a b : Cycles) : laterOf a b = if a ≤ b then b else a := by
  rw [laterOf]
  by_cases same : a = b
  · simp [same]
  · have : a < b ↔ a ≤ b := ⟨BitVec.le_of_lt, fun le => BitVec.lt_of_le_ne le same⟩
    simp only [this]

/-- A due event that is first in the list fires; the agents act as the tape says. -/
theorem fireStep_due {s : State} {limit : Cycles} {e : Event} {rest : List Event}
    (events : s.sched.events = e :: rest) (due : e.time ≤ limit) (future : s.sched.now ≤ e.time) :
    fireStep limit s = agentActs (s.agentTape.headD []) { s with
      agentTape := s.agentTape.tail
      sched := { s.sched with events := rest, now := e.time } } := by
  have now : laterOf s.sched.now e.time = e.time := by rw [laterOf_eq, if_pos future]
  simp only [fireStep, events, if_pos due, agentPoint_eq, now]

/-- Where none is due the run ends. -/
theorem fireStep_end {s : State} {limit : Cycles} (none : ∀ e ∈ s.sched.events, ¬ e.time ≤ limit) :
    fireStep limit s = .next (fireStep.fireEnd limit s) := by
  rw [fireStep]
  split
  next e rest events => exact if_neg (none e (events ▸ List.mem_cons_self))
  next => rfl

/-- Settles O14: the first of the sorted list is the least; it is due where any is. -/
theorem theEarliestDueEventFires : Obligations.TheEarliestDueEventFires := by
  unfold Obligations.TheEarliestDueEventFires
  intro s limit inv phase
  rw [step_fire phase]
  refine ⟨fun e mem due => ?fires, fun none => ?ends⟩
  case fires =>
    obtain ⟨f, rest, events⟩ := List.exists_cons_of_ne_nil (List.ne_nil_of_mem mem)
    have sorted := inv.sorted
    rw [events, List.pairwise_cons] at sorted
    have first : f ∈ s.sched.events := events ▸ List.mem_cons_self
    have least : ∀ g ∈ s.sched.events, g = f ∨ f.time < g.time ∨ (f.time = g.time ∧ f.seq < g.seq) := by
      rw [events]
      exact List.forall_mem_cons.mpr ⟨.inl rfl, fun g hg => .inr (Event.before_iff.mp (sorted.1 g hg))⟩
    have early : f.time ≤ e.time := by
      obtain rfl | later | ⟨same, -⟩ := least e mem
      · exact BitVec.le_refl _
      · exact BitVec.le_of_lt later
      · exact same ▸ BitVec.le_refl _
    refine ⟨f, first, least, ?_⟩
    rw [fireStep_due events (BitVec.le_trans early due) (inv.future f first), events, List.erase_cons_head]
  case ends =>
    intro now
    rw [fireStep_end none, fireStep.fireEnd]
    simp only [laterOf_eq]
    rfl

end Sys2Proof.Machine
end

section
/-! PROOFS. The interrupt controllers and the IPC unit (60_exceptions.md R520 to R550). -/
namespace Sys2Proof.Machine

/-! Bits of words (20_memory.md R85). -/

theorem getLsbD_laneBits (lanes : BitVec 4) {k : Nat} (h : k < 32) :
    (laneBits lanes).getLsbD k = lanes.getLsbD (k / 8) := by
  revert k lanes; decide

/-- A merge reads the source in its lanes and the old value outside. -/
theorem getLsbD_mergeLanes_eq (old v lanes : Word) {k : Nat} (h : k < 32) :
    (mergeLanes old v lanes).getLsbD k = if lanes.getLsbD k then v.getLsbD k else old.getLsbD k := by
  rw [mergeLanes, BitVec.getLsbD_or, BitVec.getLsbD_and, BitVec.getLsbD_and, BitVec.getLsbD_not, decide_eq_true h]
  cases lanes.getLsbD k <;> simp

theorem getLsbD_one_shiftLeft {n : Nat} (k : Nat) (h : n < 32) : (1#32 <<< n).getLsbD k = decide (k = n) := by
  have bit := BitVec.getLsbD_twoPow (w := 32) n k
  rw [BitVec.twoPow_eq, decide_eq_true h, Bool.true_and] at bit
  exact bit.trans (decide_eq_decide.mpr eq_comm)

theorem getLsbD_bitAt (b : Bool) {n : Nat} (k : Nat) (h : n < 32) :
    (bitAt b n).getLsbD k = (b && decide (k = n)) := by
  cases b with
  | false => simp [bitAt]
  | true => exact (getLsbD_one_shiftLeft k h).trans (Bool.true_and _).symm

/-! The interrupt controllers (R520 to R524). -/

@[simp] theorem updIrq_irq_get (c : CoreId) (f : IrqCtl → IrqCtl) (s : State) :
    (updIrq c f s).irq.get c = f (s.irq.get c) := PerCore.get_set_same ..

/-- A write of IME takes bit 0 of lane 0 (R521). -/
theorem regWrite_ime (c : CoreId) (v : Word) (lanes : BitVec 4) (s : State) : regWrite c .ime v lanes s =
    .next (updIrq c (fun i => { i with ime := if lanes.getLsbD 0 then v.getLsbD 0 else i.ime }) s) := by
  cases lane : lanes.getLsbD 0 with
  | true => simp only [regWrite, lane, if_true]
  | false =>
    simp only [regWrite, lane, Bool.false_eq_true, if_false]
    rw [updIrq, PerCore.set_get]

/-- Settles O56: the line by its definition, the writes bit by bit. -/
theorem interruptRegistersLatchAndAcknowledge : Obligations.InterruptRegistersLatchAndAcknowledge := by
  unfold Obligations.InterruptRegistersLatchAndAcknowledge
  refine fun c s => ⟨?line, ⟨rfl, rfl, rfl⟩, fun source k hk => ?raise, fun v lanes => ⟨?iff, ?ie, ?ime⟩⟩
  case line =>
    rw [irqLine, IrqCtl.line, bne, decide_not]
    rfl
  case raise =>
    rw [raise, PerCore.get_set_same, IrqCtl.raise, BitVec.getLsbD_or, getLsbD_one_shiftLeft k source.isLt]
  case iff =>
    refine ⟨_, rfl, rfl, rfl, rfl, ?_⟩
    simp only [updIrq_irq_get]
    refine ⟨trivial, trivial, fun k hk => ?_⟩
    rw [BitVec.getLsbD_and, BitVec.getLsbD_not, decide_eq_true hk, Bool.true_and, BitVec.getLsbD_and,
      getLsbD_laneBits lanes hk]
  case ie =>
    refine ⟨_, rfl, rfl, rfl, rfl, ?_⟩
    simp only [updIrq_irq_get]
    refine ⟨trivial, trivial, fun k hk => ?_⟩
    rw [getLsbD_mergeLanes_eq _ _ _ hk, getLsbD_laneBits lanes hk]
  case ime =>
    refine ⟨_, regWrite_ime c v lanes s, rfl, rfl, rfl, ?_⟩
    simp only [updIrq_irq_get, and_self]

/-! What raising a request and changing a side of the IPC unit leave (R523, R535). -/

section
variable (p : Bool) (c : CoreId) (source : BitVec 5) (s : State)

@[simp] theorem raiseIf_ipc : (raiseIf p c source s).ipc = s.ipc := by cases p <;> rfl
@[simp] theorem raiseIf_cpu : (raiseIf p c source s).cpu = s.cpu := by cases p <;> rfl
@[simp] theorem raiseIf_mem : (raiseIf p c source s).mem = s.mem := by cases p <;> rfl

theorem raiseIf_eq : raiseIf p c source s = { s with irq := (raiseIf p c source s).irq } := by cases p <;> rfl

/-- The request is latched on the core it is for. -/
@[simp] theorem raiseIf_irq_get : (raiseIf p c source s).irq.get c =
    { s.irq.get c with iff := (s.irq.get c).iff ||| bitAt p source.toNat } := by
  cases p with
  | true => exact PerCore.get_set_same ..
  | false => exact congrArg (fun iff => { s.irq.get c with iff }) BitVec.or_zero.symm

@[simp] theorem raiseIf_irq_get_peer : (raiseIf p c source s).irq.get c.peer = s.irq.get c.peer := by
  cases p with
  | true => exact PerCore.get_peer_set ..
  | false => rfl

@[simp] theorem raiseIf_peer_irq_get : (raiseIf p c.peer source s).irq.get c = s.irq.get c := by
  simpa using raiseIf_irq_get_peer p c.peer source s

end

section
variable (c : CoreId) (f : IpcSide → IpcSide) (s : State)

@[simp] theorem updIpc_ipc : (updIpc c f s).ipc = s.ipc.set c (f (s.ipc.get c)) := rfl
@[simp] theorem updIpc_irq : (updIpc c f s).irq = s.irq := rfl
@[simp] theorem updIpc_cpu : (updIpc c f s).cpu = s.cpu := rfl
@[simp] theorem updIpc_mem : (updIpc c f s).mem = s.mem := rfl

end

theorem fifoEmpty_eq (q : List Word) : fifoEmpty q = decide (q = []) := by cases q <;> rfl

theorem fifoFull_eq {q : List Word} (bound : q.length ≤ 16) : fifoFull q = decide (q.length = 16) :=
  decide_eq_decide.mpr ⟨Nat.le_antisymm bound, Nat.le_of_eq ∘ Eq.symm⟩

/-! The push and the pop, by the enable bit and the queue (R545, R547, R550). -/

section
variable {c : CoreId} {s : State}

theorem fifoPush_disabled (v : Word) (disabled : (s.ipc.get c).en = false) :
    fifoPush c v s = .refused .fifoDisabled := by simp [fifoPush, disabled]

theorem fifoPush_full (v : Word) (enabled : (s.ipc.get c).en = true) (full : (s.ipc.get c).q.length = 16) :
    fifoPush c v s = .next (updIpc c (fun i => { i with err := true }) s) := by
  simp [fifoPush, enabled, fifoFull_eq (Nat.le_of_eq full), full]

theorem fifoPush_room (v : Word) (enabled : (s.ipc.get c).en = true) (room : (s.ipc.get c).q.length < 16) :
    fifoPush c v s = .next (raiseIf (decide ((s.ipc.get c).q = []) && (s.ipc.get c.peer).ieRecvNonempty) c.peer
      sourceRecvNonempty (updIpc c (fun i => { i with q := i.q ++ [v] }) s)) := by
  simp [fifoPush, enabled, fifoFull_eq (Nat.le_of_lt room), Nat.ne_of_lt room, fifoEmpty_eq]

theorem fifoPop_disabled (disabled : (s.ipc.get c).en = false) : fifoPop c s = .refused .fifoDisabled := by
  simp [fifoPop, disabled]

theorem fifoPop_empty (enabled : (s.ipc.get c).en = true) (empty : (s.ipc.get c.peer).q = []) :
    fifoPop c s = .next ((s.ipc.get c).recvLatch, updIpc c (fun i => { i with err := true }) s) := by
  simp [fifoPop, enabled, empty]

/-- The state in which a pop has taken the word `v` and left the words `rest`. -/
def State.popped (s : State) (c : CoreId) (v : Word) (rest : List Word) : State :=
  updIpc c (fun i => { i with recvLatch := v }) (updIpc c.peer (fun i => { i with q := rest }) s)

theorem fifoPop_cons {v : Word} {rest : List Word} (enabled : (s.ipc.get c).en = true)
    (queue : (s.ipc.get c.peer).q = v :: rest) :
    fifoPop c s = .next (v, raiseIf (decide (rest = []) && (s.ipc.get (popTarget s c)).ieSendEmpty) (popTarget s c)
      sourceSendEmpty (s.popped c v rest)) := by
  have enables : ((s.popped c v rest).ipc.get (popTarget s c)).ieSendEmpty =
      (s.ipc.get (popTarget s c)).ieSendEmpty := by
    cases c <;> cases target : s.popIrqTarget <;> simp only [popTarget, target] <;> rfl
  simp only [fifoPop, enabled, queue, Bool.not_true, Bool.false_eq_true, if_false, fifoEmpty_eq, ← enables]
  rfl

@[simp] theorem State.popped_ipc_get (v : Word) (rest : List Word) :
    (s.popped c v rest).ipc.get c = { s.ipc.get c with recvLatch := v } := by simp [State.popped]

@[simp] theorem State.popped_ipc_get_peer (v : Word) (rest : List Word) :
    (s.popped c v rest).ipc.get c.peer = { s.ipc.get c.peer with q := rest } := by simp [State.popped]

@[simp] theorem State.popped_irq (v : Word) (rest : List Word) : (s.popped c v rest).irq = s.irq := rfl

end

/-! Runs of pushes and pops. -/

/-- Pushes that the queue has room for append their words. -/
theorem pushAll_spec {c : CoreId} (ws : List Word) {s : State} (enabled : (s.ipc.get c).en = true)
    (room : (s.ipc.get c).q.length + ws.length ≤ 16) :
    ∃ t, pushAll c ws s = .next t ∧
      t.ipc = s.ipc.set c { s.ipc.get c with q := (s.ipc.get c).q ++ ws } ∧ t.cpu = s.cpu ∧ t.mem = s.mem := by
  induction ws generalizing s with
  | nil => exact ⟨s, rfl, by rw [List.append_nil, PerCore.set_get], rfl, rfl⟩
  | cons v ws ih =>
    rw [List.length_cons] at room
    have push := fifoPush_room v enabled (by omega)
    generalize hu : raiseIf _ _ _ _ = u at push
    have ipc : u.ipc = s.ipc.set c { s.ipc.get c with q := (s.ipc.get c).q ++ [v] } := by simp [← hu]
    have side : u.ipc.get c = { s.ipc.get c with q := (s.ipc.get c).q ++ [v] } := by simp [ipc]
    obtain ⟨t, run, queue, cpu, mem⟩ := ih (s := u) (by simp [side, enabled]) (by simp [side]; omega)
    refine ⟨t, ?_, ?_, cpu.trans (by simp [← hu]), mem.trans (by simp [← hu])⟩
    · rw [pushAll, show regWrite c .fifoSend v 0xF s = .next u from push, thenDo_next, run]
    · simp [queue, ipc]

/-- As many pops as the queue has words take them in order and leave it empty. -/
theorem popAll_spec {c : CoreId} (ws : List Word) {s : State} (enabled : (s.ipc.get c).en = true)
    (queue : (s.ipc.get c.peer).q = ws) :
    ∃ t, popAll c ws.length s = .next (ws, t) ∧ t.ipc.get c.peer = { s.ipc.get c.peer with q := [] } ∧
      (t.ipc.get c).err = (s.ipc.get c).err ∧ t.cpu = s.cpu ∧ t.mem = s.mem := by
  induction ws generalizing s with
  | nil => exact ⟨s, rfl, by rw [← queue], rfl, rfl, rfl⟩
  | cons v ws ih =>
    have pop := fifoPop_cons enabled queue
    generalize hu : raiseIf _ _ _ _ = u at pop
    have mine : u.ipc.get c = { s.ipc.get c with recvLatch := v } := by simp [← hu]
    have peers : u.ipc.get c.peer = { s.ipc.get c.peer with q := ws } := by simp [← hu]
    obtain ⟨t, run, left, err, cpu, mem⟩ := ih (s := u) (by simp [mine, enabled]) (by simp [peers])
    refine ⟨t, ?_, by simp [left, peers], by simp [err, mine],
      cpu.trans (by simp [← hu, State.popped]), mem.trans (by simp [← hu, State.popped])⟩
    rw [List.length_cons, popAll, show regRead c .fifoRecv s = .next (v, u) from pop, mapVal_next, run, mapVal_next]

/-! IPCFIFOCNT (R541, R542). -/

/-- The bits of IPCFIFOCNT. -/
theorem getLsbD_fifoCntValue {c : CoreId} {s : State} (mine : (s.ipc.get c).q.length ≤ 16)
    (peers : (s.ipc.get c.peer).q.length ≤ 16) (k : Nat) : (fifoCntValue s c).getLsbD k =
      if k = 0 then decide ((s.ipc.get c).q = [])
      else if k = 1 then decide ((s.ipc.get c).q.length = 16)
      else if k = 2 then (s.ipc.get c).ieSendEmpty
      else if k = 8 then decide ((s.ipc.get c.peer).q = [])
      else if k = 9 then decide ((s.ipc.get c.peer).q.length = 16)
      else if k = 10 then (s.ipc.get c).ieRecvNonempty
      else if k = 14 then (s.ipc.get c).err
      else if k = 15 then (s.ipc.get c).en
      else false := by
  simp (disch := decide) only [fifoCntValue, BitVec.getLsbD_or, getLsbD_bitAt, fifoEmpty_eq, fifoFull_eq mine,
    fifoFull_eq peers]
  repeat' split
  all_goals simp_all

section
variable (c : CoreId) (v : Word) (s : State)

theorem fifoCntWriteLow_ipc : (fifoCntWriteLow c v s).ipc = s.ipc.set c { s.ipc.get c with
    q := if v.getLsbD 3 then [] else (s.ipc.get c).q, ieSendEmpty := v.getLsbD 2 } := by
  simp [fifoCntWriteLow]

theorem fifoCntWriteHigh_ipc : (fifoCntWriteHigh c v s).ipc = s.ipc.set c { s.ipc.get c with
    ieRecvNonempty := v.getLsbD 10, err := (s.ipc.get c).err && !v.getLsbD 14, en := v.getLsbD 15 } := by
  simp [fifoCntWriteHigh]

/-- A write of lane 0 raises source 17 where it turns the enable on over an empty queue. -/
theorem fifoCntWriteLow_irq_get : (fifoCntWriteLow c v s).irq.get c = { s.irq.get c with
    iff := (s.irq.get c).iff ||| bitAt (!(s.ipc.get c).ieSendEmpty && v.getLsbD 2 &&
      decide ((if v.getLsbD 3 then [] else (s.ipc.get c).q) = [])) 17 } := by
  simp [fifoCntWriteLow, fifoEmpty_eq, sourceSendEmpty]

/-- A write of lane 1 raises source 18 where it turns the enable on over a queue of the peer that holds a word. -/
theorem fifoCntWriteHigh_irq_get : (fifoCntWriteHigh c v s).irq.get c = { s.irq.get c with
    iff := (s.irq.get c).iff ||| bitAt (!(s.ipc.get c).ieRecvNonempty && v.getLsbD 10 &&
      !decide ((s.ipc.get c.peer).q = [])) 18 } := by
  simp [fifoCntWriteHigh, fifoEmpty_eq, sourceRecvNonempty]

theorem fifoCntWriteLow_irq_get_peer : (fifoCntWriteLow c v s).irq.get c.peer = s.irq.get c.peer := by
  simp [fifoCntWriteLow]

theorem fifoCntWriteHigh_irq_get_peer : (fifoCntWriteHigh c v s).irq.get c.peer = s.irq.get c.peer := by
  simp [fifoCntWriteHigh]

theorem fifoCntWriteLow_eq : fifoCntWriteLow c v s =
    { s with ipc := (fifoCntWriteLow c v s).ipc, irq := (fifoCntWriteLow c v s).irq } := by
  simp only [fifoCntWriteLow]
  rw [raiseIf_eq]
  rfl

theorem fifoCntWriteHigh_eq : fifoCntWriteHigh c v s =
    { s with ipc := (fifoCntWriteHigh c v s).ipc, irq := (fifoCntWriteHigh c v s).irq } := by
  simp only [fifoCntWriteHigh]
  rw [raiseIf_eq]
  rfl

end

section
variable (c : CoreId) (v : Word) (lanes : BitVec 4) (s : State)

/-- A write of IPCFIFOCNT is that of lane 0, then that of lane 1 (R542). -/
theorem fifoCntWrite_ipc_get : (fifoCntWrite c v lanes s).ipc.get c = { s.ipc.get c with
    q := if lanes.getLsbD 0 = true ∧ v.getLsbD 3 = true then [] else (s.ipc.get c).q
    ieSendEmpty := if lanes.getLsbD 0 then v.getLsbD 2 else (s.ipc.get c).ieSendEmpty
    ieRecvNonempty := if lanes.getLsbD 1 then v.getLsbD 10 else (s.ipc.get c).ieRecvNonempty
    err := (s.ipc.get c).err && !(lanes.getLsbD 1 && v.getLsbD 14)
    en := if lanes.getLsbD 1 then v.getLsbD 15 else (s.ipc.get c).en } := by
  rw [fifoCntWrite]
  cases lanes.getLsbD 0 <;> cases lanes.getLsbD 1 <;> simp [fifoCntWriteLow_ipc, fifoCntWriteHigh_ipc]

theorem fifoCntWrite_ipc_get_peer : (fifoCntWrite c v lanes s).ipc.get c.peer = s.ipc.get c.peer := by
  rw [fifoCntWrite]
  cases lanes.getLsbD 0 <;> cases lanes.getLsbD 1 <;> simp [fifoCntWriteLow_ipc, fifoCntWriteHigh_ipc]

theorem fifoCntWrite_irq_get_peer : (fifoCntWrite c v lanes s).irq.get c.peer = s.irq.get c.peer := by
  rw [fifoCntWrite]
  cases lanes.getLsbD 0 <;> cases lanes.getLsbD 1 <;>
    simp [fifoCntWriteLow_irq_get_peer, fifoCntWriteHigh_irq_get_peer]

/-- The requests of a write of IPCFIFOCNT. -/
theorem fifoCntWrite_irq_get : (fifoCntWrite c v lanes s).irq.get c = { s.irq.get c with
    iff := (s.irq.get c).iff |||
      bitAt (lanes.getLsbD 0 && (!(s.ipc.get c).ieSendEmpty && v.getLsbD 2 &&
        decide ((if v.getLsbD 3 then [] else (s.ipc.get c).q) = []))) 17 |||
      bitAt (lanes.getLsbD 1 && (!(s.ipc.get c).ieRecvNonempty && v.getLsbD 10 &&
        !decide ((s.ipc.get c.peer).q = []))) 18 } := by
  have none : ∀ n, bitAt false n = 0 := fun _ => rfl
  rw [fifoCntWrite]
  cases lanes.getLsbD 0 <;> cases lanes.getLsbD 1 <;>
    simp [fifoCntWriteLow_irq_get, fifoCntWriteHigh_irq_get, fifoCntWriteLow_ipc, none]

theorem fifoCntWrite_eq : fifoCntWrite c v lanes s =
    { s with ipc := (fifoCntWrite c v lanes s).ipc, irq := (fifoCntWrite c v lanes s).irq } := by
  rw [fifoCntWrite]
  cases lanes.getLsbD 0 <;> cases lanes.getLsbD 1
  · rfl
  · exact fifoCntWriteHigh_eq c v s
  · exact fifoCntWriteLow_eq c v s
  · have low := fifoCntWriteLow_eq c v s
    generalize fifoCntWriteLow c v s = u at low
    rw [low]
    exact fifoCntWriteHigh_eq c v _

end

/-- Settles O54: the queue by the runs of pushes and pops, the register bit by bit. -/
theorem ipcQueuesAreFirstInFirstOut : Obligations.IpcQueuesAreFirstInFirstOut := by
  unfold Obligations.IpcQueuesAreFirstInFirstOut
  refine fun c s => ⟨fun ws enabled peerEnabled empty bound => ?fifo,
    fun v lanes enabled full => fifoPush_full v enabled full, fun enabled empty => fifoPop_empty enabled empty,
    fun disabled => ⟨fifoPop_disabled disabled, fun v _ => fifoPush_disabled v disabled⟩, rfl, fun _ _ => rfl,
    fun mine peers => ⟨_, rfl, fun k _ => getLsbD_fifoCntValue mine peers k⟩,
    fun v lanes => ⟨_, rfl, fifoCntWrite_ipc_get c v lanes s, fifoCntWrite_ipc_get_peer c v lanes s,
      fifoCntWrite_eq c v lanes s⟩⟩
  case fifo =>
    obtain ⟨t, pushes, ipc, cpu, mem⟩ := pushAll_spec (c := c) (s := s) ws enabled (by simpa [empty] using bound)
    have mine : t.ipc.get c = { s.ipc.get c with q := ws } := by simp [ipc, empty]
    have peers : t.ipc.get c.peer = s.ipc.get c.peer := by simp [ipc]
    obtain ⟨u, pops, left, err, cpu', mem'⟩ := popAll_spec (c := c.peer) (s := t) ws (peers ▸ peerEnabled)
      (by simp [mine])
    rw [CoreId.peer_peer, mine] at left
    exact ⟨t, u, pushes, by rw [mine], pops, by rw [left], by rw [left], by rw [err, peers], cpu'.trans cpu,
      mem'.trans mem⟩

/-! IPCSYNC (R537, R538). -/

/-- A write that drives lane 1 sends the nibble and asks the peer, which may accept (R538). -/
theorem ipcSyncWrite_lane1 (c : CoreId) (v : Word) {lanes : BitVec 4} (s : State) (driven : lanes.getLsbD 1 = true) :
    ipcSyncWrite c v lanes s = raiseIf (v.getLsbD 13 && (s.ipc.get c.peer).syncIe) c.peer sourceIpcSync
      (updIpc c (fun i => { i with syncOut := v.extractLsb' 8 4, syncIe := v.getLsbD 14 }) s) := if_pos driven

/-- A core reads the nibble of its peer (R537). -/
theorem ipcSyncValue_nibble (s : State) (c : CoreId) :
    (ipcSyncValue s c).extractLsb' 0 4 = (s.ipc.get c.peer).syncOut := by
  apply BitVec.eq_of_getLsbD_eq
  intro i hi
  have low : i < 8 := by omega
  have other : i ≠ 14 := by omega
  rw [BitVec.getLsbD_extractLsb', ipcSyncValue, Nat.zero_add, BitVec.getLsbD_or, BitVec.getLsbD_or,
    getLsbD_bitAt _ _ (by decide)]
  simp [hi, low, other]
  omega

/-- Settles O55: each request by the condition of its `raiseIf`. -/
theorem ipcInterruptsAreRaised : Obligations.IpcInterruptsAreRaised := by
  unfold Obligations.IpcInterruptsAreRaised
  refine fun c v s => ⟨fun enabled room => ?push, fun enabled rest queue => ?pop, fun lanes => ?fifoCnt, ?sync⟩
  case push =>
    refine ⟨_, fifoPush_room v enabled room, by simp, by simp, ?_⟩
    rw [raiseIf_irq_get]
    simp [bitAt, sourceRecvNonempty]
  case pop =>
    intro target
    have named : popTarget s c = target := by
      cases h : s.popIrqTarget <;> simp [popTarget, target, h]
    have run := fifoPop_cons enabled queue
    rw [named] at run
    refine ⟨_, run, by simp, by simp, by simp, ?_⟩
    rw [raiseIf_irq_get]
    simp [bitAt, sourceSendEmpty]
  case fifoCnt =>
    refine ⟨_, rfl, fifoCntWrite_irq_get_peer c v lanes s, (fifoCntWrite_irq_get c v lanes s).trans ?_⟩
    simp [bitAt, and_assoc, or_comm]
  case sync =>
    refine ⟨_, congrArg Host.Outcome.next (ipcSyncWrite_lane1 c v (lanes := 0xF) s (by decide)),
      ⟨_, _, rfl, rfl, ?_⟩, by simp, ?_⟩
    · rw [ipcSyncValue_nibble]
      simp
    · rw [raiseIf_irq_get]
      simp [bitAt, sourceIpcSync]

end Sys2Proof.Machine
end

section
/-! PROOFS. What no data access changes: the cores, which of them runs, and the device clock (60_exceptions.md
R564, R577). -/
namespace Sys2Proof.Machine

/-- The cores, which of them runs, and the clock are as before. -/
structure KeepsCoresAndClock (s t : State) : Prop where
  cpu : t.cpu = s.cpu
  current : t.current = s.current
  now : t.sched.now = s.sched.now

/-- The core that runs is the same one, and as before. -/
theorem KeepsCoresAndClock.cur {s t : State} (h : KeepsCoresAndClock s t) : t.cur = s.cur := by
  rw [State.cur, State.cur, h.cpu, h.current]

/-! The registers of the I/O window touch no scheduler. -/

theorem raiseIf_sched (p : Bool) (c : CoreId) (source : BitVec 5) (s : State) :
    (raiseIf p c source s).sched = s.sched := by cases p <;> rfl

theorem regRead_sched {c : CoreId} {r : IoReg} {s t : State} {v : Word} (h : regRead c r s = .next (v, t)) :
    t.sched = s.sched := by
  cases r
  case fifoRecv =>
    simp only [regRead, fifoPop] at h
    repeat' split at h
    all_goals cases h
    · rfl
    · exact raiseIf_sched ..
  all_goals cases h; rfl

theorem regWrite_sched {c : CoreId} {r : IoReg} {v : Word} {lanes : BitVec 4} {s t : State}
    (h : regWrite c r v lanes s = .next t) : t.sched = s.sched := by
  cases r
  case ipcSync =>
    cases h
    rw [ipcSyncWrite]
    split
    · exact raiseIf_sched ..
    · rfl
  case fifoCnt =>
    cases h
    rw [fifoCntWrite_eq]
  case fifoSend =>
    simp only [regWrite, fifoPush] at h
    repeat' split at h
    all_goals cases h
    · rfl
    · exact raiseIf_sched ..
  case ime =>
    rw [regWrite_ime] at h
    cases h
    rfl
  all_goals cases h; rfl

theorem readAligned_sched {c : CoreId} {a : Word} {w : Width} {kind : AccessKind} {s t : State} {v : Word}
    (h : readAligned c a w kind s = .next (v, t)) : t.sched = s.sched := by
  simp only [readAligned] at h
  split at h
  case h_3 =>
    simp only [ioRead] at h
    split at h
    · obtain ⟨_, _, read, next⟩ := mapVal_eq_next h
      cases next
      exact regRead_sched read
    · cases h; rfl
  all_goals cases h; rfl

theorem writeAligned_sched {c : CoreId} {a : Word} {w : Width} {v : Word} {s t : State}
    (h : writeAligned c a w v s = .next t) : t.sched = s.sched := by
  simp only [writeAligned] at h
  split at h
  case h_3 =>
    simp only [ioWrite] at h
    split at h
    · exact regWrite_sched h
    · cases h; rfl
  all_goals cases h; rfl

/-! Agents schedule and cancel events, but set no clock (R577). -/

theorem schedAdd_now {delta : Int} {action : Nat} {s t : State} (h : schedAdd delta action s = .next t) :
    t.sched.now = s.sched.now := by
  simp only [schedAdd] at h
  repeat' split at h
  all_goals cases h
  all_goals rfl

theorem agentAct_now {act : AgentAct} {s t : State} (h : agentAct act s = .next t) :
    t.sched.now = s.sched.now := by
  cases act with
  | raise | cancel => cases h; rfl
  | add => exact schedAdd_now h
  | busRead =>
    obtain ⟨_, _, read, next⟩ := bindVal_eq_next h
    cases next
    exact congrArg Sched.now (readAligned_sched read)
  | busWrite => exact congrArg Sched.now (writeAligned_sched h)

theorem agentActs_now {acts : List AgentAct} {s t : State} (h : agentActs acts s = .next t) :
    t.sched.now = s.sched.now := by
  induction acts generalizing s with
  | nil => cases h; rfl
  | cons act rest ih =>
    obtain ⟨u, first, others⟩ := thenDo_eq_next h
    exact (ih others).trans (agentAct_now first)

theorem agentPoint_keeps {s t : State} (h : agentPoint s = .next t) : KeepsCoresAndClock s t where
  cpu := cpu_of_withCpus (agentPoint_withCpus (k := s.cpu) fun _ => rfl) h
  current := by rw [agentPoint_eq] at h; have acts := agentActs_current h; exact acts
  now := by rw [agentPoint_eq] at h; have acts := agentActs_now h; exact acts

/-! The accesses of the core that runs (20_memory.md R72, R73). -/

theorem memRead_cpu {addr v : Word} {w : Width} {kind : AccessKind} {s t : State}
    (h : memRead addr w kind s = .next (v, t)) : t.cpu = s.cpu := by
  have same := memRead_withCpus addr w kind (s := s) (k := s.cpu) fun _ => rfl
  rw [State.withCpus_self, h, valueWithCpus_next] at same
  simp only [Host.Outcome.next.injEq, Prod.mk.injEq, true_and] at same
  rw [same]
  rfl

theorem memRead_keeps {addr v : Word} {w : Width} {kind : AccessKind} {s t : State}
    (h : memRead addr w kind s = .next (v, t)) : KeepsCoresAndClock s t := by
  have cpu := memRead_cpu h
  obtain ⟨_, u, read, rest⟩ := mapVal_eq_next h
  have current := readAligned_current read
  have now := congrArg Sched.now (readAligned_sched read)
  split at rest
  · obtain ⟨u', acts, next⟩ := thenVal_eq_next rest
    cases next
    have agents := agentPoint_keeps acts
    exact ⟨cpu, agents.current.trans current, agents.now.trans now⟩
  · cases rest
    exact ⟨cpu, current, now⟩

theorem memWrite_keeps {addr v : Word} {w : Width} {s t : State} (h : memWrite addr w v s = .next t) :
    KeepsCoresAndClock s t := by
  have cpu := cpu_of_withCpus (memWrite_withCpus addr w v (k := s.cpu) fun _ => rfl) h
  obtain ⟨u, write, rest⟩ := thenDo_eq_next h
  have current := writeAligned_current write
  have now := congrArg Sched.now (writeAligned_sched write)
  split at rest
  · have agents := agentPoint_keeps rest
    exact ⟨cpu, agents.current.trans current, agents.now.trans now⟩
  · cases rest
    exact ⟨cpu, current, now⟩

end Sys2Proof.Machine
end

section
/-! PROOFS. What every instruction but SWI keeps: a property that survives the access of a device, a change of the
core that runs that keeps mode, `I` and `F`, an MSR and the return from an exception. -/
namespace Sys2Proof.Machine

/-! The mode, `I` and `F` of a status word (10_state.md R30). -/

/-- The bits of a status word that are neither mode nor `I` nor `F`. -/
def nonControl : Word := 0xFFFFFF20

/-- The mode, `I` and `F` of a status word. -/
def control (psr : Word) : Word := psr &&& ~~~nonControl

/-- A change outside `m` keeps control where `m` has no bit of it. -/
theorem control_of_keeps {a b m : Word} (keeps : a &&& ~~~m = b &&& ~~~m)
    (apart : ~~~m &&& ~~~nonControl = ~~~nonControl) : control a = control b := by
  rw [control, control, ← apart, ← BitVec.and_assoc, ← BitVec.and_assoc, keeps]

theorem getLsbD_of_control {a b : Word} (h : control a = control b) {i : Nat}
    (inControl : (~~~nonControl).getLsbD i = true) : a.getLsbD i = b.getLsbD i := by
  have bit := congrArg (BitVec.getLsbD · i) h
  simpa only [control, BitVec.getLsbD_and, inControl, Bool.and_true] using bit

theorem modeOf_of_control {a b : Word} (h : control a = control b) : modeOf a = modeOf b := by
  have low : ∀ i, i < 5 → (~~~nonControl).getLsbD i = true := by decide
  apply BitVec.eq_of_getLsbD_eq
  intro i hi
  simp only [modeOf, BitVec.getLsbD_extractLsb', Nat.zero_add, getLsbD_of_control h (low i hi)]

theorem psrI_of_control {a b : Word} (h : control a = control b) : psrI a = psrI b :=
  getLsbD_of_control h (by decide)

theorem psrF_of_control {a b : Word} (h : control a = control b) : psrF a = psrF b :=
  getLsbD_of_control h (by decide)

@[simp] theorem control_setFlags (psr : Word) (a : AluResult) : control (setFlags psr a) = control psr :=
  control_of_keeps (setFlags_keeps_nzcv psr a) (by decide)
@[simp] theorem control_setNZ (psr r : Word) : control (setNZ psr r) = control psr :=
  control_of_keeps (setNZ_keeps psr r) (by decide)
@[simp] theorem control_setNZ64 (psr : Word) (r : BitVec 64) : control (setNZ64 psr r) = control psr :=
  control_of_keeps (setNZ64_keeps psr r) (by decide)
@[simp] theorem control_stickyQ (psr : Word) (q : Bool) : control (stickyQ psr q) = control psr :=
  control_of_keeps (stickyQ_keeps psr q) (by decide)
@[simp] theorem control_setT (psr : Word) (t : Bool) : control (setT psr t) = control psr :=
  setBit_and_not psr 5 t nonControl (by decide) (by decide)

/-- In User mode an MSR writes the flag byte only (42_status_transfer.md R260). -/
theorem control_mergedStatus {s : State} (mask : BitVec 4) (v : Word) (user : modeOf s.cur.cpsr = modeUser) :
    control (s.mergedStatus mask v) = control s.cur.cpsr := by
  have flagByte : ∀ mask, ~~~(lanesOf mask &&& 0xFF000000) &&& ~~~nonControl = ~~~nonControl := by decide
  rw [State.mergedStatus, statusLanes, if_pos user]
  exact control_of_keeps (mergeLanes_keeps ..) (flagByte mask)

@[simp] theorem Cpu.control_writeResult (k : Cpu) (S : Bool) (rd : Reg) (a : AluResult) :
    control (k.writeResult S rd a).cpsr = control k.cpsr := by
  rw [Cpu.writeResult_cpsr]; split <;> simp
@[simp] theorem Cpu.control_writeProduct (k : Cpu) (S : Bool) (rd : Reg) (v : Word) :
    control (k.writeProduct S rd v).cpsr = control k.cpsr := by
  unfold Cpu.writeProduct; split <;> simp
@[simp] theorem Cpu.control_writeLong (k : Cpu) (S : Bool) (hi lo : Reg) (v : BitVec 64) :
    control (k.writeLong S hi lo v).cpsr = control k.cpsr := by
  unfold Cpu.writeLong; split <;> simp
@[simp] theorem Cpu.control_accumulateQ (k : Cpu) (rd : Reg) (p acc : Word) :
    control (k.accumulateQ rd p acc).cpsr = control k.cpsr := by simp [Cpu.accumulateQ]
@[simp] theorem Cpu.control_writeSaturated (k : Cpu) (rd : Reg) (r : Saturated) :
    control (k.writeSaturated rd r).cpsr = control k.cpsr := by simp [Cpu.writeSaturated]

/-! Outcomes that leave a property, and how chains of operations do. -/

/-- Where the outcome is a next state, it has the property. -/
structure Leaves (P : State → Prop) (r : Result) : Prop where
  next : ∀ t, r = .next t → P t

/-- The same of an operation that also gives a value. -/
structure LeavesVal {α : Type} (P : State → Prop) (r : ValueResult α) : Prop where
  next : ∀ v t, r = .next (v, t) → P t

section
variable {P : State → Prop}

theorem leaves_next {s : State} (h : P s) : Leaves P (.next s) where
  next _ same := Host.Outcome.next.inj same ▸ h

theorem leaves_fault (f : Fault) : Leaves P (.fault f) where
  next t none := by cases none

theorem leaves_refused (r : Refusal) : Leaves P (.refused r) where
  next t none := by cases none

theorem Leaves.thenDo {r : Result} {k : State → Result} (first : Leaves P r)
    (rest : ∀ s, P s → Leaves P (k s)) : Leaves P (thenDo r k) where
  next t done := by
    obtain ⟨s, run, next⟩ := thenDo_eq_next done
    exact (rest s (first.next s run)).next t next

theorem LeavesVal.bindVal {α : Type} {r : ValueResult α} {k : α → State → Result} (first : LeavesVal P r)
    (rest : ∀ v s, P s → Leaves P (k v s)) : Leaves P (bindVal r k) where
  next t done := by
    obtain ⟨v, s, run, next⟩ := bindVal_eq_next done
    exact (rest v s (first.next v s run)).next t next

theorem LeavesVal.mapVal {α β : Type} {r : ValueResult α} {k : α → State → ValueResult β}
    (first : LeavesVal P r) (rest : ∀ v s, P s → LeavesVal P (k v s)) : LeavesVal P (mapVal r k) where
  next w t done := by
    obtain ⟨v, s, run, next⟩ := mapVal_eq_next done
    exact (rest v s (first.next v s run)).next w t next

theorem leavesVal_next {α : Type} {v : α} {s : State} (h : P s) : LeavesVal P (.next (v, s)) where
  next _ _ same := (Prod.mk.inj (Host.Outcome.next.inj same)).2 ▸ h

theorem leaves_refuseIf {p : Bool} {r : Refusal} {k : Result} (h : Leaves P k) : Leaves P (refuseIf p r k) where
  next t done := h.next t (refuseIf_eq_next done).2

theorem leaves_onArm9 {s : State} {k : State → Result} (h : Leaves P (k s)) : Leaves P (onArm9 s k) := by
  rw [onArm9]
  split
  · exact h
  · exact leaves_fault _

theorem leaves_guarded (x : Transfer) {k : Result} (h : Leaves P k) : Leaves P (x.guarded k) :=
  leaves_refuseIf (leaves_refuseIf h)

theorem leaves_doubleGuard {rd : Reg} {k : Result} (h : Leaves P k) : Leaves P (doubleGuard rd k) := by
  rw [doubleGuard]
  split
  · exact leaves_fault _
  · exact leaves_refuseIf h

theorem leaves_coprocGuard {cp : BitVec 4} {s : State} {k : Result} (h : Leaves P k) :
    Leaves P (coprocGuard cp s k) := by
  rw [coprocGuard]
  split
  · exact h
  · exact leaves_fault _

theorem leaves_blockGuarded (b : Block) (user : Bool) (s : State) {k : Result} (h : Leaves P k) :
    Leaves P (b.guarded user s k) := by
  have inner : Leaves P (refuseIf (isPc b.rn) .blockBaseR15 (refuseIf (user && b.W) .blockUserWriteback k)) :=
    leaves_refuseIf (leaves_refuseIf h)
  rw [Block.guarded, emptyGuard]
  split
  · split
    · exact leaves_fault _
    · exact leaves_refuseIf inner
  · exact inner

end

/-! The properties, and what each shared operation does to them. -/

/-- A property that device accesses keep, and changes of the core that runs that keep mode, `I` and `F`. -/
structure KeptByAccess (P : State → Prop) : Prop where
  device : ∀ {s t : State}, P s → KeepsCoresAndClock s t → P t
  core : ∀ {s : State} (f : Cpu → Cpu), P s → control (f s.cur).cpsr = control s.cur.cpsr → P (s.upd f)

/-- A property that what instructions do keeps: besides, an MSR and the copy of an SPSR keep it. -/
structure Kept (P : State → Prop) : Prop extends KeptByAccess P where
  msr : ∀ {s : State} (mask : BitVec 4) (v : Word), P s → P (s.withPsr (s.mergedStatus mask v))
  restore : ∀ {s : State} {v : Word}, P s → s.cur.spsrAt s.cur.bank = some v → P (s.withPsr v)

section
variable {P : State → Prop} (kept : KeptByAccess P) {s : State} (h : P s)
include kept h

theorem KeptByAccess.memRead (addr : Word) (w : Width) (kind : AccessKind) :
    LeavesVal P (memRead addr w kind s) where
  next _ _ read := kept.device h (memRead_keeps read)

theorem KeptByAccess.fetch (addr : Word) (w : Width) : LeavesVal P (fetch addr w s) :=
  (kept.memRead h addr w .fetch).mapVal fun _ _ h => leavesVal_next (kept.core _ h rfl)

theorem KeptByAccess.branchTo (target : Word) : Leaves P (branchTo target s) :=
  (kept.fetch h _ _).bindVal fun _ _ h => (kept.fetch h _ _).bindVal fun _ _ h =>
    leaves_next (kept.core _ h rfl)

end

section
variable {P : State → Prop} (kept : Kept P) {s : State} (h : P s)
include kept h

/-! Advancing and branching. -/

theorem leaves_advanceArm : P (advanceArm s) := kept.core _ h rfl

theorem leaves_advanceThumb : P (advanceThumb s) := kept.core _ h rfl

theorem leaves_finishArm {f : Cpu → Cpu} (same : control (f s.cur).cpsr = control s.cur.cpsr) :
    Leaves P (finishArm f s) := leaves_next (leaves_advanceArm kept (kept.core f h same))

theorem leaves_finishThumb {f : Cpu → Cpu} (same : control (f s.cur).cpsr = control s.cur.cpsr) :
    Leaves P (finishThumb f s) := leaves_next (leaves_advanceThumb kept (kept.core f h same))

theorem leaves_ifCond {cond : Cond} {k : State → Result} (pass : Leaves P (k s)) : Leaves P (ifCond cond s k) := by
  rw [ifCond]
  split
  · exact pass
  · exact leaves_next (leaves_advanceArm kept h)

theorem leaves_ifNv {k : State → Result} (pass : Leaves P (k s)) : Leaves P (ifNv s k) := by
  rw [ifNv]
  split
  · exact pass
  · exact leaves_next (leaves_advanceArm kept h)

theorem leaves_memWrite (addr : Word) (w : Width) (v : Word) : Leaves P (memWrite addr w v s) where
  next _ write := kept.device h (memWrite_keeps write)

theorem leaves_branchTo (target : Word) : Leaves P (branchTo target s) := kept.toKeptByAccess.branchTo h target

theorem leaves_branchExchange (v : Word) : Leaves P (branchExchange v s) :=
  leaves_branchTo kept (kept.core _ h (control_setT ..)) _

theorem leaves_loadPc (v : Word) : Leaves P (loadPc v s) := by
  rw [loadPc]
  split
  · exact leaves_branchTo kept (kept.core _ h (control_setT ..)) _
  · exact leaves_branchTo kept h _

theorem leaves_popPc (v : Word) : Leaves P (popPc v s) := by
  rw [popPc]
  split
  · exact leaves_branchExchange kept h v
  · exact leaves_branchTo kept h _

theorem leaves_returnTo (target : Word) : Leaves P (returnTo target s) := by
  refine Leaves.thenDo ?_ fun s h => leaves_branchTo kept h target
  rw [copySpsr]
  split
  · exact leaves_refused _
  next saved =>
    split
    · exact leaves_next (kept.restore h saved)
    · exact leaves_fault _

/-! Data processing and status transfer. -/

theorem leaves_dpFinish (S : Bool) (rd : Reg) (a : AluResult) : Leaves P (dpFinish S rd a s) := by
  rw [dpFinish]
  split
  · split
    · exact leaves_returnTo kept h _
    · exact leaves_branchTo kept h _
  · exact leaves_finishArm kept h (Cpu.control_writeResult ..)

theorem leaves_dpCompare (rd : Reg) (a : AluResult) : Leaves P (dpCompare rd a s) :=
  leaves_refuseIf (leaves_finishArm kept h (control_setFlags ..))

theorem leaves_writeSpsr (mask : BitVec 4) (v : Word) : P (writeSpsr mask v s) := by
  rw [writeSpsr]
  split
  · exact h
  · exact kept.core _ h (congrArg control (Cpu.setSpsrAt_cpsr ..))

theorem leaves_writePsr (R : Bool) (mask : BitVec 4) (v : Word) : Leaves P (writePsr R mask v s) := by
  cases R with
  | true => exact leaves_next (leaves_advanceArm kept (leaves_writeSpsr kept h mask v))
  | false =>
    rw [writePsr_cpsr]
    refine Leaves.thenDo ?_ fun s h => leaves_next (leaves_advanceArm kept h)
    rw [writeCpsr_eq]
    split
    · exact leaves_fault _
    · split
      · exact leaves_refused _
      · exact leaves_next (kept.msr mask v h)

theorem leaves_psrValue (R : Bool) : P (psrValue R s).2 := by
  rw [psrValue]
  repeat' split
  · exact h
  · exact kept.device h ⟨rfl, rfl, rfl⟩
  · exact h

/-! Transfers of one register, doubles and swaps. -/

theorem leaves_writeBack (ad : Address) (rn : Reg) : P (writeBack ad rn s) := by
  rw [writeBack_eq]
  exact kept.core _ h (congrArg control (Cpu.wroteBack_cpsr ..))

theorem leavesVal_load (kind : LoadKind) (addr : Word) : LeavesVal P (kind.op addr s) := by
  have read (w : Width) := kept.toKeptByAccess.memRead h addr w .data
  cases kind
  case literal | byte => exact read _
  case word | half | signedByte => exact (read _).mapVal fun _ _ => leavesVal_next
  case signedHalf =>
    rw [LoadKind.op, loadSignedHalf]
    split <;> exact (read _).mapVal fun _ _ => leavesVal_next

theorem leaves_loadTo (kind : LoadKind) (ad : Address) (rn rd : Reg) : Leaves P (loadTo kind.op ad rn rd s) := by
  refine (leavesVal_load kept h kind _).bindVal fun v s h => ?_
  have back := leaves_writeBack kept h ad rn
  dsimp only
  split
  · exact leaves_loadPc kept back v
  · exact leaves_finishArm kept back (congrArg control (Cpu.setReg_cpsr ..))

theorem leaves_storeFrom (w : Width) (ad : Address) (rn rd : Reg) : Leaves P (storeFrom w ad rn rd s) :=
  (leaves_memWrite kept h _ _ _).thenDo fun _ h => leaves_next (leaves_advanceArm kept (leaves_writeBack kept h ad rn))

theorem leaves_loadDouble (rn rd : Reg) (ad : Address) : Leaves P (loadDouble rn rd ad s) :=
  (leavesVal_load kept h .literal _).bindVal fun _ _ h =>
    (leavesVal_load kept (leaves_writeBack kept (kept.core _ h (congrArg control (Cpu.setReg_cpsr ..))) ad rn)
      .literal _).bindVal fun _ _ h => leaves_finishArm kept h (congrArg control (Cpu.setReg_cpsr ..))

theorem leaves_storeDouble (rn rd : Reg) (ad : Address) : Leaves P (storeDouble rn rd ad s) :=
  (leaves_memWrite kept h _ _ _).thenDo fun _ h => (leaves_memWrite kept h _ _ _).thenDo fun _ h =>
    leaves_next (leaves_advanceArm kept (leaves_writeBack kept h ad rn))

theorem leaves_swapOp (kind : LoadKind) (w : Width) (cond : Cond) (rn rd rm : Reg) :
    Leaves P (swapOp kind.op w cond rn rd rm s) :=
  leaves_ifCond kept h <| leaves_refuseIf <| (leavesVal_load kept h kind _).bindVal fun _ _ h =>
    (leaves_memWrite kept h _ _ _).thenDo fun _ h => leaves_finishArm kept h (congrArg control (Cpu.setReg_cpsr ..))

end

/-! Block transfers, by induction on the list. -/

section
variable {P : State → Prop} (kept : Kept P)
include kept

theorem leavesVal_loadRegs (user : Bool) (l : List Reg) (addr : Word) (pc : Option Word) {s : State} (h : P s) :
    LeavesVal P (loadRegs user l addr pc s) := by
  induction l generalizing addr pc s with
  | nil => exact leavesVal_next h
  | cons r l ih =>
    refine (leavesVal_load kept h .literal addr).mapVal fun v s h => ?_
    split
    · exact ih _ _ h
    · refine ih _ _ (kept.core _ h ?_)
      split <;> exact congrArg control (Cpu.setRegAt_cpsr ..)

theorem leaves_storeWords (l : List Word) (addr : Word) {s : State} (h : P s) : Leaves P (storeWords l addr s) := by
  induction l generalizing addr s with
  | nil => exact leaves_next h
  | cons v l ih => exact (leaves_memWrite kept h _ _ _).thenDo fun _ h => ih _ h

theorem leaves_blockAdvance (b : Block) {s : State} (h : P s) : P (b.advance s) := by
  rw [b.advance_eq]
  exact kept.core _ h rfl

theorem leaves_landPc (b : Block) (v : Word) {s : State} (h : P s) : Leaves P (b.landPc v s) := by
  rw [Block.landPc]
  split
  · exact leaves_popPc kept h v
  · split
    · exact leaves_returnTo kept h v
    · exact leaves_loadPc kept h v

theorem leaves_blockLoad (b : Block) {s : State} (h : P s) : Leaves P (b.load s) := by
  refine (leavesVal_loadRegs kept _ _ _ _ h).bindVal fun loaded s h => ?_
  have based (v : Word) :
      P (if b.W && ldmWrites s.current b.list b.rn then s.upd fun k => k.setReg b.rn v else s) := by
    split
    · exact kept.core _ h (congrArg control (Cpu.setReg_cpsr ..))
    · exact h
  cases loaded with
  | some v => exact leaves_landPc kept b v (based _)
  | none => exact leaves_next (leaves_blockAdvance kept b (based _))

theorem leaves_blockStore (b : Block) {s : State} (h : P s) : Leaves P (b.store s) := by
  refine (leaves_storeWords kept _ _ h).thenDo fun s h => leaves_next (leaves_blockAdvance kept b ?_)
  split
  · exact kept.core _ h (congrArg control (Cpu.setReg_cpsr ..))
  · exact h

end

end Sys2Proof.Machine
end

section
/-! PROOFS. The frame of the instructions: one rule by family of encodings, then the rule over all of them but
SWI. -/
namespace Sys2Proof.Machine

section
variable {P : State → Prop} (kept : Kept P) {s : State} (h : P s)
include kept h

theorem leaves_cp15Write (opc1 : BitVec 3) (crn crm : BitVec 4) (opc2 : BitVec 3) (v : Word) :
    P (cp15Write opc1 crn crm opc2 v s) := by
  rw [cp15Write]
  split
  case h_4 => exact h
  all_goals exact kept.device h ⟨rfl, rfl, rfl⟩

theorem leaves_cp15Read (opc1 : BitVec 3) (crn crm : BitVec 4) (opc2 : BitVec 3) :
    P (cp15Read opc1 crn crm opc2 s).2 := by
  rw [cp15Read]
  split
  case h_4 => exact kept.device h ⟨rfl, rfl, rfl⟩
  all_goals exact h

/-! The shared operations under their condition. -/

theorem leaves_longMultiply (signed accumulate : Bool) (cond : Cond) (S : Bool) (hi lo rs rm : Reg) :
    Leaves P (longMultiply signed accumulate cond S hi lo rs rm s) :=
  leaves_ifCond kept h <| leaves_refuseIf <| leaves_refuseIf <|
    leaves_finishArm kept h (Cpu.control_writeLong ..)

theorem leaves_saturating (op : Word → Word → Saturated) (cond : Cond) (rn rd rm : Reg) :
    Leaves P (saturating op cond rn rd rm s) :=
  leaves_ifCond kept h <| leaves_onArm9 <| leaves_refuseIf <|
    leaves_finishArm kept h (Cpu.control_writeSaturated ..)

theorem leaves_thumbHigh (rd : Reg) (v : Word) : Leaves P (thumbHigh rd v s) := by
  rw [thumbHigh]
  split
  · exact leaves_branchTo kept h _
  · exact leaves_finishThumb kept h (congrArg control (Cpu.setReg_cpsr ..))

theorem leaves_thumbCompare (a : Cpu → AluResult) : Leaves P (thumbCompare a s) :=
  leaves_finishThumb kept h (control_setFlags ..)

theorem leaves_thumbBranchIf (cond : Cond) (imm8 : BitVec 8) : Leaves P (thumbBranchIf cond imm8 s) := by
  rw [thumbBranchIf]
  split
  · exact leaves_branchTo kept h _
  · exact leaves_next (leaves_advanceThumb kept h)

theorem leaves_linked {f : Cpu → Word} : P (s.upd fun k => k.setReg regLr (f k)) :=
  kept.core _ h (congrArg control (Cpu.setReg_cpsr ..))

theorem leaves_linkedInState {f : Cpu → Word} (thumb : Bool) :
    P (s.upd fun k => { k.setReg regLr (f k) with cpsr := setT (k.setReg regLr (f k)).cpsr thumb }) :=
  kept.core _ h ((control_setT ..).trans (congrArg control (Cpu.setReg_cpsr ..)))

/-! The encodings of one shape. -/

theorem exec_leaves_skipped {i : Instr} (fail : i.passes s.cur.cpsr = false) : Leaves P (exec i s) := by
  obtain ⟨cond, isCond, fails⟩ := exists_cond_of_not_passes fail
  rw [exec_skips_of_cond isCond fails]
  exact leaves_next (leaves_advanceArm kept h)

theorem exec_leaves_thumbShape {i : Instr} {x : ThumbShape} (shape : thumbShape? i = some x) :
    Leaves P (exec i s) := by
  rw [exec_thumbShape s shape, ThumbShape.run]
  split
  · exact leaves_finishThumb kept h (Cpu.control_writeResult ..)
  · exact leaves_thumbCompare kept h _

theorem exec_leaves_thumbLoad {i : Instr} {kind : LoadKind} {addr : Cpu → Word} {rd : LowReg}
    (shape : thumbLoadShape? i = some (kind, addr, rd)) : Leaves P (exec i s) := by
  rw [exec_thumbLoad s shape]
  exact (leavesVal_load kept h kind _).bindVal fun _ _ h =>
    leaves_finishThumb kept h (congrArg control (Cpu.setReg_cpsr ..))

theorem exec_leaves_thumbStore {i : Instr} {w : Width} {addr : Cpu → Word} {rd : LowReg}
    (shape : thumbStoreShape? i = some (w, addr, rd)) : Leaves P (exec i s) := by
  rw [exec_thumbStore s shape]
  exact (leaves_memWrite kept h _ _ _).thenDo fun _ h => leaves_next (leaves_advanceThumb kept h)

theorem exec_leaves_thumbBranch {i : Instr} {x : Cond × BitVec 8} (shape : thumbBranch? i = some x) :
    Leaves P (exec i s) := by
  rw [exec_thumbBranch s shape]
  exact leaves_thumbBranchIf kept h _ _

variable {i : Instr} (pass : i.passes s.cur.cpsr = true)
include pass

theorem exec_leaves_data {x : DataShape} (shape : dataShape? i = some x) : Leaves P (exec i s) := by
  rw [exec_data shape pass]
  exact leaves_refuseIf (leaves_dpFinish kept h ..)

theorem exec_leaves_compare {x : DataShape} (shape : compareShape? i = some x) : Leaves P (exec i s) := by
  rw [exec_compare shape pass]
  exact leaves_refuseIf (leaves_dpCompare kept h ..)

theorem exec_leaves_msr {x : Bool × BitVec 4 × (Cpu → Word)} (shape : msrShape? i = some x) :
    Leaves P (exec i s) := by
  rw [exec_msr shape pass]
  exact leaves_writePsr kept h ..

theorem exec_leaves_load {kind : LoadKind} {x : Transfer} (shape : loadShape? i = some (kind, x)) :
    Leaves P (exec i s) := by
  rw [exec_load pass shape]
  exact leaves_guarded _ (leaves_refuseIf (leaves_loadTo kept h ..))

theorem exec_leaves_store {w : Width} {x : Transfer} (shape : storeShape? i = some (w, x)) :
    Leaves P (exec i s) := by
  rw [exec_store pass shape]
  exact leaves_guarded _ (leaves_storeFrom kept h ..)

theorem exec_leaves_double {load : Bool} {x : Transfer} (shape : doubleShape? i = some (load, x))
    (arm9Code : arm9Only i = true) : Leaves P (exec i s) := by
  cases core : s.current with
  | arm7 =>
    rw [exec_arm9Only_arm7 arm9Code pass core]
    exact leaves_fault _
  | arm9 =>
    rw [exec_double pass shape core]
    refine leaves_doubleGuard (leaves_guarded _ ?_)
    cases load with
    | true => exact leaves_loadDouble kept h ..
    | false => exact leaves_storeDouble kept h ..

theorem exec_leaves_blockLoad {b : Block} (shape : blockLoad? i = some b) : Leaves P (exec i s) := by
  rw [exec_blockLoad pass shape]
  exact leaves_blockGuarded b _ s (leaves_blockLoad kept b h)

theorem exec_leaves_blockStore {b : Block} (shape : blockStore? i = some b) : Leaves P (exec i s) := by
  rw [exec_blockStore pass shape]
  exact leaves_blockGuarded b _ s (leaves_blockStore kept b h)

end

/-- Every instruction but SWI leaves a kept property. -/
theorem exec_leaves {P : State → Prop} (kept : Kept P) {i : Instr} {s : State} (notSwi : isSwi i = false)
    (h : P s) : Leaves P (exec i s) := by
  cases pass : i.passes s.cur.cpsr with
  | false => exact exec_leaves_skipped kept h pass
  | true =>
    cases i
    case swi | tSwi => cases notSwi
    case andShiftImm | eorShiftImm | subShiftImm | rsbShiftImm | addShiftImm | adcShiftImm | sbcShiftImm |
        rscShiftImm | orrShiftImm | movShiftImm | bicShiftImm | mvnShiftImm | andShiftReg | eorShiftReg |
        subShiftReg | rsbShiftReg | addShiftReg | adcShiftReg | sbcShiftReg | rscShiftReg | orrShiftReg |
        movShiftReg | bicShiftReg | mvnShiftReg | andImm | eorImm | subImm | rsbImm | addImm | adcImm | sbcImm |
        rscImm | orrImm | movImm | bicImm | mvnImm => exact exec_leaves_data kept h pass rfl
    case tstShiftImm | teqShiftImm | cmpShiftImm | cmnShiftImm | tstShiftReg | teqShiftReg | cmpShiftReg |
        cmnShiftReg | tstImm | teqImm | cmpImm | cmnImm => exact exec_leaves_compare kept h pass rfl
    case msrReg | msrImm => exact exec_leaves_msr kept h pass rfl
    case ldrImm | ldrReg | ldrbImm | ldrbReg | ldrhReg | ldrhImm | ldrsbReg | ldrsbImm | ldrshReg | ldrshImm =>
      exact exec_leaves_load kept h pass rfl
    case strImm | strReg | strbImm | strbReg | strhReg | strhImm => exact exec_leaves_store kept h pass rfl
    case ldrdReg | ldrdImm | strdReg | strdImm => exact exec_leaves_double kept h pass rfl rfl
    case ldm | tPop | tLdmia => exact exec_leaves_blockLoad kept h pass rfl
    case stm | tPush | tStmia => exact exec_leaves_blockStore kept h pass rfl
    case tLslImm | tLsrImm | tAsrImm | tAddReg | tSubReg | tAddImm3 | tSubImm3 | tMovImm | tCmpImm | tAddImm8 |
        tSubImm8 | tAnd | tEor | tLslReg | tLsrReg | tAsrReg | tAdc | tSbc | tRor | tTst | tNeg | tCmpReg |
        tCmn | tOrr | tBic | tMvn => exact exec_leaves_thumbShape kept h rfl
    case tLdrPc | tLdrReg | tLdrbReg | tLdsb | tLdrhReg | tLdsh | tLdrbImm | tLdrImm | tLdrhImm | tLdrSp =>
      exact exec_leaves_thumbLoad kept h rfl
    case tStrReg | tStrbReg | tStrhReg | tStrbImm | tStrImm | tStrhImm | tStrSp =>
      exact exec_leaves_thumbStore kept h rfl
    case tBeq | tBne | tBcs | tBcc | tBmi | tBpl | tBvs | tBvc | tBhi | tBls | tBge | tBlt | tBgt | tBle =>
      exact exec_leaves_thumbBranch kept h rfl
    all_goals dsimp only [exec]
    case mrs =>
      exact leaves_ifCond kept h <| leaves_refuseIf <|
        leaves_finishArm kept (leaves_psrValue kept h _) (congrArg control (Cpu.setReg_cpsr ..))
    case nop | wfi => exact leaves_ifCond kept h <| leaves_finishArm kept h rfl
    case mul | mla =>
      exact leaves_ifCond kept h <| leaves_refuseIf <| leaves_finishArm kept h (Cpu.control_writeProduct ..)
    case umull | umlal | smull | smlal => exact leaves_longMultiply kept h ..
    case smlaXY | smlaWY =>
      exact leaves_ifCond kept h <| leaves_onArm9 <| leaves_refuseIf <|
        leaves_finishArm kept h (Cpu.control_accumulateQ ..)
    case smulWY | smulXY | clz =>
      exact leaves_ifCond kept h <| leaves_onArm9 <| leaves_refuseIf <|
        leaves_finishArm kept h (congrArg control (Cpu.setReg_cpsr ..))
    case smlalXY =>
      exact leaves_ifCond kept h <| leaves_onArm9 <| leaves_refuseIf <| leaves_refuseIf <|
        leaves_finishArm kept h (Cpu.control_writeLong ..)
    case qadd | qsub | qdadd | qdsub => exact leaves_saturating kept h ..
    case swp => exact leaves_swapOp kept h .word ..
    case swpb => exact leaves_swapOp kept h .byte ..
    case b => exact leaves_ifCond kept h <| leaves_branchTo kept h _
    case bl => exact leaves_ifCond kept h <| leaves_branchTo kept (leaves_linked kept h) _
    case bx => exact leaves_ifCond kept h <| leaves_branchExchange kept h _
    case blxReg =>
      exact leaves_ifCond kept h <| leaves_onArm9 <| leaves_refuseIf <|
        leaves_branchExchange kept (leaves_linked kept h) _
    case blxImm => exact leaves_ifNv kept h <| leaves_branchTo kept (leaves_linkedInState kept h true) _
    case mcr =>
      exact leaves_ifCond kept h <| leaves_onArm9 <| leaves_coprocGuard <|
        leaves_next (leaves_advanceArm kept (leaves_cp15Write kept h ..))
    case mrc =>
      exact leaves_ifCond kept h <| leaves_onArm9 <| leaves_coprocGuard <| leaves_refuseIf <|
        leaves_finishArm kept (leaves_cp15Read kept h ..) (congrArg control (Cpu.setReg_cpsr ..))
    case hintOther | undMultiply | undSwapLoad | undSwapWide | undSwapOdd | undMiscBranch | undMiscClz |
        undMiscTwo | undMiscFourSix | undMiscSeven | undCompareImm | undMedia | undCoprocTransfer |
        undCoprocOp => exact leaves_ifCond kept h <| leaves_fault _
    case undNvLow | undNvCoproc | undNvBlock => exact leaves_ifNv kept h <| leaves_fault _
    case tMul => exact leaves_finishThumb kept h (Cpu.control_writeProduct ..)
    case tAddPc | tAddSp | tAdjustSp | tBlFirst =>
      exact leaves_finishThumb kept h (congrArg control (Cpu.setReg_cpsr ..))
    case tAddHi | tMovHi => exact leaves_thumbHigh kept h ..
    case tCmpHi => exact leaves_refuseIf (leaves_thumbCompare kept h _)
    case tBx => exact leaves_branchExchange kept h _
    case tBlxReg =>
      exact leaves_onArm9 <| leaves_refuseIf <| leaves_branchExchange kept (leaves_linked kept h) _
    case tB => exact leaves_branchTo kept h _
    case tBlSecond => exact leaves_branchTo kept (leaves_linked kept h) _
    case tBlxSecond => exact leaves_onArm9 (leaves_branchTo kept (leaves_linkedInState kept h false) _)
    case tUndB1 | tUndB2 | tUndB6 | tUndB8 | tUndBE | tUndDE => exact leaves_fault _

end Sys2Proof.Machine
end

section
/-! PROOFS. User mode is left by SWI only; the clock never goes back (60_exceptions.md R564, R580, R581). -/
namespace Sys2Proof.Machine

/-! User mode (R580, R581, 42_status_transfer.md R260). -/

/-- The mode, `I` and `F` of the core that runs are those of a status word. -/
def State.HasControl (psr : Word) (s : State) : Prop := control s.cur.cpsr = control psr

theorem State.hasControl_keptByAccess (psr : Word) : KeptByAccess (State.HasControl psr) where
  device h keeps := by
    rw [State.HasControl, keeps.cur]
    exact h
  core f h same := by
    rw [State.HasControl, State.upd_cur]
    exact same.trans h

/-- User mode has no SPSR, so nothing is restored from one. -/
theorem State.hasControl_kept_of_user {psr : Word} (user : modeOf psr = modeUser) :
    Kept (State.HasControl psr) where
  toKeptByAccess := State.hasControl_keptByAccess psr
  msr mask v h := by
    rw [State.HasControl, State.withPsr, State.upd_cur]
    exact (control_mergedStatus mask v ((modeOf_of_control h).trans user)).trans h
  restore {s v} h saved := by
    have bank : s.cur.bank = .usr := by rw [Cpu.bank, modeOf_of_control h, user]; rfl
    exact absurd bank (Cpu.bank_ne_usr_of_spsrAt saved)

theorem modeOf_of_raiseSwi {s t : State} (taken : raiseSwi s = .next t) : modeOf t.cur.cpsr = modeSupervisor := by
  have entered := ((State.hasControl_keptByAccess _).branchTo (rfl : State.HasControl _ _) _).next t taken
  rw [modeOf_of_control entered]
  simp

/-- Settles O9: mode, `I` and `F` of a User-mode state are kept by every instruction but SWI, and by SWI where its
condition fails. -/
theorem userModeIsLeftOnlyBySwi : Obligations.UserModeIsLeftOnlyBySwi := by
  unfold Obligations.UserModeIsLeftOnlyBySwi
  intro i s t user run
  have kept := State.hasControl_kept_of_user user
  have ends (same : State.HasControl s.cur.cpsr t) : modeOf t.cur.cpsr = modeUser ∧
      psrI t.cur.cpsr = psrI s.cur.cpsr ∧ psrF t.cur.cpsr = psrF s.cur.cpsr :=
    ⟨(modeOf_of_control same).trans user, psrI_of_control same, psrF_of_control same⟩
  cases swi : isSwi i with
  | false => exact .inr (ends ((exec_leaves kept swi rfl).next t run))
  | true =>
    cases pass : i.passes s.cur.cpsr with
    | false => exact .inr (ends ((exec_leaves_skipped kept rfl pass).next t run))
    | true => exact .inl ⟨rfl, modeOf_of_raiseSwi (exec_swi swi pass ▸ run)⟩

/-! The clock (R564). -/

/-- The device clock stands at `n`. -/
def State.ClockAt (n : Cycles) (s : State) : Prop := s.sched.now = n

section
variable {n : Cycles}

theorem State.clockAt_kept (n : Cycles) : Kept (State.ClockAt n) where
  device h keeps := keeps.now.trans h
  core _ h _ := h
  msr _ _ h := h
  restore h _ := h

theorem leaves_enterException (mode : BitVec 5) (offset lr : Word) {s : State} (h : s.ClockAt n) :
    Leaves (State.ClockAt n) (enterException mode offset lr s) := by
  refine leaves_branchTo (State.clockAt_kept n) ?_ _
  exact h

/-- No instruction moves the clock. -/
theorem exec_leaves_clock (i : Instr) {s : State} (h : s.ClockAt n) : Leaves (State.ClockAt n) (exec i s) := by
  have kept := State.clockAt_kept n
  cases swi : isSwi i with
  | false => exact exec_leaves kept swi h
  | true =>
    cases pass : i.passes s.cur.cpsr with
    | false => exact exec_leaves_skipped kept h pass
    | true =>
      rw [exec_swi swi pass]
      exact leaves_enterException _ _ _ h

theorem executeNext_leaves_clock {s : State} (h : s.ClockAt n) : Leaves (State.ClockAt n) (executeNext s) := by
  have taken : LeavesVal (State.ClockAt n) (takeOpcode s) :=
    ((State.clockAt_kept n).toKeptByAccess.fetch h _ _).mapVal fun _ _ h => leavesVal_next h
  refine Leaves.thenDo (taken.bindVal fun op s h => ?_) fun _ h => leaves_next h
  rw [dispatchOpcode]
  split
  · exact exec_leaves_clock _ h
  · exact leaves_fault _

theorem cpuStep_leaves_clock {s : State} (h : s.ClockAt n) : Leaves (State.ClockAt n) (cpuStep s) := by
  refine Leaves.thenDo ?_ fun _ h => executeNext_leaves_clock h
  split
  · exact leaves_enterException _ _ _ h
  · exact leaves_next h

theorem runStep_leaves_clock (second : Bool) (budget : Cycles) {s : State} (h : s.ClockAt n) :
    Leaves (State.ClockAt n) (runStep second budget s) := by
  rw [runStep]
  split
  · exact leaves_next h
  · split
    · exact leaves_next h
    · exact cpuStep_leaves_clock h

theorem sliceStep_leaves_clock (second : Bool) {s : State} (h : s.ClockAt n) :
    Leaves (State.ClockAt n) (sliceStep second s) := by
  dsimp only [sliceStep]
  split
  · exact leaves_next h
  · exact leaves_next h

/-! The host's calls but `Reset()` (R575 to R578, 70_reset_and_hazards.md R602 to R605). -/

theorem copyBytes_leaves_clock (c : CoreId) (l : List Byte) (addr : Word) {s : State} (h : s.ClockAt n) :
    Leaves (State.ClockAt n) (copyBytes c l addr s) := by
  induction l generalizing addr s with
  | nil => exact leaves_next h
  | cons b l ih =>
    refine Leaves.thenDo ⟨fun t write => ?_⟩ fun _ h => ih _ h
    exact (congrArg Sched.now (writeAligned_sched write)).trans h

theorem bootCore_leaves_clock (c : CoreId) (entry : Word) {s : State} (h : s.ClockAt n) :
    Leaves (State.ClockAt n) (onCore c (bootCore entry) s) := by
  refine Leaves.thenDo (leaves_branchTo (State.clockAt_kept n) ?_ _) fun _ h => leaves_next h
  exact h

theorem directBoot_leaves_clock {s : State} (h : s.ClockAt n) : Leaves (State.ClockAt n) (directBoot s) := by
  dsimp only [directBoot]
  split
  · exact leaves_fault _
  · refine (copyBytes_leaves_clock _ _ _ h).thenDo fun _ h => (copyBytes_leaves_clock _ _ _ h).thenDo fun _ h => ?_
    refine (bootCore_leaves_clock _ _ ?_).thenDo fun _ h => bootCore_leaves_clock _ _ h
    exact h

theorem beginStep_leaves_clock (N : Cycles) {s : State} (h : s.ClockAt n) :
    Leaves (State.ClockAt n) (beginStep N s) := by
  rw [beginStep]
  split
  · exact leaves_refused _
  · exact leaves_next h

theorem hostCall_leaves_clock {call : HostCall} (notReset : call ≠ .reset) {s : State} (h : s.ClockAt n) :
    Leaves (State.ClockAt n) (hostCall call s) := by
  cases call with
  | reset => exact absurd rfl notReset
  | loadBootRom9 | loadBootRom7 => exact leaves_refuseIf (leaves_next h)
  | loadRom => exact leaves_next h
  | directBoot => exact directBoot_leaves_clock h
  | step N => exact beginStep_leaves_clock N h
  | agents acts => exact ⟨fun _ done => (agentActs_now done).trans h⟩

theorem idleStep_leaves_clock {s : State} (notReset : ∀ rest, s.hostCalls ≠ .reset :: rest) (h : s.ClockAt n) :
    Leaves (State.ClockAt n) (idleStep s) := by
  rw [idleStep]
  split
  · exact beginStep_leaves_clock _ h
  next call rest calls =>
    refine hostCall_leaves_clock ?_ h
    rintro rfl
    exact notReset rest calls

end

/-! The end of a run of the scheduler sets the clock to the later of two times (R566). -/

theorem le_laterOf (a b : Cycles) : a ≤ laterOf a b := by
  rw [laterOf_eq]
  split
  · assumption
  · exact BitVec.le_refl a

theorem now_le_of_fireStep {limit : Cycles} {s t : State} (fired : fireStep limit s = .next t) :
    s.sched.now ≤ t.sched.now := by
  have atLimit {u : State} (same : (Host.Outcome.next (fireStep.fireEnd limit s) : Result) = .next u) :
      s.sched.now ≤ u.sched.now := Host.Outcome.next.inj same ▸ le_laterOf _ _
  rw [fireStep] at fired
  split at fired
  · split at fired
    · rw [(agentPoint_keeps fired).now]
      exact le_laterOf _ _
    · exact atLimit fired
  · exact atLimit fired

/-- Settles O13, by phase: the firing of events alone moves the clock. -/
theorem theClockNeverGoesBack : Obligations.TheClockNeverGoesBack := by
  unfold Obligations.TheClockNeverGoesBack
  intro s t run notReset
  have stays (leaves : Leaves (State.ClockAt s.sched.now) (step s)) : s.sched.now ≤ t.sched.now := by
    rw [leaves.next t run]
    exact BitVec.le_refl _
  cases phase : s.phase with
  | idle => exact stays (step_idle phase ▸ idleStep_leaves_clock (notReset phase) rfl)
  | slice second => exact stays (step_slice phase ▸ sliceStep_leaves_clock second rfl)
  | run second budget => exact stays (step_run phase ▸ runStep_leaves_clock second budget rfl)
  | fire limit => exact now_le_of_fireStep (step_fire phase ▸ run)

end Sys2Proof.Machine
end

section
/-! PROOFS. Memory stays in order: what the map gives lies inside its array, no store reaches a boot ROM
(10_state.md R43, R47, 20_memory.md R81 to R84). -/
namespace Sys2Proof.Machine

/-! The bounds of the arrays (R81). -/

/-- The offset lies inside the array; the size of shared WRAM is that of the mapping (log 7). -/
def MemArray.Holds (arr : MemArray) (off : Nat) : Prop :=
  match arr with
  | .mainRam => off < 0x400000
  | .swram => True
  | .wram7 => off < 0x10000
  | .itcm => off < 0x8000
  | .dtcm => off < 0x4000
  | .bootRom9 => off < 8192
  | .bootRom7 => off < 16384

/-- The array is a boot ROM. -/
def MemArray.IsBootRom (arr : MemArray) : Prop := arr = .bootRom9 ∨ arr = .bootRom7

theorem Memory.inv_iff (m : Memory) :
    m.Inv ↔ m.wf = true ∧ ∀ arr, ∀ p ∈ m.cells arr, arr.Holds p.1 := by
  constructor
  · rintro ⟨wf, main, wram7, itcm, dtcm, boot9, boot7⟩
    refine ⟨wf, fun arr => ?_⟩
    cases arr
    case swram => exact fun _ _ => trivial
    all_goals assumption
  · rintro ⟨wf, inside⟩
    exact ⟨wf, inside .mainRam, inside .wram7, inside .itcm, inside .dtcm, inside .bootRom9, inside .bootRom7⟩

/-- A byte write inside its array keeps memory in order. -/
theorem Memory.Inv.writeByte {m : Memory} (inv : m.Inv) {arr : MemArray} {off : Nat} (v : Byte)
    (holds : arr.Holds off) : (m.writeByte arr off v).Inv := by
  obtain ⟨wf, inside⟩ := m.inv_iff.mp inv
  refine (Memory.inv_iff _).mpr ⟨Memory.wf_writeByte arr off v wf, fun brr p mem => ?_⟩
  rw [Memory.writeByte] at mem
  by_cases same : brr = arr
  · subst same
    rw [Memory.cells_setCells_same] at mem
    obtain old | new := mem_cellWrite mem
    · exact inside brr p old
    · exact new ▸ holds
  · rw [Memory.cells_setCells_ne m _ same] at mem
    exact inside brr p mem

theorem Memory.Inv.write {m : Memory} (inv : m.Inv) {arr : MemArray} {off : Nat} {w : Width} (v : Word)
    (holds : ∀ j < w.bytes, arr.Holds (off + j)) : (m.write arr off w v).Inv := by
  cases w with
  | byte => exact inv.writeByte _ (holds 0 (by decide))
  | half => exact (inv.writeByte _ (holds 0 (by decide))).writeByte _ (holds 1 (by decide))
  | word =>
    exact (((inv.writeByte _ (holds 0 (by decide))).writeByte _ (holds 1 (by decide))).writeByte _
      (holds 2 (by decide))).writeByte _ (holds 3 (by decide))

/-! No other array is written, in whatever form memory is. -/

theorem Memory.readByte_writeByte_ne (m : Memory) {arr brr : MemArray} (off : Nat) (v : Byte) (b : Nat)
    (ne : brr ≠ arr) : (m.writeByte arr off v).readByte brr b = m.readByte brr b := by
  rw [Memory.readByte, Memory.writeByte, Memory.cells_setCells_ne m _ ne, Memory.readByte]

theorem Memory.readByte_write_ne (m : Memory) {arr brr : MemArray} (off : Nat) (w : Width) (v : Word) (b : Nat)
    (ne : brr ≠ arr) : (m.write arr off w v).readByte brr b = m.readByte brr b := by
  cases w <;> simp only [Memory.write, Memory.readByte_writeByte_ne _ _ _ _ ne]

/-- Both boot ROMs read as before. -/
def SameBootRoms (s t : State) : Prop :=
  ∀ arr : MemArray, arr.IsBootRom → ∀ off, t.mem.readByte arr off = s.mem.readByte arr off

theorem SameBootRoms.refl (s : State) : SameBootRoms s s := fun _ _ _ => rfl

theorem SameBootRoms.trans {s t u : State} (h : SameBootRoms s t) (h' : SameBootRoms t u) : SameBootRoms s u :=
  fun arr boot off => (h' arr boot off).trans (h arr boot off)

/-! The map (R81, R83): an aligned address of RAM, as far as an access of the width reaches. -/

theorem bytes_dvd_four (w : Width) : w.bytes ∣ 4 := by cases w <;> decide

/-- An access at a multiple of its width stays in the repetition of the array it begins in. -/
theorem mod_add_lt_of_aligned {w : Width} {a size j : Nat} (aligned : a % w.bytes = 0) (inside : j < w.bytes)
    (pos : 0 < size) (words : 4 ∣ size) : a % size + j < size := by
  obtain ⟨n, size_eq⟩ := (bytes_dvd_four w).trans words
  have base : a % size % w.bytes = 0 := by rw [size_eq, Nat.mod_mul_right_mod, aligned]
  have lt := Nat.mod_lt a pos
  obtain ⟨k, offset⟩ := Nat.dvd_of_mod_eq_zero base
  rw [offset, size_eq] at lt ⊢
  have := Nat.lt_of_mul_lt_mul_left lt
  calc w.bytes * k + j < w.bytes * k + w.bytes := Nat.add_lt_add_left inside _
    _ = w.bytes * (k + 1) := (Nat.mul_succ ..).symm
    _ ≤ w.bytes * n := Nat.mul_le_mul_left _ this

theorem alignTo_mod (w : Width) (a : Word) : (alignTo w a).toNat % w.bytes = 0 := by
  cases w with
  | byte => exact Nat.mod_one _
  | half =>
    rw [alignTo, clearLow_one, BitVec.toNat_shiftLeft, BitVec.toNat_ushiftRight, Nat.shiftLeft_eq,
      Nat.shiftRight_eq_div_pow]
    change _ % 2 = 0
    omega
  | word =>
    rw [alignTo, clearLow_two, BitVec.toNat_shiftLeft, BitVec.toNat_ushiftRight, Nat.shiftLeft_eq,
      Nat.shiftRight_eq_div_pow]
    change _ % 4 = 0
    omega

/-- What the map may say of an address: where it says RAM, the access lies inside the array, which is no ROM. -/
structure Region.Fits (w : Width) (r : Region) : Prop where
  inside : ∀ arr off, r = .ram arr off → ∀ j < w.bytes, arr.Holds (off + j)
  notRom : ∀ arr off, r = .ram arr off → ¬ arr.IsBootRom

theorem Region.fits_ram {w : Width} {arr : MemArray} {off : Nat} (inside : ∀ j < w.bytes, arr.Holds (off + j))
    (notRom : ¬ arr.IsBootRom) : (Region.ram arr off).Fits w where
  inside := by rintro _ _ ⟨⟩; exact inside
  notRom := by rintro _ _ ⟨⟩; exact notRom

theorem Region.fits_of_ne_ram {w : Width} {r : Region} (other : ∀ arr off, r ≠ .ram arr off) : r.Fits w where
  inside arr off same := absurd same (other arr off)
  notRom arr off same := absurd same (other arr off)

theorem decodeSwram_fits (w : Width) (c : CoreId) (a : Word) : (decodeSwram c a).Fits w := by
  rw [decodeSwram]
  split
  · exact Region.fits_ram (fun _ _ => trivial) nofun
  · exact Region.fits_of_ne_ram nofun

section
variable {w : Width} {a : Word} (aligned : a.toNat % w.bytes = 0)
include aligned

theorem decodeArm9Main_fits (inert : Bool) : (decodeArm9Main a inert).Fits w := by
  rw [decodeArm9Main]
  split
  · exact Region.fits_ram (fun j lt => mod_add_lt_of_aligned aligned lt (by decide) (by decide)) nofun
  split
  · exact decodeSwram_fits ..
  repeat' split
  all_goals exact Region.fits_of_ne_ram nofun

theorem decodeArm9_fits (p : Cp15) (inert : Bool) (kind : AccessKind) : (decodeArm9 p inert a kind).Fits w := by
  rw [decodeArm9]
  split
  · exact Region.fits_ram (fun j lt => mod_add_lt_of_aligned aligned lt (by decide) (by decide)) nofun
  split
  next window =>
    have page : 4 ∣ p.dtcmBase.toNat := p.dtcmBase_toNat ▸ Nat.dvd_mul_left_of_dvd (by decide) _
    have distance : (a - p.dtcmBase).toNat % w.bytes = 0 := by
      rw [BitVec.toNat_sub_of_le window.2.2.1]
      exact Nat.mod_eq_zero_of_dvd (Nat.dvd_sub (Nat.dvd_of_mod_eq_zero aligned) ((bytes_dvd_four w).trans page))
    exact Region.fits_ram (fun j lt => mod_add_lt_of_aligned distance lt (by decide) (by decide)) nofun
  · exact decodeArm9Main_fits aligned inert

theorem decodeArm7_fits (inert : Bool) : (decodeArm7 inert a).Fits w := by
  rw [decodeArm7]
  split
  · exact Region.fits_of_ne_ram nofun
  split
  · exact Region.fits_ram (fun j lt => mod_add_lt_of_aligned aligned lt (by decide) (by decide)) nofun
  split
  · split
    · exact Region.fits_ram (fun j lt => mod_add_lt_of_aligned aligned lt (by decide) (by decide)) nofun
    · exact decodeSwram_fits ..
  repeat' split
  all_goals exact Region.fits_of_ne_ram nofun

theorem region_fits (s : State) (c : CoreId) (kind : AccessKind) : (region s c a kind).Fits w := by
  cases c with
  | arm9 => exact decodeArm9_fits aligned ..
  | arm7 => exact decodeArm7_fits aligned ..

end

end Sys2Proof.Machine
end

section
/-! PROOFS. What an access leaves outside the core that runs: the other core and the host's state as before, the
queues, the scheduler and memory in order, the boot ROMs unwritten (10_state.md R20, R47, 60_exceptions.md R569,
R577, R584). -/
namespace Sys2Proof.Machine

/-! The scheduler (R562, R563, R567, R569). -/

theorem Event.before_trans {a b c : Event} (ab : a.before b = true) (bc : b.before c = true) :
    a.before c = true := by
  rw [Event.before_iff] at *
  obtain ab | ⟨ab, seq⟩ := ab <;> obtain bc | ⟨bc, seq'⟩ := bc
  · exact .inl (BitVec.lt_trans ab bc)
  · exact .inl (bc ▸ ab)
  · exact .inl (ab ▸ bc)
  · exact .inr ⟨ab.trans bc, Nat.lt_trans seq seq'⟩

/-- Events of different insertion numbers are in one order or the other. -/
theorem Event.before_of_not_before {a b : Event} (seq : a.seq < b.seq) (not : ¬ b.before a = true) :
    a.before b = true := by
  rw [Event.before_iff] at *
  by_cases same : a.time = b.time
  · exact .inr ⟨same, seq⟩
  · refine .inl (BitVec.lt_of_le_ne (BitVec.not_lt.mp fun later => not (.inl later)) same)

/-- An event numbered after all others goes where its time says, and the list stays sorted. -/
theorem insertEvent_sorted {e : Event} {l : List Event} (sorted : l.Pairwise fun a b => a.before b = true)
    (last : ∀ f ∈ l, f.seq < e.seq) : (insertEvent e l).Pairwise fun a b => a.before b = true := by
  induction l with
  | nil => exact List.pairwise_singleton ..
  | cons g rest ih =>
    obtain ⟨first, others⟩ := List.pairwise_cons.mp sorted
    obtain ⟨lastFirst, lastOthers⟩ := List.forall_mem_cons.mp last
    rw [insertEvent]
    split
    next before =>
      exact List.pairwise_cons.mpr ⟨List.forall_mem_cons.mpr
        ⟨before, fun f mem => Event.before_trans before (first f mem)⟩, sorted⟩
    next notBefore =>
      refine List.pairwise_cons.mpr ⟨fun f mem => ?_, ih others lastOthers⟩
      obtain rfl | mem := mem_insertEvent.mp mem
      · exact Event.before_of_not_before lastFirst notBefore
      · exact first f mem

theorem Sched.Inv.withNew {d : Sched} (inv : d.Inv) {delta : Int} (action : Nat) (h : 0 ≤ delta)
    (fits : d.now.toNat + delta.toNat < 2 ^ 64) : (d.withNew delta action).Inv where
  sorted := insertEvent_sorted inv.sorted inv.numbered
  future e mem := by
    obtain rfl | mem := mem_insertEvent.mp mem
    · have time := Sched.newEvent_time action h fits
      rw [BitVec.le_def]
      change d.now.toNat ≤ _
      omega
    · exact inv.future e mem
  numbered e mem := by
    obtain rfl | mem := mem_insertEvent.mp mem
    · exact Nat.lt_succ_self _
    · exact Nat.lt_succ_of_lt (inv.numbered e mem)
  named e mem := by
    obtain rfl | mem := mem_insertEvent.mp mem
    · rfl
    · exact inv.named e mem

/-- Some of the events are in order where all are, at a time none of them is before. -/
theorem Sched.Inv.withSome {d : Sched} (inv : d.Inv) {l : List Event} (some : l.Sublist d.events) {now : Cycles}
    (future : ∀ e ∈ l, now ≤ e.time) : ({ d with events := l, now := now } : Sched).Inv where
  sorted := inv.sorted.sublist some
  future := future
  numbered e mem := inv.numbered e (some.subset mem)
  named e mem := inv.named e (some.subset mem)

/-! The relation. -/

/-- From `s` to `t` the core that runs may change, and devices as accesses change them: the other core, the
place of the facade and what is the host's are as before, the clock stands, and queues, scheduler and memory stay in
order. -/
structure Outside (s t : State) : Prop where
  current : t.current = s.current
  peer : t.cpu.get s.current.peer = s.cpu.get s.current.peer
  phase : t.phase = s.phase
  rom : t.rom = s.rom
  inert : t.bootromInert = s.bootromInert
  calls : t.hostCalls = s.hostCalls
  now : t.sched.now = s.sched.now
  queue : (∀ c, (s.ipc.get c).q.length ≤ 16) → ∀ c, (t.ipc.get c).q.length ≤ 16
  sched : s.sched.Inv → t.sched.Inv
  mem : s.mem.Inv → t.mem.Inv
  roms : SameBootRoms s t

theorem Outside.refl (s : State) : Outside s s where
  current := rfl
  peer := rfl
  phase := rfl
  rom := rfl
  inert := rfl
  calls := rfl
  now := rfl
  queue := id
  sched := id
  mem := id
  roms := .refl s

theorem Outside.trans {s t u : State} (h : Outside s t) (h' : Outside t u) : Outside s u where
  current := h'.current.trans h.current
  peer := (h.current ▸ h'.peer).trans h.peer
  phase := h'.phase.trans h.phase
  rom := h'.rom.trans h.rom
  inert := h'.inert.trans h.inert
  calls := h'.calls.trans h.calls
  now := h'.now.trans h.now
  queue fit := h'.queue (h.queue fit)
  sched inv := h'.sched (h.sched inv)
  mem inv := h'.mem (h.mem inv)
  roms := h.roms.trans h'.roms

theorem Outside.upd (s : State) (f : Cpu → Cpu) : Outside s (s.upd f) :=
  { Outside.refl s with peer := s.upd_get_peer f }

section
variable {s : State}

theorem Leaves.outside {t : State} {r : Result} (from' : Outside s t) (h : Leaves (Outside t) r) :
    Leaves (Outside s) r := ⟨fun u run => from'.trans (h.next u run)⟩

theorem LeavesVal.outside {α : Type} {t : State} {r : ValueResult α} (from' : Outside s t)
    (h : LeavesVal (Outside t) r) : LeavesVal (Outside s) r := ⟨fun v u run => from'.trans (h.next v u run)⟩

/-! The devices (R521 to R524, R538 to R550). -/

theorem outside_updIrq (c : CoreId) (f : IrqCtl → IrqCtl) : Outside s (updIrq c f s) := { Outside.refl s with }

theorem outside_raiseIf (p : Bool) (c : CoreId) (source : BitVec 5) : Outside s (raiseIf p c source s) := by
  cases p <;> exact { Outside.refl s with }

theorem outside_updIpc (c : CoreId) (f : IpcSide → IpcSide)
    (fits : (s.ipc.get c).q.length ≤ 16 → (f (s.ipc.get c)).q.length ≤ 16) : Outside s (updIpc c f s) where
  __ := Outside.refl s
  queue fit d := by
    rw [updIpc_ipc]
    by_cases same : d = c
    · subst same
      rw [PerCore.get_set_same]
      exact fits (fit d)
    · rw [PerCore.get_set_ne _ _ same]
      exact fit d

theorem outside_fifoPop (c : CoreId) : LeavesVal (Outside s) (fifoPop c s) where
  next v t run := by
    dsimp only [fifoPop] at run
    split at run
    · cases run
    split at run
    · cases run
      exact outside_updIpc _ _ id
    next word rest queue =>
      cases run
      have shorter : Outside s (updIpc c.peer (fun i => { i with q := rest }) s) :=
        outside_updIpc _ _ fun fit => by
          rw [queue] at fit
          exact Nat.le_of_succ_le fit
      exact (shorter.trans (outside_updIpc _ _ id)).trans (outside_raiseIf ..)

theorem outside_fifoPush (c : CoreId) (v : Word) : Leaves (Outside s) (fifoPush c v s) := by
  dsimp only [fifoPush]
  split
  · exact leaves_refused _
  split
  · exact leaves_next (outside_updIpc _ _ id)
  next notFull =>
    have room : (s.ipc.get c).q.length < 16 := Nat.not_le.mp fun full => notFull (decide_eq_true full)
    refine leaves_next ((outside_updIpc _ _ fun _ => ?_).trans (outside_raiseIf ..))
    rw [List.length_append]
    exact room

theorem outside_fifoCntWriteLow (c : CoreId) (v : Word) : Outside s (fifoCntWriteLow c v s) := by
  refine (outside_updIpc _ _ fun fit => ?_).trans (outside_raiseIf ..)
  dsimp only
  split
  · exact Nat.zero_le _
  · exact fit

theorem outside_fifoCntWriteHigh (c : CoreId) (v : Word) : Outside s (fifoCntWriteHigh c v s) :=
  (outside_updIpc _ _ id).trans (outside_raiseIf ..)

theorem outside_fifoCntWrite (c : CoreId) (v : Word) (lanes : BitVec 4) :
    Outside s (fifoCntWrite c v lanes s) := by
  have low : Outside s (if lanes.getLsbD 0 then fifoCntWriteLow c v s else s) := by
    split
    · exact outside_fifoCntWriteLow c v
    · exact .refl s
  dsimp only [fifoCntWrite]
  split
  · exact low.trans (outside_fifoCntWriteHigh c v)
  · exact low

theorem outside_ipcSyncWrite (c : CoreId) (v : Word) (lanes : BitVec 4) :
    Outside s (ipcSyncWrite c v lanes s) := by
  rw [ipcSyncWrite]
  split
  · exact (outside_updIpc _ _ id).trans (outside_raiseIf ..)
  · exact .refl s

theorem outside_regRead (c : CoreId) (r : IoReg) : LeavesVal (Outside s) (regRead c r s) := by
  cases r
  case fifoRecv => exact outside_fifoPop c
  all_goals exact leavesVal_next (.refl s)

theorem outside_regWrite (c : CoreId) (r : IoReg) (v : Word) (lanes : BitVec 4) :
    Leaves (Outside s) (regWrite c r v lanes s) := by
  cases r
  case ipcSync => exact leaves_next (outside_ipcSyncWrite ..)
  case fifoCnt => exact leaves_next (outside_fifoCntWrite ..)
  case fifoSend => exact outside_fifoPush c v
  case fifoRecv => exact leaves_next (.refl s)
  case ime => exact regWrite_ime c v lanes s ▸ leaves_next (outside_updIrq ..)
  case ie | iff => exact leaves_next (outside_updIrq ..)

/-! The bus and the agents (20_memory.md R72, R73, R85, R88, R577). -/

theorem outside_draw : Outside s (draw s).2 := { Outside.refl s with }

theorem outside_externalRead (w : Width) : LeavesVal (Outside s) (externalRead w s) := leavesVal_next outside_draw

theorem outside_readAligned (c : CoreId) (a : Word) (w : Width) (kind : AccessKind) :
    LeavesVal (Outside s) (readAligned c a w kind s) := by
  rw [readAligned]
  split
  case h_3 =>
    rw [ioRead]
    split
    · exact (outside_regRead ..).mapVal fun _ _ read => leavesVal_next read
    · exact outside_externalRead w
  case h_4 => exact outside_externalRead w
  all_goals exact leavesVal_next (.refl s)

/-- A write at an aligned address of RAM stays inside its array. -/
theorem outside_memWritten {c : CoreId} {a : Word} {w : Width} {arr : MemArray} {off : Nat} (v : Word)
    (aligned : a.toNat % w.bytes = 0) (ram : region s c a .data = .ram arr off) :
    Outside s { s with mem := s.mem.write arr off w v } where
  __ := Outside.refl s
  mem inv := inv.write v ((region_fits aligned s c .data).inside arr off ram)
  roms brr boot b := by
    refine Memory.readByte_write_ne _ _ _ _ _ ?_
    rintro rfl
    exact (region_fits aligned s c .data).notRom brr off ram boot

theorem outside_writeAligned (c : CoreId) {a : Word} {w : Width} (v : Word) (aligned : a.toNat % w.bytes = 0) :
    Leaves (Outside s) (writeAligned c a w v s) := by
  rw [writeAligned]
  split
  case h_1 ram => exact leaves_next (outside_memWritten v aligned ram)
  case h_3 =>
    rw [ioWrite]
    split
    · exact outside_regWrite ..
    · exact leaves_next (.refl s)
  all_goals exact leaves_next (.refl s)

theorem outside_busWrite (c : CoreId) (addr : Word) (w : Width) (v : Word) :
    Leaves (Outside s) (busWrite c addr w v s) := outside_writeAligned c v (alignTo_mod w addr)

theorem outside_schedAdd (delta : Int) (action : Nat) : Leaves (Outside s) (schedAdd delta action s) := by
  by_cases negative : delta < 0
  · exact schedAdd_negative action s negative ▸ leaves_next (.refl s)
  by_cases fits : s.sched.now.toNat + delta.toNat < 2 ^ 64
  · rw [schedAdd_fits action (Int.not_lt.mp negative) fits]
    exact leaves_next { Outside.refl s with sched := fun inv => inv.withNew action (Int.not_lt.mp negative) fits }
  · rw [schedAdd_overflows action (Int.not_lt.mp negative) (Nat.not_lt.mp fits)]
    exact leaves_refused _

theorem outside_schedCancel (token : Token) : Outside s (schedCancel token s) where
  __ := Outside.refl s
  sched inv := inv.withSome (List.filter_sublist ..) fun e mem => inv.future e (List.mem_of_mem_filter mem)

theorem outside_agentAct (act : AgentAct) : Leaves (Outside s) (agentAct act s) := by
  cases act with
  | raise c source => exact leaves_next (outside_raiseIf true c source)
  | add delta action => exact outside_schedAdd delta action
  | cancel token => exact leaves_next (outside_schedCancel token)
  | busRead c addr w => exact (outside_readAligned ..).bindVal fun _ _ read => leaves_next read
  | busWrite c addr w v => exact outside_busWrite ..

theorem outside_agentActs (acts : List AgentAct) : Leaves (Outside s) (agentActs acts s) := by
  induction acts generalizing s with
  | nil => exact leaves_next (.refl s)
  | cons act rest ih => exact (outside_agentAct act).thenDo fun _ first => ih.outside first

theorem outside_agentPoint : Leaves (Outside s) (agentPoint s) := by
  rw [agentPoint_eq]
  have advanced : Outside s { s with agentTape := s.agentTape.tail } := { Outside.refl s with }
  exact (outside_agentActs _).outside advanced

theorem outside_memRead (addr : Word) (w : Width) (kind : AccessKind) :
    LeavesVal (Outside s) (memRead addr w kind s) where
  next v t run := by
    obtain ⟨_, u, read, rest⟩ := mapVal_eq_next run
    have access := (outside_readAligned ..).next _ _ read
    split at rest
    · obtain ⟨_, acts, same⟩ := thenVal_eq_next rest
      cases same
      exact access.trans (outside_agentPoint.next _ acts)
    · cases rest
      exact access

theorem outside_memWrite (addr : Word) (w : Width) (v : Word) : Leaves (Outside s) (memWrite addr w v s) := by
  refine (outside_writeAligned _ v (alignTo_mod w addr)).thenDo fun _ access => ?_
  split
  · exact outside_agentPoint.outside access
  · exact leaves_next access

theorem outside_cp15Write (opc1 : BitVec 3) (crn crm : BitVec 4) (opc2 : BitVec 3) (v : Word) :
    Outside s (cp15Write opc1 crn crm opc2 v s) := by
  rw [cp15Write]
  split
  all_goals exact { Outside.refl s with }

theorem outside_cp15Read (opc1 : BitVec 3) (crn crm : BitVec 4) (opc2 : BitVec 3) :
    Outside s (cp15Read opc1 crn crm opc2 s).2 := by
  rw [cp15Read]
  split
  case h_4 => exact outside_draw
  all_goals exact .refl s

end

end Sys2Proof.Machine
end

section
/-! PROOFS. What an instruction may do to the core that runs: before it ends, registers, flags and what MSR may
write; at its end an advance or a reload of the pipeline, which leave the core in order (10_state.md R23, R28, R29,
R32, R47). -/
namespace Sys2Proof.Machine

/-! Status words. -/

/-- A change of the status word keeps the mode legal (R23), and Q set unless the instruction `rewrites` it (R32). -/
structure StatusStep (rewrites : Bool) (old new : Word) : Prop where
  valid : validMode (modeOf old) = true → validMode (modeOf new) = true
  sticky : rewrites = false → psrQ old = true → psrQ new = true

section
variable {rewrites : Bool} {old new psr : Word}

theorem StatusStep.refl (rewrites : Bool) (psr : Word) : StatusStep rewrites psr psr := ⟨id, fun _ => id⟩

theorem StatusStep.trans (h : StatusStep rewrites old new) (h' : StatusStep rewrites new psr) :
    StatusStep rewrites old psr :=
  ⟨fun valid => h'.valid (h.valid valid), fun keeps set => h'.sticky keeps (h.sticky keeps set)⟩

theorem StatusStep.of_mode (mode : modeOf new = modeOf old) (sticky : psrQ old = true → psrQ new = true) :
    StatusStep rewrites old new := ⟨fun valid => mode ▸ valid, fun _ => sticky⟩

/-- A status word of a legal mode may take the place of another where Q is not watched. -/
theorem StatusStep.rewritten (rewrite : rewrites = true) (valid : validMode (modeOf new) = true) :
    StatusStep rewrites old new := ⟨fun _ => valid, fun keeps => absurd (rewrite.symm.trans keeps) (by decide)⟩

/-- Bits outside a mask are as before. -/
theorem getLsbD_of_keeps {a b m : Word} (keeps : a &&& ~~~m = b &&& ~~~m) {i : Nat}
    (outside : (~~~m).getLsbD i = true) : a.getLsbD i = b.getLsbD i := by
  have bit := congrArg (BitVec.getLsbD · i) keeps
  simpa only [BitVec.getLsbD_and, outside, Bool.and_true] using bit

theorem psrQ_setT (psr : Word) (t : Bool) : psrQ (setT psr t) = psrQ psr :=
  (getLsbD_setBit psr 5 t (by decide) 27).trans (if_neg (by decide))

theorem StatusStep.setT (psr : Word) (t : Bool) : StatusStep rewrites psr (setT psr t) :=
  .of_mode (modeOf_setT psr t) fun set => (psrQ_setT psr t).trans set

/-- The status word of an exception entry (60_exceptions.md R504). -/
theorem StatusStep.entered {mode : BitVec 5} (valid : validMode mode = true) (psr : Word) :
    StatusStep rewrites psr (Machine.setT (setI (setMode psr mode) true) false) where
  valid _ := by rwa [modeOf_setT, modeOf_setI, modeOf_setMode]
  sticky _ set := (getLsbD_of_keeps (entered_keeps psr mode) (by decide)).trans set

end

/-! Changes of a core before its instruction ends. -/

/-- The pipeline, the counter and `T` are as before, and the status word takes a step. -/
structure Cpu.Within (rewrites : Bool) (k l : Cpu) : Prop where
  r15 : l.r15 = k.r15
  pipe0 : l.pipe0 = k.pipe0
  pipe1 : l.pipe1 = k.pipe1
  cyc : l.cyc = k.cyc
  thumb : l.thumb = k.thumb
  status : StatusStep rewrites k.cpsr l.cpsr

section
variable {rewrites : Bool} {k l m : Cpu}

theorem Cpu.Within.refl (rewrites : Bool) (k : Cpu) : k.Within rewrites k := ⟨rfl, rfl, rfl, rfl, rfl, .refl ..⟩

theorem Cpu.Within.trans (h : k.Within rewrites l) (h' : l.Within rewrites m) : k.Within rewrites m where
  r15 := h'.r15.trans h.r15
  pipe0 := h'.pipe0.trans h.pipe0
  pipe1 := h'.pipe1.trans h.pipe1
  cyc := h'.cyc.trans h.cyc
  thumb := h'.thumb.trans h.thumb
  status := h.status.trans h'.status

theorem Cpu.Within.withPsr {psr : Word} (thumb : psrT psr = psrT k.cpsr) (status : StatusStep rewrites k.cpsr psr) :
    k.Within rewrites { k with cpsr := psr } := ⟨rfl, rfl, rfl, rfl, thumb, status⟩

/-- Flags outside Q are free. -/
theorem Cpu.Within.withFlags {psr mask : Word} (keeps : psr &&& ~~~mask = k.cpsr &&& ~~~mask)
    (flags : ~~~mask &&& ~~~bitsNZCV = ~~~bitsNZCV) : k.Within rewrites { k with cpsr := psr } := by
  have low : psr &&& ~~~bitsNZCV = k.cpsr &&& ~~~bitsNZCV := by
    rw [← flags, ← BitVec.and_assoc, keeps, BitVec.and_assoc]
  refine .withPsr (getLsbD_of_keeps low (by decide)) (.of_mode ?_ fun set => ?_)
  · exact modeOf_of_control (control_of_keeps low (by decide))
  · exact (getLsbD_of_keeps low (by decide)).trans set

theorem Cpu.Within.withStickyQ (q : Bool) : k.Within rewrites { k with cpsr := stickyQ k.cpsr q } := by
  refine .withPsr (getLsbD_of_keeps (stickyQ_keeps k.cpsr q) (by decide)) (.of_mode ?_ fun set => ?_)
  · exact modeOf_of_control (control_stickyQ k.cpsr q)
  · rw [psrQ_stickyQ, set, Bool.true_or]

theorem Cpu.within_setRegAt (b : Bank) (i : Reg) (v : Word) : k.Within rewrites (k.setRegAt b i v) := by
  unfold Cpu.setRegAt
  split <;> exact { Cpu.Within.refl rewrites k with }

theorem Cpu.within_setReg (i : Reg) (v : Word) : k.Within rewrites (k.setReg i v) := Cpu.within_setRegAt ..

theorem Cpu.within_setSpsrAt (b : Bank) (v : Word) : k.Within rewrites (k.setSpsrAt b v) := by
  rw [Cpu.setSpsrAt_eq]
  exact { Cpu.Within.refl rewrites k with }

theorem Cpu.within_wroteBack (ad : Address) (rn : Reg) : k.Within rewrites (k.wroteBack ad rn) := by
  unfold Cpu.wroteBack
  split
  · exact Cpu.within_setReg ..
  · exact .refl ..

theorem Cpu.within_setFlags (a : AluResult) : k.Within rewrites { k with cpsr := setFlags k.cpsr a } :=
  .withFlags (setFlags_keeps_nzcv ..) (by decide)

theorem Cpu.within_writeResult (S : Bool) (rd : Reg) (a : AluResult) : k.Within rewrites (k.writeResult S rd a) := by
  unfold Cpu.writeResult
  split
  · exact (Cpu.within_setReg rd a.value).trans (Cpu.within_setFlags a)
  · exact Cpu.within_setReg ..

theorem Cpu.within_writeProduct (S : Bool) (rd : Reg) (v : Word) : k.Within rewrites (k.writeProduct S rd v) := by
  unfold Cpu.writeProduct
  split
  · exact (Cpu.within_setReg rd v).trans (.withFlags (setNZ_keeps ..) (by decide))
  · exact Cpu.within_setReg ..

theorem Cpu.within_writeLong (S : Bool) (hi lo : Reg) (v : BitVec 64) : k.Within rewrites (k.writeLong S hi lo v) := by
  have written := (Cpu.within_setReg (rewrites := rewrites) (k := k) lo (v.extractLsb' 0 32)).trans
    (Cpu.within_setReg hi (v.extractLsb' 32 32))
  unfold Cpu.writeLong
  split
  · exact written.trans (.withFlags (setNZ64_keeps ..) (by decide))
  · exact written

theorem Cpu.within_accumulateQ (rd : Reg) (p acc : Word) : k.Within rewrites (k.accumulateQ rd p acc) :=
  (Cpu.within_setReg ..).trans (.withStickyQ _)

theorem Cpu.within_writeSaturated (rd : Reg) (r : Saturated) : k.Within rewrites (k.writeSaturated rd r) :=
  (Cpu.within_setReg ..).trans (.withStickyQ _)

/-- A status word that `WritePSR` lets through (42_status_transfer.md R251). -/
theorem Cpu.within_mergedStatus {s : State} {mask : BitVec 4} {v : Word} (rewrite : rewrites = true)
    (valid : ¬ (statusLanes s.cur.cpsr mask &&& 0xFF ≠ 0 ∧ validMode (modeOf (s.mergedStatus mask v)) = false))
    (sameT : ¬ (statusLanes s.cur.cpsr mask &&& 0xFF ≠ 0 ∧ psrT (s.mergedStatus mask v) ≠ psrT s.cur.cpsr)) :
    s.cur.Within rewrites { s.cur with cpsr := s.mergedStatus mask v } := by
  by_cases control : statusLanes s.cur.cpsr mask &&& 0xFF = 0
  · have outside : ∀ i, i < 8 → (~~~(statusLanes s.cur.cpsr mask)).getLsbD i = true := fun i hi => by
      have inByte : ∀ i, i < 8 → (0xFF : Word).getLsbD i = true := by decide
      have bit := congrArg (BitVec.getLsbD · i) control
      simp only [BitVec.getLsbD_and, inByte i hi, Bool.and_true] at bit
      rw [BitVec.getLsbD_not, bit.trans BitVec.getLsbD_zero, decide_eq_true (show i < 32 by omega)]
      rfl
    have same {i : Nat} (hi : i < 8) : (s.mergedStatus mask v).getLsbD i = s.cur.cpsr.getLsbD i :=
      getLsbD_of_keeps (mergeLanes_keeps ..) (outside i hi)
    refine .withPsr (same (by decide)) ⟨fun legal => ?_, fun keeps => absurd (rewrite.symm.trans keeps) (by decide)⟩
    have mode : modeOf (s.mergedStatus mask v) = modeOf s.cur.cpsr := BitVec.eq_of_getLsbD_eq fun i hi => by
      simp only [modeOf, BitVec.getLsbD_extractLsb', Nat.zero_add, same (show i < 8 by omega)]
    rwa [mode]
  · exact .withPsr (not_not.mp fun ne => sameT ⟨control, ne⟩)
      (.rewritten rewrite (Bool.not_eq_false _ ▸ fun invalid => valid ⟨control, invalid⟩))

end

/-! A core in order, as its program counter moves (R28). -/

theorem Cpu.stride_cases (k : Cpu) :
    (k.thumb = true ∧ k.stride.toNat = 2) ∨ (k.thumb = false ∧ k.stride.toNat = 4) := by
  unfold Cpu.stride
  cases k.thumb <;> decide

/-- An aligned `r15` stays aligned past an instruction of the width of the state, and past a word in either
state. -/
theorem Cpu.Inv.advance {k l : Cpu} (inv : k.Inv) {width : Word} (r15 : l.r15 = k.r15 + width)
    (step : width = 4 ∨ (width = 2 ∧ k.thumb = true)) (pipe0 : l.pipe0 = k.pipe0) (pipe1 : l.pipe1 = k.pipe1)
    (thumb : l.thumb = k.thumb) (mode : validMode (modeOf l.cpsr) = true) : l.Inv where
  mode := mode
  slots := by rw [thumb, pipe0, pipe1]; exact inv.slots
  aligned := by
    have aligned := inv.aligned
    have stride : l.stride = k.stride := by rw [Cpu.stride, Cpu.stride, thumb]
    rw [stride, r15, BitVec.toNat_add]
    obtain ⟨inThumb, two⟩ | ⟨inArm, four⟩ := k.stride_cases
    · rw [two] at aligned ⊢
      have even : width.toNat % 2 = 0 := by obtain rfl | ⟨rfl, -⟩ := step <;> rfl
      omega
    · obtain rfl | ⟨-, inThumb⟩ := step
      · rw [four] at aligned ⊢
        have : (4 : Word).toNat = 4 := rfl
        omega
      · exact absurd (inArm.symm.trans inThumb) (by decide)

/-! Fetching (20_memory.md R72, 40_execution_and_shifter.md R172). -/

theorem Memory.read_half_lt (m : Memory) (arr : MemArray) (off : Nat) : (m.read arr off .half).toNat < 65536 := by
  rw [Memory.read, BitVec.toNat_setWidth]
  exact Nat.lt_of_le_of_lt (Nat.mod_le ..) (BitVec.isLt _)

theorem truncWidth_half_lt (v : Word) : (truncWidth .half v).toNat < 65536 := by
  rw [truncWidth_toNat]
  exact Nat.mod_lt _ (by decide)

/-- A read of a halfword gives a halfword, wherever it is. -/
theorem readAligned_half_lt {c : CoreId} {a v : Word} {kind : AccessKind} {s t : State}
    (run : readAligned c a .half kind s = .next (v, t)) : v.toNat < 65536 := by
  rw [readAligned] at run
  split at run
  case h_3 =>
    rw [ioRead] at run
    split at run
    · obtain ⟨_, _, -, same⟩ := mapVal_eq_next run
      cases same
      exact truncWidth_half_lt _
    · cases run
      exact truncWidth_half_lt _
  case h_4 =>
    cases run
    exact truncWidth_half_lt _
  case h_5 =>
    cases run
    exact truncWidth_half_lt _
  all_goals
    cases run
    exact Memory.read_half_lt ..

theorem memRead_half_lt {addr v : Word} {kind : AccessKind} {s t : State}
    (run : memRead addr .half kind s = .next (v, t)) : v.toNat < 65536 := by
  obtain ⟨_, _, read, rest⟩ := mapVal_eq_next run
  split at rest
  · obtain ⟨_, -, same⟩ := thenVal_eq_next rest
    cases same
    exact readAligned_half_lt read
  · cases rest
    exact readAligned_half_lt read

/-- A fetch of `v` sets the latch, and nothing else of the core that runs. -/
structure Fetched (w : Width) (v : Word) (s t : State) : Prop where
  outside : Outside s t
  core : t.cur = { s.cur with lastFetch := v }
  half : w = .half → v.toNat < 65536

theorem fetch_fetched {addr v : Word} {w : Width} {s t : State} (run : fetch addr w s = .next (v, t)) :
    Fetched w v s t := by
  obtain ⟨_, u, read, same⟩ := mapVal_eq_next run
  cases same
  refine ⟨((outside_memRead ..).next _ _ read).trans (.upd ..), ?_, ?_⟩
  · rw [State.upd_cur, (memRead_keeps read).cur]
  · rintro rfl
    exact memRead_half_lt read

/-! Reloading the pipeline (40_execution_and_shifter.md R175). -/

/-- After `pc <- target` from `s`: outside the core as an access leaves it, the status word and the counter as
before, and a core of a legal mode in order. -/
structure Reloaded (s t : State) : Prop where
  outside : Outside s t
  cpsr : t.cur.cpsr = s.cur.cpsr
  cyc : t.cur.cyc = s.cur.cyc
  order : validMode (modeOf s.cur.cpsr) = true → t.cur.Inv

theorem Cpu.fetchWidth_bytes (k : Cpu) : k.fetchWidth.bytes = k.stride.toNat := by
  unfold Cpu.fetchWidth Cpu.stride
  cases k.thumb <;> rfl

/-- Two instructions past an aligned target is aligned. -/
theorem reloaded_aligned (k : Cpu) (target : Word) :
    (alignTo k.fetchWidth target + k.stride + k.stride).toNat % k.stride.toNat = 0 := by
  have base := alignTo_mod k.fetchWidth target
  rw [k.fetchWidth_bytes] at base
  rw [BitVec.toNat_add, BitVec.toNat_add]
  obtain ⟨-, width⟩ | ⟨-, width⟩ := k.stride_cases
  all_goals
    rw [width] at base ⊢
    omega

theorem branchTo_reloads (target : Word) (s : State) : Leaves (Reloaded s) (branchTo target s) where
  next t run := by
    dsimp only [branchTo] at run
    obtain ⟨p0, u, fetch0, run⟩ := bindVal_eq_next run
    obtain ⟨p1, u', fetch1, same⟩ := bindVal_eq_next run
    cases same
    have first := fetch_fetched fetch0
    have second := fetch_fetched fetch1
    have core : u'.cur = { s.cur with lastFetch := p1 } := by rw [second.core, first.core]
    refine ⟨(first.outside.trans second.outside).trans (.upd ..), by rw [State.upd_cur, core],
      by rw [State.upd_cur, core], fun valid => ?_⟩
    rw [State.upd_cur, core]
    refine ⟨valid, reloaded_aligned s.cur target, fun thumb => ?_⟩
    have half : s.cur.fetchWidth = .half := if_pos thumb
    exact ⟨first.half half, second.half half⟩

end Sys2Proof.Machine
end

section
/-! PROOFS. The shared operations of the instructions, from the middle of an instruction to its end (10_state.md
R20, R32, R47). -/
namespace Sys2Proof.Machine

/-- Instruction `i`, begun in `s`, may have come to `t` and not yet ended. -/
structure Midway (i : Instr) (s t : State) : Prop where
  outside : Outside s t
  core : s.cur.Within (rewritesStatus i) t.cur

/-- What the end `t` of instruction `i` from `s` may be. A core in order stays so where Thumb instructions run in
Thumb state. -/
structure Executed (i : Instr) (s t : State) : Prop where
  outside : Outside s t
  cyc : t.cur.cyc = s.cur.cyc
  status : StatusStep (rewritesStatus i) s.cur.cpsr t.cur.cpsr
  order : ((encode i).isThumb = true → s.cur.thumb = true) → s.cur.Inv → t.cur.Inv

/-- An operation that ends in what another goes on with. -/
theorem Leaves.chain {P Q : State → Prop} {r : Result} {k : State → Result} (first : Leaves P r)
    (rest : ∀ s, P s → Leaves Q (k s)) : Leaves Q (Machine.thenDo r k) where
  next t done := by
    obtain ⟨s, run, next⟩ := thenDo_eq_next done
    exact (rest s (first.next s run)).next t next

theorem LeavesVal.chain {α : Type} {P Q : State → Prop} {r : ValueResult α} {k : α → State → Result}
    (first : LeavesVal P r) (rest : ∀ v s, P s → Leaves Q (k v s)) : Leaves Q (Machine.bindVal r k) where
  next t done := by
    obtain ⟨v, s, run, next⟩ := bindVal_eq_next done
    exact (rest v s (first.next v s run)).next t next

theorem Midway.refl (i : Instr) (s : State) : Midway i s s := ⟨.refl s, .refl ..⟩

section
variable {i : Instr} {begun s : State} (h : Midway i begun s)
include h

/-! Accesses and changes of the core. -/

theorem Midway.upd {f : Cpu → Cpu} (within : s.cur.Within (rewritesStatus i) (f s.cur)) :
    Midway i begun (s.upd f) where
  outside := h.outside.trans (.upd s f)
  core := by
    rw [State.upd_cur]
    exact h.core.trans within

/-- A device is touched, the core that runs is not. -/
theorem Midway.touch {t : State} (outside : Outside s t) (cur : t.cur = s.cur) : Midway i begun t where
  outside := h.outside.trans outside
  core := cur ▸ h.core

theorem midway_memRead (addr : Word) (w : Width) (kind : AccessKind) :
    LeavesVal (Midway i begun) (memRead addr w kind s) where
  next _ _ read := h.touch ((outside_memRead ..).next _ _ read) (memRead_keeps read).cur

theorem midway_memWrite (addr : Word) (w : Width) (v : Word) : Leaves (Midway i begun) (memWrite addr w v s) where
  next _ write := h.touch ((outside_memWrite ..).next _ write) (memWrite_keeps write).cur

theorem midway_load (kind : LoadKind) (addr : Word) : LeavesVal (Midway i begun) (kind.op addr s) := by
  have read (w : Width) := midway_memRead h addr w .data
  cases kind
  case literal | byte => exact read _
  case word | half | signedByte => exact (read _).mapVal fun _ _ => leavesVal_next
  case signedHalf =>
    rw [LoadKind.op, loadSignedHalf]
    split <;> exact (read _).mapVal fun _ _ => leavesVal_next

theorem midway_writeBack (ad : Address) (rn : Reg) : Midway i begun (writeBack ad rn s) := by
  rw [writeBack_eq]
  exact h.upd (Cpu.within_wroteBack ..)

theorem midway_setReg (r : Reg) {f : Cpu → Word} : Midway i begun (s.upd fun k => k.setReg r (f k)) :=
  h.upd (Cpu.within_setReg ..)

theorem midway_psrValue (R : Bool) : Midway i begun (psrValue R s).2 := by
  rw [psrValue]
  repeat' split
  · exact h
  · exact h.touch outside_draw rfl
  · exact h

theorem midway_cp15Read (opc1 : BitVec 3) (crn crm : BitVec 4) (opc2 : BitVec 3) :
    Midway i begun (cp15Read opc1 crn crm opc2 s).2 := by
  refine h.touch (outside_cp15Read ..) ?_
  rw [cp15Read]
  split <;> rfl

theorem midway_cp15Write (opc1 : BitVec 3) (crn crm : BitVec 4) (opc2 : BitVec 3) (v : Word) :
    Midway i begun (cp15Write opc1 crn crm opc2 v s) := by
  refine h.touch (outside_cp15Write ..) ?_
  rw [cp15Write]
  split <;> rfl

theorem midway_writeSpsr (mask : BitVec 4) (v : Word) : Midway i begun (writeSpsr mask v s) := by
  rw [writeSpsr]
  split
  · exact h
  · exact h.upd (Cpu.within_setSpsrAt ..)

theorem midway_writeCpsr (mask : BitVec 4) (v : Word) (rewrites : rewritesStatus i = true) :
    Leaves (Midway i begun) (writeCpsr mask v s) := by
  rw [writeCpsr_eq]
  split
  · exact leaves_fault _
  next valid =>
    split
    · exact leaves_refused _
    next sameT => exact leaves_next (h.upd (Cpu.within_mergedStatus rewrites valid sameT))

/-! The ends: an advance. -/

/-- `r15` moves past the instruction, by a halfword only where it is Thumb code. -/
theorem Midway.advance {width : Word} (step : width = 4 ∨ (width = 2 ∧ (encode i).isThumb = true)) :
    Executed i begun (s.upd fun k => { k with r15 := k.r15 + width }) where
  outside := h.outside.trans (.upd s _)
  cyc := by rw [State.upd_cur]; exact h.core.cyc
  status := by rw [State.upd_cur]; exact h.core.status
  order thumb inv := by
    rw [State.upd_cur]
    exact inv.advance (congrArg (· + width) h.core.r15) (step.imp_right fun two => ⟨two.1, thumb two.2⟩)
      h.core.pipe0 h.core.pipe1 h.core.thumb (h.core.status.valid inv.mode)

theorem executed_advanceArm : Executed i begun (advanceArm s) := h.advance (.inl rfl)

theorem executed_finishArm {f : Cpu → Cpu} (within : s.cur.Within (rewritesStatus i) (f s.cur)) :
    Leaves (Executed i begun) (finishArm f s) := leaves_next (executed_advanceArm (h.upd within))

theorem executed_ifCond {cond : Cond} {k : State → Result} (pass : Leaves (Executed i begun) (k s)) :
    Leaves (Executed i begun) (ifCond cond s k) := by
  rw [ifCond]
  split
  · exact pass
  · exact leaves_next (executed_advanceArm h)

theorem executed_ifNv {k : State → Result} (pass : Leaves (Executed i begun) (k s)) :
    Leaves (Executed i begun) (ifNv s k) := by
  rw [ifNv]
  split
  · exact pass
  · exact leaves_next (executed_advanceArm h)

section
variable (thumb : (encode i).isThumb = true)
include thumb

theorem executed_advanceThumb : Executed i begun (advanceThumb s) := h.advance (.inr ⟨rfl, thumb⟩)

theorem executed_finishThumb {f : Cpu → Cpu} (within : s.cur.Within (rewritesStatus i) (f s.cur)) :
    Leaves (Executed i begun) (finishThumb f s) := leaves_next (executed_advanceThumb (h.upd within) thumb)

end

/-! The ends: a branch. -/

/-- A branch in a status word that the instruction may leave. -/
theorem Midway.branch {f : Cpu → Cpu} (cyc : (f s.cur).cyc = s.cur.cyc)
    (status : StatusStep (rewritesStatus i) s.cur.cpsr (f s.cur).cpsr) (target : Word) :
    Leaves (Executed i begun) (branchTo target (s.upd f)) where
  next t run := by
    have reloaded := (branchTo_reloads target (s.upd f)).next t run
    have psr : t.cur.cpsr = (f s.cur).cpsr := by rw [reloaded.cpsr, State.upd_cur]
    have step := h.core.status.trans status
    refine ⟨(h.outside.trans (.upd s f)).trans reloaded.outside, ?_, psr ▸ step, fun _ inv => reloaded.order ?_⟩
    · rw [reloaded.cyc, State.upd_cur, cyc, h.core.cyc]
    · rw [State.upd_cur]
      exact step.valid inv.mode

theorem executed_branchTo (target : Word) : Leaves (Executed i begun) (branchTo target s) := by
  have same : s.upd id = s := by rw [State.upd, id, State.cur, PerCore.set_get]
  exact same ▸ h.branch (f := id) rfl (.refl ..) target

theorem executed_branchInState (t : Bool) (target : Word) :
    Leaves (Executed i begun) (branchTo target (s.upd fun k => { k with cpsr := setT k.cpsr t })) :=
  h.branch rfl (.setT ..) target

theorem executed_branchExchange (v : Word) : Leaves (Executed i begun) (branchExchange v s) :=
  executed_branchInState h ..

theorem executed_loadPc (v : Word) : Leaves (Executed i begun) (loadPc v s) := by
  rw [loadPc]
  split
  · exact executed_branchInState h ..
  · exact executed_branchTo h _

theorem executed_popPc (v : Word) : Leaves (Executed i begun) (popPc v s) := by
  rw [popPc]
  split
  · exact executed_branchExchange h v
  · exact executed_branchTo h _

/-- The return from an exception restores a status word of a legal mode (41_data_processing.md R213). -/
theorem executed_returnTo (rewrites : rewritesStatus i = true) (target : Word) :
    Leaves (Executed i begun) (returnTo target s) := by
  cases saved : s.cur.spsrAt s.cur.bank with
  | none =>
    rw [returnTo_none target saved]
    exact leaves_refused _
  | some psr =>
    cases valid : validMode (modeOf psr) with
    | false =>
      rw [returnTo_invalid target saved valid]
      exact leaves_fault _
    | true =>
      rw [returnTo_valid saved valid, State.withPsr]
      exact h.branch (f := fun k => { k with cpsr := psr }) rfl (.rewritten rewrites valid) target

/-- Taking an exception (60_exceptions.md R504). -/
theorem executed_enterException {mode : BitVec 5} (valid : validMode mode = true) (offset lr : Word) :
    Leaves (Executed i begun) (enterException mode offset lr s) :=
  h.branch (Cpu.enterMode_cyc ..) (Cpu.enterMode_cpsr mode lr s.cur ▸ .entered valid _) _

theorem executed_raiseSwi : Leaves (Executed i begun) (raiseSwi s) := executed_enterException h (by decide) ..

/-! The shapes of the instructions. -/

theorem executed_dpFinish {S : Bool} {rd : Reg} (a : AluResult)
    (rewrites : S = true → rd = 15 → rewritesStatus i = true) : Leaves (Executed i begun) (dpFinish S rd a s) := by
  rw [dpFinish]
  split
  next pc =>
    split
    next S => exact executed_returnTo h (rewrites S (beq_iff_eq.mp pc)) _
    · exact executed_branchTo h _
  · exact executed_finishArm h (Cpu.within_writeResult ..)

theorem executed_dpCompare (rd : Reg) (a : AluResult) : Leaves (Executed i begun) (dpCompare rd a s) :=
  leaves_refuseIf (executed_finishArm h (Cpu.within_setFlags a))

theorem executed_writePsr {R : Bool} (mask : BitVec 4) (v : Word) (rewrites : R = false → rewritesStatus i = true) :
    Leaves (Executed i begun) (writePsr R mask v s) := by
  cases R with
  | true => exact leaves_next (executed_advanceArm (midway_writeSpsr h mask v))
  | false =>
    exact (midway_writeCpsr h mask v (rewrites rfl)).chain fun _ h => leaves_next (executed_advanceArm h)

theorem executed_longMultiply (signed accumulate : Bool) (cond : Cond) (S : Bool) (hi lo rs rm : Reg) :
    Leaves (Executed i begun) (longMultiply signed accumulate cond S hi lo rs rm s) :=
  executed_ifCond h <| leaves_refuseIf <| leaves_refuseIf <| executed_finishArm h (Cpu.within_writeLong ..)

theorem executed_saturating (op : Word → Word → Saturated) (cond : Cond) (rn rd rm : Reg) :
    Leaves (Executed i begun) (saturating op cond rn rd rm s) :=
  executed_ifCond h <| leaves_onArm9 <| leaves_refuseIf <| executed_finishArm h (Cpu.within_writeSaturated ..)

theorem executed_loadTo (kind : LoadKind) (ad : Address) (rn rd : Reg) :
    Leaves (Executed i begun) (loadTo kind.op ad rn rd s) := by
  refine (midway_load h kind _).chain fun v s h => ?_
  have back := midway_writeBack h ad rn
  dsimp only
  split
  · exact executed_loadPc back v
  · exact executed_finishArm back (Cpu.within_setReg ..)

theorem executed_storeFrom (w : Width) (ad : Address) (rn rd : Reg) :
    Leaves (Executed i begun) (storeFrom w ad rn rd s) :=
  (midway_memWrite h _ _ _).chain fun _ h => leaves_next (executed_advanceArm (midway_writeBack h ad rn))

theorem executed_loadDouble (rn rd : Reg) (ad : Address) : Leaves (Executed i begun) (loadDouble rn rd ad s) :=
  (midway_load h .literal _).chain fun _ _ h =>
    (midway_load (midway_writeBack (midway_setReg h rd) ad rn) .literal _).chain fun _ _ h =>
      executed_finishArm h (Cpu.within_setReg ..)

theorem executed_storeDouble (rn rd : Reg) (ad : Address) : Leaves (Executed i begun) (storeDouble rn rd ad s) :=
  (midway_memWrite h _ _ _).chain fun _ h => (midway_memWrite h _ _ _).chain fun _ h =>
    leaves_next (executed_advanceArm (midway_writeBack h ad rn))

theorem executed_swapOp (kind : LoadKind) (w : Width) (cond : Cond) (rn rd rm : Reg) :
    Leaves (Executed i begun) (swapOp kind.op w cond rn rd rm s) :=
  executed_ifCond h <| leaves_refuseIf <| (midway_load h kind _).chain fun _ _ h =>
    (midway_memWrite h _ _ _).chain fun _ h => executed_finishArm h (Cpu.within_setReg ..)

end

/-! Block transfers, by induction on the list. -/

section
variable {i : Instr} {begun : State}

theorem midway_loadRegs (user : Bool) (l : List Reg) (addr : Word) (pc : Option Word) {s : State}
    (h : Midway i begun s) : LeavesVal (Midway i begun) (loadRegs user l addr pc s) := by
  induction l generalizing addr pc s with
  | nil => exact leavesVal_next h
  | cons r l ih =>
    refine (midway_load h .literal addr).mapVal fun v s h => ?_
    split
    · exact ih _ _ h
    · refine ih _ _ (h.upd ?_)
      split <;> exact Cpu.within_setRegAt ..

/-- A word comes out for `r15` only where the list has it. -/
theorem loadRegs_pc_mem {user : Bool} {l : List Reg} {addr v : Word} {pc : Option Word} {s t : State}
    (run : loadRegs user l addr pc s = .next (some v, t)) : pc = some v ∨ 15 ∈ l := by
  induction l generalizing addr pc s with
  | nil =>
    cases run
    exact .inl rfl
  | cons r l ih =>
    obtain ⟨_, _, -, run⟩ := mapVal_eq_next run
    split at run
    next isPc => exact .inr (beq_iff_eq.mp isPc ▸ List.mem_cons_self)
    · exact (ih run).imp_right (List.mem_cons_of_mem _)

theorem midway_storeWords (l : List Word) (addr : Word) {s : State} (h : Midway i begun s) :
    Leaves (Midway i begun) (storeWords l addr s) := by
  induction l generalizing addr s with
  | nil => exact leaves_next h
  | cons v l ih => exact (midway_memWrite h _ _ _).chain fun _ h => ih _ h

variable {s : State} (h : Midway i begun s)
include h

theorem executed_blockAdvance (b : Block) (width : b.thumb = true → (encode i).isThumb = true) :
    Executed i begun (b.advance s) := by
  rw [b.advance_eq]
  refine h.advance ?_
  cases thumb : b.thumb with
  | false => exact .inl rfl
  | true => exact .inr ⟨rfl, width thumb⟩

theorem executed_landPc (b : Block) (rewrites : b.S = true → rewritesStatus i = true) (v : Word) :
    Leaves (Executed i begun) (b.landPc v s) := by
  rw [Block.landPc]
  split
  · exact executed_popPc h v
  split
  next S => exact executed_returnTo h (rewrites S) v
  · exact executed_loadPc h v

theorem midway_blockBase (writes : Bool) (rn : Reg) (v : Word) :
    Midway i begun (if writes then s.upd fun k => k.setReg rn v else s) := by
  split
  · exact midway_setReg h rn
  · exact h

/-- A block load; only a list with `r15` returns from an exception (45_block_transfer.md R347). -/
theorem executed_blockLoad (b : Block) (width : b.thumb = true → (encode i).isThumb = true)
    (rewrites : b.S = true → 15 ∈ blockRegs b.list → rewritesStatus i = true) :
    Leaves (Executed i begun) (b.load s) where
  next t run := by
    obtain ⟨loaded, u, regs, run⟩ := bindVal_eq_next run
    have based := midway_blockBase ((midway_loadRegs _ _ _ _ h).next _ _ regs) (b.W && ldmWrites u.current b.list b.rn)
      b.rn (b.address s.cur).final
    cases loaded with
    | some v =>
      have pc : 15 ∈ blockRegs b.list := (loadRegs_pc_mem regs).resolve_left nofun
      exact (executed_landPc based b (fun S => rewrites S pc) v).next t run
    | none => exact (leaves_next (executed_blockAdvance based b width)).next t run

theorem executed_blockStore (b : Block) (width : b.thumb = true → (encode i).isThumb = true) :
    Leaves (Executed i begun) (b.store s) :=
  (midway_storeWords _ _ h).chain fun _ h => leaves_next (executed_blockAdvance (midway_blockBase h ..) b width)

end

end Sys2Proof.Machine
end

section
/-! PROOFS. What every instruction does, by family of encodings and over all of them (10_state.md R20, R32, R47,
60_exceptions.md R584). -/
namespace Sys2Proof.Machine

/-! Which instructions rewrite the status word (R32). -/

theorem rewritesStatus_data {i : Instr} {x : DataShape} (shape : dataShape? i = some x) :
    rewritesStatus i = (x.S && x.rd == 15) := by
  unfold rewritesStatus
  split
  case h_4 => rw [shape]
  all_goals cases shape

theorem rewritesStatus_msr {i : Instr} {R : Bool} {mask : BitVec 4} {val : Cpu → Word}
    (shape : msrShape? i = some (R, mask, val)) : rewritesStatus i = !R := by
  cases i
  case msrReg | msrImm => cases shape; rfl
  all_goals cases shape

theorem rewritesStatus_blockLoad {i : Instr} {b : Block} (shape : blockLoad? i = some b) :
    rewritesStatus i = (b.S && b.list.getLsbD 15) := by
  cases i
  case ldm | tPop | tLdmia => cases shape; rfl
  all_goals cases shape

/-! Which instructions are Thumb code. -/

theorem blockLoad_width {i : Instr} {b : Block} (shape : blockLoad? i = some b) (thumb : b.thumb = true) :
    (encode i).isThumb = true := by
  cases i
  case ldm => cases shape; cases thumb
  case tPop | tLdmia => rfl
  all_goals cases shape

theorem blockStore_width {i : Instr} {b : Block} (shape : blockStore? i = some b) (thumb : b.thumb = true) :
    (encode i).isThumb = true := by
  cases i
  case stm => cases shape; cases thumb
  case tPush | tStmia => rfl
  all_goals cases shape

/-- A branch with a link into a state. -/
theorem executed_linkedInState {i : Instr} {begun s : State} (h : Midway i begun s) {link : Cpu → Word} (t : Bool)
    (target : Word) : Leaves (Executed i begun) (branchTo target
      (s.upd fun k => { k.setReg regLr (link k) with cpsr := setT (k.setReg regLr (link k)).cpsr t })) :=
  h.branch (Cpu.setReg_cyc ..) ((Cpu.within_setReg ..).status.trans (.setT ..)) target

/-! The Thumb encodings of one shape. -/

section
variable {i : Instr} {begun s : State} (h : Midway i begun s) (thumb : (encode i).isThumb = true)
include h thumb

theorem executed_thumbCompare (a : Cpu → AluResult) : Leaves (Executed i begun) (thumbCompare a s) :=
  executed_finishThumb h thumb (Cpu.within_setFlags _)

theorem executed_thumbSetReg (r : Reg) (v : Cpu → Word) :
    Leaves (Executed i begun) (finishThumb (fun k => k.setReg r (v k)) s) :=
  executed_finishThumb h thumb (Cpu.within_setReg ..)

theorem executed_thumbHigh (rd : Reg) (v : Word) : Leaves (Executed i begun) (thumbHigh rd v s) := by
  rw [thumbHigh]
  split
  · exact executed_branchTo h _
  · exact executed_thumbSetReg h thumb rd fun _ => v

theorem executed_thumbShape {x : ThumbShape} (shape : thumbShape? i = some x) :
    Leaves (Executed i begun) (exec i s) := by
  rw [exec_thumbShape s shape, ThumbShape.run]
  split
  · exact executed_finishThumb h thumb (Cpu.within_writeResult ..)
  · exact executed_thumbCompare h thumb _

theorem executed_thumbLoad {kind : LoadKind} {addr : Cpu → Word} {rd : LowReg}
    (shape : thumbLoadShape? i = some (kind, addr, rd)) : Leaves (Executed i begun) (exec i s) := by
  rw [exec_thumbLoad s shape]
  exact (midway_load h kind _).chain fun v _ h => executed_thumbSetReg h thumb (low rd) fun _ => v

theorem executed_thumbStore {w : Width} {addr : Cpu → Word} {rd : LowReg}
    (shape : thumbStoreShape? i = some (w, addr, rd)) : Leaves (Executed i begun) (exec i s) := by
  rw [exec_thumbStore s shape]
  exact (midway_memWrite h _ _ _).chain fun _ h => leaves_next (executed_advanceThumb h thumb)

theorem executed_thumbBranch {x : Cond × BitVec 8} (shape : thumbBranch? i = some x) :
    Leaves (Executed i begun) (exec i s) := by
  rw [exec_thumbBranch s shape, thumbBranchIf]
  split
  · exact executed_branchTo h _
  · exact leaves_next (executed_advanceThumb h thumb)

end

/-! The ARM encodings of one shape, where their condition passes. -/

section
variable {i : Instr} {begun s : State} (h : Midway i begun s)
include h

theorem executed_skipped (fail : i.passes s.cur.cpsr = false) : Leaves (Executed i begun) (exec i s) := by
  obtain ⟨cond, isCond, fails⟩ := exists_cond_of_not_passes fail
  rw [exec_skips_of_cond isCond fails]
  exact leaves_next (executed_advanceArm h)

variable (pass : i.passes s.cur.cpsr = true)
include pass

theorem executed_data {x : DataShape} (shape : dataShape? i = some x) : Leaves (Executed i begun) (exec i s) := by
  rw [exec_data shape pass]
  refine leaves_refuseIf (executed_dpFinish h _ fun S pc => ?_)
  rw [rewritesStatus_data shape, S, pc]
  rfl

theorem executed_compare {x : DataShape} (shape : compareShape? i = some x) :
    Leaves (Executed i begun) (exec i s) := by
  rw [exec_compare shape pass]
  exact leaves_refuseIf (executed_dpCompare h ..)

theorem executed_msr {x : Bool × BitVec 4 × (Cpu → Word)} (shape : msrShape? i = some x) :
    Leaves (Executed i begun) (exec i s) := by
  rw [exec_msr shape pass]
  refine executed_writePsr h _ _ fun cpsr => ?_
  rw [rewritesStatus_msr shape, cpsr]
  rfl

theorem executed_load {kind : LoadKind} {x : Transfer} (shape : loadShape? i = some (kind, x)) :
    Leaves (Executed i begun) (exec i s) := by
  rw [exec_load pass shape]
  exact leaves_guarded _ (leaves_refuseIf (executed_loadTo h ..))

theorem executed_store {w : Width} {x : Transfer} (shape : storeShape? i = some (w, x)) :
    Leaves (Executed i begun) (exec i s) := by
  rw [exec_store pass shape]
  exact leaves_guarded _ (executed_storeFrom h ..)

theorem executed_double {load : Bool} {x : Transfer} (shape : doubleShape? i = some (load, x))
    (arm9Code : arm9Only i = true) : Leaves (Executed i begun) (exec i s) := by
  cases core : s.current with
  | arm7 =>
    rw [exec_arm9Only_arm7 arm9Code pass core]
    exact leaves_fault _
  | arm9 =>
    rw [exec_double pass shape core]
    refine leaves_doubleGuard (leaves_guarded _ ?_)
    cases load with
    | true => exact executed_loadDouble h ..
    | false => exact executed_storeDouble h ..

theorem executed_block_load {b : Block} (shape : blockLoad? i = some b) : Leaves (Executed i begun) (exec i s) := by
  rw [exec_blockLoad pass shape]
  by_cases empty : b.list = 0 ∧ b.S = true
  · -- An empty list with the S bit panics on ARM9 and is refused on ARM7 (R343).
    rw [Block.guarded, empty.1, empty.2]
    cases core : s.current with
    | arm9 => rw [emptyGuard_arm9 _ _ core]; exact leaves_fault _
    | arm7 => rw [emptyGuard_arm7 _ _ core]; exact leaves_refused _
  · refine leaves_blockGuarded b _ s (executed_blockLoad h b (blockLoad_width shape) fun S pc => ?_)
    have nonempty : b.list ≠ 0 := fun e => empty ⟨e, S⟩
    rw [blockRegs, if_neg nonempty, mem_listRegs] at pc
    rw [rewritesStatus_blockLoad shape, S, Bool.true_and]
    exact pc

theorem executed_block_store {b : Block} (shape : blockStore? i = some b) : Leaves (Executed i begun) (exec i s) := by
  rw [exec_blockStore pass shape]
  exact leaves_blockGuarded b _ s (executed_blockStore h b (blockStore_width shape))

end

/-- What every instruction does. -/
theorem exec_executed (i : Instr) (s : State) : Leaves (Executed i s) (exec i s) := by
  have h := Midway.refl i s
  cases pass : i.passes s.cur.cpsr with
  | false => exact executed_skipped h pass
  | true =>
    cases i
    -- The encodings of one shape.
    case andShiftImm | eorShiftImm | subShiftImm | rsbShiftImm | addShiftImm | adcShiftImm | sbcShiftImm |
        rscShiftImm | orrShiftImm | movShiftImm | bicShiftImm | mvnShiftImm | andShiftReg | eorShiftReg |
        subShiftReg | rsbShiftReg | addShiftReg | adcShiftReg | sbcShiftReg | rscShiftReg | orrShiftReg |
        movShiftReg | bicShiftReg | mvnShiftReg | andImm | eorImm | subImm | rsbImm | addImm | adcImm | sbcImm |
        rscImm | orrImm | movImm | bicImm | mvnImm => exact executed_data h pass rfl
    case tstShiftImm | teqShiftImm | cmpShiftImm | cmnShiftImm | tstShiftReg | teqShiftReg | cmpShiftReg |
        cmnShiftReg | tstImm | teqImm | cmpImm | cmnImm => exact executed_compare h pass rfl
    case msrReg | msrImm => exact executed_msr h pass rfl
    case ldrImm | ldrReg | ldrbImm | ldrbReg | ldrhReg | ldrhImm | ldrsbReg | ldrsbImm | ldrshReg | ldrshImm =>
      exact executed_load h pass rfl
    case strImm | strReg | strbImm | strbReg | strhReg | strhImm => exact executed_store h pass rfl
    case ldrdReg | ldrdImm | strdReg | strdImm => exact executed_double h pass rfl rfl
    case ldm | tPop | tLdmia => exact executed_block_load h pass rfl
    case stm | tPush | tStmia => exact executed_block_store h pass rfl
    case tLslImm | tLsrImm | tAsrImm | tAddReg | tSubReg | tAddImm3 | tSubImm3 | tMovImm | tCmpImm | tAddImm8 |
        tSubImm8 | tAnd | tEor | tLslReg | tLsrReg | tAsrReg | tAdc | tSbc | tRor | tTst | tNeg | tCmpReg |
        tCmn | tOrr | tBic | tMvn => exact executed_thumbShape h rfl rfl
    case tLdrPc | tLdrReg | tLdrbReg | tLdsb | tLdrhReg | tLdsh | tLdrbImm | tLdrImm | tLdrhImm | tLdrSp =>
      exact executed_thumbLoad h rfl rfl
    case tStrReg | tStrbReg | tStrhReg | tStrbImm | tStrImm | tStrhImm | tStrSp =>
      exact executed_thumbStore h rfl rfl
    case tBeq | tBne | tBcs | tBcc | tBmi | tBpl | tBvs | tBvc | tBhi | tBls | tBge | tBlt | tBgt | tBle =>
      exact executed_thumbBranch h rfl rfl
    all_goals dsimp only [exec]
    -- ARM operations.
    case mrs =>
      exact executed_ifCond h <| leaves_refuseIf <|
        executed_finishArm (midway_psrValue h _) (Cpu.within_setReg ..)
    case nop => exact executed_ifCond h <| executed_finishArm h (.refl ..)
    case wfi => exact executed_ifCond h <| executed_finishArm h { Cpu.Within.refl _ s.cur with }
    case mul | mla =>
      exact executed_ifCond h <| leaves_refuseIf <| executed_finishArm h (Cpu.within_writeProduct ..)
    case umull | umlal | smull | smlal => exact executed_longMultiply h ..
    case smlaXY | smlaWY =>
      exact executed_ifCond h <| leaves_onArm9 <| leaves_refuseIf <|
        executed_finishArm h (Cpu.within_accumulateQ ..)
    case smulWY | smulXY | clz =>
      exact executed_ifCond h <| leaves_onArm9 <| leaves_refuseIf <| executed_finishArm h (Cpu.within_setReg ..)
    case smlalXY =>
      exact executed_ifCond h <| leaves_onArm9 <| leaves_refuseIf <| leaves_refuseIf <|
        executed_finishArm h (Cpu.within_writeLong ..)
    case qadd | qsub | qdadd | qdsub => exact executed_saturating h ..
    case swp => exact executed_swapOp h .word ..
    case swpb => exact executed_swapOp h .byte ..
    case mcr =>
      exact executed_ifCond h <| leaves_onArm9 <| leaves_coprocGuard <|
        leaves_next (executed_advanceArm (midway_cp15Write h ..))
    case mrc =>
      exact executed_ifCond h <| leaves_onArm9 <| leaves_coprocGuard <| leaves_refuseIf <|
        executed_finishArm (midway_cp15Read h ..) (Cpu.within_setReg ..)
    -- ARM branches and exceptions.
    case b => exact executed_ifCond h <| executed_branchTo h _
    case bl => exact executed_ifCond h <| executed_branchTo (midway_setReg h regLr) _
    case bx => exact executed_ifCond h <| executed_branchExchange h _
    case blxReg =>
      exact executed_ifCond h <| leaves_onArm9 <| leaves_refuseIf <|
        executed_branchExchange (midway_setReg h regLr) _
    case blxImm => exact executed_ifNv h <| executed_linkedInState h true _
    case swi => exact executed_ifCond h <| executed_raiseSwi h
    case hintOther | undMultiply | undSwapLoad | undSwapWide | undSwapOdd | undMiscBranch | undMiscClz |
        undMiscTwo | undMiscFourSix | undMiscSeven | undCompareImm | undMedia | undCoprocTransfer |
        undCoprocOp => exact executed_ifCond h <| leaves_fault _
    case undNvLow | undNvCoproc | undNvBlock => exact executed_ifNv h <| leaves_fault _
    -- Thumb operations, branches and exceptions.
    case tMul => exact executed_finishThumb h rfl (Cpu.within_writeProduct ..)
    case tAddHi | tMovHi => exact executed_thumbHigh h rfl ..
    case tCmpHi => exact leaves_refuseIf (executed_thumbCompare h rfl _)
    case tAddPc | tAddSp | tAdjustSp | tBlFirst => exact executed_thumbSetReg h rfl ..
    case tBx => exact executed_branchExchange h _
    case tBlxReg =>
      exact leaves_onArm9 <| leaves_refuseIf <| executed_branchExchange (midway_setReg h regLr) _
    case tSwi => exact executed_raiseSwi h
    case tB => exact executed_branchTo h _
    case tBlSecond => exact executed_branchTo (midway_setReg h regLr) _
    case tBlxSecond => exact leaves_onArm9 (executed_linkedInState h false _)
    case tUndB1 | tUndB2 | tUndB6 | tUndB8 | tUndBE | tUndDE => exact leaves_fault _

/-- Settles O10: none of it is what an instruction does. -/
theorem theOtherCoreIsUntouched : Obligations.TheOtherCoreIsUntouched := by
  unfold Obligations.TheOtherCoreIsUntouched
  intro i s t run
  have executed := (exec_executed i s).next t run
  have outside := executed.outside
  exact ⟨outside.peer, outside.current, outside.phase, outside.rom, outside.inert, outside.calls, outside.now,
    executed.cyc⟩

/-- Settles O11: the status word of an instruction that does not rewrite it takes sticky steps. -/
theorem qIsSticky : Obligations.QIsSticky := by
  unfold Obligations.QIsSticky
  intro i s t run set keeps
  exact ((exec_executed i s).next t run).status.sticky keeps set

end Sys2Proof.Machine
end

section
/-! PROOFS. One step of a core: prefetch, interrupt entry, execution (40_execution_and_shifter.md R170 to R174). -/
namespace Sys2Proof.Machine

/-! Words in ARM state are ARM code (30_encoding.md R120). -/

theorem buildMsrImm_isArm (c : Cond) (f : ArmFields) : (encode (buildMsrImm c f)).isThumb = false := by
  rw [buildMsrImm]
  repeat' split
  all_goals rfl

theorem armRows_build_arm : ∀ r ∈ armRows, ∀ c f, (encode (r.build c f)).isThumb = false := by
  repeat refine List.forall_mem_cons.mpr ⟨fun _ _ => rfl, ?_⟩
  refine List.forall_mem_cons.mpr ⟨buildMsrImm_isArm, ?_⟩
  repeat refine List.forall_mem_cons.mpr ⟨fun _ _ => rfl, ?_⟩
  exact List.forall_mem_nil _

theorem nvRows_build_arm : ∀ r ∈ nvRows, ∀ f, (encode (r.build f)).isThumb = false := by
  repeat refine List.forall_mem_cons.mpr ⟨fun _ => rfl, ?_⟩
  exact List.forall_mem_nil _

theorem decodeArm_isArm {w : Word} {i : Instr} (decoded : decodeArm w = some i) : (encode i).isThumb = false := by
  rw [decodeArm, decodeArmFields] at decoded
  split at decoded
  all_goals obtain ⟨r, found, rfl⟩ := Option.map_eq_some_iff.mp decoded
  · exact armRows_build_arm r (List.mem_of_find?_eq_some found) _ _
  · exact nvRows_build_arm r (List.mem_of_find?_eq_some found) _

/-- Thumb code comes from a Thumb decoder. -/
theorem thumb_of_decodeOpcode {thumb : Bool} {op : Word} {i : Instr} (decoded : decodeOpcode thumb op = some i)
    (code : (encode i).isThumb = true) : thumb = true := by
  cases thumb with
  | true => rfl
  | false => exact absurd ((decodeArm_isArm decoded).symm.trans code) (by decide)

/-! The relation of a step of the core that runs. -/

/-- From `s` to `t` the core that runs stays in order, and outside it is as accesses leave it. -/
structure CoreStep (s t : State) : Prop where
  outside : Outside s t
  order : s.cur.Inv → t.cur.Inv

theorem CoreStep.refl (s : State) : CoreStep s s := ⟨.refl s, id⟩

theorem CoreStep.trans {s t u : State} (h : CoreStep s t) (h' : CoreStep t u) : CoreStep s u :=
  ⟨h.outside.trans h'.outside, fun inv => h'.order (h.order inv)⟩

theorem CoreStep.upd {s : State} {f : Cpu → Cpu} (order : s.cur.Inv → (f s.cur).Inv) : CoreStep s (s.upd f) where
  outside := .upd s f
  order inv := by
    rw [State.upd_cur]
    exact order inv

section
variable {s : State}

theorem Leaves.coreStep {t : State} {r : Result} (first : CoreStep s t) (rest : Leaves (CoreStep t) r) :
    Leaves (CoreStep s) r := ⟨fun u run => first.trans (rest.next u run)⟩

/-- A change of the core and a reload of its pipeline, in a status word of a legal mode. -/
theorem coreStep_reload (f : Cpu → Cpu) (valid : s.cur.Inv → validMode (modeOf (f s.cur).cpsr) = true)
    (target : Word) : Leaves (CoreStep s) (branchTo target (s.upd f)) where
  next t run := by
    have reloaded := (branchTo_reloads target (s.upd f)).next t run
    refine ⟨(Outside.upd s f).trans reloaded.outside, fun inv => reloaded.order ?_⟩
    rw [State.upd_cur]
    exact valid inv

theorem coreStep_raiseIrq : Leaves (CoreStep s) (raiseIrq s) := by
  refine coreStep_reload _ (fun _ => ?_) _
  rw [Cpu.enterMode_cpsr, modeOf_setT, modeOf_setI, modeOf_setMode]
  rfl

/-- Slot 0 takes the opcode of slot 1, and slot 1 the one fetched (R172). -/
theorem coreStep_takeOpcode : LeavesVal (CoreStep s) (takeOpcode s) where
  next op t run := by
    obtain ⟨v, u, fetch, same⟩ := mapVal_eq_next run
    cases same
    have fetched := fetch_fetched fetch
    refine ⟨fetched.outside.trans (.upd u _), fun inv => ?_⟩
    rw [State.upd_cur, fetched.core]
    exact ⟨inv.mode, inv.aligned, fun thumb => ⟨(inv.slots thumb).2, fetched.half (if_pos thumb)⟩⟩

theorem coreStep_dispatchOpcode (op : Word) : Leaves (CoreStep s) (dispatchOpcode op s) := by
  rw [dispatchOpcode]
  split
  next i decoded =>
    refine ⟨fun t run => ?_⟩
    have executed := (exec_executed i s).next t run
    exact ⟨executed.outside, executed.order (thumb_of_decodeOpcode decoded)⟩
  · exact leaves_fault _

theorem coreStep_countCycle : CoreStep s (countCycle s) := .upd fun inv => ⟨inv.mode, inv.aligned, inv.slots⟩

theorem coreStep_executeNext : Leaves (CoreStep s) (executeNext s) := by
  refine Leaves.thenDo (coreStep_takeOpcode.bindVal fun op _ taken => ?_) fun _ run =>
    leaves_next (run.trans coreStep_countCycle)
  exact (coreStep_dispatchOpcode op).coreStep taken

theorem coreStep_cpuStep : Leaves (CoreStep s) (cpuStep s) := by
  refine Leaves.thenDo ?_ fun _ entered => coreStep_executeNext.coreStep entered
  split
  · exact coreStep_raiseIrq
  · exact leaves_next (.refl s)

end

end Sys2Proof.Machine
end

section
/-! PROOFS. Every step of the facade keeps the machine in order, and but for the loading calls the boot ROMs
(10_state.md R46, R47, 60_exceptions.md R564 to R578, 70_reset_and_hazards.md R600 to R605). -/
namespace Sys2Proof.Machine

/-- The machine stays in order, and the boot ROMs read as before. -/
structure Orderly (s t : State) : Prop where
  inv : Inv s → Inv t
  roms : SameBootRoms s t

theorem Orderly.refl (s : State) : Orderly s s := ⟨id, .refl s⟩

theorem Orderly.trans {s t u : State} (h : Orderly s t) (h' : Orderly t u) : Orderly s u :=
  ⟨fun inv => h'.inv (h.inv inv), h.roms.trans h'.roms⟩

/-- What leaves cores and memory alone is orderly where queues and scheduler stay in order. -/
theorem Orderly.of_devices {s t : State} (cpu : t.cpu = s.cpu) (mem : t.mem = s.mem)
    (queue : (∀ c, (s.ipc.get c).q.length ≤ 16) → ∀ c, (t.ipc.get c).q.length ≤ 16)
    (sched : s.sched.Inv → t.sched.Inv) : Orderly s t where
  inv inv := ⟨cpu ▸ inv.cpu, queue inv.queue, sched inv.sched, mem ▸ inv.mem⟩
  roms arr _ off := by rw [mem]

theorem CoreStep.orderly {s t : State} (h : CoreStep s t) : Orderly s t where
  roms := h.outside.roms
  inv inv := by
    refine ⟨fun c => ?_, h.outside.queue inv.queue, h.outside.sched inv.sched, h.outside.mem inv.mem⟩
    by_cases runs : c = s.current
    · have running := h.order (inv.cpu s.current)
      rwa [State.cur, h.outside.current, ← runs] at running
    · have peer : c = s.current.peer := by cases c <;> cases core : s.current <;> simp_all [CoreId.peer]
      rw [peer, h.outside.peer]
      exact inv.cpu _

theorem Outside.orderly {s t : State} (h : Outside s t) (cur : t.cur = s.cur) : Orderly s t :=
  CoreStep.orderly ⟨h, fun inv => cur ▸ inv⟩

section
variable {s : State}

theorem Leaves.orderly {t : State} {r : Result} (first : Orderly s t) (rest : Leaves (Orderly t) r) :
    Leaves (Orderly s) r := ⟨fun u run => first.trans (rest.next u run)⟩

theorem Leaves.orderly_of_coreStep {r : Result} (h : Leaves (CoreStep s) r) : Leaves (Orderly s) r :=
  ⟨fun t run => (h.next t run).orderly⟩

/-! The agents (R577). -/

theorem orderly_agentActs (acts : List AgentAct) : Leaves (Orderly s) (agentActs acts s) where
  next t run := by
    have cpu := cpu_of_withCpus (agentActs_withCpus acts (k := s.cpu) fun _ => rfl) run
    refine ((outside_agentActs acts).next t run).orderly ?_
    rw [State.cur, State.cur, cpu, agentActs_current run]

theorem orderly_agentPoint : Leaves (Orderly s) (agentPoint s) where
  next t run := (outside_agentPoint.next t run).orderly (agentPoint_keeps run).cur

/-! The slices (R170, R575). -/

/-- Where the facade stands is no part of the order. -/
theorem orderly_phase (current : CoreId) (phase : Phase) : Orderly s { s with current, phase } :=
  .of_devices rfl rfl id id

theorem orderly_afterSlice (second : Bool) : Orderly s (afterSlice second s) := .of_devices rfl rfl id id

theorem orderly_sliceStep (second : Bool) : Leaves (Orderly s) (sliceStep second s) := by
  dsimp only [sliceStep]
  split
  · exact leaves_next (orderly_phase ..)
  · exact leaves_next (orderly_afterSlice second)

/-- The wait flag and the counter are no part of a core's order. -/
theorem orderly_counters (waiting : Bool) (cyc : Cycles) :
    Orderly s (s.upd fun k => { k with waiting, cyc }) :=
  CoreStep.orderly (.upd fun inv => ⟨inv.mode, inv.aligned, inv.slots⟩)

theorem orderly_runStep (second : Bool) (budget : Cycles) : Leaves (Orderly s) (runStep second budget s) := by
  rw [runStep]
  split
  · exact leaves_next (orderly_afterSlice second)
  split
  · exact leaves_next ((orderly_counters s.cur.waiting (s.cur.cyc + budget)).trans (orderly_afterSlice second))
  · exact (coreStep_cpuStep.orderly_of_coreStep).orderly
      ((orderly_counters false s.cur.cyc).trans (orderly_phase s.current _))

/-! Firing (R566). -/

theorem laterOf_le {a b c : Cycles} (ha : a ≤ c) (hb : b ≤ c) : laterOf a b ≤ c := by
  rw [laterOf_eq]
  split
  · exact hb
  · exact ha

/-- The head fires: the clock goes to its time, which no other event is before. -/
theorem orderly_fired {e : Event} {rest : List Event} (events : s.sched.events = e :: rest) :
    Orderly s { s with sched := { s.sched with events := rest, now := laterOf s.sched.now e.time } } := by
  refine .of_devices rfl rfl id fun inv => inv.withSome (events ▸ List.sublist_cons_self ..) fun f mem => ?_
  have sorted := inv.sorted
  rw [events, List.pairwise_cons] at sorted
  exact laterOf_le (inv.future f (events ▸ List.mem_cons_of_mem _ mem)) (Event.time_le_of_before (sorted.1 f mem))

/-- The run ends where no event is due. -/
theorem orderly_fireEnd {limit : Cycles} (notDue : s.sched.Inv → ∀ e ∈ s.sched.events, limit ≤ e.time) :
    Orderly s (fireStep.fireEnd limit s) :=
  .of_devices rfl rfl id fun inv =>
    inv.withSome (List.Sublist.refl _) fun e mem => laterOf_le (inv.future e mem) (notDue inv e mem)

theorem orderly_fireStep (limit : Cycles) : Leaves (Orderly s) (fireStep limit s) := by
  rw [fireStep]
  split
  next e rest events =>
    split
    · exact orderly_agentPoint.orderly (orderly_fired events)
    next notDue =>
      refine leaves_next (orderly_fireEnd fun inv => ?_)
      have sorted := inv.sorted
      have first : limit ≤ e.time := BitVec.le_of_lt (BitVec.not_le.mp notDue)
      rw [events, List.pairwise_cons] at sorted
      rw [events, List.forall_mem_cons]
      exact ⟨first, fun f mem => BitVec.le_trans first (Event.time_le_of_before (sorted.1 f mem))⟩
  next events => exact leaves_next (orderly_fireEnd fun _ e mem => by rw [events] at mem; cases mem)

/-! The host's calls (R575 to R578, 70_reset_and_hazards.md R600 to R605). -/

/-- What a core does on behalf of the facade (R600, R604). -/
theorem orderly_onCore (c : CoreId) {op : State → Result} (core : ∀ u, Leaves (CoreStep u) (op u)) :
    Leaves (Orderly s) (onCore c op s) := by
  have turned : Orderly s { s with current := c } := orderly_phase c s.phase
  exact ((core _).orderly_of_coreStep.orderly turned).thenDo fun u run =>
    leaves_next (run.trans (orderly_phase s.current u.phase))

theorem validMode_reset : validMode (modeOf 0x000000D3) = true := by decide

theorem not_psrT_reset : psrT 0x000000D3 = false := by decide

theorem coreStep_enterResetVector (s : State) : Leaves (CoreStep s) (enterResetVector s) :=
  coreStep_reload _ (fun _ => validMode_reset) _

theorem Cpu.bootRegs_cpsr (usr irq svc entry : Word) (k : Cpu) : (k.bootRegs usr irq svc entry).cpsr = 0x0000001F := by
  simp [Cpu.bootRegs]

theorem coreStep_bootCore (entry : Word) (s : State) : Leaves (CoreStep s) (bootCore entry s) := by
  refine coreStep_reload _ (fun _ => ?_) _
  unfold bootRegsOf
  split <;> rw [Cpu.bootRegs_cpsr] <;> rfl

/-- The scheduler after a reset has no events (R561). -/
theorem Sched.inv_atReset (epoch : Nat) : (Sched.atReset epoch).Inv := ⟨.nil, nofun, nofun, nofun⟩

theorem orderly_facadeReset : Leaves (Orderly s) (facadeReset s) := by
  refine Leaves.thenDo ((orderly_onCore .arm9 coreStep_enterResetVector).orderly ?cleared) fun _ first =>
    (orderly_onCore .arm7 coreStep_enterResetVector).orderly first
  case cleared =>
    exact .of_devices rfl rfl (fun _ c => by cases c <;> exact Nat.zero_le _) fun _ => Sched.inv_atReset _

theorem orderly_copyBytes (c : CoreId) (l : List Byte) (addr : Word) :
    Leaves (Orderly s) (copyBytes c l addr s) := by
  induction l generalizing addr s with
  | nil => exact leaves_next (.refl s)
  | cons b l ih =>
    refine Leaves.thenDo ⟨fun t run => ((outside_busWrite ..).next t run).orderly ?_⟩ fun _ first =>
      (ih _).orderly first
    rw [State.cur, State.cur, cpu_of_withCpus (writeAligned_withCpus _ _ _ _ s s.cpu) run, writeAligned_current run]

theorem orderly_directBoot : Leaves (Orderly s) (directBoot s) := by
  dsimp only [directBoot]
  split
  · exact leaves_fault _
  refine (orderly_copyBytes ..).thenDo fun _ first => (orderly_copyBytes ..).orderly first |>.thenDo fun u copied => ?_
  have mapped : Orderly u { u with cp15 := u.cp15.boot, bootromInert := true } := .of_devices rfl rfl id id
  exact ((orderly_onCore .arm9 (coreStep_bootCore _)).orderly (copied.trans mapped)).thenDo fun _ first =>
    (orderly_onCore .arm7 (coreStep_bootCore _)).orderly first

theorem orderly_beginStep (n : Cycles) : Leaves (Orderly s) (beginStep n s) := by
  rw [beginStep]
  split
  · exact leaves_refused _
  · exact leaves_next (.of_devices rfl rfl id fun inv => ⟨inv.sorted, inv.future, inv.numbered, inv.named⟩)

/-- The host loads a boot image (R602). -/
def HostCall.LoadsImage (call : HostCall) : Prop :=
  ∃ image, call = .loadBootRom9 image ∨ call = .loadBootRom7 image

theorem orderly_hostCall {call : HostCall} (notLoad : ¬ call.LoadsImage) : Leaves (Orderly s) (hostCall call s) := by
  cases call with
  | reset => exact orderly_facadeReset
  | loadBootRom9 image => exact absurd ⟨image, .inl rfl⟩ notLoad
  | loadBootRom7 image => exact absurd ⟨image, .inr rfl⟩ notLoad
  | loadRom bytes => exact leaves_next (.of_devices rfl rfl id id)
  | directBoot => exact orderly_directBoot
  | step n => exact orderly_beginStep n
  | agents acts => exact orderly_agentActs acts

theorem orderly_idleStep (notLoad : ∀ call rest, s.hostCalls = call :: rest → ¬ call.LoadsImage) :
    Leaves (Orderly s) (idleStep s) := by
  rw [idleStep]
  split
  · exact orderly_beginStep _
  next call rest calls =>
    have taken : Orderly s { s with hostCalls := rest } := .of_devices rfl rfl id id
    exact (orderly_hostCall (notLoad call rest calls)).orderly taken

/-- Every step but a loading call is orderly. -/
theorem orderly_step (notLoad : s.phase = .idle → ∀ call rest, s.hostCalls = call :: rest → ¬ call.LoadsImage) :
    Leaves (Orderly s) (step s) := by
  cases phase : s.phase with
  | idle => exact step_idle phase ▸ orderly_idleStep (notLoad phase)
  | slice second => exact step_slice phase ▸ orderly_sliceStep second
  | run second budget => exact step_run phase ▸ orderly_runStep second budget
  | fire limit => exact step_fire phase ▸ orderly_fireStep limit

/-! The loading calls (R602). -/

/-- An image of the length of its array is memory in order. -/
theorem Memory.Inv.setImage {m : Memory} (inv : m.Inv) {arr : MemArray} {image : List Byte}
    (inside : ∀ off < image.length, arr.Holds off) : (m.setCells arr (cellsOfBytes 0 image)).Inv := by
  obtain ⟨wf, holds⟩ := m.inv_iff.mp inv
  refine (Memory.inv_iff _).mpr ⟨Memory.wf_setCells arr wf (cellsWfFrom_cellsOfBytes ..), fun brr p mem => ?_⟩
  by_cases same : brr = arr
  · subst same
    rw [Memory.cells_setCells_same] at mem
    have place := mem_cellsOfBytes mem
    exact inside _ (by omega)
  · rw [Memory.cells_setCells_ne m _ same] at mem
    exact holds brr p mem

theorem loadImage_inv (inv : Inv s) {call : HostCall} (load : call.LoadsImage) : Leaves Inv (hostCall call s) where
  next t run := by
    obtain ⟨image, rfl | rfl⟩ := load
    all_goals
      obtain ⟨length, same⟩ := refuseIf_eq_next run
      cases same
      have length := bne_eq_false_iff_eq.mp length
      refine ⟨inv.cpu, inv.queue, inv.sched, ?_⟩
    · exact inv.mem.setImage (arr := .bootRom9) fun _ lt => lt.trans_eq length
    · exact inv.mem.setImage (arr := .bootRom7) fun _ lt => lt.trans_eq length

end

/-- Settles O8: a loading call fills its array; every other step is orderly. -/
theorem everyStepKeepsTheMachineInOrder : Obligations.EveryStepKeepsTheMachineInOrder := by
  unfold Obligations.EveryStepKeepsTheMachineInOrder
  intro s t inv run
  by_cases loading : s.phase = .idle ∧ ∃ call rest, s.hostCalls = call :: rest ∧ call.LoadsImage
  · obtain ⟨phase, call, rest, calls, load⟩ := loading
    have taken : Inv { s with hostCalls := rest } := ⟨inv.cpu, inv.queue, inv.sched, inv.mem⟩
    rw [step_idle phase, idleStep, calls] at run
    exact (loadImage_inv taken load).next t run
  · exact ((orderly_step fun phase call rest calls load =>
      loading ⟨phase, call, rest, calls, load⟩).next t run).inv inv

/-- Settles O12: every step but a loading call is orderly. -/
theorem bootRomsAreReadOnly : Obligations.BootRomsAreReadOnly := by
  unfold Obligations.BootRomsAreReadOnly
  intro s t run notLoad off
  have roms := ((orderly_step fun phase call rest calls load => by
    obtain ⟨image, rfl | rfl⟩ := load
    · exact (notLoad phase image rest).1 calls
    · exact (notLoad phase image rest).2 calls).next t run).roms
  exact ⟨roms .bootRom9 (.inl rfl) off, roms .bootRom7 (.inr rfl) off⟩

/-! The machine after reset (R46). -/

theorem Cpu.inv_atReset {base : Word} (w0 w1 : Word) (aligned : (base + 8).toNat % 4 = 0) :
    (Cpu.atReset base w0 w1).Inv where
  mode := validMode_reset
  aligned := by rw [Cpu.stride, Cpu.thumb, Cpu.atReset, not_psrT_reset]; exact aligned
  slots thumb := Bool.noConfusion (not_psrT_reset.symm.trans thumb)

theorem Memory.inv_fresh : Memory.fresh.Inv :=
  (Memory.inv_iff _).mpr ⟨Memory.wf_fresh, fun arr => by cases arr <;> exact nofun⟩

/-- Settles O7: ARM state at an aligned vector, and nothing queued, scheduled or written. -/
theorem resetIsInOrder : Obligations.ResetIsInOrder where
  cpu c := by cases c <;> exact Cpu.inv_atReset _ _ (by decide)
  queue c := by cases c <;> exact Nat.zero_le _
  sched := Sched.inv_atReset 0
  mem := Memory.inv_fresh

end Sys2Proof.Machine
end

section
/-! PROOFS. `Reset()` over plain vectors (60_exceptions.md R507, R561, 70_reset_and_hazards.md R600, R601). -/
namespace Sys2Proof.Machine

/-- Core `c` as `Reset()` leaves it: its registers set, its slots filled at the vector (R175, R507, R600). -/
def resetCore (s : State) (c : CoreId) : Cpu :=
  let base := exceptionBase s c
  let p0 := peekFrom (s.cpu.get c).lastFetch s c base .word .fetch
  let p1 := peekFrom p0 s c (base + 4) .word .fetch
  { (s.cpu.get c).reinit with r15 := base + 8, pipe0 := p0, pipe1 := p1, lastFetch := p1 }

/-- The reset vector of each core and the word after it are plain code. -/
def PlainVectors (s : State) : Prop :=
  ∀ c a, a = exceptionBase s c ∨ a = exceptionBase s c + 4 → plainAt s c a .fetch = true

theorem alignTo_exceptionBase (s : State) (c : CoreId) : alignTo .word (exceptionBase s c) = exceptionBase s c := by
  cases c with
  | arm7 => exact (by decide : alignTo .word 0 = 0)
  | arm9 => rw [exceptionBase]; split <;> decide

/-- A reset core depends on the core before, the CP15 port, the boot mapping and memory. -/
theorem resetCore_congr {s t : State} (c : CoreId) (core : t.cpu.get c = s.cpu.get c) (h : t.cp15 = s.cp15)
    (hi : t.bootromInert = s.bootromInert) (hm : t.mem = s.mem) : resetCore t c = resetCore s c := by
  simp only [resetCore, core, exceptionBase, h, peekFrom_congr _ c _ _ _ h hi hm]

theorem PlainVectors.congr {s t : State} (plain : PlainVectors s) (h : t.cp15 = s.cp15)
    (hi : t.bootromInert = s.bootromInert) : PlainVectors t := by
  simpa only [PlainVectors, exceptionBase, h, plainAt_congr _ _ _ h hi] using plain

/-- Entering the reset vector makes the core that runs the reset core and changes nothing else. -/
theorem enterResetVector_plain {s : State} (plain : PlainVectors s) :
    enterResetVector s = .next (s.upd fun _ => resetCore s s.current) := by
  have reinit : PlainVectors (s.upd Cpu.reinit) := plain.congr rfl rfl
  have arm : (s.upd Cpu.reinit).cur.thumb = false := by rw [State.upd_cur]; exact not_psrT_reset
  have width : (s.upd Cpu.reinit).cur.fetchWidth = .word := by rw [Cpu.fetchWidth, arm]; rfl
  have stride : (s.upd Cpu.reinit).cur.stride = 4 := by rw [Cpu.stride, arm]; rfl
  have eight : exceptionBase s s.current + 4 + 4 = exceptionBase s s.current + 8 := BitVec.add_assoc ..
  have code : codeAt (s.upd Cpu.reinit) false (exceptionBase s s.current) = true := by
    simp only [codeAt, Bool.false_eq_true, if_false, alignTo_exceptionBase, Bool.and_eq_true]
    exact ⟨reinit s.current _ (.inl rfl), reinit s.current _ (.inr rfl)⟩
  have same := fun l c a w kind =>
    peekFrom_congr (s := s) (t := s.upd Cpu.reinit) l c a w kind rfl rfl rfl
  rw [enterResetVector, branchTo_plain (arm.symm ▸ code), width, stride, alignTo_exceptionBase, eight]
  simp only [same, State.upd_upd, State.upd_cur, State.upd_current]
  rfl

/-- The same on core `c`, whichever runs. -/
theorem onCore_enterResetVector {s : State} (c : CoreId) (plain : PlainVectors s) :
    onCore c enterResetVector s = .next { s with cpu := s.cpu.set c (resetCore s c) } := by
  have turned : PlainVectors { s with current := c } := plain.congr rfl rfl
  rw [onCore, enterResetVector_plain turned, thenDo_next]
  rfl

/-- What `Reset()` clears before it turns to the cores (R600). -/
def State.cleared (s : State) : State :=
  { s with
    sched := Sched.atReset (s.sched.epoch + 1)
    irq := { arm9 := IrqCtl.atReset, arm7 := IrqCtl.atReset }
    ipc := { arm9 := IpcSide.atReset, arm7 := IpcSide.atReset }
    cp15 := s.cp15.reinit
    bootromInert := false }

/-- `Reset()` over plain vectors clears the machine and makes both cores reset cores. -/
theorem facadeReset_plain {s : State} (plain : PlainVectors s.cleared) :
    facadeReset s =
      .next { s.cleared with cpu := ⟨resetCore s.cleared .arm9, resetCore s.cleared .arm7⟩ } := by
  have second : PlainVectors { s.cleared with cpu := s.cleared.cpu.set .arm9 (resetCore s.cleared .arm9) } :=
    plain.congr rfl rfl
  change thenDo (onCore .arm9 enterResetVector s.cleared) (onCore .arm7 enterResetVector) = _
  rw [onCore_enterResetVector .arm9 plain, thenDo_next, onCore_enterResetVector .arm7 second,
    resetCore_congr .arm7 rfl rfl rfl rfl]
  rfl

theorem Cp15.reinit_tcmsOff (p : Cp15) : p.reinit.dtcmOn = false ∧ p.reinit.itcmOn = false := by
  rw [Cp15.dtcmOn, Cp15.itcmOn, Cp15.reinit]
  simp (disch := omega) only [getLsbD_setBit]
  exact ⟨rfl, rfl⟩

/-- Settles O60: the step is `Reset()`, whose state is written out. -/
theorem resetReinitialisesEverything : Obligations.ResetReinitialisesEverything := by
  unfold Obligations.ResetReinitialisesEverything
  intro s phase calls s1 plain
  obtain ⟨rest, calls⟩ := List.head?_eq_some_iff.mp calls
  have run : step s = facadeReset { s with hostCalls := rest } := by rw [step_idle phase, idleStep, calls]; rfl
  refine ⟨_, run.trans (facadeReset_plain (PlainVectors.congr (s := s1) plain rfl rfl)), ?_⟩
  refine ⟨fun c => ?_, rfl, rfl, rfl, rfl, s.cp15.reinit_tcmsOff.1, s.cp15.reinit_tcmsOff.2, rfl, fun _ _ => rfl, rfl⟩
  cases c <;> exact ⟨rfl, rfl, rfl, rfl, rfl, rfl, rfl, rfl, rfl⟩

end Sys2Proof.Machine
end

section
/-! PROOFS. Transfers of one register at any address (20_memory.md R76 to R91, 44_single_transfer.md R302, R304). -/
namespace Sys2Proof.Machine

/-! A data access leaves the core that runs alone, so its slots are those from before. -/

theorem State.slotOf_congr {s t : State} (same : t.cur = s.cur) (r : Reg) : t.slotOf r = s.slotOf r := by
  rw [State.slotOf, State.slotOf, same]

theorem Address.slots_congr {s t : State} (ad : Address) (rn : Reg) (same : t.cur = s.cur) :
    ad.slots rn t = ad.slots rn s := by
  rw [Address.slots, Address.slots, State.slotOf_congr same]

section
variable {op : Word → State → ValueResult Word} {ad : Address} {rn rd : Reg} {s s1 : State} {v : Word}

/-- What a load does with the word `v` it read (R302). -/
theorem loadTo_next (hd : rd ≠ 15) (hn : ad.writeback = true → rn ≠ 15)
    (read : op ad.addr s = .next (v, s1)) (same : s1.cur = s.cur) :
    ∃ t, loadTo op ad rn rd s = .next t ∧ t.cur.reg rd = v ∧
      (ad.writeback = true → rn ≠ rd → t.cur.reg rn = ad.moved) ∧
      RegisterFrame (s.slotOf rd :: ad.slots rn s) 0 4 s1 t := by
  refine ⟨s1.upd fun k => { (k.wroteBack ad rn).setReg rd v with r15 := k.r15 + 4 }, ?run, ?value,
    fun writes ne => ?base, ?frame⟩
  case run =>
    simp only [loadTo, read, bindVal_next, isPc_eq_false hd, Bool.false_eq_true, if_false, finishArm, advanceArm,
      writeBack_eq, State.upd_upd, Cpu.setReg_r15, Cpu.wroteBack_r15]
  case value =>
    rw [State.upd_cur]
    exact (Cpu.reg_withPc _ _ hd).trans (Cpu.reg_setReg_same _ _ _ hd)
  case base =>
    have rn_ne := hn writes
    rw [State.upd_cur]
    exact (Cpu.reg_withPc _ _ rn_ne).trans
      ((Cpu.reg_setReg_ne _ _ ne).trans (Cpu.wroteBack_base _ writes rn_ne))
  case frame =>
    rw [← State.slotOf_congr same, ← ad.slots_congr rn same]
    apply finish_frame
    case regs =>
      intro j kept
      rw [List.mem_cons, not_or] at kept
      obtain ⟨value, base⟩ := kept
      exact (Cpu.setReg_other _ _ _ _ (by simpa [State.slotOf] using value)).trans (Cpu.wroteBack_other base)
    all_goals simp

/-- A branch after the writeback, in the state that `psr` names. -/
theorem branchTo_wroteBack {psr target : Word} (hn : ad.writeback = true → rn ≠ 15)
    (mode : modeOf psr = modeOf s.cur.cpsr) (code : codeAt s (psrT psr) target = true) :
    ∃ t, branchTo target ((s.upd (Cpu.wroteBack ad rn)).withPsr psr) = .next t ∧
      (ad.writeback = true → t.cur.reg rn = ad.moved) ∧ BranchFrame (ad.slots rn s) psr target s t := by
  obtain ⟨t, run, regs, status, frame⟩ := branchTo_frame (s := s)
    (f := fun k => { k.wroteBack ad rn with cpsr := psr }) (ws := ad.slots rn s)
    (fun j => Cpu.wroteBack_other) (by simp) (by simp) (by simp) (by simp) code
  refine ⟨t, by rw [State.withPsr, State.upd_upd, run], fun writes => ?_, frame⟩
  have bank : modeOf t.cur.cpsr = modeOf (s.cur.wroteBack ad rn).cpsr := by rw [status, Cpu.wroteBack_cpsr, ← mode]
  calc t.cur.reg rn = (s.cur.wroteBack ad rn).reg rn := Cpu.reg_congr (hn writes) regs bank
    _ = ad.moved := Cpu.wroteBack_base _ writes (hn writes)

/-- What LDR does with the word it read for `r15` (R304). -/
theorem loadTo_pc_next (hn : ad.writeback = true → rn ≠ 15) (read : op ad.addr s = .next (v, s1))
    (same : s1.cur = s.cur) (core : s1.current = s.current) :
    (s.current = .arm9 → v.getLsbD 0 = true → codeAt s1 true (v &&& ~~~1#32) = true →
      ∃ t, loadTo op ad rn 15 s = .next t ∧ (ad.writeback = true → t.cur.reg rn = ad.moved) ∧
        BranchFrame (ad.slots rn s) (withT s.cur.cpsr true) (v &&& ~~~1#32) s1 t) ∧
    (s.current = .arm7 ∨ v.getLsbD 0 = false → codeAt s1 s.cur.thumb (v &&& ~~~3#32) = true →
      ∃ t, loadTo op ad rn 15 s = .next t ∧ (ad.writeback = true → t.cur.reg rn = ad.moved) ∧
        BranchFrame (ad.slots rn s) s.cur.cpsr (v &&& ~~~3#32) s1 t) := by
  have run : loadTo op ad rn 15 s = loadPc v (s1.upd (Cpu.wroteBack ad rn)) := by
    rw [loadTo, read, bindVal_next, writeBack_eq, isPc_15]
    rfl
  have cpsr : (s1.upd (Cpu.wroteBack ad rn)).cur.cpsr = s1.cur.cpsr := by simp
  rw [run, ← ad.slots_congr rn same, ← same, ← core]
  refine ⟨fun arm9 bit code => ?toThumb, fun stays code => ?sameState⟩
  case toThumb =>
    rw [loadPc_thumb (s := s1.upd _) arm9 bit, cpsr]
    exact branchTo_wroteBack hn (modeOf_withT ..) (by rwa [psrT_withT])
  case sameState =>
    have stays : ¬ (s1.current = .arm9 ∧ v.getLsbD 0 = true) := by
      rintro ⟨arm9, bit⟩
      rcases stays with arm7 | clear
      · exact absurd (arm9.symm.trans arm7) (by decide)
      · exact absurd (bit.symm.trans clear) (by decide)
    rw [loadPc_same (s := s1.upd _) stays, ← (s1.upd (Cpu.wroteBack ad rn)).withPsr_self, cpsr]
    exact branchTo_wroteBack hn rfl code

/-- How a store ends once its accesses left `s1`: the writeback and the advance. -/
theorem wroteBack_advanced (width : Word) (hn : ad.writeback = true → rn ≠ 15) (same : s1.cur = s.cur) :
    let t := s1.upd fun k => { k.wroteBack ad rn with r15 := k.r15 + width }
    (ad.writeback = true → t.cur.reg rn = ad.moved) ∧ RegisterFrame (ad.slots rn s) 0 width s1 t := by
  refine ⟨fun writes => ?base, ?frame⟩
  case base =>
    rw [State.upd_cur]
    exact (Cpu.reg_withPc _ _ (hn writes)).trans (Cpu.wroteBack_base _ writes (hn writes))
  case frame =>
    rw [← ad.slots_congr rn same]
    apply finish_frame
    case regs => exact fun j => Cpu.wroteBack_other
    all_goals simp

theorem advanceArm_writeBack (ad : Address) (rn : Reg) (s : State) :
    advanceArm (writeBack ad rn s) = s.upd fun k => { k.wroteBack ad rn with r15 := k.r15 + 4 } := by
  rw [advanceArm, writeBack_eq, State.upd_upd]
  simp only [Cpu.wroteBack_r15]

end

/-- Settles O53: the access is that of `ReadsAs` or `WritesAs`, and the rest that of the shared operation. -/
theorem deviceAccessesReachTheirRegister : Obligations.DeviceAccessesReachTheirRegister := by
  unfold Obligations.DeviceAccessesReachTheirRegister
  refine ⟨fun i kind x s s1 v shape pass legal read => ⟨fun notPc => ?load, fun pc word => ?loadPc⟩,
    fun i w x s s1 shape pass legal write => ?store, fun i kind addr rd s s1 v shape read => ?thumbLoad,
    fun i w addr rd s s1 shape write => ?thumbStore⟩
  case load =>
    rw [exec_load_legal pass shape legal fun pc => absurd pc notPc]
    exact loadTo_next notPc (Transfer.base_ne_pc legal) (load_of_readsAs kind read) read.cur
  case loadPc =>
    rw [exec_load_legal pass shape legal fun _ => word, pc]
    exact loadTo_pc_next (Transfer.base_ne_pc legal) (load_of_readsAs kind read) read.cur read.current
  case store =>
    refine ⟨_, ?_, wroteBack_advanced (ad := x.address s.cur) 4 (Transfer.base_ne_pc legal) write.cur⟩
    rw [← advanceArm_writeBack, exec_store pass shape, x.guarded_legal _ legal, storeFrom]
    exact congrArg (thenDo · _) (memWrite_of_writesAs write)
  case thumbLoad =>
    rw [exec_thumbLoad s shape, thumbLoad, load_of_readsAs kind read, bindVal_next,
      ← State.slotOf_congr read.cur (low rd)]
    exact finishThumb_setReg_spec (fun _ => _) (low_ne_pc rd)
  case thumbStore =>
    refine ⟨advanceThumb s1, ?_, ?_⟩
    · rw [exec_thumbStore s shape, thumbStore, memWrite_of_writesAs write, thenDo_next]
    · apply finish_frame <;> simp

end Sys2Proof.Machine
end

section
/-! PROOFS. Doubles and swaps at any addresses (20_memory.md R79 to R91, 44_single_transfer.md R320, R321, R329 to
R331). -/
namespace Sys2Proof.Machine

section
variable {s s1 s2 : State}

/-- A word read at any address, as the loads of words make it. -/
theorem loadAligned_of_readsAs {addr v : Word} (read : ReadsAs s addr .word v s1) :
    loadAligned addr s = .next (v, s1) := memRead_of_readsAs read

/-- The same after an update of the core that runs that keeps its latch. -/
theorem loadAligned_upd {addr v : Word} (read : ReadsAs s addr .word v s1) {f : Cpu → Cpu}
    (latch : (f s.cur).lastFetch = s.cur.lastFetch) : loadAligned addr (s.upd f) = .next (v, s1.upd f) :=
  memRead_upd read latch

end

/-! LDRD (R320). -/

/-- The two words of LDRD, the writeback between them. -/
def Cpu.loadedPair (ad : Address) (rn rd : Reg) (v0 v1 : Word) (k : Cpu) : Cpu :=
  ((k.setReg rd v0).wroteBack ad rn).setReg (rd + 1) v1

section
variable {ad : Address} {rn rd : Reg} {v0 v1 : Word} (k : Cpu)

theorem Cpu.loadedPair_first (hd : rd ≠ 15) :
    (k.loadedPair ad rn rd v0 v1).reg rd = if ad.writeback = true ∧ rn = rd then ad.moved else v0 := by
  have next : rd ≠ rd + 1 := by revert rd; decide
  rw [Cpu.loadedPair, Cpu.reg_setReg_ne _ _ next]
  by_cases covered : ad.writeback = true ∧ rn = rd
  · obtain ⟨writes, rfl⟩ := covered
    rw [if_pos ⟨writes, rfl⟩, Cpu.wroteBack_base _ writes hd]
  rw [if_neg covered, Cpu.wroteBack]
  split
  · next writes => rw [Cpu.reg_setReg_ne _ _ fun e => covered ⟨writes, e.symm⟩, Cpu.reg_setReg_same _ _ _ hd]
  · exact Cpu.reg_setReg_same _ _ _ hd

theorem Cpu.loadedPair_second (hd : rd + 1 ≠ 15) : (k.loadedPair ad rn rd v0 v1).reg (rd + 1) = v1 :=
  Cpu.reg_setReg_same _ _ _ hd

theorem Cpu.loadedPair_base (writes : ad.writeback = true) (hn : rn ≠ 15) (ne : rn ≠ rd + 1) :
    (k.loadedPair ad rn rd v0 v1).reg rn = ad.moved := by
  rw [Cpu.loadedPair, Cpu.reg_setReg_ne _ _ ne, Cpu.wroteBack_base _ writes hn]

theorem Cpu.loadedPair_other {s : State} {j : Fin 30}
    (kept : j ∉ [s.slotOf rd, s.slotOf (rd + 1)] ++ ad.slots rn s) :
    (s.cur.loadedPair ad rn rd v0 v1).regs[j] = s.cur.regs[j] := by
  simp only [List.cons_append, List.nil_append, List.mem_cons, not_or] at kept
  obtain ⟨first, second, base⟩ := kept
  have back : ad.writeback = true → j ≠ s.slotOf rn := fun writes => by simpa [Address.slots, writes] using base
  calc (s.cur.loadedPair ad rn rd v0 v1).regs[j]
      = ((s.cur.setReg rd v0).wroteBack ad rn).regs[j] :=
        Cpu.setReg_other _ _ _ _ (by simpa [State.slotOf] using second)
    _ = (s.cur.setReg rd v0).regs[j] := Cpu.regs_wroteBack_other (Cpu.setReg_bank ..) back
    _ = s.cur.regs[j] := Cpu.setReg_other _ _ _ _ first

end

section
variable {ad : Address} {rn rd : Reg} {s s1 s2 : State}

/-- LDRD with its two reads. -/
theorem loadDouble_reads {v0 v1 : Word} (hd : rd ≠ 15) (hd1 : rd + 1 ≠ 15) (hn : ad.writeback = true → rn ≠ 15)
    (first : ReadsAs s ad.addr .word v0 s1) (second : ReadsAs s1 (alignTo .word ad.addr + 4) .word v1 s2) :
    ∃ t, loadDouble rn rd ad s = .next t ∧
      t.cur.reg rd = (if ad.writeback = true ∧ rn = rd then ad.moved else v0) ∧ t.cur.reg (rd + 1) = v1 ∧
      (ad.writeback = true → rn ≠ rd + 1 → t.cur.reg rn = ad.moved) ∧
      RegisterFrame ([s.slotOf rd, s.slotOf (rd + 1)] ++ ad.slots rn s) 0 4 s2 t := by
  have same : s2.cur = s.cur := second.cur.trans first.cur
  refine ⟨s2.upd fun k => { k.loadedPair ad rn rd v0 v1 with r15 := k.r15 + 4 }, ?run, ?first, ?second,
    fun writes ne => ?base, ?frame⟩
  case run =>
    rw [loadDouble, loadAligned_of_readsAs first, bindVal_next, writeBack_eq, State.upd_upd,
      loadAligned_upd second (by simp), bindVal_next, finishArm, advanceArm, State.upd_upd, State.upd_upd]
    simp [Cpu.loadedPair]
  case first =>
    rw [State.upd_cur]
    exact (Cpu.reg_withPc _ _ hd).trans (Cpu.loadedPair_first _ hd)
  case second =>
    rw [State.upd_cur]
    exact (Cpu.reg_withPc _ _ hd1).trans (Cpu.loadedPair_second _ hd1)
  case base =>
    rw [State.upd_cur]
    exact (Cpu.reg_withPc _ _ (hn writes)).trans (Cpu.loadedPair_base _ writes (hn writes) ne)
  case frame =>
    rw [← State.slotOf_congr same, ← State.slotOf_congr same, ← ad.slots_congr rn same]
    apply finish_frame
    case regs => exact fun j => Cpu.loadedPair_other
    all_goals simp [Cpu.loadedPair]

/-- STRD with its two writes, both of values from before the writeback (R321). -/
theorem storeDouble_writes (hn : ad.writeback = true → rn ≠ 15)
    (writes : WritesAll s [(ad.addr, s.cur.reg rd), (alignTo .word ad.addr + 4, s.cur.reg (rd + 1))] s1) :
    ∃ t, storeDouble rn rd ad s = .next t ∧ (ad.writeback = true → t.cur.reg rn = ad.moved) ∧
      RegisterFrame (ad.slots rn s) 0 4 s1 t := by
  obtain _ | ⟨first, _ | ⟨second, _ | _⟩⟩ := writes
  refine ⟨_, ?_, wroteBack_advanced 4 hn (second.cur.trans first.cur)⟩
  rw [← advanceArm_writeBack, storeDouble, memWrite_of_writesAs first, thenDo_next, memWrite_of_writesAs second,
    thenDo_next]

/-- The swaps: the read, the write, then the register (R329 to R331). -/
theorem swapOp_accesses {kind : LoadKind} {w : Width} {cond : Cond} {rm : Reg} {v : Word}
    (width : kind.width s.current (s.cur.reg rn) = w) (pass : condPass cond s.cur.cpsr = true)
    (hn : rn ≠ 15) (hd : rd ≠ 15) (hm : rm ≠ 15) (read : ReadsAs s (s.cur.reg rn) w v s1)
    (write : WritesAs s1 (s.cur.reg rn) w (s.cur.reg rm) s2) :
    ∃ t, swapOp kind.op w cond rn rd rm s = .next t ∧
      t.cur.reg rd = kind.value s.current (s.cur.reg rn) v ∧ RegisterFrame [s.slotOf rd] 0 4 s2 t := by
  subst width
  simp only [swapOp, ifCond_pass _ pass, isPc_eq_false hn, isPc_eq_false hd, isPc_eq_false hm, Bool.or_self,
    refuseIf_false, load_of_readsAs kind read, bindVal_next, memWrite_of_writesAs write, thenDo_next]
  rw [← State.slotOf_congr (write.cur.trans read.cur)]
  exact finishArm_setReg_spec _ hd

end

end Sys2Proof.Machine
end

section
/-! PROOFS. Block transfers at any addresses (20_memory.md R79 to R91, 45_block_transfer.md R341 to R351). -/
namespace Sys2Proof.Machine

/-! The words of a transfer, one after the other. -/

/-- The addresses of `n` consecutive words. -/
def wordAddrs : Nat → Word → List Word
  | 0, _ => []
  | n + 1, addr => addr :: wordAddrs n (addr + 4)

theorem wordAddrs_eq (n : Nat) (addr : Word) :
    wordAddrs n addr = (List.range n).map fun j => addr + BitVec.ofNat 32 (4 * j) := by
  induction n generalizing addr with
  | zero => rfl
  | succ n ih =>
    simp only [wordAddrs, ih, word_succ, List.range_succ_eq_map, List.map_cons, List.map_map]
    exact congrArg (· :: _) (BitVec.add_zero addr).symm

theorem ReadsAll.cur {s t : State} {addrs vs : List Word} (reads : ReadsAll s addrs vs t) : t.cur = s.cur := by
  induction reads with
  | done => rfl
  | more read _ ih => exact ih.trans read.cur

theorem ReadsAll.current {s t : State} {addrs vs : List Word} (reads : ReadsAll s addrs vs t) :
    t.current = s.current := by
  induction reads with
  | done => rfl
  | more read _ ih => exact ih.trans read.current

theorem ReadsAll.length {s t : State} {addrs vs : List Word} (reads : ReadsAll s addrs vs t) :
    vs.length = addrs.length := by
  induction reads with
  | done => rfl
  | more _ _ ih => rw [List.length_cons, List.length_cons, ih]

theorem WritesAll.cur {s t : State} {l : List (Word × Word)} (writes : WritesAll s l t) : t.cur = s.cur := by
  induction writes with
  | done => rfl
  | more write _ ih => exact ih.trans write.cur

/-- The loads of a block transfer put the words they read into the core that runs, which is `k` by then. -/
theorem loadRegs_reads (user : Bool) {l : List Reg} {vs : List Word} {addr : Word} {s s1 : State}
    (pc : Option Word) (k : Cpu) (latch : k.lastFetch = s.cur.lastFetch)
    (reads : ReadsAll s (wordAddrs l.length addr) vs s1) :
    loadRegs user l addr pc (s.upd fun _ => k) = .next (pcWord (l.zip vs) pc,
      s1.upd fun _ => k.loadInto (if user then .usr else k.bank) (l.zip vs)) := by
  induction l generalizing addr pc s vs k with
  | nil => cases reads; rfl
  | cons r l ih =>
    obtain _ | ⟨read, reads⟩ := reads
    rw [loadRegs, loadAligned_upd read latch, mapVal_next, List.zip_cons_cons, pcWord, Cpu.loadInto]
    by_cases isR15 : r = 15
    · subst isR15
      rw [isPc_15, if_pos rfl, if_pos rfl, if_pos rfl, ih _ k (latch.trans (by rw [read.cur])) reads]
    · rw [isPc_eq_false isR15, if_neg Bool.false_ne_true, if_neg isR15, if_neg isR15, State.upd_upd]
      rw [ih _ _ (by cases user <;> simp [Cpu.setRegUsr, latch, read.cur]) reads]
      cases user <;> simp [Cpu.setRegUsr, Cpu.setReg]

/-- The stores of a block transfer. -/
theorem storeWords_writes {l : List Word} {addr : Word} {s s1 : State} (writes : WritesAll s (pairsOf l addr) s1) :
    storeWords l addr s = .next s1 := by
  induction l generalizing addr s with
  | nil => cases writes; rfl
  | cons v l ih =>
    obtain _ | ⟨write, writes⟩ := writes
    rw [storeWords, memWrite_of_writesAs write, thenDo_next, ih writes]

/-! The load of a block (R345, R350). -/

/-- What a block load of the words `l` makes of the core that runs, but for a loaded `r15`. -/
def Block.filled (b : Block) (s : State) (l : List (Reg × Word)) (k : Cpu) : Cpu :=
  (k.loadInto (b.bank s.cur) l).wroteBack (b.back (b.loadWrites s.current) s.cur) b.rn

section
variable {b : Block} {s : State} {l : List (Reg × Word)}

theorem Block.filled_base (writes : b.loadWrites s.current = true) (rn_ne : b.rn ≠ 15) :
    (b.filled s l s.cur).regs[s.slotOf b.rn] = (b.address s.cur).final :=
  Cpu.regs_wroteBack_base (Cpu.loadInto_bank ..) writes rn_ne

/-- A slot stays where no register of the list but `r15` has it, nor the base, where it is written. -/
theorem Block.filled_other {j : Fin 30} (list : ∀ p ∈ l, p.1 ≠ 15 → j ≠ slot (b.bank s.cur) p.1)
    (base : b.loadWrites s.current = true → j ≠ s.slotOf b.rn) : (b.filled s l s.cur).regs[j] = s.cur.regs[j] := by
  rw [Block.filled, Cpu.regs_wroteBack_other (Cpu.loadInto_bank ..) base]
  exact Cpu.loadInto_other _ _ _ _ list

theorem Block.filled_list {r : Reg} {v : Word} (legal : b.legal true = true) (nodup : (l.map Prod.fst).Nodup)
    (mem : (r, v) ∈ l) (r_ne : r ≠ 15) (kept : b.loadWrites s.current = true → r ≠ b.rn) :
    (b.filled s l s.cur).regs[b.slotOf true s r] = v := by
  rw [Block.filled, Cpu.regs_wroteBack_other (Cpu.loadInto_bank ..) fun writes =>
    b.slotOf_ne_base legal writes r_ne (kept writes)]
  exact Cpu.loadInto_mem _ _ _ nodup mem r_ne

theorem Block.filled_frame {j : Fin 30} (regs : l.map Prod.fst = b.regs) (kept : j ∉ b.loadSlots s) :
    (b.filled s l s.cur).regs[j] = s.cur.regs[j] := by
  rw [Block.loadSlots, List.mem_append, not_or] at kept
  obtain ⟨list, base⟩ := kept
  refine b.filled_other (fun p mem r_ne e => list ?_) fun writes => ?_
  · have listed : p.1 ∈ b.regs := regs ▸ List.mem_map_of_mem mem
    exact List.mem_map.mpr ⟨p.1, List.mem_filter.mpr ⟨listed, bne_iff_ne.mpr r_ne⟩, e.symm⟩
  · rw [if_pos writes] at base
    exact fun e => base (List.mem_singleton.mpr e)

end

section
variable {b : Block} {s s1 : State} {vs : List Word}

/-- The load of a block that read `vs`: the fill, then the branch of a loaded `r15` or the advance (R350). -/
theorem Block.load_reads
    (reads : ReadsAll s (wordAddrs (blockRegs b.list).length (b.address s.cur).first) vs s1) :
    b.load s = match pcWord ((blockRegs b.list).zip vs) none with
      | some v => b.landPc v (s1.upd (b.filled s ((blockRegs b.list).zip vs)))
      | none => .next (b.advance (s1.upd (b.filled s ((blockRegs b.list).zip vs)))) := by
  have core : s.upd (fun _ => s.cur) = s := congrArg (fun cpu => { s with cpu }) (PerCore.set_get s.cpu s.current)
  have loads := loadRegs_reads (b.user true) none s.cur rfl reads
  rw [core] at loads
  have fill : (s1.upd fun _ => s.cur.loadInto (b.bank s.cur) ((blockRegs b.list).zip vs)).upd
      (Cpu.wroteBack (b.back (b.loadWrites s1.current) s.cur) b.rn) =
      s1.upd (b.filled s ((blockRegs b.list).zip vs)) := by
    rw [State.upd_upd, reads.current]
    exact State.upd_congr (by rw [reads.cur]; rfl)
  rw [← fill, ← writeBack_eq, ← b.ldmWrites_eq]
  change bindVal (loadRegs (b.user true) (blockRegs b.list) (b.address s.cur).first none s) _ = _
  rw [loads, bindVal_next]
  rfl

/-- With `r15` it branches to its landing (R347, R348). -/
theorem Block.load_lands_reads {ws : List (Fin 30)} {v psr target : Word} (arm : b.S = true → b.thumb = false)
    (reads : ReadsAll s (wordAddrs (blockRegs b.list).length (b.address s.cur).first) vs s1)
    (pc : pcWord ((blockRegs b.list).zip vs) none = some v) (landing : b.landing s v = some (psr, target))
    (regs : ∀ j, j ∉ ws → (b.filled s ((blockRegs b.list).zip vs) s.cur).regs[j] = s.cur.regs[j])
    (code : codeAt s1 (psrT psr) target = true) :
    ∃ t, b.load s = .next t ∧ t.cur.regs = (b.filled s ((blockRegs b.list).zip vs) s.cur).regs ∧
      BranchFrame ws psr target s1 t := by
  have same : s1.cur = s.cur := reads.cur
  let fill := b.filled s ((blockRegs b.list).zip vs)
  have filled : b.landing (s1.upd fill) v = some (psr, target) :=
    (b.landing_congr (s := s) (t := s1.upd fill) v reads.current (by simp [fill, Block.filled, same])
      (by simp [fill, Block.filled, same])).trans landing
  obtain ⟨t, run, loaded, -, frame⟩ := branchTo_frame (s := s1) (f := fun k => { fill k with cpsr := psr })
    (same ▸ regs) (by simp [fill, Block.filled]) (by simp [fill, Block.filled]) (by simp [fill, Block.filled])
    (by simp [fill, Block.filled]) code
  refine ⟨t, ?_, same ▸ loaded, frame⟩
  rw [b.load_reads reads, pc]
  exact (b.landPc_eq arm filled).trans (by rw [State.withPsr, State.upd_upd, run])

end

theorem Block.length_reads {b : Block} {s s1 : State} {vs : List Word} (reads : ReadsAll s (b.addrs s) vs s1) :
    vs.length = b.regs.length := by
  rw [reads.length, Block.addrs, List.length_map, List.length_range]

section
variable {b : Block} {s s1 : State} {vs : List Word} (legal : b.legal true = true)
  (reads : ReadsAll s (b.addrs s) vs s1)
include legal reads

/-- The reads at the addresses of the block are those of the loop. -/
theorem Block.reads_regs : ReadsAll s (wordAddrs (blockRegs b.list).length (b.address s.cur).first) vs s1 := by
  obtain ⟨nonempty, -⟩ := Block.legal_iff.mp legal
  rw [wordAddrs_eq, b.blockRegs_eq nonempty]
  have addrs : b.addrs s = (List.range b.regs.length).map fun j =>
      (b.address s.cur).first + BitVec.ofNat 32 (4 * j) :=
    List.map_congr_left fun j _ => b.addr_eq nonempty s.cur j
  exact addrs ▸ reads

theorem Block.map_fst_zip : ((blockRegs b.list).zip vs).map Prod.fst = b.regs := by
  obtain ⟨nonempty, -⟩ := Block.legal_iff.mp legal
  rw [b.blockRegs_eq nonempty, List.map_fst_zip (b.length_reads reads).ge]

theorem Block.zip_nodup : (((blockRegs b.list).zip vs).map Prod.fst).Nodup := by
  rw [b.map_fst_zip legal reads]
  exact listRegs_nodup b.list

omit reads in
/-- The `j`-th word is for the `j`-th register. -/
theorem Block.mem_zip {j : Nat} {r : Reg} {v : Word} (place : b.regs[j]? = some r) (word : vs[j]? = some v) :
    (r, v) ∈ (blockRegs b.list).zip vs := by
  obtain ⟨nonempty, -⟩ := Block.legal_iff.mp legal
  rw [b.blockRegs_eq nonempty]
  exact List.mem_of_getElem? (List.getElem?_zip_eq_some.mpr ⟨place, word⟩)

theorem Block.loadedWith_of_filled {t : State}
    (regs : t.cur.regs = (b.filled s ((blockRegs b.list).zip vs) s.cur).regs) : b.LoadedWith vs s t where
  words j r v place word r_ne kept := by
    rw [regs]
    exact b.filled_list legal (b.zip_nodup legal reads) (b.mem_zip legal place word) r_ne kept
  base writes := by
    obtain ⟨nonempty, rn_ne, -⟩ := Block.legal_iff.mp legal
    rw [regs, b.filled_base writes rn_ne, b.address_final nonempty]

theorem Block.filled_loadSlots (j : Fin 30) (kept : j ∉ b.loadSlots s) :
    (b.filled s ((blockRegs b.list).zip vs) s.cur).regs[j] = s.cur.regs[j] :=
  b.filled_frame (b.map_fst_zip legal reads) kept

theorem Block.pcWord_none (no_pc : b.list.getLsbD 15 = false) : pcWord ((blockRegs b.list).zip vs) none = none := by
  refine pcWord_of_not_mem _ ?_
  rw [b.map_fst_zip legal reads]
  exact mt (mem_listRegs b.list 15).mp (Bool.eq_false_iff.mp no_pc)

/-- `r15` gets the last word. -/
theorem Block.pcWord_last {v : Word} (pc : b.list.getLsbD 15 = true) (last : vs.getLast? = some v) :
    pcWord ((blockRegs b.list).zip vs) none = some v := by
  have place : vs[b.regs.length - 1]? = some v := by
    rw [← b.length_reads reads, ← List.getLast?_eq_getElem?, last]
  exact pcWord_of_mem _ (b.zip_nodup legal reads) (b.mem_zip legal (b.pc_last pc) place)

end

section
variable {i : Instr} {b : Block} {s s1 : State} {vs : List Word} (shape : blockLoad? i = some b)
  (pass : i.passes s.cur.cpsr = true) (legal : b.legal true = true) (reads : ReadsAll s (b.addrs s) vs s1)
include shape pass legal reads

/-- A block load without `r15` fills the list and the base, and advances. -/
theorem exec_blockLoad_reads (no_pc : b.list.getLsbD 15 = false) :
    ∃ t, exec i s = .next t ∧ b.LoadedWith vs s t ∧
      RegisterFrame (b.loadSlots s) 0 (if b.thumb then 2 else 4) s1 t := by
  refine ⟨s1.upd fun k =>
    { b.filled s ((blockRegs b.list).zip vs) k with r15 := k.r15 + if b.thumb then 2 else 4 }, ?run,
    b.loadedWith_of_filled legal reads ?regs, ?frame⟩
  case run =>
    rw [exec_blockLoad pass shape, b.guarded_legal s _ legal, b.load_reads (b.reads_regs legal reads),
      b.pcWord_none legal reads no_pc]
    simp only [b.advance_eq, State.upd_upd]
    simp [Block.filled]
  case regs => rw [State.upd_cur, reads.cur]
  case frame =>
    apply finish_frame
    case regs => exact reads.cur ▸ b.filled_loadSlots legal reads
    all_goals simp [Block.filled]

/-- With `r15` it branches to the landing of the last word, or stops where R347 stops. -/
theorem exec_blockLoad_pc_reads {v : Word} (pc : b.list.getLsbD 15 = true) (last : vs.getLast? = some v) :
    (∀ psr target, b.landing s v = some (psr, target) → codeAt s1 (psrT psr) target = true →
      ∃ t, exec i s = .next t ∧ b.LoadedWith vs s t ∧ BranchFrame (b.loadSlots s) psr target s1 t) ∧
    (b.S = true → s.cur.spsrAt s.cur.bank = none → exec i s = .refused .spsrInUserMode) ∧
    (b.S = true → ∀ psr, s.cur.spsrAt s.cur.bank = some psr → validMode (modeOf psr) = false →
      exec i s = .fault .invalidMode) := by
  have arm : b.S = true → b.thumb = false := blockLoad_thumb_of_S shape
  have word := b.pcWord_last legal reads pc last
  have run : exec i s = b.load s := by rw [exec_blockLoad pass shape, b.guarded_legal s _ legal]
  have returns (S : b.S = true) : exec i s = returnTo v (s1.upd (b.filled s ((blockRegs b.list).zip vs))) := by
    rw [run, b.load_reads (b.reads_regs legal reads), word, ← b.landPc_return (arm S) S]
  have saved : (s1.upd (b.filled s ((blockRegs b.list).zip vs))).cur.spsrAt
      (s1.upd (b.filled s ((blockRegs b.list).zip vs))).cur.bank = s.cur.spsrAt s.cur.bank := by
    simp [Block.filled, Cpu.spsrAt, Cpu.bank, reads.cur]
  refine ⟨fun psr target landing code => ?lands, fun S noSpsr => ?refused, fun S psr spsr invalid => ?panics⟩
  case lands =>
    obtain ⟨t, load, regs, frame⟩ := b.load_lands_reads arm (b.reads_regs legal reads) word landing
      (b.filled_loadSlots legal reads) code
    exact ⟨t, run.trans load, b.loadedWith_of_filled legal reads regs, frame⟩
  case refused => rw [returns S, returnTo_none v (saved.trans noSpsr)]
  case panics => rw [returns S, returnTo_invalid v (saved.trans spsr) invalid]

end

/-! The store of a block (R344, R351). -/

/-- The words are written, then the base. -/
theorem Block.store_writes {b : Block} {s s1 : State} (rn_ne : b.rn ≠ 15)
    (writes : WritesAll s (pairsOf (b.values s) (b.address s.cur).first) s1) :
    ∃ t, b.store s = .next t ∧ (b.W = true → t.cur.reg b.rn = (b.address s.cur).final) ∧
      RegisterFrame (if b.W then [s.slotOf b.rn] else []) 0 (if b.thumb then 2 else 4) s1 t := by
  refine ⟨_, ?_, wroteBack_advanced (ad := b.back b.W s.cur) (if b.thumb then 2 else 4) (fun _ => rn_ne) writes.cur⟩
  have run : b.store s = .next (b.advance (writeBack (b.back b.W s.cur) b.rn s1)) := by
    change thenDo (storeWords (b.values s) (b.address s.cur).first s) _ = _
    rw [storeWords_writes writes]
    rfl
  rw [run, writeBack_eq, b.advance_eq, State.upd_upd]
  simp

/-! The empty list (R343, 48_thumb_b.md R479). -/

section
variable {b : Block} {s : State} (empty : b.list = 0)
include empty

theorem Block.blockRegs_empty : blockRegs b.list = [15] := if_pos empty

/-- On ARM7 the guards let the empty list by (R343). -/
theorem Block.guarded_empty (k : Result) (S : b.S = false) (rn_ne : b.rn ≠ 15) (arm7 : s.current = .arm7) :
    b.guarded false s k = k := by
  rw [b.guarded_current s k rn_ne, empty, emptyGuard_arm7 _ _ arm7, S, refuseIf_false]

/-- The word of `r15` lies where R343 says, and the base moves by 64. -/
theorem Block.address_first_empty : (b.address s.cur).first =
    (if b.U then s.cur.reg b.rn else s.cur.reg b.rn - 64) + (if b.P == b.U then 4 else 0) := by
  rw [Block.address, blockAddr_first, empty]
  rfl

theorem Block.address_final_empty : (b.address s.cur).final =
    if b.U then s.cur.reg b.rn + 64 else s.cur.reg b.rn - 64 := by
  rw [Block.address, blockAddr_final, empty]
  rfl

end

/-- A loaded `r15` stays in its state on ARM7 (R348, 48_thumb_b.md R475). -/
theorem Block.landing_arm7 {b : Block} {s : State} (v : Word) (S : b.S = false) (arm7 : s.current = .arm7) :
    b.landing s v = some (s.cur.cpsr, v &&& if b.thumb then ~~~1#32 else ~~~3#32) := by
  cases thumb : b.thumb with
  | false => exact b.landing_same S thumb (.inl arm7)
  | true => exact b.landing_popOnArm7 S thumb arm7

section
variable {i : Instr} {b : Block} {s s1 : State} (pass : i.passes s.cur.cpsr = true) (empty : b.list = 0)
  (S : b.S = false) (rn_ne : b.rn ≠ 15) (arm7 : s.current = .arm7) (width : s.cur.thumb = b.thumb)
include pass empty S rn_ne arm7 width

/-- A load of the empty list branches to the word of `r15`. -/
theorem exec_blockLoad_empty_reads {v : Word} (shape : blockLoad? i = some b)
    (read : ReadsAs s (b.address s.cur).first .word v s1)
    (code : codeAt s1 b.thumb (v &&& if b.thumb then ~~~1#32 else ~~~3#32) = true) :
    ∃ t, exec i s = .next t ∧ (b.W = true → t.cur.reg b.rn = (b.address s.cur).final) ∧
      BranchFrame (if b.W then [s.slotOf b.rn] else []) s.cur.cpsr (v &&& if b.thumb then ~~~1#32 else ~~~3#32)
        s1 t := by
  have writes : b.loadWrites s.current = b.W := by simp [Block.loadWrites, empty]
  have words : (blockRegs b.list).zip [v] = [(15, v)] := by rw [b.blockRegs_empty empty]; rfl
  have reads : ReadsAll s (wordAddrs (blockRegs b.list).length (b.address s.cur).first) [v] s1 := by
    rw [b.blockRegs_empty empty]
    exact .more read (.done s1)
  obtain ⟨t, run, regs, frame⟩ := b.load_lands_reads (ws := if b.W then [s.slotOf b.rn] else [])
    (blockLoad_thumb_of_S shape) reads (by rw [words]; rfl) (b.landing_arm7 v S arm7)
    (fun j kept => b.filled_other (by simp [words]) fun W => by simpa [← writes, W] using kept)
    (by rwa [show psrT s.cur.cpsr = b.thumb from width])
  refine ⟨t, ?_, fun W => ?_, frame⟩
  · rw [exec_blockLoad pass shape, Block.user, S, Bool.false_and, b.guarded_empty empty _ S rn_ne arm7, run]
  · calc t.cur.reg b.rn = (b.filled s ((blockRegs b.list).zip [v]) s.cur).reg b.rn :=
          Cpu.reg_congr rn_ne regs (by simp [frame.status, Block.filled])
      _ = (b.address s.cur).final := Cpu.wroteBack_base _ (writes.trans W) rn_ne

/-- A store of the empty list stores `r15`. -/
theorem exec_blockStore_empty_writes (shape : blockStore? i = some b)
    (write : WritesAs s (b.address s.cur).first .word (s.cur.r15 + if b.thumb then 2 else 4) s1) :
    ∃ t, exec i s = .next t ∧ (b.W = true → t.cur.reg b.rn = (b.address s.cur).final) ∧
      RegisterFrame (if b.W then [s.slotOf b.rn] else []) 0 (if b.thumb then 2 else 4) s1 t := by
  have values : b.values s = [s.cur.r15 + if b.thumb then 2 else 4] := by
    rw [Block.values, b.blockRegs_empty empty, ← width]
    rfl
  rw [exec_blockStore pass shape, S, b.guarded_empty empty _ S rn_ne arm7]
  refine b.store_writes rn_ne ?_
  rw [values]
  exact .more write (.done s1)

end

/-- Settles O48: doubles, swaps, block loads, block stores and the empty list. -/
theorem multipleAccessesReachTheirDevices : Obligations.MultipleAccessesReachTheirDevices := by
  unfold Obligations.MultipleAccessesReachTheirDevices
  refine ⟨fun i x s load shape pass arm9 even ne legal => ?doubles, ?swaps,
    fun i b s s1 vs shape pass legal reads => ⟨exec_blockLoad_reads shape pass legal reads, fun pc v last =>
      exec_blockLoad_pc_reads shape pass legal reads pc last⟩, ?stores, ?empty⟩
  case doubles =>
    obtain ⟨rd, rd'⟩ := even_pair_ne_pc even ne
    rw [exec_double_legal pass shape arm9 even ne legal]
    refine ⟨fun isLoad s1 s2 v0 v1 first second => ?load, fun isStore s1 writes => ?store⟩
    case load =>
      rw [if_pos isLoad]
      exact loadDouble_reads (ad := x.address s.cur) rd rd' (Transfer.base_ne_pc legal) first second
    case store =>
      rw [isStore, if_neg Bool.false_ne_true]
      exact storeDouble_writes (ad := x.address s.cur) (Transfer.base_ne_pc legal) writes
  case swaps =>
    intro cond rn rd rm s s1 s2 v pass rn_ne rd_ne rm_ne
    exact ⟨swapOp_accesses (kind := .word) rfl pass rn_ne rd_ne rm_ne,
      swapOp_accesses (kind := .byte) rfl pass rn_ne rd_ne rm_ne⟩
  case stores =>
    intro i b s s1 shape pass legal width writes
    obtain ⟨nonempty, rn_ne, -⟩ := Block.legal_iff.mp legal
    have user : b.user false = b.S := Bool.and_true _
    rw [← b.writes_eq nonempty width] at writes
    rw [exec_blockStore pass shape, ← user, b.guarded_legal s _ legal, ← b.address_final nonempty]
    exact b.store_writes rn_ne writes
  case empty =>
    intro i b s s1 pass empty S rn_ne arm7 width moved addr slots
    have first : (b.address s.cur).first = addr := b.address_first_empty empty
    have final : (b.address s.cur).final = moved := b.address_final_empty empty
    rw [← first, ← final]
    exact ⟨fun shape v read => exec_blockLoad_empty_reads pass empty S rn_ne arm7 width shape read,
      exec_blockStore_empty_writes pass empty S rn_ne arm7 width⟩

end Sys2Proof.Machine
end
